-- ==== Sys2Proof/Word.lean ====
section
/-! DEFINITION. The widths of the Z8's words and the plainest reading of their bits. -/

namespace Sys2Proof

/-- One byte of memory. -/
abbrev Byte := BitVec 8
/-- A half-word of configuration (R58). -/
abbrev Half := BitVec 16
/-- One lane of a token (R10), a 32-bit scalar. -/
abbrev Lane := BitVec 32
/-- A 64-bit word: an instruction word (R65), a G register (R90). -/
abbrev Word := BitVec 64
/-- A token's payload: lane i stands in bits [32i+31:32i] (R10). -/
abbrev Lanes := BitVec 512
/-- A timestamp tag (R18). -/
abbrev Tag := BitVec 64

/-- The `w` bits of `x` from bit `lo` upward. -/
abbrev field {n : Nat} (x : BitVec n) (lo w : Nat) : BitVec w := x.extractLsb' lo w

/-- One bit of `x`. -/
abbrev bitAt {n : Nat} (x : BitVec n) (i : Nat) : Bool := x.getLsbD i

/-- Lane `i` of a payload (R10). -/
def laneOf (p : Lanes) (i : Nat) : Lane := p.extractLsb' (32 * i) 32

/-- The payload whose lanes 0 to 15 are given by `f` (R10). -/
def lanesFrom (f : Nat → Lane) : Lanes :=
  (List.range 16).foldl (fun acc i => acc ||| ((f i).setWidth 512 <<< (32 * i))) 0

/-- The 16-bit mask whose bit `i` is `f i`. -/
def maskFrom (f : Nat → Bool) : Half :=
  (List.range 16).foldl (fun acc i => if f i then acc ||| (1#16 <<< i) else acc) 0

end Sys2Proof
end

