-- ==== Sys2Proof/Syntax.lean ====
section
/-! DEFINITION. The syntax of every step of spec/opcode_table.json: operand forms of the three word
layouts (R66 to R72), operands of configuration commands (R58 to R60) and of the machine's and the
host's events, and the one inductive `Instr` with a constructor per row. -/

namespace Sys2Proof

/-- Format tags (R33). -/
inductive Fmt where
  | f32 | b16 | e4 | e5 | i32 | i8 | o4 | dir
deriving DecidableEq, Repr

/-- Rounding modes (R42); code 7 is reserved and has no constructor. -/
inductive Rm where
  | rne | rtz | rup | rdn | rna | rsto | rdyn
deriving DecidableEq, Repr

/-- Sources of a stage word (R67). -/
inductive Src where
  | l (n : Fin 4) | inp (n : Fin 4) | prev | lane | tagLo | tagHi | bscale | zero | imm
  | s (n : Fin 6) | k (n : Fin 8)
deriving DecidableEq, Repr

/-- Destinations of a stage word (R67). -/
inductive Dst where
  | l (n : Fin 4) | out0 | out1 | outB | nowhere | m (n : Fin 4)
deriving DecidableEq, Repr

/-- Lane predicates (R68). -/
inductive Pred where
  | all | mask (n : Fin 4) | valid
deriving DecidableEq, Repr

/-- The operand fields of a stage word (R66). `ft = none` is FT 7, any format. -/
structure SWord where
  ft : Option Fmt
  rm : Rm
  pm : Pred
  a : Src
  b : Src
  c : Src
  d : Dst
  imm : BitVec 20
deriving DecidableEq, Repr

/-- Targets of a block word (R69). -/
inductive Target where
  | a (i : Fin 128) | b (i : Fin 128) | p (i : Fin 128) | w (n : Fin 8) | nowhere
deriving DecidableEq, Repr

/-- Predication of a block word (R69). -/
inductive Pr where
  | always | onTrue | onFalse
deriving DecidableEq, Repr

/-- Width of a B-layout word (R69): 64-bit scalar, 32-bit scalar, 512-bit token. -/
inductive Width where
  | w64 | w32 | tok
deriving DecidableEq, Repr

/-- The operand fields of a B-layout word (R69). -/
structure BWord where
  t0 : Target
  t1 : Target
  pr : Pr
  ft : Option Fmt
  rm : Rm
  w : Width
  imm : BitVec 24
deriving DecidableEq, Repr

/-- ORD of an M-layout word (R71). -/
inductive Ord where
  | plain | acq | rel | ar | so
deriving DecidableEq, Repr

/-- SCOPE of an M-layout word (R71), the widest set of observers an order holds for (R136). -/
inductive Scope where
  | stand | die | pkg | sys
deriving DecidableEq, Repr

/-- The operand fields of an M-layout word (R71). `aop` is the base register in DLD and DST (R266),
`off` holds the path sets of a FENCE (R135). -/
structure MWord where
  t0 : Target
  t1 : Target
  pr : Pr
  ord : Ord
  scope : Scope
  sz : Fin 7
  nc : Bool
  aop : BitVec 4
  off : BitVec 16
deriving DecidableEq, Repr

/-- The operand fields of an E-layout word (R72). -/
structure EWord where
  t0 : Target
  t1 : Target
  pr : Pr
  eng : BitVec 4
  eq : BitVec 8
  pa : BitVec 20
deriving DecidableEq, Repr

/-- FCMP's conditions (R212). -/
inductive FCond where
  | eq | ne | lt | le | gt | ge | un
deriving DecidableEq, Repr

/-- ICMP's conditions (R220). -/
inductive ICond where
  | eq | ne | lt | le | gt | ge | ltu | leu | gtu | geu
deriving DecidableEq, Repr

/-- CVT's conversion pairs (R222). -/
inductive Pair where
  | f32_b16 | f32_e4 | f32_e5 | f32_i32 | f32_i8 | b16_f32 | e4_f32 | e5_f32 | i32_f32 | i8_f32 | i32_i8
deriving DecidableEq, Repr

/-- RED's operations (R231). -/
inductive RedOp where
  | sum | max | min
deriving DecidableEq, Repr

/-- SCAN's operations (R231). -/
inductive ScanOp where
  | sum | max
deriving DecidableEq, Repr

/-- Who a stage or tile is: package stand number, element address (R59), context. -/
structure EKey where
  stand : Nat
  elem : Nat
  ctx : Nat
deriving DecidableEq, Repr

/-- An edge of a launch: partition, launch number, location 0 to 2,047 (R84). -/
structure EdgeKey where
  part : Nat
  launch : Nat
  edge : Nat
deriving DecidableEq, Repr

/-- A launch: partition and launch number (R340). -/
structure LKey where
  part : Nat
  launch : Nat
deriving DecidableEq, Repr

/-- A host port of a partition (R337). -/
structure PortKey where
  part : Nat
  port : Nat
deriving DecidableEq, Repr

/-- A sector of scratch: stand and byte address of its first byte (R111). -/
structure ScratchKey where
  stand : Nat
  addr : Nat
deriving DecidableEq, Repr

/-- What a lease step carries out (R128): a stash fill or a stash write-back (R111), or the renewal of
an L1 copy (R115). -/
inductive LeaseAct where
  | fill (k : ScratchKey)
  | writeBack (k : ScratchKey)
  | renew (stand line : Nat)
deriving DecidableEq, Repr

/-- The item an uncorrected error strikes (R319, R328). -/
inductive ErrSite where
  | l2Sector (sector : Nat)          -- DPA / 64
  | l1Line (stand line : Nat)
  | tlbEntry (stand idx : Nat)
  | scratchRow (k : ScratchKey)
  | token (flight : Nat)
  | buffered (idx : Nat)             -- a token in an edge buffer
  | heldToken (idx : Nat)            -- one held at a full pile
  | owed (idx : Nat)                 -- one an element has still to send
  | endMark (idx : Nat)              -- an END noted at a VPE
  | portToken (port : PortKey) (idx : Nat)
  | runAhead (command : Nat)         -- bytes a streamer has fetched and not sent
  | matchEntry (vpe : EKey) (idx : Nat)
  | tile (island : EKey)
  | lreg (vpe : EKey)
  | frame (thread : Nat)             -- a thread token's frame
  | dreg (tile : EKey)
  | imem (tile : EKey)               -- an instruction word
deriving DecidableEq, Repr

/-- One element or region placed by Trelgen (R24): node number, element. -/
structure Placed where
  node : Nat
  at_ : EKey
deriving DecidableEq, Repr

/-- One region placed by Trelgen: region number, stand, stand scratch address. -/
structure PlacedRegion where
  region : Nat
  stand : Nat
  addr : Nat
deriving DecidableEq, Repr

/-- The combine tree of a spoke reduction (R12): its root router, the router at which each member stand enters, and
each other router with the neighbour it sends to. Router (x, y) of the package (R6) is number 64y + x. -/
structure SpokeTree where
  red : Nat
  root : Nat
  entries : List (Nat × Nat)
  links : List (Nat × Nat)
deriving DecidableEq, Repr

/-- What Trelgen's place and route gives (R24): placements, where each block node's record table
stands, the context number, the global base of each stash region (R111), the computed bounds, the configuration
stream with the combine trees it fixes (R12), where the stream and the summary table stand in partition memory (R186),
each die's slash pile (R147), the engine words that name a stream node (block node, place in its code, stream node: R360), and how many
thread tokens the save-area bound counts for a block node (R333). -/
structure MapResult where
  ctx : Nat
  nodes : List Placed
  regions : List PlacedRegion
  tables : List (Nat × Nat)
  stashBase : List (Nat × Nat)
  dataBase : Nat
  boundKB : Nat
  landingCap : Nat
  stream : List (BitVec 32)
  streamAt : Nat
  sumsAt : Nat
  trees : List SpokeTree
  piles : List (Nat × Nat)
  marks : List (Nat × Nat × Nat)
  threads : List (Nat × Nat)
deriving DecidableEq, Repr

/-- A host write's target among the fields without behaviour of their own (R338, R339). -/
inductive HostReg where
  | root | pdeadline | fdeadline | keyn | keyb | dies | fqrd | fqsize | fqbase
  | hold (port : Nat) | reqepoch (port : Nat) | rd (port : Nat) | slots (port : Nat) | bufbase (port : Nat)
  | peer (idx : Nat) | reqv (port : Nat)
deriving DecidableEq, Repr

/-- An SPDM exchange (R345 to R347): session set-up, measurements, a TDISP message, the link manager's acceptance of a switch, or a new link
key between the two ends of a Syivo port. -/
inductive SpdmReq where
  | openSession | closeSession | measure (index : Nat) | tdisp | acceptSwitch (port : Nat) | linkKey (port : Nat)
deriving DecidableEq, Repr

/-- A flit group as a receiver sees it (R346): send counter, whether its seal and its CRCs hold; up to which counter the other end has accepted
groups, and the group it requests again. -/
structure LinkGroup where
  counter : Nat
  sealOk : Bool
  crcOk : Bool
  acked : Nat
  again : Option Nat
deriving DecidableEq, Repr

/-- Every step of the machine: one constructor per row of spec/opcode_table.json. A stage or block word, and an
event, acts on a subject (a firing, an execution, a node, an element ...) that the schedule names beside it. -/
inductive Instr where
  -- Configuration commands (R58 to R61)
  | configCommand (elem fld : BitVec 8) (value : BitVec 16)
  | sel (ctx : BitVec 2) (stand : BitVec 9)
  | page (p : BitVec 4)
  | flags (hold : BitVec 1)
  | end_ (count : BitVec 16)
  -- Stage operations (S layout)
  | fadd (w : SWord)
  | fsub (w : SWord)
  | fmul (w : SWord)
  | ffma (w : SWord)
  | ffms (w : SWord)
  | fnma (w : SWord)
  | fmin (w : SWord)
  | fmax (w : SWord)
  | fcmp (cond : FCond) (w : SWord)
  | fclass (w : SWord)
  | fabs (w : SWord)
  | fneg (w : SWord)
  | fcpys (w : SWord)
  | mov (w : SWord)
  | selStage (w : SWord)
  | ldi (w : SWord)
  | acc (w : SWord)
  | nop (w : SWord)
  | iadd (w : SWord)
  | isub (w : SWord)
  | imul (w : SWord)
  | imulh (w : SWord)
  | imulhu (w : SWord)
  | imin (w : SWord)
  | imax (w : SWord)
  | umin (w : SWord)
  | umax (w : SWord)
  | icmp (cond : ICond) (w : SWord)
  | and (w : SWord)
  | or (w : SWord)
  | xor (w : SWord)
  | andn (w : SWord)
  | not (w : SWord)
  | shl (w : SWord)
  | shr (w : SWord)
  | sar (w : SWord)
  | rotl (w : SWord)
  | popc (w : SWord)
  | clz (w : SWord)
  | ctz (w : SWord)
  | cvt (pair : Pair) (w : SWord)
  | fdot8 (w : SWord)
  | idot8 (w : SWord)
  | odot4 (w : SWord)
  | qblk (w : SWord)
  | qo4 (w : SWord)
  | rcp (w : SWord)
  | rsq (w : SWord)
  | sqrt (w : SWord)
  | exp2 (w : SWord)
  | log2 (w : SWord)
  | ln (w : SWord)
  | tanh (w : SWord)
  | sigm (w : SWord)
  | erf (w : SWord)
  | dfrom (w : SWord)
  | dto (w : SWord)
  | ddot (w : SWord)
  | dadd (w : SWord)
  | dsub (w : SWord)
  | dneg (w : SWord)
  | dscl (w : SWord)
  | dlerp (w : SWord)
  | dnrm (w : SWord)
  | perm (w : SWord)
  | bcast (w : SWord)
  | lrot (w : SWord)
  | red (op : RedOp) (w : SWord)
  | scan (op : ScanOp) (w : SWord)
  | argmax (w : SWord)
  | filt (w : SWord)
  | cmpk (w : SWord)
  | expnd (w : SWord)
  | packt (w : SWord)
  | tenter (w : SWord)
  | tleave (w : SWord)
  | tstep (w : SWord)
  | tget (w : SWord)
  | notify (w : SWord)
  | eos (w : SWord)
  | sld (w : SWord)
  | sst (w : SWord)
  | ldh (w : SWord)
  | sth (w : SWord)
  | advh (w : SWord)
  | waith (w : SWord)
  | peekh (w : SWord)
  | waitx (w : SWord)
  | samo (w : SWord)
  | gnoiseKey (w : SWord)
  | gnoiseNoise (w : SWord)
  | smaxi (w : SWord)
  | nfastep (w : SWord)
  | nfamsk (w : SWord)
  | exitq (w : SWord)
  -- Block operations (B layout)
  | faddBlock (w : BWord)
  | fsubBlock (w : BWord)
  | fmulBlock (w : BWord)
  | ffmaBlock (w : BWord)
  | ffmsBlock (w : BWord)
  | fnmaBlock (w : BWord)
  | fminBlock (w : BWord)
  | fmaxBlock (w : BWord)
  | fcmpBlock (cond : FCond) (w : BWord)
  | fclassBlock (w : BWord)
  | fabsBlock (w : BWord)
  | fnegBlock (w : BWord)
  | fcpysBlock (w : BWord)
  | movBlock (w : BWord)
  | selBlock (w : BWord)
  | nopBlock (w : BWord)
  | iaddBlock (w : BWord)
  | isubBlock (w : BWord)
  | imulBlock (w : BWord)
  | imulhBlock (w : BWord)
  | imulhuBlock (w : BWord)
  | iminBlock (w : BWord)
  | imaxBlock (w : BWord)
  | uminBlock (w : BWord)
  | umaxBlock (w : BWord)
  | icmpBlock (cond : ICond) (w : BWord)
  | andBlock (w : BWord)
  | orBlock (w : BWord)
  | xorBlock (w : BWord)
  | andnBlock (w : BWord)
  | notBlock (w : BWord)
  | shlBlock (w : BWord)
  | shrBlock (w : BWord)
  | sarBlock (w : BWord)
  | rotlBlock (w : BWord)
  | popcBlock (w : BWord)
  | clzBlock (w : BWord)
  | ctzBlock (w : BWord)
  | cvtBlock (pair : Pair) (w : BWord)
  | dfromBlock (w : BWord)
  | dtoBlock (w : BWord)
  | ddotBlock (w : BWord)
  | daddBlock (w : BWord)
  | dsubBlock (w : BWord)
  | dnegBlock (w : BWord)
  | dsclBlock (w : BWord)
  | dlerpBlock (w : BWord)
  | dnrmBlock (w : BWord)
  | br (w : BWord)
  | bri (w : BWord)
  | lend (imm : Bool) (w : BWord)
  | ret (w : BWord)
  | call (w : BWord)
  | loop (w : BWord)
  | fork (w : BWord)
  | halt (w : BWord)
  | yield (w : BWord)
  | lea (w : BWord)
  | movi (w : BWord)
  | movhi (w : BWord)
  | bfext (w : BWord)
  | bfins (w : BWord)
  | spawnp (w : BWord)
  | resolve (w : BWord)
  | squash (w : BWord)
  | lkrd (w : BWord)
  | barx (w : BWord)
  | send (w : BWord)
  | sendBrk (w : BWord)
  | recv (w : BWord)
  | recvStart (w : BWord)
  | sysr (w : BWord)
  | sysw (w : BWord)
  | trap (w : BWord)
  | ecall (w : BWord)
  | poison (w : BWord)
  | quies (w : BWord)
  | invt (w : BWord)
  -- Block operations (M layout)
  | sldBlock (w : MWord)
  | sstBlock (w : MWord)
  | samoBlock (w : MWord)
  | ld (w : MWord)
  | ldv (w : MWord)
  | st (w : MWord)
  | stv (w : MWord)
  | pref (w : MWord)
  | amo (w : MWord)
  | famo (w : MWord)
  | cas (w : MWord)
  | fence (w : MWord)
  | dld (w : MWord)
  | dst (w : MWord)
  | swset (w : MWord)
  | swwait (w : MWord)
  | xst (w : MWord)
  -- Engine commands (E layout)
  | strmLd (w : EWord)
  | strmSt (w : EWord)
  | strmGth (w : EWord)
  | strmSct (w : EWord)
  | strmWin (w : EWord)
  | strmStop (w : EWord)
  | strmPos (w : EWord)
  | cpy (w : EWord)
  | plane (w : EWord)
  | tilef (w : EWord)
  | tilee (w : EWord)
  | mxrd (w : EWord)
  | mxclr (w : EWord)
  | xrslot (w : EWord)
  | xred (w : EWord)
  | xrwait (w : EWord)
  | rnsum (w : EWord)
  | rnmax (w : EWord)
  | kvst (w : EWord)
  | kvstFin (w : EWord)
  | kvld (w : EWord)
  | kvalloc (w : EWord)
  | kvfree (w : EWord)
  | bfq (w : EWord)
  | bfwait (w : EWord)
  -- Events that carry data (spec/opcode_table.json)
  | ingressDataWrite (port : PortKey) (off size : Nat) (data : Lanes)
  | ingressHeadWrite (port : PortKey) (size : Nat) (data : Lanes)
  | epoch (port : PortKey) (size : Nat) (value : Word)
  | close (port : PortKey) (size : Nat) (value : Word)
  | leaseStep (act : LeaseAct)
  | uncorrectedError (site : ErrSite)
  | dieGrant (dies : BitVec 8)
  | mapping (result : Option MapResult)
  | ecallReply (part : Nat) (tile : EKey) (value : Word)
  | stoptabWrite (port : PortKey) (va : Word)
  | registerWrite (part : Nat) (pf : Bool) (reg : HostReg) (value : Word)
  | spdmRequest (part : Nat) (req : SpdmReq)
  | linkGroupReceive (port : Nat) (group : LinkGroup)
  | bringUp (verified : Bool)
  | hostMemoryAccess (part requester : Nat) (write : Bool) (va size : Nat) (data : Lanes)
  -- Events whose subject alone says what happens: it stands in the schedule (State)
  | slotTableTakesEffect
  | tokenArrival
  | edgeBufferArrival
  | reqArrival
  | pileHeldTokenEntry
  | firingStart
  | firingComplete
  | blockChoice
  | blockOverdue
  | executionStart
  | executionCommit
  | segmentTake
  | brakeArrival
  | backfillPortEnd
  | egressTake
  | egressVector
  | skidderClaim
  | claimDelivery
  | noteDelivery
  | batchFlush
  | hubMergeForward
  | batchApply
  | flagShadowMerge
  | launchEnd
  | issue
  | arrive
  | perform
  | acknowledge
  | fenceComplete
  | swap
  | timestampReset
  | faultResume
  | faultDeadline
  | syncWordRaise
  | engineAccept
  | streamerEmit
  | matrixPass
  | tileDrain
  | matrixEnd
  | xrslotDeadline
  | xrslotFreeTimeout
  | seal
  | faultRecordWrite
  | gate
  | preemptionDeadline
  | drainQuiescent
  | drainDeadline
  | restore
  | launch
  | preempt
  | resume
  | kill
  | loadingDone
  | reqvArm
  | lockInterface
  | startInterface
  | stopInterface
  | ideIntegrityFailure
  | ucieLoss
  | linkDown
  | thermalLimit
  | thermalRecover
  | deviceReset
  | hostInvalidation
deriving DecidableEq, Repr

end Sys2Proof
end

