-- ==== Sys2Proof/WellFormed.lean ====
section
/-! DEFINITION. Which words are legal (R66, R69, R71, R72, R75, R248, R260): the check on one word,
apart from the place it stands in. -/

namespace Sys2Proof

/-- What a stage entry allows: the sources it uses, the IMM20 bits it defines, whether a source may be
the immediate 0x0F, and its destinations (R66, and each entry of chapter 11 and 13). -/
structure SForm where
  a : Bool
  b : Bool
  c : Bool
  mask : BitVec 20 := 0
  immOk : Bool := true
  dst : Dst → Bool := fun _ => true

def Dst.isOut : Dst → Bool
  | .out0 | .out1 | .outB => true
  | _ => false
def Dst.isOutOrNowhere : Dst → Bool
  | .out0 | .out1 | .outB | .nowhere => true
  | _ => false
def Dst.isOneOut : Dst → Bool
  | .out0 | .out1 => true
  | _ => false
def Dst.isNowhere : Dst → Bool
  | .nowhere => true
  | _ => false
/-- L0 or L2, the destinations of ACC and SMAXI (R217, R308). -/
def Dst.isPair : Dst → Bool
  | .l n => n == 0 || n == 2
  | _ => false

/-- CVT: highest position, whether `.sat` is allowed, whether b is used (R222). -/
def Pair.maxPos : Pair → Nat
  | .f32_b16 | .b16_f32 => 1
  | .f32_i32 | .i32_f32 => 0
  | _ => 3
def Pair.satOk : Pair → Bool
  | .f32_b16 | .f32_e4 | .f32_e5 | .i32_i8 => true
  | _ => false
def Pair.usesB : Pair → Bool
  | .f32_b16 | .f32_e4 | .f32_e5 | .f32_i8 | .i32_i8 => true
  | _ => false

/-- The `.sat` bit of IMM20 (R207). -/
def satMask : BitVec 20 := 0x80000#20

/-- The stage operations' forms. -/
def sform : Instr → Option (SForm × SWord)
  | .fadd w | .fsub w | .fmul w => some ({ a := true, b := true, c := false, mask := satMask }, w)
  | .ffma w | .ffms w | .fnma w => some ({ a := true, b := true, c := true, mask := satMask }, w)
  | .fmin w | .fmax w | .fcmp _ w | .fcpys w => some ({ a := true, b := true, c := false }, w)
  | .fclass w | .fabs w | .fneg w | .mov w => some ({ a := true, b := false, c := false }, w)
  | .selStage w => some ({ a := true, b := true, c := true }, w)
  | .ldi w => some ({ a := true, b := false, c := false, mask := 0xFFFFF#20, immOk := false }, w)
  | .acc w => some ({ a := true, b := false, c := false, dst := Dst.isPair }, w)
  | .nop w => some ({ a := false, b := false, c := false, immOk := false, dst := Dst.isNowhere }, w)
  | .iadd w | .isub w | .imul w => some ({ a := true, b := true, c := false, mask := satMask }, w)
  | .imulh w | .imulhu w | .imin w | .imax w | .umin w | .umax w | .icmp _ w | .and w | .or w | .xor w
  | .andn w | .shl w | .shr w | .sar w | .rotl w => some ({ a := true, b := true, c := false }, w)
  | .not w | .popc w | .clz w | .ctz w => some ({ a := true, b := false, c := false }, w)
  | .cvt p w => some ({ a := true, b := p.usesB, c := false, immOk := false,
                        mask := if p.satOk then 0x80003#20 else 0x00003#20 }, w)
  | .fdot8 w | .idot8 w => some ({ a := true, b := true, c := true, mask := satMask }, w)
  | .odot4 w => some ({ a := true, b := true, c := true, mask := 0x80007#20, immOk := false }, w)
  | .qblk w | .qo4 w => some ({ a := true, b := false, c := false, immOk := false, dst := Dst.isOut }, w)
  | .rcp w | .rsq w | .sqrt w | .exp2 w | .log2 w | .ln w | .tanh w | .sigm w | .erf w =>
      some ({ a := true, b := false, c := false }, w)
  | .dfrom w => some ({ a := true, b := false, c := false, immOk := false, dst := Dst.isOutOrNowhere }, w)
  | .dto w => some ({ a := true, b := false, c := false, immOk := false, dst := Dst.isOutOrNowhere }, w)
  | .ddot w => some ({ a := true, b := true, c := false, mask := 1#20, immOk := false }, w)
  | .dadd w | .dsub w => some ({ a := true, b := true, c := false, dst := Dst.isOutOrNowhere }, w)
  | .dneg w | .dnrm w => some ({ a := true, b := false, c := false, dst := Dst.isOutOrNowhere }, w)
  | .dscl w => some ({ a := true, b := true, c := false, dst := Dst.isOutOrNowhere }, w)
  | .dlerp w => some ({ a := true, b := true, c := true, dst := Dst.isOutOrNowhere }, w)
  | .perm w => some ({ a := true, b := true, c := false, mask := 3#20, immOk := false }, w)
  | .bcast w | .lrot w => some ({ a := true, b := false, c := false, mask := 0xF#20, immOk := false }, w)
  | .red _ w | .scan _ w | .argmax w => some ({ a := true, b := false, c := false }, w)
  | .filt w | .expnd w => some ({ a := true, b := true, c := false }, w)
  | .cmpk w => some ({ a := true, b := false, c := false }, w)
  | .packt w => some ({ a := true, b := false, c := false, immOk := false, dst := Dst.isOutOrNowhere }, w)
  | .tenter w | .tleave w | .tstep w => some ({ a := true, b := false, c := false, dst := Dst.isOut }, w)
  | .tget w => some ({ a := false, b := false, c := false, mask := 0xF#20, immOk := false }, w)
  | .notify w => some ({ a := false, b := false, c := false, mask := 0xFFF#20, immOk := false,
                         dst := Dst.isOneOut }, w)
  | .eos w => some ({ a := true, b := false, c := false, dst := Dst.isOut }, w)
  | .sld w => some ({ a := true, b := false, c := false, mask := 0x1FFFF#20, immOk := false }, w)
  | .sst w => some ({ a := true, b := true, c := false, mask := 0x1FFFF#20, immOk := false,
                      dst := Dst.isNowhere }, w)
  | .ldh w => some ({ a := false, b := false, c := false, mask := 0x33FFF#20, immOk := false }, w)
  | .sth w => some ({ a := false, b := true, c := false, mask := 0x33FFF#20, immOk := false,
                      dst := Dst.isNowhere }, w)
  | .advh w | .waith w => some ({ a := false, b := false, c := false, mask := 0x3FFFF#20, immOk := false,
                                  dst := Dst.isNowhere }, w)
  | .peekh w => some ({ a := false, b := false, c := false, mask := 0x3000F#20, immOk := false }, w)
  | .waitx w => some ({ a := true, b := false, c := false }, w)
  | .samo w => some ({ a := true, b := true, c := false, mask := 0xFFFFF#20, immOk := false }, w)
  | .gnoiseKey w => some ({ a := true, b := true, c := false, mask := 1#20, immOk := false }, w)
  | .gnoiseNoise w => some ({ a := true, b := true, c := true, mask := 1#20, immOk := false }, w)
  | .smaxi w => some ({ a := true, b := true, c := false, mask := 3#20, dst := Dst.isPair }, w)
  | .nfastep w => some ({ a := true, b := true, c := true, mask := 1#20 }, w)
  | .nfamsk w => some ({ a := true, b := true, c := true, mask := 0xFFFFF#20, immOk := false }, w)
  | .exitq w => some ({ a := true, b := true, c := true, mask := 0xFFFFF#20, immOk := false,
                        dst := fun d => d == .outB }, w)
  | _ => none

/-- Is some source of the word the immediate? -/
def SWord.hasImm (w : SWord) : Bool := w.a == .imm || w.b == .imm || w.c == .imm

/-- Values of IMM20 an entry makes reserved beyond its mask (R222, R239, R241). -/
def sExtra : Instr → Bool
  | .cvt p w => decide ((field w.imm 0 2).toNat ≤ p.maxPos)
  | .advh w | .waith w => decide ((field w.imm 5 11).toNat ≤ 1024)
  | .samo w => decide ((field w.imm 16 4).toNat ≤ 11)
  | .gnoiseKey w => !bitAt w.imm 0
  | .gnoiseNoise w => bitAt w.imm 0
  | .dadd w | .dsub w => !w.hasImm
  | .dneg w | .dnrm w => !w.hasImm
  | .dscl w => w.a != .imm
  | .dlerp w => w.a != .imm && w.b != .imm
  | _ => true

/-- A stage word obeys R66 and its entry. -/
def wfStage (i : Instr) : Bool :=
  match sform i with
  | none => false
  | some (f, w) =>
    (f.a || w.a == .zero) && (f.b || w.b == .zero) && (f.c || w.c == .zero) &&
    (if w.hasImm then f.immOk else w.imm &&& ~~~f.mask == 0) && f.dst w.d && sExtra i

/-- How a block entry uses an operand slot (R242, R243). -/
inductive Use where
  | no | yes | optional
deriving DecidableEq, Repr

/-- What a B-layout entry allows (R248 to R284). -/
structure BForm where
  widths : List Width
  a : Use := .no
  b : Use := .no
  cInP : Bool := false
  rounds : Bool := false
  mask : BitVec 24 := 0
  immB : Bool := false      -- slot b not named takes IMM24[22:0] (R243)

def satMask24 : BitVec 24 := 0x800000#24
def imm23 : BitVec 24 := 0x7FFFFF#24
def addr13 : BitVec 24 := 0x001FFF#24

def anyW : List Width := [.w64, .w32, .tok]
def fpW : List Width := [.w32, .tok]

/-- The B-layout entries' forms (R249 to R284, R371). -/
def bform : Instr → Option (BForm × BWord)
  | .faddBlock w | .fsubBlock w | .fmulBlock w =>
      some ({ widths := fpW, a := .yes, b := .optional, rounds := true, mask := 0xFFFFFF#24, immB := true }, w)
  | .ffmaBlock w | .ffmsBlock w | .fnmaBlock w =>
      some ({ widths := fpW, a := .yes, b := .yes, cInP := true, rounds := true, mask := satMask24 }, w)
  | .fminBlock w | .fmaxBlock w | .fcmpBlock _ w =>
      some ({ widths := fpW, a := .yes, b := .optional, mask := imm23, immB := true }, w)
  | .fclassBlock w | .fabsBlock w | .fnegBlock w => some ({ widths := fpW, a := .yes }, w)
  | .fcpysBlock w => some ({ widths := fpW, a := .yes, b := .yes }, w)
  | .movBlock w => some ({ widths := anyW, a := .yes }, w)
  | .selBlock w => some ({ widths := anyW, a := .yes, b := .yes, cInP := true }, w)
  | .nopBlock w => some ({ widths := [.w64] }, w)
  | .iaddBlock w | .isubBlock w | .imulBlock w =>
      some ({ widths := anyW, a := .yes, b := .optional, mask := 0xFFFFFF#24, immB := true }, w)
  | .imulhBlock w | .imulhuBlock w | .iminBlock w | .imaxBlock w | .uminBlock w | .umaxBlock w
  | .icmpBlock _ w | .andBlock w | .orBlock w | .xorBlock w | .andnBlock w | .shlBlock w | .shrBlock w
  | .sarBlock w | .rotlBlock w =>
      some ({ widths := anyW, a := .yes, b := .optional, mask := imm23, immB := true }, w)
  | .notBlock w | .popcBlock w | .clzBlock w | .ctzBlock w => some ({ widths := anyW, a := .yes }, w)
  | .cvtBlock p w => some ({ widths := fpW, a := .yes, b := if p.usesB then .yes else .no, rounds := true,
                             mask := if p.satOk then 0x800003#24 else 0x000003#24 }, w)
  | .dfromBlock w => some ({ widths := [.tok], a := .yes, b := .yes, mask := 0xFFFFFF#24 }, w)
  | .dtoBlock w => some ({ widths := [.tok], rounds := true, mask := 0xFFFFFF#24 }, w)
  | .ddotBlock w => some ({ widths := [.w32], rounds := true, mask := 0xFFFFFF#24 }, w)
  | .daddBlock w | .dsubBlock w | .dnegBlock w | .dnrmBlock w =>
      some ({ widths := [.w64], mask := 0xFFFFFF#24 }, w)
  | .dsclBlock w | .dlerpBlock w => some ({ widths := [.w64], b := .yes, mask := 0xFFFFFF#24 }, w)
  | .br w | .ret w => some ({ widths := [.w64], a := .yes }, w)
  | .bri w | .call w | .yield w => some ({ widths := [.w64], mask := addr13 }, w)
  | .lend imm w => some ({ widths := [.w64], a := if imm then .no else .yes,
                           mask := if imm then 0x801FFF#24 else 0x800000#24 }, w)
  | .loop w => some ({ widths := [.w64], a := .yes, mask := addr13 }, w)
  | .fork w => some ({ widths := [.w64], a := .yes, b := .optional, mask := 0x0FFFFF#24 }, w)
  | .halt w => some ({ widths := [.w64] }, w)
  | .lea w => some ({ widths := [.w64], a := .yes, b := .yes, mask := 0xFFFFFF#24 }, w)
  | .movi w => some ({ widths := [.w64, .w32], mask := 0xFFFFFF#24 }, w)
  | .movhi w => some ({ widths := [.w64], a := .yes, mask := 0x03FFFF#24 }, w)
  | .bfext w => some ({ widths := [.w64], a := .yes, mask := 0x001FFF#24 }, w)
  | .bfins w => some ({ widths := [.w64], a := .yes, b := .yes, mask := 0x000FFF#24 }, w)
  | .spawnp w => some ({ widths := [.w64], a := if bitAt w.imm 23 then .yes else .no,
                         b := if field w.imm 21 2 == 2#2 then .yes else .no, mask := 0xFFFFFF#24 }, w)
  | .resolve w => some ({ widths := [.w64], a := .yes, b := .yes }, w)
  | .squash w => some ({ widths := [.w64], a := .yes }, w)
  | .lkrd w | .barx w | .quies w => some ({ widths := [.w64] }, w)
  | .send w => some ({ widths := [.tok], a := .yes, b := .optional, mask := 0x00003F#24 }, w)
  | .sendBrk w => some ({ widths := [.tok], mask := 0x0003CF#24 }, w)
  | .recv w => some ({ widths := [.tok], mask := 0x04000F#24 }, w)
  | .recvStart w => some ({ widths := [.tok], mask := 0x03FFFF#24 }, w)
  | .sysr w => some ({ widths := [.w64], mask := 0x000FFF#24 }, w)
  | .sysw w => some ({ widths := [.w64], a := .yes, mask := 0x000FFF#24 }, w)
  | .trap w | .ecall w => some ({ widths := [.w64], a := .yes, mask := 0x00FFFF#24 }, w)
  | .poison w => some ({ widths := [.w64], mask := 0x0000FF#24 }, w)
  | .invt w => some ({ widths := [.w64], a := .yes, mask := 0x00000F#24 }, w)
  | _ => none

/-- D-register fields of IMM24 (R250). -/
def dGroup (imm : BitVec 24) : Nat := 2 ^ (field imm 10 2).toNat
def dDst (imm : BitVec 24) : Nat := (field imm 20 4).toNat
def dB (imm : BitVec 24) : Nat := (field imm 16 4).toNat
def dA (imm : BitVec 24) : Nat := (field imm 12 4).toNat
def dJ (imm : BitVec 24) : Nat := (field imm 6 4).toNat

/-- The D fields named are aligned and the fields unused are 0 (R250, R75, R99). -/
def dFieldsOk (imm : BitVec 24) (useD useB useA useJ useTrue : Bool) : Bool :=
  let g := dGroup imm
  (if useD then dDst imm % g == 0 else dDst imm == 0) &&
  (if useB then dB imm % g == 0 else dB imm == 0) &&
  (if useA then dA imm % g == 0 else dA imm == 0) &&
  (if useJ then decide (dJ imm < 2 * g) else dJ imm == 0) &&
  field imm 1 5 == 0 && (useTrue || !bitAt imm 0)

/-- Values of IMM24 and FT an entry makes reserved beyond its mask. -/
def bExtra : Instr → Bool
  | .dfromBlock w => dFieldsOk w.imm true false false false false && field w.imm 10 2 == 0
  | .dtoBlock w => dFieldsOk w.imm false false true true false
  | .ddotBlock w => dFieldsOk w.imm false true true false true
  | .daddBlock w | .dsubBlock w | .dlerpBlock w => dFieldsOk w.imm true true true false false
  | .dnegBlock w | .dnrmBlock w | .dsclBlock w => dFieldsOk w.imm true false true false false
  | .cvtBlock p w => decide ((field w.imm 0 2).toNat ≤ p.maxPos)
  | .lend _ w => bitAt w.imm 23
  | .bfext w | .bfins w =>
      let len := (field w.imm 6 6).toNat
      decide ((field w.imm 0 6).toNat + (if len = 0 then 64 else len) ≤ 64)
  | .spawnp w => field w.imm 21 2 != 3#2 && (field w.imm 21 2 != 2#2 || field w.imm 13 8 == 0)
  | .send w => w.ft != none && field w.imm 4 2 != 3#2
  | .sendBrk w => w.ft == some .i32 && bitAt w.imm 6 && field w.imm 7 3 != 0
  | .recvStart w => bitAt w.imm 17
  | .poison w => let c := (field w.imm 0 8).toNat; decide (1 ≤ c ∧ c ≤ 13)
  | .invt w => field w.imm 2 2 != 3#2
  | _ => true

/-- A B-layout word obeys R248 and its entry, as far as one word shows (the rest at block load). -/
def wfB (i : Instr) : Bool :=
  match bform i with
  | none => false
  | some (f, w) =>
    f.widths.contains w.w && (f.rounds || w.rm == .rne) && w.imm &&& ~~~f.mask == 0 &&
    (!f.cInP || w.pr == .always) && bExtra i

/-- What an M-layout entry allows (R260, R264 to R271, R135). -/
structure MForm where
  ords : List Ord
  szs : List Nat
  nc : Bool := false
  aops : List Nat := [0]
  scopes : Bool := true
  a : Use := .yes
  b : Use := .no
  cInP : Bool := false
  posted : Bool := false

/-- The M-layout entries' forms. -/
def mform : Instr → Option (MForm × MWord)
  | .ld w => some ({ ords := [.plain, .acq, .so], szs := [0, 1, 2, 3], nc := true }, w)
  | .ldv w => some ({ ords := [.plain, .acq, .so], szs := [4, 5, 6], nc := true }, w)
  | .st w => some ({ ords := [.plain, .rel, .so], szs := [0, 1, 2, 3], b := .yes, posted := true }, w)
  | .stv w => some ({ ords := [.plain, .rel, .so], szs := [4, 5, 6], b := .yes, posted := true }, w)
  | .pref w => some ({ ords := [.plain], szs := [0], nc := true }, w)
  | .amo w => some ({ ords := [.plain, .acq, .rel, .ar, .so], szs := [2, 3], aops := List.range 9, b := .yes }, w)
  | .famo w => some ({ ords := [.plain, .acq, .rel, .ar, .so], szs := [2], aops := [9, 10, 11], b := .yes }, w)
  | .cas w => some ({ ords := [.plain, .acq, .rel, .ar, .so], szs := [2, 3], b := .yes, cInP := true }, w)
  | .fence w => some ({ ords := [.plain], szs := [0], a := .no }, w)
  | .sldBlock w => some ({ ords := [.plain, .acq, .so], szs := List.range 7, scopes := false }, w)
  | .sstBlock w => some ({ ords := [.plain, .rel, .so], szs := List.range 7, scopes := false, b := .yes,
                           posted := true }, w)
  | .samoBlock w => some ({ ords := [.plain, .acq, .rel, .ar, .so], szs := [2, 3], scopes := false,
                            aops := List.range 12, b := .yes }, w)
  | .dld w => some ({ ords := [.plain, .acq, .so], szs := [0, 1, 2, 3], nc := true, aops := List.range 16 }, w)
  | .dst w => some ({ ords := [.plain, .rel, .so], szs := [0, 1, 2, 3], aops := List.range 16, posted := true }, w)
  | .swset w => some ({ ords := [.plain, .rel, .so], szs := [3], b := .yes, posted := true }, w)
  | .swwait w => some ({ ords := [.plain, .acq], szs := [3], b := .optional }, w)
  | .xst w => some ({ ords := [.plain, .rel, .so], szs := List.range 7, b := .yes, posted := true }, w)
  | _ => none

def mExtra : Instr → Bool
  | .samoBlock w => decide (w.aop.toNat < 9) || w.sz == 2
  | .dld w | .dst w => w.aop.toNat % 2 ^ w.sz.val == 0
  | .fence w => field w.off 8 8 != 0 && field w.off 0 8 != 0
  | _ => true

/-- An M-layout word obeys R71, R245, R260 and its entry. -/
def wfM (i : Instr) : Bool :=
  match mform i with
  | none => false
  | some (f, w) =>
    f.ords.contains w.ord && f.szs.contains w.sz.val && (f.nc || !w.nc) && f.aops.contains w.aop.toNat &&
    (f.scopes || w.scope == .stand) && (!f.cInP || w.pr == .always) &&
    (!f.posted || (w.t0 == .nowhere && w.t1 == .nowhere)) && mExtra i

/-- What an E-layout entry allows: ENG values, EQ values, whether PA must be 0, slots used. -/
structure EForm where
  engs : List Nat
  eqOk : BitVec 8 → Bool := fun q => q == 0
  paZero : Bool := false
  a : Use := .no
  b : Use := .no

def streamerEngs : List Nat := [0, 1, 2, 3]

/-- The E-layout entries' forms (R290 to R317). -/
def eform : Instr → Option (EForm × EWord)
  | .strmLd w | .strmSt w | .strmGth w | .strmSct w | .strmWin w | .cpy w | .plane w =>
      some ({ engs := streamerEngs }, w)
  | .strmStop w | .strmPos w => some ({ engs := streamerEngs, paZero := true }, w)
  | .tilef w | .mxrd w => some ({ engs := [4], eqOk := fun q => decide (q.toNat < 3) }, w)
  | .tilee w | .mxclr w => some ({ engs := [4], eqOk := fun q => decide (q.toNat < 3), paZero := true }, w)
  | .rnsum w | .rnmax w => some ({ engs := [5], eqOk := fun _ => true }, w)
  | .xrslot w => some ({ engs := [6] }, w)
  | .xred w | .xrwait w => some ({ engs := [6], a := .yes }, w)
  | .kvst w => some ({ engs := [8], a := .yes, b := .yes }, w)
  | .kvstFin w => some ({ engs := [8], eqOk := fun q => q == 1, a := .yes, b := .yes }, w)
  | .kvld w => some ({ engs := [8], eqOk := fun q => field q 0 2 != 3#2 && field q 3 5 == 0,
                       a := .yes, b := .yes }, w)
  | .kvalloc w | .kvfree w => some ({ engs := [8], a := .yes }, w)
  | .bfq w | .bfwait w => some ({ engs := [7], a := .yes, b := .yes }, w)
  | _ => none

/-- An E-layout word obeys R72 and its entry. -/
def wfE (i : Instr) : Bool :=
  match eform i with
  | none => false
  | some (f, w) =>
    f.engs.contains w.eng.toNat && f.eqOk w.eq && field w.pa 0 6 == 0 && (!f.paZero || w.pa == 0)

/-- The slots and layout of a block instruction, whatever its layout. -/
def wfBlock (i : Instr) : Bool := wfB i || wfM i || wfE i

/-- A configuration command is well formed when its selection commands stand under their own constructors
(R60): ELEM 0xFF with FIELD 0 to 3 and clear reserved bits is SEL, PAGE, FLAGS or END. -/
def wfConfig : Instr → Bool
  | .configCommand e f v =>
      !(e == 0xFF#8 && ((f == 0 && field v 9 5 == 0) || (f == 1 && field v 4 12 == 0) ||
        (f == 2 && field v 1 15 == 0) || f == 3))
  | .sel .. | .page .. | .flags .. | .end_ .. => true
  | _ => false

/-- A step's syntax is legal: a legal word of its layout, or an event (which has no word). -/
def wfInstr (i : Instr) : Bool :=
  match i with
  | .configCommand .. | .sel .. | .page .. | .flags .. | .end_ .. => wfConfig i
  | _ =>
    if (sform i).isSome then wfStage i
    else if (bform i).isSome then wfB i
    else if (mform i).isSome then wfM i
    else if (eform i).isSome then wfE i
    else true

end Sys2Proof
end

