-- ==== Sys2Proof/Decode.lean ====
section
/-! DEFINITION. Decoding of configuration commands (R58, R60), stage words (R66 to R68, R74) and block
words (R69 to R72, R74), total on any bits, and the encoder written from the same tables. -/

namespace Sys2Proof

/-- Why a word is rejected. R75 gives all of them one fate where they stand. -/
inductive DecodeError where
  | unassignedOpcode      -- no entry of R74 for this OPC and FN in this layout
  | reservedField         -- a reserved code of a source, destination, predicate, target or mode field
  | illegalWord           -- the fields decode and the entry of the instruction makes the word reserved
  | blockHeader           -- 0xF8 where an instruction should stand
  | shortWord             -- fewer bytes than the word has
deriving DecidableEq, Repr

def Fmt.code : Fmt → Nat
  | .f32 => 0 | .b16 => 1 | .e4 => 2 | .e5 => 3 | .i32 => 4 | .i8 => 5 | .o4 => 6 | .dir => 7
/-- The format a token's 3-bit FT names (R33). -/
def Fmt.ofCode : Nat → Fmt
  | 0 => .f32 | 1 => .b16 | 2 => .e4 | 3 => .e5 | 4 => .i32 | 5 => .i8 | 6 => .o4 | _ => .dir
/-- FT of an instruction word: 7 is any format (R66, R69). -/
def ftCode : Option Fmt → Nat
  | none => 7
  | some f => f.code
def ftOfCode (n : Nat) : Option Fmt := if n = 7 then none else some (Fmt.ofCode n)

def Rm.code : Rm → Nat
  | .rne => 0 | .rtz => 1 | .rup => 2 | .rdn => 3 | .rna => 4 | .rsto => 5 | .rdyn => 6
def Rm.ofCode : Nat → Option Rm
  | 0 => some .rne | 1 => some .rtz | 2 => some .rup | 3 => some .rdn | 4 => some .rna | 5 => some .rsto
  | 6 => some .rdyn | _ => none

def Src.code : Src → Nat
  | .l n => n.val | .inp n => 4 + n.val | .prev => 8 | .lane => 0x0A | .tagLo => 0x0B | .tagHi => 0x0C
  | .bscale => 0x0D | .zero => 0x0E | .imm => 0x0F | .s n => 0x10 + n.val | .k n => 0x18 + n.val
def Src.ofCode (c : Nat) : Option Src :=
  if h : c < 4 then some (.l ⟨c, h⟩)
  else if h : c - 4 < 4 then some (.inp ⟨c - 4, h⟩)
  else if c = 8 then some .prev
  else if c = 0x0A then some .lane
  else if c = 0x0B then some .tagLo
  else if c = 0x0C then some .tagHi
  else if c = 0x0D then some .bscale
  else if c = 0x0E then some .zero
  else if c = 0x0F then some .imm
  else if c < 0x10 then none
  else if h : c - 0x10 < 6 then some (.s ⟨c - 0x10, h⟩)
  else if c < 0x18 then none
  else if h : c - 0x18 < 8 then some (.k ⟨c - 0x18, h⟩)
  else none

def Dst.code : Dst → Nat
  | .l n => n.val | .out0 => 4 | .out1 => 5 | .outB => 6 | .nowhere => 7 | .m n => 8 + n.val
def Dst.ofCode (c : Nat) : Option Dst :=
  if h : c < 4 then some (.l ⟨c, h⟩)
  else if c = 4 then some .out0
  else if c = 5 then some .out1
  else if c = 6 then some .outB
  else if c = 7 then some .nowhere
  else if h : c - 8 < 4 then some (.m ⟨c - 8, h⟩)
  else none

def Pred.code : Pred → Nat
  | .all => 0 | .mask n => 1 + n.val | .valid => 5
def Pred.ofCode (c : Nat) : Option Pred :=
  if c = 0 then some .all
  else if h : c - 1 < 4 then some (.mask ⟨c - 1, h⟩)
  else if c = 5 then some .valid
  else none

def Pr.code : Pr → Nat
  | .always => 0 | .onTrue => 1 | .onFalse => 2
def Pr.ofCode : Nat → Option Pr
  | 0 => some .always | 1 => some .onTrue | 2 => some .onFalse | _ => none

def Width.code : Width → Nat
  | .w64 => 0 | .w32 => 1 | .tok => 2
def Width.ofCode : Nat → Option Width
  | 0 => some .w64 | 1 => some .w32 | 2 => some .tok | _ => none

def Ord.code : Ord → Nat
  | .plain => 0 | .acq => 1 | .rel => 2 | .ar => 3 | .so => 4
def Ord.ofCode : Nat → Option Ord
  | 0 => some .plain | 1 => some .acq | 2 => some .rel | 3 => some .ar | 4 => some .so | _ => none

def Scope.code : Scope → Nat
  | .stand => 0 | .die => 1 | .pkg => 2 | .sys => 3
def Scope.ofCode : Nat → Scope
  | 0 => .stand | 1 => .die | 2 => .pkg | _ => .sys

/-- A 9-bit target (R69): index and slot, a write entry under slot 11, 0x1FF for none. -/
def Target.code : Target → Nat
  | .a i => 4 * i.val | .b i => 4 * i.val + 1 | .p i => 4 * i.val + 2 | .w n => 4 * n.val + 3
  | .nowhere => 0x1FF
def Target.ofCode (c : Nat) : Option Target :=
  if c = 0x1FF then some .nowhere
  else
    let i : Fin 128 := ⟨c / 4 % 128, Nat.mod_lt _ (by decide)⟩
    match c % 4 with
    | 0 => some (.a i)
    | 1 => some (.b i)
    | 2 => some (.p i)
    | _ => if h : c / 4 < 8 then some (.w ⟨c / 4, h⟩) else none

def FCond.code : FCond → Nat
  | .eq => 0 | .ne => 1 | .lt => 2 | .le => 3 | .gt => 4 | .ge => 5 | .un => 6
def FCond.ofCode : Nat → Option FCond
  | 0 => some .eq | 1 => some .ne | 2 => some .lt | 3 => some .le | 4 => some .gt | 5 => some .ge | 6 => some .un | _ => none

def ICond.code : ICond → Nat
  | .eq => 0 | .ne => 1 | .lt => 2 | .le => 3 | .gt => 4 | .ge => 5 | .ltu => 6 | .leu => 7 | .gtu => 8 | .geu => 9
def ICond.ofCode : Nat → Option ICond
  | 0 => some .eq | 1 => some .ne | 2 => some .lt | 3 => some .le | 4 => some .gt | 5 => some .ge | 6 => some .ltu | 7 => some .leu | 8 => some .gtu | 9 => some .geu | _ => none

def Pair.code : Pair → Nat
  | .f32_b16 => 0 | .f32_e4 => 1 | .f32_e5 => 2 | .f32_i32 => 3 | .f32_i8 => 4 | .b16_f32 => 5 | .e4_f32 => 6 | .e5_f32 => 7 | .i32_f32 => 8 | .i8_f32 => 9 | .i32_i8 => 10
def Pair.ofCode : Nat → Option Pair
  | 0 => some .f32_b16 | 1 => some .f32_e4 | 2 => some .f32_e5 | 3 => some .f32_i32 | 4 => some .f32_i8 | 5 => some .b16_f32 | 6 => some .e4_f32 | 7 => some .e5_f32 | 8 => some .i32_f32 | 9 => some .i8_f32 | 10 => some .i32_i8 | _ => none

def RedOp.code : RedOp → Nat
  | .sum => 0 | .max => 1 | .min => 2
def RedOp.ofCode : Nat → Option RedOp
  | 0 => some .sum | 1 => some .max | 2 => some .min | _ => none

def ScanOp.code : ScanOp → Nat
  | .sum => 0 | .max => 1
def ScanOp.ofCode : Nat → Option ScanOp
  | 0 => some .sum | 1 => some .max | _ => none

/-- The fields of a stage word below OPC and FN (R66). -/
def SWord.bits (w : SWord) : Word :=
  (BitVec.ofNat 3 (ftCode w.ft)).setWidth 64 <<< 49 ||| (BitVec.ofNat 3 w.rm.code).setWidth 64 <<< 46 |||
  (BitVec.ofNat 3 w.pm.code).setWidth 64 <<< 43 ||| (BitVec.ofNat 6 w.a.code).setWidth 64 <<< 37 |||
  (BitVec.ofNat 6 w.b.code).setWidth 64 <<< 31 ||| (BitVec.ofNat 6 w.c.code).setWidth 64 <<< 25 |||
  (BitVec.ofNat 5 w.d.code).setWidth 64 <<< 20 ||| w.imm.setWidth 64

/-- The operand fields of a stage word, or none where a field holds a reserved code (R66 to R68). -/
def SWord.ofBits (x : Word) : Option SWord := do
  let rm ← Rm.ofCode (field x 46 3).toNat
  let pm ← Pred.ofCode (field x 43 3).toNat
  let a ← Src.ofCode (field x 37 6).toNat
  let b ← Src.ofCode (field x 31 6).toNat
  let c ← Src.ofCode (field x 25 6).toNat
  let d ← Dst.ofCode (field x 20 5).toNat
  pure { ft := ftOfCode (field x 49 3).toNat, rm := rm, pm := pm, a := a, b := b, c := c, d := d,
         imm := field x 0 20 }

/-- T0, T1 and PR stand alike in the three block layouts (R69, R71, R72). -/
def targetBits (t0 t1 : Target) (pr : Pr) : Word :=
  (BitVec.ofNat 9 t0.code).setWidth 64 <<< 43 ||| (BitVec.ofNat 9 t1.code).setWidth 64 <<< 34 |||
  (BitVec.ofNat 2 pr.code).setWidth 64 <<< 32

/-- The fields of a B-layout word below OPC and FN (R69). -/
def BWord.bits (w : BWord) : Word :=
  targetBits w.t0 w.t1 w.pr ||| (BitVec.ofNat 3 (ftCode w.ft)).setWidth 64 <<< 29 |||
  (BitVec.ofNat 3 w.rm.code).setWidth 64 <<< 26 ||| (BitVec.ofNat 2 w.w.code).setWidth 64 <<< 24 |||
  w.imm.setWidth 64

def BWord.ofBits (x : Word) : Option BWord := do
  let t0 ← Target.ofCode (field x 43 9).toNat
  let t1 ← Target.ofCode (field x 34 9).toNat
  let pr ← Pr.ofCode (field x 32 2).toNat
  let rm ← Rm.ofCode (field x 26 3).toNat
  let wd ← Width.ofCode (field x 24 2).toNat
  pure { t0 := t0, t1 := t1, pr := pr, ft := ftOfCode (field x 29 3).toNat, rm := rm, w := wd,
         imm := field x 0 24 }

/-- The fields of an M-layout word below OPC and FN (R71). -/
def MWord.bits (w : MWord) : Word :=
  targetBits w.t0 w.t1 w.pr ||| (BitVec.ofNat 3 w.ord.code).setWidth 64 <<< 29 |||
  (BitVec.ofNat 2 w.scope.code).setWidth 64 <<< 27 ||| (BitVec.ofNat 3 w.sz.val).setWidth 64 <<< 24 |||
  (BitVec.ofBool w.nc).setWidth 64 <<< 23 ||| w.aop.setWidth 64 <<< 19 ||| w.off.setWidth 64

def MWord.ofBits (x : Word) : Option MWord := do
  let t0 ← Target.ofCode (field x 43 9).toNat
  let t1 ← Target.ofCode (field x 34 9).toNat
  let pr ← Pr.ofCode (field x 32 2).toNat
  let ord ← Ord.ofCode (field x 29 3).toNat
  let sz := (field x 24 3).toNat
  if h : sz < 7 then
    if field x 16 3 = 0 then
      pure { t0 := t0, t1 := t1, pr := pr, ord := ord, scope := Scope.ofCode (field x 27 2).toNat,
             sz := ⟨sz, h⟩, nc := bitAt x 23, aop := field x 19 4, off := field x 0 16 }
    else none
  else none

/-- The fields of an E-layout word below OPC and FN (R72). -/
def EWord.bits (w : EWord) : Word :=
  targetBits w.t0 w.t1 w.pr ||| w.eng.setWidth 64 <<< 28 ||| w.eq.setWidth 64 <<< 20 ||| w.pa.setWidth 64

def EWord.ofBits (x : Word) : Option EWord := do
  let t0 ← Target.ofCode (field x 43 9).toNat
  let t1 ← Target.ofCode (field x 34 9).toNat
  let pr ← Pr.ofCode (field x 32 2).toNat
  pure { t0 := t0, t1 := t1, pr := pr, eng := field x 28 4, eq := field x 20 8, pa := field x 0 20 }

/-- OPC and FN in their places (R65). -/
def opBits (opc fn : Nat) : Word :=
  (BitVec.ofNat 8 opc).setWidth 64 <<< 56 ||| (BitVec.ofNat 4 fn).setWidth 64 <<< 52

/-- The 64-bit word of a stage instruction (R66, R74). -/
def encodeStage : Instr → Option Word
  | .fadd w => some (opBits 0x00 0 ||| w.bits)
  | .fsub w => some (opBits 0x00 1 ||| w.bits)
  | .fmul w => some (opBits 0x01 0 ||| w.bits)
  | .ffma w => some (opBits 0x02 0 ||| w.bits)
  | .ffms w => some (opBits 0x02 1 ||| w.bits)
  | .fnma w => some (opBits 0x02 2 ||| w.bits)
  | .fmin w => some (opBits 0x03 0 ||| w.bits)
  | .fmax w => some (opBits 0x03 1 ||| w.bits)
  | .fcmp x w => some (opBits 0x04 x.code ||| w.bits)
  | .fclass w => some (opBits 0x05 0 ||| w.bits)
  | .fabs w => some (opBits 0x06 0 ||| w.bits)
  | .fneg w => some (opBits 0x06 1 ||| w.bits)
  | .fcpys w => some (opBits 0x06 2 ||| w.bits)
  | .mov w => some (opBits 0x18 0 ||| w.bits)
  | .selStage w => some (opBits 0x18 1 ||| w.bits)
  | .ldi w => some (opBits 0x19 0 ||| w.bits)
  | .acc w => some (opBits 0x1A 0 ||| w.bits)
  | .nop w => some (opBits 0x1F 0 ||| w.bits)
  | .iadd w => some (opBits 0x20 0 ||| w.bits)
  | .isub w => some (opBits 0x20 1 ||| w.bits)
  | .imul w => some (opBits 0x21 0 ||| w.bits)
  | .imulh w => some (opBits 0x21 1 ||| w.bits)
  | .imulhu w => some (opBits 0x21 2 ||| w.bits)
  | .imin w => some (opBits 0x22 0 ||| w.bits)
  | .imax w => some (opBits 0x22 1 ||| w.bits)
  | .umin w => some (opBits 0x22 2 ||| w.bits)
  | .umax w => some (opBits 0x22 3 ||| w.bits)
  | .icmp x w => some (opBits 0x23 x.code ||| w.bits)
  | .and w => some (opBits 0x24 0 ||| w.bits)
  | .or w => some (opBits 0x24 1 ||| w.bits)
  | .xor w => some (opBits 0x24 2 ||| w.bits)
  | .andn w => some (opBits 0x24 3 ||| w.bits)
  | .not w => some (opBits 0x24 4 ||| w.bits)
  | .shl w => some (opBits 0x25 0 ||| w.bits)
  | .shr w => some (opBits 0x25 1 ||| w.bits)
  | .sar w => some (opBits 0x25 2 ||| w.bits)
  | .rotl w => some (opBits 0x25 3 ||| w.bits)
  | .popc w => some (opBits 0x26 0 ||| w.bits)
  | .clz w => some (opBits 0x26 1 ||| w.bits)
  | .ctz w => some (opBits 0x26 2 ||| w.bits)
  | .cvt x w => some (opBits 0x40 x.code ||| w.bits)
  | .fdot8 w => some (opBits 0x41 0 ||| w.bits)
  | .idot8 w => some (opBits 0x42 0 ||| w.bits)
  | .odot4 w => some (opBits 0x43 0 ||| w.bits)
  | .qblk w => some (opBits 0x44 0 ||| w.bits)
  | .qo4 w => some (opBits 0x44 1 ||| w.bits)
  | .rcp w => some (opBits 0x50 0 ||| w.bits)
  | .rsq w => some (opBits 0x50 1 ||| w.bits)
  | .sqrt w => some (opBits 0x50 2 ||| w.bits)
  | .exp2 w => some (opBits 0x51 0 ||| w.bits)
  | .log2 w => some (opBits 0x51 1 ||| w.bits)
  | .ln w => some (opBits 0x51 2 ||| w.bits)
  | .tanh w => some (opBits 0x52 0 ||| w.bits)
  | .sigm w => some (opBits 0x52 1 ||| w.bits)
  | .erf w => some (opBits 0x52 2 ||| w.bits)
  | .dfrom w => some (opBits 0x58 0 ||| w.bits)
  | .dto w => some (opBits 0x58 1 ||| w.bits)
  | .ddot w => some (opBits 0x59 0 ||| w.bits)
  | .dadd w => some (opBits 0x5A 0 ||| w.bits)
  | .dsub w => some (opBits 0x5A 1 ||| w.bits)
  | .dneg w => some (opBits 0x5A 2 ||| w.bits)
  | .dscl w => some (opBits 0x5B 0 ||| w.bits)
  | .dlerp w => some (opBits 0x5C 0 ||| w.bits)
  | .dnrm w => some (opBits 0x5D 0 ||| w.bits)
  | .perm w => some (opBits 0x60 0 ||| w.bits)
  | .bcast w => some (opBits 0x61 0 ||| w.bits)
  | .lrot w => some (opBits 0x62 0 ||| w.bits)
  | .red x w => some (opBits 0x63 x.code ||| w.bits)
  | .scan x w => some (opBits 0x64 x.code ||| w.bits)
  | .argmax w => some (opBits 0x65 0 ||| w.bits)
  | .filt w => some (opBits 0x68 0 ||| w.bits)
  | .cmpk w => some (opBits 0x69 0 ||| w.bits)
  | .expnd w => some (opBits 0x6A 0 ||| w.bits)
  | .packt w => some (opBits 0x6B 0 ||| w.bits)
  | .tenter w => some (opBits 0x70 0 ||| w.bits)
  | .tleave w => some (opBits 0x70 1 ||| w.bits)
  | .tstep w => some (opBits 0x70 2 ||| w.bits)
  | .tget w => some (opBits 0x71 0 ||| w.bits)
  | .notify w => some (opBits 0x72 0 ||| w.bits)
  | .eos w => some (opBits 0x73 0 ||| w.bits)
  | .sld w => some (opBits 0x78 0 ||| w.bits)
  | .sst w => some (opBits 0x78 1 ||| w.bits)
  | .ldh w => some (opBits 0x79 0 ||| w.bits)
  | .sth w => some (opBits 0x79 1 ||| w.bits)
  | .advh w => some (opBits 0x7A 0 ||| w.bits)
  | .waith w => some (opBits 0x7A 1 ||| w.bits)
  | .peekh w => some (opBits 0x7A 2 ||| w.bits)
  | .waitx w => some (opBits 0x7B 0 ||| w.bits)
  | .samo w => some (opBits 0x7C 0 ||| w.bits)
  | .smaxi w => some (opBits 0xE1 0 ||| w.bits)
  | .nfastep w => some (opBits 0xE2 0 ||| w.bits)
  | .nfamsk w => some (opBits 0xE3 0 ||| w.bits)
  | .exitq w => some (opBits 0xE8 0 ||| w.bits)
  | .gnoiseKey w => some (opBits 0xE0 0 ||| w.bits)
  | .gnoiseNoise w => some (opBits 0xE0 0 ||| w.bits)
  | _ => none

/-- The 64-bit word of a block instruction (R69 to R72, R74). -/
def encodeBlock : Instr → Option Word
  | .faddBlock w => some (opBits 0x00 0 ||| w.bits)
  | .fsubBlock w => some (opBits 0x00 1 ||| w.bits)
  | .fmulBlock w => some (opBits 0x01 0 ||| w.bits)
  | .ffmaBlock w => some (opBits 0x02 0 ||| w.bits)
  | .ffmsBlock w => some (opBits 0x02 1 ||| w.bits)
  | .fnmaBlock w => some (opBits 0x02 2 ||| w.bits)
  | .fminBlock w => some (opBits 0x03 0 ||| w.bits)
  | .fmaxBlock w => some (opBits 0x03 1 ||| w.bits)
  | .fcmpBlock x w => some (opBits 0x04 x.code ||| w.bits)
  | .fclassBlock w => some (opBits 0x05 0 ||| w.bits)
  | .fabsBlock w => some (opBits 0x06 0 ||| w.bits)
  | .fnegBlock w => some (opBits 0x06 1 ||| w.bits)
  | .fcpysBlock w => some (opBits 0x06 2 ||| w.bits)
  | .movBlock w => some (opBits 0x18 0 ||| w.bits)
  | .selBlock w => some (opBits 0x18 1 ||| w.bits)
  | .nopBlock w => some (opBits 0x1F 0 ||| w.bits)
  | .iaddBlock w => some (opBits 0x20 0 ||| w.bits)
  | .isubBlock w => some (opBits 0x20 1 ||| w.bits)
  | .imulBlock w => some (opBits 0x21 0 ||| w.bits)
  | .imulhBlock w => some (opBits 0x21 1 ||| w.bits)
  | .imulhuBlock w => some (opBits 0x21 2 ||| w.bits)
  | .iminBlock w => some (opBits 0x22 0 ||| w.bits)
  | .imaxBlock w => some (opBits 0x22 1 ||| w.bits)
  | .uminBlock w => some (opBits 0x22 2 ||| w.bits)
  | .umaxBlock w => some (opBits 0x22 3 ||| w.bits)
  | .icmpBlock x w => some (opBits 0x23 x.code ||| w.bits)
  | .andBlock w => some (opBits 0x24 0 ||| w.bits)
  | .orBlock w => some (opBits 0x24 1 ||| w.bits)
  | .xorBlock w => some (opBits 0x24 2 ||| w.bits)
  | .andnBlock w => some (opBits 0x24 3 ||| w.bits)
  | .notBlock w => some (opBits 0x24 4 ||| w.bits)
  | .shlBlock w => some (opBits 0x25 0 ||| w.bits)
  | .shrBlock w => some (opBits 0x25 1 ||| w.bits)
  | .sarBlock w => some (opBits 0x25 2 ||| w.bits)
  | .rotlBlock w => some (opBits 0x25 3 ||| w.bits)
  | .popcBlock w => some (opBits 0x26 0 ||| w.bits)
  | .clzBlock w => some (opBits 0x26 1 ||| w.bits)
  | .ctzBlock w => some (opBits 0x26 2 ||| w.bits)
  | .cvtBlock x w => some (opBits 0x40 x.code ||| w.bits)
  | .dfromBlock w => some (opBits 0x58 0 ||| w.bits)
  | .dtoBlock w => some (opBits 0x58 1 ||| w.bits)
  | .ddotBlock w => some (opBits 0x59 0 ||| w.bits)
  | .daddBlock w => some (opBits 0x5A 0 ||| w.bits)
  | .dsubBlock w => some (opBits 0x5A 1 ||| w.bits)
  | .dnegBlock w => some (opBits 0x5A 2 ||| w.bits)
  | .dsclBlock w => some (opBits 0x5B 0 ||| w.bits)
  | .dlerpBlock w => some (opBits 0x5C 0 ||| w.bits)
  | .dnrmBlock w => some (opBits 0x5D 0 ||| w.bits)
  | .ret w => some (opBits 0x81 1 ||| w.bits)
  | .call w => some (opBits 0x81 0 ||| w.bits)
  | .loop w => some (opBits 0x82 0 ||| w.bits)
  | .fork w => some (opBits 0x83 0 ||| w.bits)
  | .halt w => some (opBits 0x84 0 ||| w.bits)
  | .yield w => some (opBits 0x84 1 ||| w.bits)
  | .lea w => some (opBits 0x88 0 ||| w.bits)
  | .movi w => some (opBits 0x89 0 ||| w.bits)
  | .movhi w => some (opBits 0x89 1 ||| w.bits)
  | .bfext w => some (opBits 0x8A 0 ||| w.bits)
  | .bfins w => some (opBits 0x8A 1 ||| w.bits)
  | .spawnp w => some (opBits 0xB0 0 ||| w.bits)
  | .resolve w => some (opBits 0xB1 0 ||| w.bits)
  | .squash w => some (opBits 0xB2 0 ||| w.bits)
  | .lkrd w => some (opBits 0xB3 0 ||| w.bits)
  | .barx w => some (opBits 0xB9 0 ||| w.bits)
  | .sysr w => some (opBits 0xF0 0 ||| w.bits)
  | .sysw w => some (opBits 0xF0 1 ||| w.bits)
  | .trap w => some (opBits 0xF1 0 ||| w.bits)
  | .ecall w => some (opBits 0xF1 1 ||| w.bits)
  | .poison w => some (opBits 0xF2 0 ||| w.bits)
  | .quies w => some (opBits 0xF3 0 ||| w.bits)
  | .invt w => some (opBits 0xF4 0 ||| w.bits)
  | .br w => some (opBits 0x80 0 ||| w.bits)
  | .bri w => some (opBits 0x80 1 ||| w.bits)
  | .send w => some (opBits 0xBB 0 ||| w.bits)
  | .sendBrk w => some (opBits 0xBB 0 ||| w.bits)
  | .recv w => some (opBits 0xBB 1 ||| w.bits)
  | .recvStart w => some (opBits 0xBB 1 ||| w.bits)
  | .sldBlock w => some (opBits 0x78 0 ||| w.bits)
  | .sstBlock w => some (opBits 0x78 1 ||| w.bits)
  | .samoBlock w => some (opBits 0x7C 0 ||| w.bits)
  | .ld w => some (opBits 0xA0 0 ||| w.bits)
  | .st w => some (opBits 0xA0 1 ||| w.bits)
  | .ldv w => some (opBits 0xA1 0 ||| w.bits)
  | .stv w => some (opBits 0xA1 1 ||| w.bits)
  | .pref w => some (opBits 0xA2 0 ||| w.bits)
  | .amo w => some (opBits 0xA3 0 ||| w.bits)
  | .famo w => some (opBits 0xA4 0 ||| w.bits)
  | .cas w => some (opBits 0xA5 0 ||| w.bits)
  | .fence w => some (opBits 0xA6 0 ||| w.bits)
  | .dld w => some (opBits 0xA8 0 ||| w.bits)
  | .dst w => some (opBits 0xA8 1 ||| w.bits)
  | .swset w => some (opBits 0xB8 0 ||| w.bits)
  | .swwait w => some (opBits 0xB8 1 ||| w.bits)
  | .xst w => some (opBits 0xBA 0 ||| w.bits)
  | .strmLd w => some (opBits 0xC0 0 ||| w.bits)
  | .strmSt w => some (opBits 0xC0 1 ||| w.bits)
  | .strmGth w => some (opBits 0xC0 2 ||| w.bits)
  | .strmSct w => some (opBits 0xC0 3 ||| w.bits)
  | .strmWin w => some (opBits 0xC0 4 ||| w.bits)
  | .strmStop w => some (opBits 0xC1 0 ||| w.bits)
  | .strmPos w => some (opBits 0xC1 1 ||| w.bits)
  | .cpy w => some (opBits 0xC2 0 ||| w.bits)
  | .plane w => some (opBits 0xC3 0 ||| w.bits)
  | .tilef w => some (opBits 0xD0 0 ||| w.bits)
  | .tilee w => some (opBits 0xD0 1 ||| w.bits)
  | .mxrd w => some (opBits 0xD1 0 ||| w.bits)
  | .mxclr w => some (opBits 0xD2 0 ||| w.bits)
  | .xrslot w => some (opBits 0xD8 0 ||| w.bits)
  | .xred w => some (opBits 0xD9 0 ||| w.bits)
  | .xrwait w => some (opBits 0xDA 0 ||| w.bits)
  | .rnsum w => some (opBits 0xDB 0 ||| w.bits)
  | .rnmax w => some (opBits 0xDB 1 ||| w.bits)
  | .kvld w => some (opBits 0xE9 1 ||| w.bits)
  | .kvalloc w => some (opBits 0xEA 0 ||| w.bits)
  | .kvfree w => some (opBits 0xEA 1 ||| w.bits)
  | .bfq w => some (opBits 0xEB 0 ||| w.bits)
  | .bfwait w => some (opBits 0xEB 1 ||| w.bits)
  | .kvst w => some (opBits 0xE9 0 ||| w.bits)
  | .kvstFin w => some (opBits 0xE9 0 ||| w.bits)
  | .lend x w => some (opBits 0x80 (if x then 1 else 0) ||| w.bits)
  | _ => none

/-- The stage instruction OPC and FN name (R74). -/
def stageOf (opc fn : Nat) (w : SWord) : Option Instr :=
  match opc, fn with
  | 0x00, 0 => some (.fadd w)
  | 0x00, 1 => some (.fsub w)
  | 0x01, 0 => some (.fmul w)
  | 0x02, 0 => some (.ffma w)
  | 0x02, 1 => some (.ffms w)
  | 0x02, 2 => some (.fnma w)
  | 0x03, 0 => some (.fmin w)
  | 0x03, 1 => some (.fmax w)
  | 0x04, fn => (FCond.ofCode fn).map (Instr.fcmp · w)
  | 0x05, 0 => some (.fclass w)
  | 0x06, 0 => some (.fabs w)
  | 0x06, 1 => some (.fneg w)
  | 0x06, 2 => some (.fcpys w)
  | 0x18, 0 => some (.mov w)
  | 0x18, 1 => some (.selStage w)
  | 0x19, 0 => some (.ldi w)
  | 0x1A, 0 => some (.acc w)
  | 0x1F, 0 => some (.nop w)
  | 0x20, 0 => some (.iadd w)
  | 0x20, 1 => some (.isub w)
  | 0x21, 0 => some (.imul w)
  | 0x21, 1 => some (.imulh w)
  | 0x21, 2 => some (.imulhu w)
  | 0x22, 0 => some (.imin w)
  | 0x22, 1 => some (.imax w)
  | 0x22, 2 => some (.umin w)
  | 0x22, 3 => some (.umax w)
  | 0x23, fn => (ICond.ofCode fn).map (Instr.icmp · w)
  | 0x24, 0 => some (.and w)
  | 0x24, 1 => some (.or w)
  | 0x24, 2 => some (.xor w)
  | 0x24, 3 => some (.andn w)
  | 0x24, 4 => some (.not w)
  | 0x25, 0 => some (.shl w)
  | 0x25, 1 => some (.shr w)
  | 0x25, 2 => some (.sar w)
  | 0x25, 3 => some (.rotl w)
  | 0x26, 0 => some (.popc w)
  | 0x26, 1 => some (.clz w)
  | 0x26, 2 => some (.ctz w)
  | 0x40, fn => (Pair.ofCode fn).map (Instr.cvt · w)
  | 0x41, 0 => some (.fdot8 w)
  | 0x42, 0 => some (.idot8 w)
  | 0x43, 0 => some (.odot4 w)
  | 0x44, 0 => some (.qblk w)
  | 0x44, 1 => some (.qo4 w)
  | 0x50, 0 => some (.rcp w)
  | 0x50, 1 => some (.rsq w)
  | 0x50, 2 => some (.sqrt w)
  | 0x51, 0 => some (.exp2 w)
  | 0x51, 1 => some (.log2 w)
  | 0x51, 2 => some (.ln w)
  | 0x52, 0 => some (.tanh w)
  | 0x52, 1 => some (.sigm w)
  | 0x52, 2 => some (.erf w)
  | 0x58, 0 => some (.dfrom w)
  | 0x58, 1 => some (.dto w)
  | 0x59, 0 => some (.ddot w)
  | 0x5A, 0 => some (.dadd w)
  | 0x5A, 1 => some (.dsub w)
  | 0x5A, 2 => some (.dneg w)
  | 0x5B, 0 => some (.dscl w)
  | 0x5C, 0 => some (.dlerp w)
  | 0x5D, 0 => some (.dnrm w)
  | 0x60, 0 => some (.perm w)
  | 0x61, 0 => some (.bcast w)
  | 0x62, 0 => some (.lrot w)
  | 0x63, fn => (RedOp.ofCode fn).map (Instr.red · w)
  | 0x64, fn => (ScanOp.ofCode fn).map (Instr.scan · w)
  | 0x65, 0 => some (.argmax w)
  | 0x68, 0 => some (.filt w)
  | 0x69, 0 => some (.cmpk w)
  | 0x6A, 0 => some (.expnd w)
  | 0x6B, 0 => some (.packt w)
  | 0x70, 0 => some (.tenter w)
  | 0x70, 1 => some (.tleave w)
  | 0x70, 2 => some (.tstep w)
  | 0x71, 0 => some (.tget w)
  | 0x72, 0 => some (.notify w)
  | 0x73, 0 => some (.eos w)
  | 0x78, 0 => some (.sld w)
  | 0x78, 1 => some (.sst w)
  | 0x79, 0 => some (.ldh w)
  | 0x79, 1 => some (.sth w)
  | 0x7A, 0 => some (.advh w)
  | 0x7A, 1 => some (.waith w)
  | 0x7A, 2 => some (.peekh w)
  | 0x7B, 0 => some (.waitx w)
  | 0x7C, 0 => some (.samo w)
  | 0xE1, 0 => some (.smaxi w)
  | 0xE2, 0 => some (.nfastep w)
  | 0xE3, 0 => some (.nfamsk w)
  | 0xE8, 0 => some (.exitq w)
  | 0xE0, 0 => if bitAt w.imm 0 then some (.gnoiseNoise w) else some (.gnoiseKey w)
  | _, _ => none

/-- The B-layout instruction OPC and FN name (R74). LEND is BR or BRI with IMM24[23] (R253), SEND_BRK is
SEND with IMM24[6] (R371), RECV_START is RECV with IMM24[17] (R273). -/
def blockBOf (opc fn : Nat) (w : BWord) : Option Instr :=
  match opc, fn with
  | 0x00, 0 => some (.faddBlock w)
  | 0x00, 1 => some (.fsubBlock w)
  | 0x01, 0 => some (.fmulBlock w)
  | 0x02, 0 => some (.ffmaBlock w)
  | 0x02, 1 => some (.ffmsBlock w)
  | 0x02, 2 => some (.fnmaBlock w)
  | 0x03, 0 => some (.fminBlock w)
  | 0x03, 1 => some (.fmaxBlock w)
  | 0x04, fn => (FCond.ofCode fn).map (Instr.fcmpBlock · w)
  | 0x05, 0 => some (.fclassBlock w)
  | 0x06, 0 => some (.fabsBlock w)
  | 0x06, 1 => some (.fnegBlock w)
  | 0x06, 2 => some (.fcpysBlock w)
  | 0x18, 0 => some (.movBlock w)
  | 0x18, 1 => some (.selBlock w)
  | 0x1F, 0 => some (.nopBlock w)
  | 0x20, 0 => some (.iaddBlock w)
  | 0x20, 1 => some (.isubBlock w)
  | 0x21, 0 => some (.imulBlock w)
  | 0x21, 1 => some (.imulhBlock w)
  | 0x21, 2 => some (.imulhuBlock w)
  | 0x22, 0 => some (.iminBlock w)
  | 0x22, 1 => some (.imaxBlock w)
  | 0x22, 2 => some (.uminBlock w)
  | 0x22, 3 => some (.umaxBlock w)
  | 0x23, fn => (ICond.ofCode fn).map (Instr.icmpBlock · w)
  | 0x24, 0 => some (.andBlock w)
  | 0x24, 1 => some (.orBlock w)
  | 0x24, 2 => some (.xorBlock w)
  | 0x24, 3 => some (.andnBlock w)
  | 0x24, 4 => some (.notBlock w)
  | 0x25, 0 => some (.shlBlock w)
  | 0x25, 1 => some (.shrBlock w)
  | 0x25, 2 => some (.sarBlock w)
  | 0x25, 3 => some (.rotlBlock w)
  | 0x26, 0 => some (.popcBlock w)
  | 0x26, 1 => some (.clzBlock w)
  | 0x26, 2 => some (.ctzBlock w)
  | 0x40, fn => (Pair.ofCode fn).map (Instr.cvtBlock · w)
  | 0x58, 0 => some (.dfromBlock w)
  | 0x58, 1 => some (.dtoBlock w)
  | 0x59, 0 => some (.ddotBlock w)
  | 0x5A, 0 => some (.daddBlock w)
  | 0x5A, 1 => some (.dsubBlock w)
  | 0x5A, 2 => some (.dnegBlock w)
  | 0x5B, 0 => some (.dsclBlock w)
  | 0x5C, 0 => some (.dlerpBlock w)
  | 0x5D, 0 => some (.dnrmBlock w)
  | 0x81, 1 => some (.ret w)
  | 0x81, 0 => some (.call w)
  | 0x82, 0 => some (.loop w)
  | 0x83, 0 => some (.fork w)
  | 0x84, 0 => some (.halt w)
  | 0x84, 1 => some (.yield w)
  | 0x88, 0 => some (.lea w)
  | 0x89, 0 => some (.movi w)
  | 0x89, 1 => some (.movhi w)
  | 0x8A, 0 => some (.bfext w)
  | 0x8A, 1 => some (.bfins w)
  | 0xB0, 0 => some (.spawnp w)
  | 0xB1, 0 => some (.resolve w)
  | 0xB2, 0 => some (.squash w)
  | 0xB3, 0 => some (.lkrd w)
  | 0xB9, 0 => some (.barx w)
  | 0xF0, 0 => some (.sysr w)
  | 0xF0, 1 => some (.sysw w)
  | 0xF1, 0 => some (.trap w)
  | 0xF1, 1 => some (.ecall w)
  | 0xF2, 0 => some (.poison w)
  | 0xF3, 0 => some (.quies w)
  | 0xF4, 0 => some (.invt w)
  | 0x80, 0 => if bitAt w.imm 23 then some (.lend false w) else some (.br w)
  | 0x80, 1 => if bitAt w.imm 23 then some (.lend true w) else some (.bri w)
  | 0xBB, 0 => if bitAt w.imm 6 then some (.sendBrk w) else some (.send w)
  | 0xBB, 1 => if bitAt w.imm 17 then some (.recvStart w) else some (.recv w)
  | _, _ => none

/-- The M-layout instruction OPC and FN name (R74). -/
def blockMOf (opc fn : Nat) (w : MWord) : Option Instr :=
  match opc, fn with
  | 0x78, 0 => some (.sldBlock w)
  | 0x78, 1 => some (.sstBlock w)
  | 0x7C, 0 => some (.samoBlock w)
  | 0xA0, 0 => some (.ld w)
  | 0xA0, 1 => some (.st w)
  | 0xA1, 0 => some (.ldv w)
  | 0xA1, 1 => some (.stv w)
  | 0xA2, 0 => some (.pref w)
  | 0xA3, 0 => some (.amo w)
  | 0xA4, 0 => some (.famo w)
  | 0xA5, 0 => some (.cas w)
  | 0xA6, 0 => some (.fence w)
  | 0xA8, 0 => some (.dld w)
  | 0xA8, 1 => some (.dst w)
  | 0xB8, 0 => some (.swset w)
  | 0xB8, 1 => some (.swwait w)
  | 0xBA, 0 => some (.xst w)
  | _, _ => none

/-- The E-layout instruction OPC and FN name (R74); KVST.fin is KVST with EQ[0] (R312). -/
def blockEOf (opc fn : Nat) (w : EWord) : Option Instr :=
  match opc, fn with
  | 0xC0, 0 => some (.strmLd w)
  | 0xC0, 1 => some (.strmSt w)
  | 0xC0, 2 => some (.strmGth w)
  | 0xC0, 3 => some (.strmSct w)
  | 0xC0, 4 => some (.strmWin w)
  | 0xC1, 0 => some (.strmStop w)
  | 0xC1, 1 => some (.strmPos w)
  | 0xC2, 0 => some (.cpy w)
  | 0xC3, 0 => some (.plane w)
  | 0xD0, 0 => some (.tilef w)
  | 0xD0, 1 => some (.tilee w)
  | 0xD1, 0 => some (.mxrd w)
  | 0xD2, 0 => some (.mxclr w)
  | 0xD8, 0 => some (.xrslot w)
  | 0xD9, 0 => some (.xred w)
  | 0xDA, 0 => some (.xrwait w)
  | 0xDB, 0 => some (.rnsum w)
  | 0xDB, 1 => some (.rnmax w)
  | 0xE9, 1 => some (.kvld w)
  | 0xE9, 0 => if bitAt w.eq 0 then some (.kvstFin w) else some (.kvst w)
  | 0xEA, 0 => some (.kvalloc w)
  | 0xEA, 1 => some (.kvfree w)
  | 0xEB, 0 => some (.bfq w)
  | 0xEB, 1 => some (.bfwait w)
  | _, _ => none

/-- Does OPC stand in the M layout (R74)? -/
def isMOpc (opc : Nat) : Bool := [0x78, 0x7C, 0xA0, 0xA1, 0xA2, 0xA3, 0xA4, 0xA5, 0xA6, 0xA8, 0xB8, 0xBA].contains opc
/-- Does OPC stand in the E layout (R74)? -/
def isEOpc (opc : Nat) : Bool :=
  [0xC0, 0xC1, 0xC2, 0xC3, 0xD0, 0xD1, 0xD2, 0xD8, 0xD9, 0xDA, 0xDB, 0xE9, 0xEA, 0xEB].contains opc

def opcOf (x : Word) : Nat := (field x 56 8).toNat
def fnOf (x : Word) : Nat := (field x 52 4).toNat

/-- Decode a stage word (R66 to R68, R74, R75), apart from its place in a slot. -/
def decodeStage (x : Word) : Except DecodeError Instr :=
  match SWord.ofBits x with
  | none => .error .reservedField
  | some w =>
    match stageOf (opcOf x) (fnOf x) w with
    | none => .error .unassignedOpcode
    | some i => if wfStage i then .ok i else .error .illegalWord

/-- Decode a block word (R69 to R72, R74, R75), apart from its place in a block. -/
def decodeBlock (x : Word) : Except DecodeError Instr :=
  if opcOf x = 0xF8 then .error .blockHeader
  else if isMOpc (opcOf x) then
    match MWord.ofBits x with
    | none => .error .reservedField
    | some w =>
      match blockMOf (opcOf x) (fnOf x) w with
      | none => .error .unassignedOpcode
      | some i => if wfM i then .ok i else .error .illegalWord
  else if isEOpc (opcOf x) then
    match EWord.ofBits x with
    | none => .error .reservedField
    | some w =>
      match blockEOf (opcOf x) (fnOf x) w with
      | none => .error .unassignedOpcode
      | some i => if wfE i then .ok i else .error .illegalWord
  else
    match BWord.ofBits x with
    | none => .error .reservedField
    | some w =>
      match blockBOf (opcOf x) (fnOf x) w with
      | none => .error .unassignedOpcode
      | some i => if wfB i then .ok i else .error .illegalWord

/-- Decode a configuration command (R58, R60): every 32-bit word is a command; the four selection commands
with clear reserved bits have their own constructors. -/
def decodeConfig (x : BitVec 32) : Instr :=
  let e := field x 24 8
  let f := field x 16 8
  let v := field x 0 16
  if e = 0xFF#8 then
    if f = 0#8 ∧ field v 9 5 = 0 then .sel (field v 14 2) (field v 0 9)
    else if f = 1#8 ∧ field v 4 12 = 0 then .page (field v 0 4)
    else if f = 2#8 ∧ field v 1 15 = 0 then .flags (field v 0 1)
    else if f = 3#8 then .end_ v
    else .configCommand e f v
  else .configCommand e f v

/-- The 32-bit word of a configuration command (R58, R60). -/
def encodeConfig : Instr → Option (BitVec 32)
  | .configCommand e f v => some (e ++ f ++ v)
  | .sel c s => some (0xFF00#16 ++ c ++ 0#5 ++ s)
  | .page p => some (0xFF01#16 ++ 0#12 ++ p)
  | .flags h => some (0xFF02#16 ++ 0#15 ++ h)
  | .end_ n => some (0xFF03#16 ++ n)
  | _ => none

/-- The words an instruction has: 32-bit commands as one word, 64-bit words. Events have none. -/
def encode (i : Instr) : Option (Nat × Nat) :=
  match encodeConfig i with
  | some x => some (32, x.toNat)
  | none =>
    match encodeStage i with
    | some x => some (64, x.toNat)
    | none => (encodeBlock i).map fun x => (64, x.toNat)

/-- Bytes of a number, lowest first (every structure of the spec is little-endian, R82). -/
def bytesOf (n : Nat) : Nat → List Byte
  | 0 => []
  | k + 1 => BitVec.ofNat 8 n :: bytesOf (n / 256) k

/-- The number little-endian bytes give. -/
def natOf : List Byte → Nat
  | [] => 0
  | b :: bs => b.toNat + 256 * natOf bs

/-- Decode bytes: four make a configuration command, eight a stage word or, failing that, a block word. -/
def decodeBytes (bs : List Byte) : Except DecodeError Instr :=
  if bs.length = 4 then .ok (decodeConfig (BitVec.ofNat 32 (natOf bs)))
  else if bs.length = 8 then
    match decodeStage (BitVec.ofNat 64 (natOf bs)) with
    | .ok i => .ok i
    | .error _ => decodeBlock (BitVec.ofNat 64 (natOf bs))
  else .error .shortWord

/-- The host's question: the instruction this decoder reads from a table word of `nbits` bits. -/
def decodeTableWord (nbits w : Nat) : Option Instr :=
  match decodeBytes (bytesOf w (nbits / 8)) with
  | .ok i => some i
  | .error _ => none

end Sys2Proof
end

