-- ==== Sys2Proof/Machine/Flags.lean ====
section
/-! DEFINITION. The sticky flags of SY.FPF (R45), floating-point formats (R35), the decoded form of a code,
and NaN quieting (R44). -/

namespace Sys2Proof.Machine

/-- A set of the seven flags of R45, bit i as in SY.FPF. -/
abbrev FlagSet := BitVec 7

def fNV : FlagSet := 0x01#7
def fDZ : FlagSet := 0x02#7
def fOF : FlagSet := 0x04#7
def fUF : FlagSet := 0x08#7
def fNX : FlagSet := 0x10#7
def fSAT : FlagSet := 0x20#7
def fDOF : FlagSet := 0x40#7

/-- The set `f` when `b` holds, else the empty set. -/
def flagIf (b : Bool) (f : FlagSet) : FlagSet := if b then f else 0#7

/-- A result's bits with the flags its operation raises. -/
structure Val where
  bits : Lane
  fl : FlagSet
deriving DecidableEq, Repr

/-- The floating-point formats of R35 that carry a sign. -/
inductive Ffmt where
  | fp32 | bf16 | e4m3 | e5m2
deriving DecidableEq, Repr

/-- Exponent bits (R35). -/
def Ffmt.eb : Ffmt → Nat
  | .fp32 => 8 | .bf16 => 8 | .e4m3 => 4 | .e5m2 => 5
/-- Mantissa bits (R35). -/
def Ffmt.mb : Ffmt → Nat
  | .fp32 => 23 | .bf16 => 7 | .e4m3 => 3 | .e5m2 => 2
/-- Exponent bias (R35). -/
def Ffmt.bias : Ffmt → Nat
  | .fp32 => 127 | .bf16 => 127 | .e4m3 => 7 | .e5m2 => 15
/-- E4M3 has no infinity (R35). -/
def Ffmt.hasInf : Ffmt → Bool
  | .e4m3 => false | _ => true
/-- The sign bit's position. -/
def Ffmt.signPos (f : Ffmt) : Nat := f.eb + f.mb
/-- The magnitude code of the largest finite value (R35). -/
def Ffmt.maxCode : Ffmt → Nat
  | .fp32 => 0x7F7FFFFF | .bf16 => 0x7F7F | .e4m3 => 0x7E | .e5m2 => 0x7B
/-- The magnitude code of infinity, or of E4M3's NaN, which stands in its place in `overflow` (R46). -/
def Ffmt.overCode : Ffmt → Nat
  | .fp32 => 0x7F800000 | .bf16 => 0x7F80 | .e4m3 => 0x7F | .e5m2 => 0x7C
/-- The code of sign `neg` and magnitude code `mag`. -/
def Ffmt.withSign (f : Ffmt) (neg : Bool) (mag : Nat) : Lane :=
  BitVec.ofNat 32 (mag + if neg then 2 ^ f.signPos else 0)

/-- A decoded code: a NaN (signalling or quiet, its sign), an infinity, or (−1)^neg × m × 2^e. -/
inductive Num where
  | nan (neg snan : Bool)
  | inf (neg : Bool)
  | fin (neg : Bool) (m : Nat) (e : Int)
deriving DecidableEq, Repr

/-- The value of a code of format `f` standing in the low bits of `x` (R35). -/
def Ffmt.decode (f : Ffmt) (x : Lane) : Num :=
  let n := x.toNat % 2 ^ (f.signPos + 1)
  let neg := n / 2 ^ f.signPos == 1
  let mag := n % 2 ^ f.signPos
  let e := mag / 2 ^ f.mb
  let m := mag % 2 ^ f.mb
  if f.hasInf then
    if e == 2 ^ f.eb - 1 then
      if m == 0 then .inf neg else .nan neg (m / 2 ^ (f.mb - 1) == 0)
    else if e == 0 then .fin neg m (1 - (f.bias : Int) - f.mb)
    else .fin neg (2 ^ f.mb + m) ((e : Int) - f.bias - f.mb)
  else
    if mag == f.overCode then .nan neg false
    else if e == 0 then .fin neg m (1 - (f.bias : Int) - f.mb)
    else .fin neg (2 ^ f.mb + m) ((e : Int) - f.bias - f.mb)

def Num.isNan : Num → Bool
  | .nan _ _ => true | _ => false
def Num.isSnan : Num → Bool
  | .nan _ s => s | _ => false
def Num.isInf : Num → Bool
  | .inf _ => true | _ => false
def Num.isZero : Num → Bool
  | .fin _ m _ => m == 0 | _ => false
def Num.neg : Num → Bool
  | .nan s _ => s | .inf s => s | .fin s _ _ => s
/-- The same value with the sign `s`. -/
def Num.setNeg (s : Bool) : Num → Num
  | .nan _ q => .nan s q | .inf _ => .inf s | .fin _ m e => .fin s m e

/-- The canonical NaN of an invalid operation (R44). -/
def canonNan : Lane := 0x7FC00000#32
/-- An FP32 NaN quieted: bit 22 set (R44). -/
def quiet (x : Lane) : Lane := x ||| 0x00400000#32
def fp32 (x : Lane) : Num := Ffmt.fp32.decode x
def isNan32 (x : Lane) : Bool := (fp32 x).isNan
def isSnan32 (x : Lane) : Bool := (fp32 x).isSnan

/-- The first NaN among the operands, in the order given, quieted, with NV for a signalling one (R44). -/
def firstNan (xs : List Lane) : Option Val :=
  (xs.find? isNan32).map fun x => ⟨quiet x, flagIf (xs.any isSnan32) fNV⟩

/-- The rounding modes a rounding runs in, after `.rdyn` is resolved (R42, R43). -/
inductive Rmode where
  | rne | rtz | up | down | away | sto
deriving DecidableEq, Repr

/-- The mode of DRM's code (R43): 6 and 7 are never stored, so they read as code 0. -/
def Rmode.ofCode : Nat → Rmode
  | 1 => .rtz | 2 => .up | 3 => .down | 4 => .away | 5 => .sto | _ => .rne

/-- RM resolved against DRM (R42). -/
def resolveRm (drm : BitVec 3) : Rm → Rmode
  | .rne => .rne | .rtz => .rtz | .rup => .up | .rdn => .down | .rna => .away | .rsto => .sto
  | .rdyn => Rmode.ofCode drm.toNat

end Sys2Proof.Machine
end

