-- ==== Sys2Proof/Machine/Numbers.lean ====
section
/-! DEFINITION. Exact magnitudes and the one rounding of R46, with the hash of R56 that drives stochastic rounding. -/

namespace Sys2Proof.Machine

/-- The kmix hash (R56). -/
def kmix (x : Lane) : Lane :=
  let x := x ^^^ (x >>> 15)
  let x := x * 0x6A3F92C5#32
  let x := x ^^^ (x >>> 13)
  let x := x * 0x3D4E17B3#32
  x ^^^ (x >>> 16)

/-- The word of mode 5 (R46): from the tag, the site, the lane and the element. -/
def stoWord (tag : Tag) (site lane elem : Nat) : Lane :=
  kmix (kmix (field tag 0 32 ^^^ field tag 32 32)
    ^^^ BitVec.ofNat 32 (site * 4096 ||| lane * 256 ||| elem))

/-- Integer square root by Newton's steps from above; `fuel` bounds the steps. -/
def isqrtFrom (n : Nat) : Nat → Nat → Nat
  | 0, x => x
  | fuel + 1, x =>
    let y := (x + n / x) / 2
    if y < x then isqrtFrom n fuel y else x
/-- ⌊√n⌋. -/
def isqrt (n : Nat) : Nat :=
  if n = 0 then 0 else isqrtFrom n (n.log2 + 2) (2 ^ (n.log2 / 2 + 1))

/-- An exact positive real, seen through floors: `ilog` is ⌊log2 x⌋, and `floorAt q` is ⌊x × 2^q⌋ with whether
x × 2^q is no integer. Every rounding of R46 asks no more of its exact value. -/
structure Mag where
  ilog : Int
  floorAt : Int → Nat × Bool

/-- n × 2^k for a signed k, with whether bits were lost. -/
def shiftNat (n : Nat) (k : Int) : Nat × Bool :=
  if 0 ≤ k then (n * 2 ^ k.toNat, false)
  else
    let s := (-k).toNat
    if n.log2 < s then (0, n != 0) else (n / 2 ^ s, n % 2 ^ s != 0)

/-- The dyadic m × 2^e. -/
def Mag.dyadic (m : Nat) (e : Int) : Mag :=
  ⟨m.log2 + e, fun q => shiftNat m (e + q)⟩

/-- The quotient (n / d) × 2^e. -/
def Mag.quot (n d : Nat) (e : Int) : Mag :=
  let at_ := fun q : Int =>
    if 0 ≤ e + q then ((n * 2 ^ (e + q).toNat) / d, (n * 2 ^ (e + q).toNat) % d != 0)
    else (n / (d * 2 ^ (-(e + q)).toNat), n % (d * 2 ^ (-(e + q)).toNat) != 0)
  let k : Int := (n.log2 : Int) - d.log2
  -- n/d lies in (2^(k-1), 2^(k+1))
  let lg := if 0 ≤ k then (if n < d * 2 ^ k.toNat then k - 1 else k)
            else (if n * 2 ^ (-k).toNat < d then k - 1 else k)
  ⟨lg + e, at_⟩

/-- The square root of (n / d) × 2^(2h). -/
def Mag.sqrtQuot (n d : Nat) (h : Int) : Mag :=
  let at_ := fun q : Int =>
    let (num, den) := if 0 ≤ h + q then (n * 4 ^ (h + q).toNat, d) else (n, d * 4 ^ (-(h + q)).toNat)
    let r := isqrt (num / den)
    (r, r * r * den != num)
  let k : Int := (Mag.quot n d 0).ilog
  ⟨k / 2 + h, at_⟩

/-- A value just below 1, nearer to it than 2^-64. -/
def Mag.justBelowOne : Mag :=
  ⟨-1, fun q => if 0 ≤ q then (2 ^ q.toNat - 1, true) else (0, true)⟩

/-- A positive value below 2^-1000. -/
def Mag.tiny : Mag := ⟨-1001, fun _ => (0, true)⟩

/-- The rounded integer part, in units of 2^-q, of a magnitude: `lo` or `lo + 1` by the mode (R46). -/
def roundUnits (neg : Bool) (x : Mag) (q : Int) (rm : Rmode) (w : Lane) : Nat × Bool :=
  let (lo, inexact) := x.floorAt q
  if !inexact then (lo, false)
  else
    let (n1, in1) := x.floorAt (q + 1)
    let half := n1 % 2 == 1
    let up := match rm with
      | .rne => half && (in1 || lo % 2 == 1)
      | .rtz => false
      | .up => !neg
      | .down => neg
      | .away => half
      | .sto =>
        let (n24, in24) := x.floorAt (q + 24)
        let f := n24 - lo * 2 ^ 24
        let w8 := w.toNat / 256
        decide (w8 < f) || (w8 == f && in24)
    (if up then lo + 1 else lo, true)

/-- `overflow` of R46: the magnitude code. -/
def overflowCode (f : Ffmt) (neg : Bool) (rm : Rmode) : Nat :=
  if !f.hasInf then f.overCode
  else match rm with
    | .rne => f.overCode
    | .away => f.overCode
    | .sto => f.overCode
    | .rtz => f.maxCode
    | .up => if neg then f.maxCode else f.overCode
    | .down => if neg then f.overCode else f.maxCode

/-- `round`, and with `sat` `sat_round`, of the nonzero value of sign `neg` and magnitude `x` (R46). Both neighbours
are taken with the exponent unbounded above, so that the overflow test sees r (log entry 20). -/
def roundMag (f : Ffmt) (neg : Bool) (x : Mag) (rm : Rmode) (w : Lane) (sat : Bool) : Val :=
  let emin : Int := 1 - f.bias
  let e := if x.ilog < emin then emin else x.ilog
  let q : Int := f.mb - e
  let (n, inexact) := roundUnits neg x q rm w
  -- n counts units of 2^-q; a carry to the next binade carries into the exponent of the code
  let code : Nat := if n < 2 ^ f.mb then n else (e + f.bias).toNat * 2 ^ f.mb + (n - 2 ^ f.mb)
  if code > f.maxCode then
    if sat then ⟨f.withSign neg f.maxCode, fSAT ||| fNX⟩
    else ⟨f.withSign neg (overflowCode f neg rm), fOF ||| fNX⟩
  else
    ⟨f.withSign neg code, flagIf inexact fNX ||| flagIf (inexact && code < 2 ^ f.mb) fUF⟩

/-- `sat_round` of an infinity, or `round` of it (R46): infinities are representable but in E4M3 (R47). -/
def roundInf (f : Ffmt) (neg : Bool) (sat : Bool) : Val :=
  if sat then ⟨f.withSign neg f.maxCode, fSAT⟩
  else if f.hasInf then ⟨f.withSign neg f.overCode, 0⟩
  else ⟨f.withSign neg f.overCode, fNV⟩

/-- `round` or `sat_round` of the value (−1)^neg × m × 2^e; a zero keeps its sign (R44). -/
def roundDyadic (f : Ffmt) (neg : Bool) (m : Nat) (e : Int) (rm : Rmode) (w : Lane) (sat : Bool) : Val :=
  if m = 0 then ⟨f.withSign neg 0, 0⟩ else roundMag f neg (Mag.dyadic m e) rm w sat

/-- A signed value m × 2^e with m an integer. -/
structure Dyad where
  m : Int
  e : Int
deriving DecidableEq, Repr

/-- m × 2^k for k ≥ 0. -/
def shl (m : Int) (k : Int) : Int := m * (2 ^ k.toNat : Nat)

def Dyad.add (x y : Dyad) : Dyad :=
  let e := min x.e y.e
  ⟨shl x.m (x.e - e) + shl y.m (y.e - e), e⟩
def Dyad.mul (x y : Dyad) : Dyad := ⟨x.m * y.m, x.e + y.e⟩
def Dyad.negate (x : Dyad) : Dyad := ⟨-x.m, x.e⟩
def Dyad.sum (xs : List Dyad) : Dyad := xs.foldl Dyad.add ⟨0, 0⟩
/-- x < y. -/
def Dyad.lt (x y : Dyad) : Bool := decide ((x.add y.negate).m < 0)

/-- The value of a finite number. -/
def Num.dyad : Num → Dyad
  | .fin neg m e => ⟨if neg then -(m : Int) else m, e⟩
  | _ => ⟨0, 0⟩

/-- `round` of an exact sum: a zero sum has the sign `zneg`. -/
def roundDyad (f : Ffmt) (x : Dyad) (zneg : Bool) (rm : Rmode) (w : Lane) (sat : Bool) : Val :=
  if x.m = 0 then ⟨f.withSign zneg 0, 0⟩
  else roundMag f (decide (x.m < 0)) (Mag.dyadic x.m.natAbs x.e) rm w sat

/-- The sign of an exact zero sum of two terms of signs `a` and `b` (R44). -/
def zeroSumNeg (a b : Bool) (rm : Rmode) : Bool := if a = b then a else decide (rm = .down)

/-- The rounding a word's operation uses: mode, word of mode 5, `.sat`. -/
structure Rctx where
  rm : Rmode
  w : Lane
  sat : Bool
deriving DecidableEq, Repr

/-- Mode RNE, without `.sat` (rne32 of R46). -/
def rneCtx : Rctx := ⟨.rne, 0, false⟩

/-- The sum of two numbers, either possibly infinite or zero, rounded to FP32; NaNs are settled by the caller. -/
def sumNum (x y : Num) (r : Rctx) : Val :=
  match x, y with
  | .inf a, .inf b => if a = b then roundInf .fp32 a r.sat else ⟨canonNan, fNV⟩
  | .inf a, _ => roundInf .fp32 a r.sat
  | _, .inf b => roundInf .fp32 b r.sat
  | _, _ => roundDyad .fp32 (x.dyad.add y.dyad) (zeroSumNeg x.neg y.neg r.rm) r.rm r.w r.sat

/-- The product of two numbers, exact; none when it is 0 × ∞. -/
def mulNum (x y : Num) : Option Num :=
  let s := x.neg != y.neg
  match x, y with
  | .inf _, y => if y.isZero then none else some (.inf s)
  | x, .inf _ => if x.isZero then none else some (.inf s)
  | .fin _ m e, .fin _ n g => some (.fin s (m * n) (e + g))
  | _, _ => none

/-- FADD (R210). -/
def fAdd (a b : Lane) (r : Rctx) : Val :=
  match firstNan [a, b] with
  | some v => v
  | none => sumNum (fp32 a) (fp32 b) r
/-- FSUB (R210). -/
def fSub (a b : Lane) (r : Rctx) : Val :=
  match firstNan [a, b] with
  | some v => v
  | none => sumNum (fp32 a) ((fp32 b).setNeg (!(fp32 b).neg)) r
/-- FMUL (R210). -/
def fMul (a b : Lane) (r : Rctx) : Val :=
  match firstNan [a, b] with
  | some v => v
  | none =>
    match mulNum (fp32 a) (fp32 b) with
    | none => ⟨canonNan, fNV⟩
    | some (.inf s) => roundInf .fp32 s r.sat
    | some (.fin s m e) => roundDyadic .fp32 s m e r.rm r.w r.sat
    | some (.nan _ _) => ⟨canonNan, fNV⟩

/-- ±a × b ± c with one rounding (R210): FFMA (false, false), FFMS (false, true), FNMA (true, false). The rule for
FFMA(0, ∞, c) of R44 applies to all three. -/
def fFma (negP negC : Bool) (a b c : Lane) (r : Rctx) : Val :=
  let inv : Bool := !(isNan32 a) && !(isNan32 b) && (mulNum (fp32 a) (fp32 b)).isNone
  match firstNan [a, b, c] with
  | some v => ⟨v.bits, v.fl ||| flagIf inv fNV⟩
  | none =>
    match mulNum (fp32 a) (fp32 b) with
    | none => ⟨canonNan, fNV⟩
    | some p =>
      let p := if negP then p.setNeg (!p.neg) else p
      let c := fp32 c
      let c := if negC then c.setNeg (!c.neg) else c
      sumNum p c r

/-- FP32 order of two non-NaN codes with −0 below +0 (R211): a key that rises with the value. -/
def orderKey (x : Lane) : Int :=
  let m : Int := (x.toNat % 2 ^ 31 : Nat)
  if bitAt x 31 then -m - 1 else m

/-- FMIN and FMAX (R211). -/
def fMinMax (isMax : Bool) (a b : Lane) : Val :=
  let fl := flagIf (isSnan32 a || isSnan32 b) fNV
  match isNan32 a, isNan32 b with
  | true, true => ⟨quiet a, fl⟩
  | true, false => ⟨b, fl⟩
  | false, true => ⟨a, fl⟩
  | false, false =>
    let aLess := decide (orderKey a ≤ orderKey b)
    ⟨if aLess != isMax then a else b, fl⟩

/-- x < y as FP32 values, +0 equal to −0; neither is a NaN. -/
def fLt (x y : Lane) : Bool :=
  let k := fun z : Lane => if z.toNat % 2 ^ 31 = 0 then (0 : Int) else
    (if bitAt z 31 then -((z.toNat % 2 ^ 31 : Nat) : Int) else (z.toNat % 2 ^ 31 : Nat))
  decide (k x < k y)
def fEq (x y : Lane) : Bool := !(fLt x y) && !(fLt y x)

/-- Whether FCMP's condition holds, and its flags (R212). -/
def fCmp (cond : FCond) (a b : Lane) : Bool × FlagSet :=
  let un := isNan32 a || isNan32 b
  let sn := isSnan32 a || isSnan32 b
  match cond with
  | .eq => (!un && fEq a b, flagIf sn fNV)
  | .ne => (un || !(fEq a b), flagIf sn fNV)
  | .un => (un, flagIf sn fNV)
  | .lt => (!un && fLt a b, flagIf un fNV)
  | .le => (!un && !(fLt b a), flagIf un fNV)
  | .gt => (!un && fLt b a, flagIf un fNV)
  | .ge => (!un && !(fLt a b), flagIf un fNV)

/-- FCLASS (R213). -/
def fClass (a : Lane) : Lane :=
  let neg := bitAt a 31
  match fp32 a with
  | .nan _ s => if s then 0x100#32 else 0x200#32
  | .inf _ => if neg then 0x001#32 else 0x080#32
  | .fin _ m _ =>
    if m = 0 then (if neg then 0x008#32 else 0x010#32)
    else if m < 2 ^ 23 then (if neg then 0x004#32 else 0x020#32)
    else (if neg then 0x002#32 else 0x040#32)

/-- x clamped to [lo, hi] (`sat` of R46). -/
def clampInt (lo hi x : Int) : Int := if x < lo then lo else if x > hi then hi else x

/-- An exact value rounded to an integer by the mode, with whether it was inexact. -/
def roundToInt (x : Dyad) (rm : Rmode) (w : Lane) : Int × Bool :=
  let neg := decide (x.m < 0)
  let (n, inexact) := roundUnits neg (Mag.dyadic x.m.natAbs x.e) 0 rm w
  (if neg then -(n : Int) else n, inexact)

/-- A floating value converted to an integer of `width` bits (R47): always clamped. -/
def convToInt (width : Nat) (x : Num) (r : Rctx) : Val :=
  let lo : Int := -(2 ^ (width - 1) : Nat)
  let hi : Int := (2 ^ (width - 1) : Nat) - 1
  let enc := fun v : Int => (BitVec.ofInt width v).setWidth 32
  match x with
  | .nan _ _ => ⟨0, fNV⟩
  | .inf neg => ⟨enc (if neg then lo else hi), fNV⟩
  | .fin _ _ _ =>
    let (v, inexact) := roundToInt x.dyad r.rm r.w
    if v < lo || v > hi then ⟨enc (clampInt lo hi v), fNV⟩ else ⟨enc v, flagIf inexact fNX⟩

/-- An FP32 code narrowed to `f` (R47). An infinity stays one in BF16 and E5M2 with `.sat` too, as R47's table has it (DEDUCED, log
entry 95). -/
def convNarrow (f : Ffmt) (a : Lane) (r : Rctx) : Val :=
  match fp32 a with
  | .nan neg sn =>
    let fl := flagIf sn fNV
    match f with
    | .bf16 => ⟨((quiet a) >>> 16), fl⟩
    | .e5m2 => ⟨f.withSign neg 0x7E, fl⟩
    | .e4m3 => ⟨f.withSign neg 0x7F, fl⟩
    | .fp32 => ⟨quiet a, fl⟩
  | .inf neg => if f.hasInf then roundInf f neg false else roundInf f neg r.sat
  | .fin neg m e => roundDyadic f neg m e r.rm r.w r.sat

/-- A scale factor of R41: a NaN, or a signed dyadic. -/
inductive Scale where
  | nan
  | fin (neg : Bool) (m : Nat) (e : Int)
deriving DecidableEq, Repr

/-- Scale 1.0. -/
def Scale.one : Scale := .fin false 1 0

/-- The scale a HEAD's lane 0 names (R39, R41). -/
def scaleOf (lane0 : Lane) : Scale :=
  let sc := (field lane0 0 8).toNat
  if sc = 0xFF then .nan
  else if bitAt lane0 16 then
    match Ffmt.e4m3.decode ((field lane0 8 8).setWidth 32) with
    | .fin neg m e => .fin neg m (e + sc - 127)
    | _ => .nan
  else .fin false 1 ((sc : Int) - 127)

/-- The value of an element under a scale, with the flag a 0 × ∞ raises (R41). -/
def scaledNum (x : Num) (s : Scale) : Num × FlagSet :=
  match s, x with
  | .nan, _ => (.nan false false, 0)
  | _, .nan neg sn => (.nan neg sn, 0)
  | .fin sn m _, .inf neg => if m = 0 then (.nan false false, fNV) else (.inf (neg != sn), 0)
  | .fin sn m e, .fin neg n g => (.fin (neg != sn) (n * m) (g + e), 0)

/-- A narrow float widened to FP32 under a scale (R47, R222): a NaN is quieted with its payload left-aligned, unless the
scale made it, which gives the canonical NaN. -/
def convWiden (f : Ffmt) (code : Lane) (s : Scale) (r : Rctx) : Val :=
  let x := f.decode code
  match x, s with
  | .nan neg sn, .fin _ _ _ =>
    let pay := (code.toNat % 2 ^ f.mb) * 2 ^ (23 - f.mb)
    ⟨quiet (Ffmt.fp32.withSign neg (0x7F800000 + pay)), flagIf sn fNV⟩
  | .nan _ sn, .nan => ⟨canonNan, flagIf sn fNV⟩
  | _, _ =>
    match scaledNum x s with
    | (.nan _ _, fl) => ⟨canonNan, fl⟩
    | (.inf neg, fl) => ⟨(roundInf .fp32 neg false).bits, fl⟩
    | (.fin neg m e, fl) =>
      let v := roundDyadic .fp32 neg m e r.rm r.w false
      ⟨v.bits, v.fl ||| fl⟩

/-- An integer widened to FP32 under a scale (R222); an integer zero is +0 (R44). -/
def convIntWiden (v : Int) (s : Scale) (r : Rctx) : Val :=
  match s with
  | .nan => ⟨canonNan, 0⟩
  | .fin sn m e =>
    let neg := (decide (v < 0)) != sn
    roundDyadic .fp32 neg (v.natAbs * m) e r.rm r.w false

end Sys2Proof.Machine
end

