-- ==== Sys2Proof/Machine/Reals.lean ====
section
/-! DEFINITION. Exact reals that no dyadic holds (R46: reals are exact), as enclosures: at precision q a real x answers
two integers lo ≤ x × 2^q ≤ hi. A floor is taken at rising precisions until both ends agree; where they never agree, up
to 4,000 bits past the point, x × 2^q is taken to be the integer between them (log entry 21). With them the special
functions (R225), renorm (R53), the directional operations (R54) and Gumbel noise (R57). -/

namespace Sys2Proof.Machine

/-- A real number by its enclosures. -/
abbrev CReal := Nat → Int × Int

/-- ⌊m / 2^k⌋ of an integer. -/
def ishr (m : Int) (k : Nat) : Int := m / (2 ^ k : Nat)
/-- An enclosure at precision p narrowed to precision p − k. -/
def narrow (x : Int × Int) (k : Nat) : Int × Int := (ishr x.1 k, ishr x.2 k + 1)

/-- The dyadic m × 2^e. -/
def CReal.dyad (x : Dyad) : CReal := fun q =>
  let k : Int := x.e + q
  if 0 ≤ k then (shl x.m k, shl x.m k) else
    let lo := ishr x.m (-k).toNat
    (lo, if shl lo (-k) = x.m then lo else lo + 1)
def CReal.ofInt (m : Int) : CReal := CReal.dyad ⟨m, 0⟩
def CReal.add (x y : CReal) : CReal := fun q => ((x q).1 + (y q).1, (x q).2 + (y q).2)
def CReal.negate (x : CReal) : CReal := fun q => (-(x q).2, -(x q).1)
def CReal.sub (x y : CReal) : CReal := x.add y.negate
/-- Bits of the integer part of an enclosure's ends. -/
def magBits (x : Int × Int) : Nat := (max x.1.natAbs x.2.natAbs).log2 + 1
def minOf (xs : List Int) : Int := xs.foldl min (xs.headD 0)
def maxOf (xs : List Int) : Int := xs.foldl max (xs.headD 0)
def CReal.mul (x y : CReal) : CReal := fun q =>
  let g := q + 4 + max (magBits (x 4)) (magBits (y 4))
  let (a, b) := x g
  let (c, d) := y g
  let ps := [a * c, a * d, b * c, b * d]
  narrow (minOf ps, maxOf ps) (2 * g - q)
/-- x × 2^k. -/
def CReal.scale (x : CReal) (k : Int) : CReal := fun q =>
  if 0 ≤ k + q then x (k + q).toNat else narrow (x 0) (-(k + q)).toNat
/-- √x of a real that is not negative. -/
def CReal.sqrt (x : CReal) : CReal := fun q =>
  let (a, b) := x (2 * q)
  ((isqrt a.toNat : Int), if (isqrt b.toNat) * (isqrt b.toNat) = b.toNat then (isqrt b.toNat : Int) else isqrt b.toNat + 1)
/-- x / y for y above 0; where y's enclosure reaches 0 the answer is as wide as the precision allows. -/
def CReal.div (x y : CReal) : CReal := fun q =>
  -- find a precision at which y's lower end has enough bits
  let y0 := [8, 64, 256, 1024, 4096].find? fun p => (y p).1 > 0
  match y0 with
  | none => (-(2 ^ (2 * q + 64) : Nat), (2 ^ (2 * q + 64) : Nat))
  | some p0 =>
    let g := q + 16 + p0 + 2 * (p0 - (y p0).1.toNat.log2) + magBits (x 4)
    let (a, b) := x g
    let (c, d) := y g
    let sc : Int := (2 ^ q : Nat)
    let cs := [a * sc / c, a * sc / d, b * sc / c, b * sc / d]
    (minOf cs, maxOf cs + 1)

/-- The terms of the series of atanh z = Σ z^(2i+1)/(2i+1), scaled by 2^q; `pw` is z^(2i+1). -/
def atanhSum (z2 : Nat) (q : Nat) : Nat → Nat → Nat → Nat → Nat
  | 0, _, _, acc => acc
  | fuel + 1, i, pw, acc =>
    if pw = 0 then acc else atanhSum z2 q fuel (i + 1) (pw * z2 / 2 ^ q) (acc + pw / (2 * i + 1))
/-- ln of num/den with 1 ≤ num/den ≤ 2, at precision q. -/
def lnFix (num den q : Nat) : Int × Int :=
  let g := q + 24 + q.log2
  let z := (num - den) * 2 ^ g / (num + den)
  let s := 2 * atanhSum (z * z / 2 ^ g) g (g + 8) 0 z 0
  narrow ((s : Int), s + 16 * (g + 8)) (g - q)
/-- ln 2. -/
def ln2Real : CReal := fun q => lnFix 2 1 q
/-- ln m × 2^e of a positive dyadic. -/
def lnDyad (m : Nat) (e : Int) : CReal := fun q =>
  let k := m.log2
  let t : Int := (k : Int) + e
  let g := q + 8 + t.natAbs.log2
  let (a, b) := lnFix m (2 ^ k) g
  let (c, d) := ln2Real g
  let (c, d) := if 0 ≤ t then (t * c, t * d) else (t * d, t * c)
  narrow (a + c, b + d) (g - q)
/-- ln of a positive real known to be of the size its enclosures show. -/
def CReal.ln (x : CReal) : CReal := fun q =>
  let p0 := ([8, 64, 256, 1024, 4096].find? fun p => (x p).1 > 0).getD 4096
  let g := q + 8 + 2 * p0
  let (a, b) := x g
  if a ≤ 0 then (-(2 ^ (q + 64) : Nat), (2 ^ (q + 64) : Nat))
  else ((lnDyad a.toNat (-(g : Int)) q).1, (lnDyad b.toNat (-(g : Int)) q).2)
def CReal.log2 (x : CReal) : CReal := (x.ln).div ln2Real
/-- log2 of a positive dyadic. -/
def log2Dyad (m : Nat) (e : Int) : CReal :=
  ((lnDyad m (-(m.log2 : Int))).div ln2Real).add (CReal.ofInt (m.log2 + e))

/-- Σ y^i / i! scaled by 2^g, for y in [0, 1). -/
def expSum (y g : Nat) : Nat → Nat → Nat → Nat → Nat
  | 0, _, _, acc => acc
  | fuel + 1, i, t, acc => if t = 0 then acc else expSum y g fuel (i + 1) (t * y / 2 ^ g / (i + 1)) (acc + t)
/-- e^(y / 2^g) for 0 ≤ y < 2^g: enclosure at precision g. -/
def expFix (y g : Nat) : Int × Int :=
  let s := expSum y g (g + 16) 0 (2 ^ g) 0
  ((s : Int), s + 8 * (g + 16))
/-- e^x. -/
def CReal.exp (x : CReal) : CReal := fun q =>
  -- x = n ln 2 + r with r in about [0, ln 2]
  let n : Int := (x 16).1 * 65536 / (ln2Real 16).2 / 65536
  let g := q + 24 + n.natAbs.log2 + (if 0 ≤ n then n.toNat else 0) + 8
  let (a, b) := (x.sub ((CReal.ofInt n).mul ln2Real)) g
  let clamp := fun v : Int => if v < 0 then 0 else if v ≥ (2 ^ g : Nat) then (2 ^ g : Nat) - 1 else v.toNat
  let lo := (expFix (clamp a) g).1
  let hi := (expFix (clamp b) g).2
  -- lo, hi stand at precision g; the value is 2^n times them
  let k : Int := (g : Int) - n - q
  if 0 ≤ k then narrow (lo, hi) k.toNat else (shl lo (-k), shl hi (-k))

/-- The extra bits at which a floor is tried. -/
def zivBits : List Nat := [48, 160, 640, 1600, 4000]

/-- ⌊x × 2^q⌋ from the first precision at which both ends agree. -/
def floorTry (x : CReal) (q : Int) : List Nat → Int × Bool
  | [] => (0, false)
  | [g] =>
    let p := (q + g).toNat
    let (a, b) := x p
    let k := ((p : Int) - q).toNat
    if ishr a k = ishr b k then (ishr a k, true) else (ishr b k, false)
  | g :: gs =>
    let p := (q + g).toNat
    let (a, b) := x p
    let k := ((p : Int) - q).toNat
    if ishr a k = ishr b k && a != shl (ishr a k) k then (ishr a k, true) else floorTry x q gs
/-- ⌊x × 2^q⌋ and whether x × 2^q is no integer. -/
def CReal.floorAt (x : CReal) (q : Int) : Int × Bool := floorTry x q zivBits

/-- ⌊log2 x⌋ of a positive real. -/
def CReal.ilog (x : CReal) : Int :=
  match zivBits.find? fun p => (x p).1 > 0 && (x p).1.toNat.log2 = (x p).2.toNat.log2 with
  | some p => (x p).1.toNat.log2 - (p : Int)
  | none => (x 4000).2.toNat.log2 - (4000 : Int)

/-- A positive real as a magnitude. -/
def Mag.real (x : CReal) : Mag :=
  ⟨x.ilog, fun q => ((x.floorAt q).1.toNat, (x.floorAt q).2)⟩

/-- A nonzero real rounded to FP32. -/
def roundReal (neg : Bool) (x : CReal) (r : Rctx) : Val := roundMag .fp32 neg (Mag.real x) r.rm r.w r.sat

/-- x × 2^k rounded to the nearest integer, ties to even (`rnd_q` of R53). -/
def CReal.nearest (x : CReal) (k : Int) : Int :=
  let (n, inexact) := x.floorAt (k + 1)
  let h := n / 2
  if n % 2 = 0 then h else if inexact then h + 1 else if h % 2 = 0 then h else h + 1

/-! ### Special functions (R225) -/

/-- The value of an FP32 code that is finite and not zero, in absolute value. -/
def absParts (x : Num) : Nat × Int := (x.dyad.m.natAbs, x.dyad.e)

/-- 2^(m × 2^e) for a positive real exponent of either sign. -/
def exp2Real (x : Dyad) : CReal := fun q =>
  -- integer part n, fraction f in [0,1)
  let n : Int := if 0 ≤ x.e then shl x.m x.e else ishr x.m (-x.e).toNat
  let f := x.add ⟨-n, 0⟩
  (((CReal.dyad f).mul ln2Real).exp.scale n) q

def fRcp (a : Lane) (r : Rctx) : Val :=
  match fp32 a with
  | .nan _ s => ⟨quiet a, flagIf s fNV⟩
  | .inf n => ⟨Ffmt.fp32.withSign n 0, 0⟩
  | .fin n m e => if m = 0 then ⟨Ffmt.fp32.withSign n 0x7F800000, fDZ⟩
    else roundMag .fp32 n (Mag.quot 1 m (-e)) r.rm r.w r.sat

def fRsq (a : Lane) (r : Rctx) : Val :=
  match fp32 a with
  | .nan _ s => ⟨quiet a, flagIf s fNV⟩
  | .inf n => if n then ⟨canonNan, fNV⟩ else ⟨0, 0⟩
  | .fin n m e =>
    if m = 0 then ⟨Ffmt.fp32.withSign n 0x7F800000, fDZ⟩
    else if n then ⟨canonNan, fNV⟩
    else
      -- 1/(m 2^e) = (2^(e mod 2))^-1 ... written with an even exponent
      let odd := e % 2 = 1
      let m' := if odd then m * 2 else m
      let h := (if odd then e - 1 else e) / 2
      roundMag .fp32 false (Mag.sqrtQuot 1 m' (-h)) r.rm r.w r.sat

def fSqrt (a : Lane) (r : Rctx) : Val :=
  match fp32 a with
  | .nan _ s => ⟨quiet a, flagIf s fNV⟩
  | .inf n => if n then ⟨canonNan, fNV⟩ else ⟨a, 0⟩
  | .fin n m e =>
    if m = 0 then ⟨a, 0⟩
    else if n then ⟨canonNan, fNV⟩
    else
      let odd := e % 2 = 1
      let m' := if odd then m * 2 else m
      let h := (if odd then e - 1 else e) / 2
      roundMag .fp32 false (Mag.sqrtQuot m' 1 h) r.rm r.w r.sat

def fExp2 (a : Lane) (r : Rctx) : Val :=
  match fp32 a with
  | .nan _ s => ⟨quiet a, flagIf s fNV⟩
  | .inf n => ⟨if n then 0 else a, 0⟩
  | .fin n m e =>
    let x := (fp32 a).dyad
    if m = 0 then ⟨0x3F800000#32, 0⟩
    else if x.lt ⟨-400, 0⟩ then roundMag .fp32 false Mag.tiny r.rm r.w r.sat
    else if Dyad.lt ⟨400, 0⟩ x then roundMag .fp32 false (Mag.dyadic 1 400) r.rm r.w r.sat
    else if 0 ≤ e || (shiftNat m e).2 = false then
      let k : Int := if 0 ≤ e then shl m e else ((shiftNat m e).1 : Int)
      roundMag .fp32 false (Mag.dyadic 1 (if n then -k else k)) r.rm r.w r.sat
    else roundReal false (exp2Real x) r

/-- LOG2 (base 2) and LN. -/
def fLog (base2 : Bool) (a : Lane) (r : Rctx) : Val :=
  match fp32 a with
  | .nan _ s => ⟨quiet a, flagIf s fNV⟩
  | .inf n => if n then ⟨canonNan, fNV⟩ else ⟨a, 0⟩
  | .fin n m e =>
    if m = 0 then ⟨0xFF800000#32, fDZ⟩
    else if n then ⟨canonNan, fNV⟩
    else
      let k : Int := (m.log2 : Int) + e
      if m = 2 ^ m.log2 then
        if base2 then roundDyad .fp32 ⟨k, 0⟩ false r.rm r.w r.sat
        else if k = 0 then ⟨0, 0⟩
        else
          let v : CReal := (CReal.ofInt k.natAbs).mul ln2Real
          roundReal (decide (k < 0)) v r
      else
        let v := if base2 then log2Dyad m e else lnDyad m e
        if k < 0 then roundReal true v.negate r else roundReal false v r

def fTanh (a : Lane) (r : Rctx) : Val :=
  match fp32 a with
  | .nan _ s => ⟨quiet a, flagIf s fNV⟩
  | .inf n => ⟨Ffmt.fp32.withSign n 0x3F800000, 0⟩
  | .fin n m e =>
    if m = 0 then ⟨a, 0⟩
    else if Dyad.lt ⟨40, 0⟩ ⟨m, e⟩ then roundMag .fp32 n Mag.justBelowOne r.rm r.w r.sat
    else
      let e2a := CReal.exp (CReal.dyad ⟨m, e + 1⟩)
      roundReal n ((e2a.sub (CReal.ofInt 1)).div (e2a.add (CReal.ofInt 1))) r

def fSigm (a : Lane) (r : Rctx) : Val :=
  match fp32 a with
  | .nan _ s => ⟨quiet a, flagIf s fNV⟩
  | .inf n => ⟨if n then 0 else 0x3F800000#32, 0⟩
  | .fin n m e =>
    if m = 0 then ⟨0x3F000000#32, 0⟩
    else if n then
      if Dyad.lt ⟨400, 0⟩ ⟨m, e⟩ then roundMag .fp32 false Mag.tiny r.rm r.w r.sat
      else
        let ea := CReal.exp (CReal.dyad ⟨m, e⟩)
        roundReal false ((CReal.ofInt 1).div (ea.add (CReal.ofInt 1))) r
    else if Dyad.lt ⟨60, 0⟩ ⟨m, e⟩ then roundMag .fp32 false Mag.justBelowOne r.rm r.w r.sat
    else
      let ea := CReal.exp (CReal.dyad ⟨m, e⟩)
      roundReal false (ea.div (ea.add (CReal.ofInt 1))) r

/-- arctan (1/n) scaled by 2^g, for π by Machin's formula. -/
def atanInv (n g : Nat) : Nat → Nat → Nat → Int → Int
  | 0, _, _, acc => acc
  | fuel + 1, i, pw, acc =>
    if pw = 0 then acc
    else atanInv n g fuel (i + 1) (pw / (n * n)) (if i % 2 = 0 then acc + (pw / (2 * i + 1) : Nat) else acc - (pw / (2 * i + 1) : Nat))
def piReal : CReal := fun q =>
  let g := q + 24 + q.log2
  let p := 16 * atanInv 5 g (g + 8) 0 (2 ^ g / 5) 0 - 4 * atanInv 239 g (g + 8) 0 (2 ^ g / 239) 0
  narrow (p - 64 * (g + 8), p + 64 * (g + 8)) (g - q)
/-- Σ (−1)^i x^(2i+1) / (i! (2i+1)) scaled by 2^g; `t` is x^(2i+1)/i!. -/
def erfSum (x2 g : Nat) : Nat → Nat → Nat → Int → Int
  | 0, _, _, acc => acc
  | fuel + 1, i, t, acc =>
    if t = 0 then acc
    else erfSum x2 g fuel (i + 1) (t * x2 / 2 ^ g / (i + 1))
      (if i % 2 = 0 then acc + (t / (2 * i + 1) : Nat) else acc - (t / (2 * i + 1) : Nat))
/-- erf of a positive dyadic below 8. -/
def erfReal (m : Nat) (e : Int) : CReal := fun q =>
  let g := q + 160
  let x := (shiftNat m (e + g)).1
  let fuel := g + 256
  let s := erfSum (x * x / 2 ^ g) g fuel 0 x 0
  -- each term errs by less than 2^100 units at precision g (the largest partial term is below e^64)
  let err : Int := (2 ^ 120 : Nat)
  let series : CReal := fun p => if p ≤ g then narrow (s - err, s + err) (g - p) else (shl (s - err) ((p - g : Nat)), shl (s + err) ((p - g : Nat)))
  ((series.mul (CReal.ofInt 2)).div piReal.sqrt) q

def fErf (a : Lane) (r : Rctx) : Val :=
  match fp32 a with
  | .nan _ s => ⟨quiet a, flagIf s fNV⟩
  | .inf n => ⟨Ffmt.fp32.withSign n 0x3F800000, 0⟩
  | .fin n m e =>
    if m = 0 then ⟨a, 0⟩
    else if Dyad.lt ⟨7, 0⟩ ⟨m, e⟩ then roundMag .fp32 n Mag.justBelowOne r.rm r.w r.sat
    else roundReal n (erfReal m e) r

/-! ### Gumbel noise (R57) -/

/-- g = rne32(−ln(−rne32(ln u))) with u = (2k + 1) × 2^-25; no flag but NX. -/
def gumbel (h : Lane) : Val :=
  let k := (h >>> 8).toNat
  let l := roundReal true (lnDyad (2 * k + 1) (-25)).negate rneCtx
  let g := fLog false (l.bits &&& 0x7FFFFFFF#32) rneCtx
  ⟨if g.bits = 0 then 0 else g.bits ^^^ 0x80000000#32, (l.fl ||| g.fl) &&& fNX⟩
/-- The noise of vocabulary entry v (R57). -/
def gumbelNoise (seed sq pos v : Lane) : Val :=
  gumbel (kmix (kmix (kmix (seed ^^^ sq) ^^^ pos) ^^^ v))

/-! ### Directions (R52 to R54) -/

/-- A direction: n Q1.14 components and a Q8.24 norm code (R52). -/
structure Direction where
  comps : List (BitVec 16)
  norm : Lane
deriving DecidableEq, Repr

/-- The norm code of the zero vector (R52). -/
def zeroNorm : Lane := 0x80000000#32
/-- The norm code of the invalid direction (R52). -/
def invalidNorm : Lane := 0x7FFFFFFF#32
def Direction.zero (n : Nat) : Direction := ⟨List.replicate n 0, zeroNorm⟩
def Direction.invalid (n : Nat) : Direction := ⟨List.replicate n 0, invalidNorm⟩
def Direction.isZero (d : Direction) : Bool := d.norm == zeroNorm
def Direction.isInvalid (d : Direction) : Bool := d.norm == invalidNorm
def Direction.dim (d : Direction) : Nat := d.comps.length

/-- A direction with the flags its operation raises. -/
structure DirVal where
  dir : Direction
  fl : FlagSet
deriving DecidableEq, Repr

/-- The norm limits of `renorm` and DSCL (R53, R54). -/
def dirLimited (comps : List (BitVec 16)) (nu : Int) : DirVal :=
  if nu > 0x7FFFFFFE then ⟨.invalid comps.length, fDOF⟩
  else if nu < -0x7FFFFFFF then ⟨.zero comps.length, fUF⟩
  else ⟨⟨comps, BitVec.ofInt 32 nu⟩, 0⟩

/-- `renorm` of x_i = m_i × 2^e × 2^(k × 2^-24) (R53), where the 2^-24 part of the norm is carried as the code k. -/
def renormDyad (ms : List Int) (e : Int) (k : Int) : DirVal :=
  let s2 : Nat := (ms.map fun m => m.natAbs * m.natAbs).foldl (· + ·) 0
  if s2 = 0 then ⟨.zero ms.length, 0⟩
  else
    -- log2 len = e + (log2 s2) / 2
    let lg := (log2Dyad s2 (2 * e)).nearest 23
    let comps := ms.map fun m =>
      -- |m|/√s2 × 2^14 to nearest even, by 2^15 |m| / √s2
      let n1 := isqrt (m.natAbs * m.natAbs * 2 ^ 30 / s2)
      let exact := n1 * n1 * s2 == m.natAbs * m.natAbs * 2 ^ 30
      let h := n1 / 2
      let c := if n1 % 2 = 0 then h else if exact && h % 2 = 0 then h else h + 1
      BitVec.ofInt 16 (if m < 0 then -(c : Int) else c)
    dirLimited comps (lg + k)

/-- `renorm` of x_i = (a_i + b_i t) × 2^e × 2^(k × 2^-24) with t = 2^(r × 2^-24), 0 < r < 2^24. -/
def renormMixed (as bs : List Int) (r : Nat) (e k : Int) : DirVal :=
  let t : CReal := exp2Real ⟨r, -24⟩
  let dot := fun (x y : List Int) => (List.zipWith (· * ·) x y).foldl (· + ·) 0
  let s := ((CReal.ofInt (dot as as)).add ((CReal.ofInt (2 * dot as bs)).mul t)).add ((CReal.ofInt (dot bs bs)).mul (t.mul t))
  let lg := ((CReal.log2 s).add (CReal.ofInt (2 * e))).nearest 23
  let len := s.sqrt
  let comps := List.zipWith (fun a b =>
    BitVec.ofInt 16 (((((CReal.ofInt a).add ((CReal.ofInt b).mul t)).div len)).nearest 14)) as bs
  dirLimited comps (lg + k)

/-- `renorm` of 2^(ka × 2^-24) × 2^ea × a + 2^(kb × 2^-24) × 2^eb × b (R53, R54). -/
def renormPair (as bs : List Int) (ka kb ea eb : Int) : DirVal :=
  let zeroA := as.all (· == 0)
  let zeroB := bs.all (· == 0)
  if zeroB then renormDyad as ea ka
  else if zeroA then renormDyad bs eb kb
  else
    let d := kb - ka
    let j := d / (2 ^ 24 : Nat)
    let r := (d % (2 ^ 24 : Nat)).toNat
    let m := min ea (eb + j)
    let as' := as.map fun a => shl a (ea - m)
    let bs' := bs.map fun b => shl b (eb + j - m)
    if r = 0 then renormDyad (List.zipWith (· + ·) as' bs') m ka
    else renormMixed as' bs' r m ka

/-- The components as integers, in units of 2^-14. -/
def Direction.ints (d : Direction) : List Int := if d.isZero || d.isInvalid then d.comps.map fun _ => 0 else d.comps.map (·.toInt)
/-- The norm code as an integer; 0 where the norm stands for no number. -/
def Direction.nu (d : Direction) : Int := if d.isZero || d.isInvalid then 0 else d.norm.toInt

/-- DADD and DSUB (R54, R228); the operands have one dimension. -/
def dAdd (negB : Bool) (a b : Direction) : DirVal :=
  if a.isInvalid || b.isInvalid then ⟨.invalid a.dim, fNV⟩
  else renormPair a.ints (if negB then b.ints.map (- ·) else b.ints) a.nu b.nu (-14) (-14)

/-- DNRM (R228). -/
def dNrm (a : Direction) : DirVal :=
  if a.isInvalid then ⟨.invalid a.dim, fNV⟩ else renormDyad a.ints (-14) a.nu

/-- DNEG (R228): a component 0x8000 becomes 0x7FFF and raises SAT. -/
def dNeg (a : Direction) : DirVal :=
  if a.isInvalid then ⟨.invalid a.dim, fNV⟩
  else if a.isZero then ⟨.zero a.dim, 0⟩
  else ⟨⟨a.comps.map fun c => if c = 0x8000#16 then 0x7FFF#16 else -c, a.norm⟩,
        flagIf (a.comps.any (· == 0x8000#16)) fSAT⟩

/-- DSCL by the Q8.24 code k (R54, R228). -/
def dScl (a : Direction) (k : Lane) : DirVal :=
  if a.isInvalid then ⟨.invalid a.dim, fNV⟩
  else if a.isZero then ⟨.zero a.dim, 0⟩
  else dirLimited a.comps (a.norm.toInt + k.toInt)

/-- DLERP by the FP32 t (R228). -/
def dLerp (a b : Direction) (t : Lane) : DirVal :=
  match fp32 t with
  | .fin n m e =>
    if a.isInvalid || b.isInvalid then ⟨.invalid a.dim, fNV⟩
    else
      let td : Dyad := ⟨if n then -(m : Int) else m, e⟩
      let ud := (Dyad.mk 1 0).add td.negate
      renormPair (a.ints.map (ud.m * ·)) (b.ints.map (td.m * ·)) a.nu b.nu (ud.e - 14) (td.e - 14)
  | _ => ⟨.invalid a.dim, fNV⟩

/-- DFROM of the FP32 elements (R54, R226). -/
def dFrom (xs : List Lane) (n : Nat) : DirVal :=
  let ns := xs.map fp32
  if ns.any fun x => x.isNan || x.isInf then ⟨.invalid n, fNV⟩
  else
    let ds := ns.map Num.dyad
    let e := minOf (ds.map (·.e))
    renormDyad (ds.map fun d => shl d.m (d.e - e)) e 0

/-- 2^(ν × 2^-24) × m × 2^e rounded to FP32, m not 0. -/
def roundScaled (m : Int) (e : Int) (nu : Int) (r : Rctx) : Val :=
  let j := nu / (2 ^ 24 : Nat)
  let f := (nu % (2 ^ 24 : Nat)).toNat
  if f = 0 then roundMag .fp32 (decide (m < 0)) (Mag.dyadic m.natAbs (e + j)) r.rm r.w r.sat
  else roundReal (decide (m < 0)) (((CReal.ofInt m.natAbs).mul (exp2Real ⟨f, -24⟩)).scale (e + j)) r

/-- DDOT, with `.true` scaled by the norms (R54, R227). -/
def dDot (isTrue : Bool) (a b : Direction) (r : Rctx) : Val :=
  if a.isInvalid || b.isInvalid then ⟨canonNan, fNV⟩
  else if a.isZero || b.isZero then ⟨0, 0⟩
  else
    let ps := List.zipWith (· * ·) a.ints b.ints
    let s := ps.foldl (· + ·) 0
    if s = 0 then
      let cancels := ps.any (fun p => decide (p > 0)) && ps.any (fun p => decide (p < 0))
      ⟨Ffmt.fp32.withSign (cancels && decide (r.rm = .down)) 0, 0⟩
    else if isTrue then roundScaled s (-28) (a.nu + b.nu) r
    else roundDyad .fp32 ⟨s, -28⟩ false r.rm r.w r.sat

/-- DTO: element i is round(fp32, c_i × 2^ν) (R54, R226); `w i` is element i's word of mode 5. -/
def dTo (a : Direction) (rm : Rmode) (w : Nat → Lane) : List Val :=
  if a.isInvalid then a.comps.map fun _ => ⟨canonNan, fNV⟩
  else if a.isZero then a.comps.map fun _ => ⟨0, 0⟩
  else a.comps.zipIdx.map fun (c, i) =>
    if c = 0 then ⟨0, 0⟩ else roundScaled c.toInt (-14) a.nu ⟨rm, w i, false⟩

end Sys2Proof.Machine
end

