-- ==== Sys2Proof/Machine/Scalar.lean ====
section
/-! DEFINITION. Integer and bit operations at either width (R219 to R221, R249), element conversion (R222), scaled
dots within a lane (R223), the O4 block (R37, R38, R224) and block quantisation (R224). -/

namespace Sys2Proof.Machine

/-- An integer result clamped to the signed range of `n` bits with SAT, or wrapped (R47, R219). -/
def clampWrap (n : Nat) (sat : Bool) (x : Int) : BitVec n × FlagSet :=
  let lo : Int := -(2 ^ (n - 1) : Nat)
  let hi : Int := (2 ^ (n - 1) : Nat) - 1
  if sat && (decide (x < lo) || decide (x > hi)) then (BitVec.ofInt n (clampInt lo hi x), fSAT)
  else (BitVec.ofInt n x, 0)

def iAdd {n : Nat} (sat : Bool) (a b : BitVec n) : BitVec n × FlagSet := clampWrap n sat (a.toInt + b.toInt)
def iSub {n : Nat} (sat : Bool) (a b : BitVec n) : BitVec n × FlagSet := clampWrap n sat (a.toInt - b.toInt)
def iMul {n : Nat} (sat : Bool) (a b : BitVec n) : BitVec n × FlagSet := clampWrap n sat (a.toInt * b.toInt)
/-- High half of the signed product. -/
def iMulH {n : Nat} (a b : BitVec n) : BitVec n := BitVec.ofInt n (ishr (a.toInt * b.toInt) n)
/-- High half of the unsigned product. -/
def iMulHU {n : Nat} (a b : BitVec n) : BitVec n := BitVec.ofNat n (a.toNat * b.toNat / 2 ^ n)
def iMinOp {n : Nat} (a b : BitVec n) : BitVec n := if a.slt b then a else b
def iMaxOp {n : Nat} (a b : BitVec n) : BitVec n := if a.slt b then b else a
def uMinOp {n : Nat} (a b : BitVec n) : BitVec n := if a.ult b then a else b
def uMaxOp {n : Nat} (a b : BitVec n) : BitVec n := if a.ult b then b else a

/-- ICMP's conditions (R220). -/
def iCmp {n : Nat} (cond : ICond) (a b : BitVec n) : Bool :=
  match cond with
  | .eq => a == b | .ne => a != b
  | .lt => a.slt b | .le => !(b.slt a) | .gt => b.slt a | .ge => !(a.slt b)
  | .ltu => a.ult b | .leu => !(b.ult a) | .gtu => b.ult a | .geu => !(a.ult b)

/-- The shift count: the low five or six bits of b (R221, R249). -/
def shiftCount {n : Nat} (b : BitVec n) : Nat := b.toNat % n
def shlOp {n : Nat} (a b : BitVec n) : BitVec n := a <<< shiftCount b
def shrOp {n : Nat} (a b : BitVec n) : BitVec n := a >>> shiftCount b
def sarOp {n : Nat} (a b : BitVec n) : BitVec n := a.sshiftRight (shiftCount b)
def rotlOp {n : Nat} (a b : BitVec n) : BitVec n := a.rotateLeft (shiftCount b)
def popcOp {n : Nat} (a : BitVec n) : BitVec n :=
  BitVec.ofNat n ((List.range n).foldl (fun k i => if bitAt a i then k + 1 else k) 0)
/-- Leading zeros; the width for 0. -/
def clzOp {n : Nat} (a : BitVec n) : BitVec n :=
  BitVec.ofNat n (if a = 0 then n else n - 1 - a.toNat.log2)
/-- Trailing zeros; the width for 0. -/
def ctzOp {n : Nat} (a : BitVec n) : BitVec n :=
  BitVec.ofNat n (((List.range n).find? fun i => bitAt a i).getD n)

/-- The element of width `w` at position `p` of a lane. -/
def elemAt (x : Lane) (w p : Nat) : Lane := (x >>> (w * p)) &&& BitVec.ofNat 32 (2 ^ w - 1)
/-- The lane with that element replaced. -/
def setElem (x : Lane) (w p : Nat) (v : Lane) : Lane :=
  let m : Lane := BitVec.ofNat 32 (2 ^ w - 1)
  (x &&& ~~~(m <<< (w * p))) ||| ((v &&& m) <<< (w * p))

/-- The value of an int8 element. -/
def i8Val (x : Lane) : Int := (x.setWidth 8).toInt

/-- CVT of one element (R222): narrowing forms write element p of b, widening forms read element p of a. -/
def cvtLane (pair : Pair) (p : Nat) (a b : Lane) (s : Scale) (r : Rctx) : Val :=
  match pair with
  | .f32_b16 => let v := convNarrow .bf16 a r; ⟨setElem b 16 p v.bits, v.fl⟩
  | .f32_e4 => let v := convNarrow .e4m3 a r; ⟨setElem b 8 p v.bits, v.fl⟩
  | .f32_e5 => let v := convNarrow .e5m2 a r; ⟨setElem b 8 p v.bits, v.fl⟩
  | .f32_i32 => convToInt 32 (fp32 a) r
  | .f32_i8 => let v := convToInt 8 (fp32 a) r; ⟨setElem b 8 p v.bits, v.fl⟩
  | .b16_f32 => convWiden .bf16 (elemAt a 16 p) Scale.one r
  | .e4_f32 => convWiden .e4m3 (elemAt a 8 p) s r
  | .e5_f32 => convWiden .e5m2 (elemAt a 8 p) s r
  | .i32_f32 => convIntWiden a.toInt Scale.one r
  | .i8_f32 => convIntWiden (i8Val (elemAt a 8 p)) s r
  | .i32_i8 =>
    let (v, fl) := clampWrap 8 r.sat a.toInt
    ⟨setElem b 8 p (v.setWidth 32), fl⟩

/-- c plus the scaled sum of products, formed exactly and rounded once (R223). `es` are the element pairs. Products of
infinities of both signs are an invalid sum by R44, whichever signs the factors have (DEDUCED, log entry 99). -/
def scaledDot (es : List (Num × Num)) (sa sb : Scale) (c : Lane) (r : Rctx) : Val :=
  let nan := es.any fun (x, y) => x.isNan || y.isNan
  let snan := es.any fun (x, y) => x.isSnan || y.isSnan
  match sa, sb with
  | .fin sna ma ea, .fin snb mb eb =>
    if nan then ⟨canonNan, flagIf snan fNV⟩
    else
      let prods := es.map fun (x, y) => mulNum x y
      if prods.any Option.isNone then ⟨canonNan, fNV⟩
      else
        let ps := prods.filterMap id
        let pos := ps.any fun p => p.isInf && !p.neg
        let neg := ps.any fun p => p.isInf && p.neg
        let flip := sna != snb
        let zeroScale := ma * mb == 0
        if (pos && neg) || ((pos || neg) && zeroScale) then ⟨canonNan, fNV⟩
        else
          match firstNan [c] with
          | some v => v
          | none =>
            if pos || neg then sumNum (.inf (neg != flip)) (fp32 c) r
            else
              let d := Dyad.sum (ps.map Num.dyad)
              let d := d.mul ⟨if flip then -((ma * mb : Nat) : Int) else ((ma * mb : Nat) : Int), ea + eb⟩
              if d.m = 0 then
                -- an exact zero dot is +0, and the sum with c follows R44
                sumNum (.fin false 0 0) (fp32 c) r
              else sumNum (.fin (decide (d.m < 0)) d.m.natAbs d.e) (fp32 c) r
  | _, _ => ⟨canonNan, flagIf snan fNV⟩

/-- An integer as a number. -/
def numOfInt (v : Int) : Num := .fin (decide (v < 0)) v.natAbs 0

/-- What decoding an O4 block gives: its elements, or poison O4TAIL (false) or O4DENSE (true). -/
inductive O4Block where
  | ok (es : List Num)
  | tail
  | dense
deriving DecidableEq, Repr

/-- Decoding of an O4 block from slot i upward (R37, R38); `valid i` says whether slot i lies in a valid lane,
`skip` counts slots consumed by an outlier, `left` the outliers still allowed. The first fault met from slot 0 gives the code, and at one
marker O4TAIL goes before O4DENSE (DESIGN CHOICE, log entry 96). -/
def o4From (slots : List (BitVec 4)) (valid : Nat → Bool) : List (BitVec 4) → Nat → Nat → Nat → List Num → O4Block
  | [], _, _, _, acc => .ok acc.reverse
  | q :: rest, i, skip, left, acc =>
    if skip > 0 then o4From slots valid rest (i + 1) (skip - 1) left (numOfInt 0 :: acc)
    else if !(valid i) then o4From slots valid rest (i + 1) 0 left (numOfInt 0 :: acc)
    else if q != 8#4 then o4From slots valid rest (i + 1) 0 left (numOfInt q.toInt :: acc)
    else
      match rest with
      | h :: l :: _ =>
        if !(valid (i + 1) && valid (i + 2)) then .tail
        else if left = 0 then .dense
        else
          let code : Lane := BitVec.ofNat 32 (h.toNat * 16 + l.toNat)
          o4From slots valid rest (i + 1) 2 (left - 1) (Ffmt.e4m3.decode code :: acc)
      | _ => .tail
/-- The elements of an O4 block of declared burst length `b` (R37, R38). -/
def o4Decode (slots : List (BitVec 4)) (valid : Nat → Bool) (b : Nat) : O4Block :=
  o4From slots valid slots 0 0 (16 * b) []

/-- The 128 nibbles of a token. -/
def nibbles (p : Lanes) : List (BitVec 4) := (List.range 128).map fun i => p.extractLsb' (4 * i) 4
/-- The payload whose elements of width `w` are given in order. -/
def packElems (w : Nat) (xs : List (BitVec w)) : Lanes :=
  xs.zipIdx.foldl (fun acc (x, i) => acc ||| (x.setWidth 512 <<< (w * i))) 0

/-- ⌈log2 (x / m)⌉ of positive dyadics. -/
def ceilLog2Quot (x : Dyad) (m : Nat) : Int :=
  let g := Mag.quot x.m.natAbs m x.e
  -- exact power of two?
  if (g.floorAt (-g.ilog)).1 = 1 && !(g.floorAt (-g.ilog)).2 then g.ilog else g.ilog + 1

/-- The absolute value of a finite dyadic. -/
def Dyad.abs (x : Dyad) : Dyad := ⟨x.m.natAbs, x.e⟩
def dyadMax (xs : List Dyad) : Dyad := xs.foldl (fun a b => if a.lt b then b else a) ⟨0, 0⟩
/-- The `n`-th largest of the list (n from 1): the greatest element that at least n elements reach. -/
def nthLargest (xs : List Dyad) (n : Nat) : Dyad :=
  dyadMax (xs.filter fun x => n ≤ (xs.filter fun y => !(y.lt x)).length)

/-- The scale a block is quantised with (R224). `m` is maxfin, or 7 for QO4, whose r is the 17th largest magnitude if
positive. -/
def quantScale (qo4 : Bool) (m : Nat) (xs : List Num) : Nat :=
  if xs.any fun x => x.isNan || x.isInf then 0xFF
  else
    let ds := xs.map fun x => x.dyad.abs
    if ds.all fun d => d.m == 0 then 0x7F
    else
      let t := nthLargest ds 17
      let r := if qo4 && decide (t.m > 0) then t else dyadMax ds
      (clampInt 0 254 (127 + ceilLog2Quot r m)).toNat

/-- The targets of QBLK. -/
inductive QFmt where
  | e4 | e5 | i8
deriving DecidableEq, Repr
def QFmt.maxfin : QFmt → Nat
  | .e4 => 448 | .e5 => 57344 | .i8 => 127

/-- A quantised block: scale, element codes, flags. -/
structure Quant where
  scale : Nat
  codes : List (BitVec 8)
  fl : FlagSet
deriving DecidableEq, Repr

/-- QBLK (R224): each element times 2^(127 − s), rounded to the format, with the flags of `round`. `w i` is element i's word of mode 5. -/
def qblk (f : QFmt) (xs : List Num) (rm : Rmode) (w : Nat → Lane) : Quant :=
  let s := quantScale false f.maxfin xs
  if s = 0xFF then ⟨s, xs.map fun _ => 0, fNV⟩
  else if xs.all fun x => x.dyad.m == 0 then ⟨s, xs.map fun _ => 0, 0⟩
  else
    let one := fun (x : Num) (i : Nat) =>
      let y : Dyad := ⟨x.dyad.m, x.dyad.e + 127 - s⟩
      match f with
      | .i8 =>
        let (v, ix) := roundToInt y rm (w i)
        (BitVec.ofInt 8 v, flagIf ix fNX)
      | .e4 => let v := roundDyad .e4m3 y x.neg rm (w i) false; (v.bits.setWidth 8, v.fl)
      | .e5 => let v := roundDyad .e5m2 y x.neg rm (w i) false; (v.bits.setWidth 8, v.fl)
    let rs := xs.zipIdx.map fun (x, i) => one x i
    ⟨s, rs.map (·.1), rs.foldl (fun f r => f ||| r.2) 0⟩

/-- QO4's encoding from slot i upward (R224): slots, saturation, inexactness. -/
def qo4From (s : Nat) (rm : Rmode) (w : Nat → Lane) : List Num → Nat → Nat → Nat → List (BitVec 4) → Bool → Bool →
    List (BitVec 4) × Bool × Bool
  | [], _, _, _, acc, sat, nx => (acc.reverse, sat, nx)
  | x :: rest, i, skip, n, acc, sat, nx =>
    if skip > 0 then qo4From s rm w rest (i + 1) (skip - 1) n acc sat (nx || !x.isZero)
    else
      let y : Dyad := ⟨x.dyad.m, x.dyad.e + 127 - s⟩
      let (q, ix) := roundToInt y rm (w i)
      if q.natAbs ≤ 7 then qo4From s rm w rest (i + 1) 0 n (BitVec.ofInt 4 q :: acc) sat (nx || ix)
      else if i ≤ 125 && n < 16 then
        let e := roundDyad .e4m3 y x.neg rm (w i) true
        qo4From s rm w rest (i + 1) 2 (n + 1)
          (e.bits.extractLsb' 0 4 :: e.bits.extractLsb' 4 4 ::
            8#4 :: acc) (sat || e.fl &&& fSAT != 0) (nx || e.fl &&& fNX != 0)
      else qo4From s rm w rest (i + 1) 0 n (BitVec.ofInt 4 (if q < 0 then -7 else 7) :: acc) true true
/-- QO4 of 128 elements (R224): scale, slots, flags. -/
def qo4 (xs : List Num) (rm : Rmode) (w : Nat → Lane) : Nat × List (BitVec 4) × FlagSet :=
  let s := quantScale true 7 xs
  if s = 0xFF then (s, xs.map fun _ => 0, fNV)
  else
    let (slots, sat, nx) := qo4From s rm w xs 0 0 0 [] false false
    (s, slots, flagIf sat fSAT ||| flagIf nx fNX)

end Sys2Proof.Machine
end

