-- ==== Sys2Proof/Config.lean ====
section
/-! DEFINITION. What the Z8's spec fixes as figures (R3 and the state cards), and the free values: constants without a
body, so that no proof can see them (log entries 1 and 6). -/

namespace Sys2Proof

/-! ### Figures -/

/-- Cycles a block may wait before it is overdue (R17). -/
def Config.overdueCycles : Nat := 4096
/-- Executions of one block in a row (R149). -/
def Config.runLimit : Nat := 64
/-- Live frames of a block tile (R90). -/
def Config.framesPerTile : Nat := 256
/-- Slots of an edge buffer (R143). -/
def Config.edgeSlots : Nat := 32
/-- Entries of a VPE's matching store (R145). -/
def Config.matchEntries : Nat := 64
/-- Tokens of a slash pile (R142). -/
def Config.pileTokens : Nat := 1048576
/-- Entries of a die's log deck (R150). -/
def Config.deckEntries : Nat := 4096
/-- Stores a segment's buffer holds (R278). -/
def Config.segStores : Nat := 64
/-- Sends and forks a segment's buffer holds (R278). -/
def Config.segSends : Nat := 16
/-- Tokens of an ingress port's buffer (R142). -/
def Config.portSlots : Nat := 256
/-- Entries of a die's backfill queue (R142). -/
def Config.backfillEntries : Nat := 8192
/-- Claims of a die's skidder (R155). -/
def Config.claimLimit : Nat := 64
/-- Requests a notification location holds (R157). -/
def Config.noteEntries : Nat := 16
/-- The lease length (R115). -/
def Config.lease : Nat := 256
/-- Entries of a stand's TLB and of a die's translation cache (R120). -/
def Config.tlbEntries : Nat := 2048
def Config.tcacheEntries : Nat := 65536
/-- Entries of a frontier unit's delta table and spill table, and of a hub's merge buffer (R159). -/
def Config.deltaEntries : Nat := 1024
def Config.spillEntries : Nat := 4096
def Config.hubEntries : Nat := 256
/-- Cycles between a hub's merges (R164). -/
def Config.mergeCycles : Nat := 64
/-- Bytes of a die's slash pile (R147): 128 for each token. -/
def Config.pileBytes : Nat := 128 * Config.pileTokens
/-- Entries of the mapping cache (R186). -/
def Config.mapCacheEntries : Nat := 64
/-- Bytes of a die's backed window (R116). -/
def Config.backedBytes : Nat := 160000000000
/-- Slots of a Syivo switch (R304). -/
def Config.switchSlots : Nat := 256
/-- Clocks of a microsecond: 1,750 at 1.75 GHz (R3), 1,312 (1.3125 GHz, rounded down) when hot (R348). -/
def Config.cyclesPerUs (hot : Bool) : Nat := if hot then 1312 else 1750
/-- States of an automaton and bytes a port may hold back, at most (R187, R189). -/
def Config.stopStates : Nat := 2048
def Config.stopHold : Nat := 4096
/-- Records of a die fault buffer (R318). -/
def Config.faultBuffer : Nat := 64
/-- Failed attempts in a row that take a link down (R346). -/
def Config.linkAttempts : Nat := 16
/-- Microseconds a closed switch slot waits for its collectors (R347). -/
def Config.slotCollectUs : Nat := 65535
/-- Accepted commands an engine holds per context (R286). -/
def Config.engineQueue : Nat := 4
/-- Tokens of an ingress replay log (R318). -/
def Config.replayLog : Nat := 16384

/-! ### Free values -/

/-- What a sector's ciphertext under one key identifier decrypts to under another (R117, R118). -/
opaque Config.foreignBlock : (oldKey newKey sector block : Nat) → BitVec 128 → BitVec 128
/-- Bytes of the device's random source (R344), by the counter of free values. -/
opaque Config.random : Nat → Word
/-- The handle number a Syivo switch would give (R304), by the counter of free values. -/
opaque Config.slotHandle : Nat → Nat
/-- ML-DSA-87's signature of a byte string by the device (R345), a function the spec names and does not define. -/
opaque Config.mldsa : List Byte → List Byte
/-- The bytes of an SPDM request (R345), which the spec does not give. -/
opaque Config.spdmBytes : SpdmReq → List Byte
/-- The code and the detail that the sealing of a KILL has in place of a poison's (R324, R341). -/
opaque Config.killCode : BitVec 8
opaque Config.killDetail : BitVec 32
/-- The firmware image, the Trelgen image, and a TDI's interface report, which R345 measures. -/
opaque Config.firmware : List Byte
opaque Config.trelgenImage : List Byte
opaque Config.interfaceReport : Nat → List Byte
/-- The combine trees that a configuration stream fixes (R12); how it names them the spec does not give. -/
opaque Config.spokeTrees : List (BitVec 32) → List SpokeTree
/-- Trelgen's version (R186). -/
opaque Config.trelgenVersion : BitVec 32

end Sys2Proof
end

