-- ==== Sys2Proof/Machine/State.lean ====
section
/-! DEFINITION. The whole state of the machine as plain data, the faults and refusals of a step, and the state right
after reset. Collections are lists; a key that a list does not hold has the component's reset value. -/

namespace Sys2Proof.Machine

/-! ### Time and choice (the model's own, log entries 1 to 3) -/

/-- What a step acts on. -/
inductive Subject where
  | nothing
  | num (n : Nat)
  | pair (a b : Nat)
  | elem (k : EKey)
  | elemAt (k : EKey) (n : Nat)
  | port (k : PortKey)
  | launch (k : LKey)
  | launchAt (k : LKey) (n : Nat)
  | edge (k : EdgeKey)
  | ready (k : EKey) (tag : Tag) (seg : BitVec 12)
deriving DecidableEq, Repr

/-- What a step fetches: nothing; the start of a partial reconfiguration's stream (R58); an event as syntax; a word of a launch's
configuration stream; the word of a firing's next stage; or an instruction of an execution by its index. -/
inductive Fetch where
  | idle
  | opening (lk : LKey)
  | stage (firing : Nat)
  | block (exe idx : Nat)
  | command (lk : LKey) (w : BitVec 32)
  | event (i : Instr) (s : Subject)
deriving DecidableEq, Repr, Inhabited

/-- One pick of the schedule: the clocks that pass, then what is fetched. -/
structure Pick where
  dt : Nat
  what : Fetch
deriving DecidableEq, Repr, Inhabited

/-- The free choice of the next pick, by the counter of free values (log entry 1). -/
opaque freePick : Nat → Pick

/-- The firing stage, block instruction or event subject the step runs (log entry 1). -/
inductive Focus where
  | nothing
  | firing (id : Nat)
  | exec (id idx : Nat)
  | subject (s : Subject)
deriving DecidableEq, Repr

/-- The model's own fields. -/
structure Ctl where
  sched : List Pick
  freeCtr : Nat
  focus : Focus
  nextId : Nat
  clock : Nat
deriving DecidableEq, Repr

/-! ### Tokens and edges (R10, R11, R142 to R148) -/

/-- KIND (R11); code 7 is never produced. -/
inductive Kind where
  | data | head | endOf | poison | note | brake | req
deriving DecidableEq, Repr

/-- A token (R10). -/
structure Token where
  tag : Tag
  seg : BitVec 12
  kind : Kind
  ft : Fmt
  valid : Half
  payload : Lanes
deriving DecidableEq, Repr

/-- A token travelling on an edge, from one producer element, in sending order (R9). -/
structure Flight where
  id : Nat
  edge : EdgeKey
  src : EKey
  tok : Token
deriving DecidableEq, Repr

/-- A token in an edge buffer of a consumer that is no VPE (R143), oldest first. -/
structure Buffered where
  edge : EdgeKey
  tok : Token
  last : Bool                    -- its taking gives its burst's permit back (R144)
  bad : Bool                     -- a malformed HEAD, or DATA that no HEAD precedes where one must (R39)
deriving DecidableEq, Repr

/-- A token in a matching store (or, with `inPile`, in the slash pile), with its arrival number on its input and, on a
token-by-token input, the HEAD bound to it (R145, R146). `order` is its place in the order of arrival. -/
structure Stored where
  vpe : EKey
  inp : Nat
  tok : Token
  head : Option Token
  num : Nat
  order : Nat
  inPile : Bool
  bad : Bool                     -- its HEAD is malformed, or missing where its format asks for one (R39)
  passing : Bool                 -- it completed a match that starts at once: it takes no entry of the store (R146)
  last : Bool                    -- as in Buffered
deriving DecidableEq, Repr

/-- Arrivals counted on one input for one tag and segment (R145). -/
structure ArrivalCount where
  vpe : EKey
  inp : Nat
  tag : Tag
  seg : BitVec 12
  count : Nat
deriving DecidableEq, Repr

/-- An END that waits at a VPE input for its partners (R208). -/
structure EndMark where
  vpe : EKey
  inp : Nat
  tag : Tag
  seg : BitVec 12
  code : Lane
  short : Bool                   -- it closed a burst short (R22, R144)
deriving DecidableEq, Repr

/-- The open burst of a producer on an edge: its tag, DATA tokens sent so far, the thread token that owns it (R22,
R272). -/
structure OpenBurst where
  edge : EdgeKey
  src : EKey
  owner : Nat
  tag : Tag
  sent : Nat
deriving DecidableEq, Repr

/-- The HEAD of the burst that is arriving on an input, for the burst's DATA (R145); `seen` counts an O4 block's rows at an
island, and the DATA of a malformed HEAD at a VPE. -/
structure BoundHead where
  vpe : EKey
  inp : Nat
  src : EKey
  head : Token
  seen : Nat
deriving DecidableEq, Repr

/-- A token that an event must send and that waits for its credit (R143). -/
structure Owed where
  src : EKey
  edge : EdgeKey
  tok : Token
  owner : Nat                    -- the thread token whose SEND it is, 0 for the element's own
deriving DecidableEq, Repr

/-- A token held before a full pile (R147). -/
structure HeldToken where
  vpe : EKey
  inp : Nat
  tok : Token
  head : Option Token
  bad : Bool
  last : Bool
deriving DecidableEq, Repr

/-- A brake's progress at an element of a draft region (R152): inputs that saw it, whether it was forwarded. -/
structure BrakeMark where
  launch : LKey
  accept : Nat                   -- edge of the acceptance node's brake port: it names the draft region (R372)
  tag : Tag
  pos : Nat
  node : Nat
  seen : List Nat
  forwarded : Bool
deriving DecidableEq, Repr

structure Queues where
  flights : List Flight
  buffers : List Buffered
  store : List Stored
  counts : List ArrivalCount
  filter : List (EKey × Nat)          -- set bits of the spill filters, by VPE (its context 0)
  heads : List BoundHead
  held : List HeldToken
  ends : List EndMark
  bursts : List OpenBurst
  owed : List Owed
  reqs : List (EdgeKey × Nat)         -- request counts of pull edges (R196)
  slots : List (LKey × Nat × Int)     -- free-slot counts by launch and loop number (R195)
  brakes : List BrakeMark
  arriving : List (EdgeKey × Nat × Bool × BitVec 12)   -- the burst that is arriving at an edge's consumer: DATA so far, whether a HEAD precedes, its SEG (R22)
deriving DecidableEq, Repr

/-! ### Configuration (R58 to R64) -/

/-- A SCE region (R61, R109). -/
structure Region where
  base : Nat
  size : Nat
  mode : BitVec 3
  gbase : Word
  nofault : Bool
deriving DecidableEq, Repr

/-- A handle's image (R96): base and size from configuration, 11-bit head and tail with the wrap bit on top. -/
structure Handle where
  base : Nat
  size : Nat
  head : BitVec 11
  tail : BitVec 11
deriving DecidableEq, Repr

/-- A VPE context's configuration (R61). -/
structure VpeCfg where
  slots : List Word
  gather : List Half
  stages : Nat
  matched : BitVec 4
  whole : BitVec 4
  inloc : List Nat
  outloc : List Nat
  outfmt : Half
  dscale : List Half
  swzout : BitVec 8
  inburst : Half
deriving DecidableEq, Repr

/-- A SCE context's configuration and handles (R61, R96). -/
structure SceCfg where
  regions : List Region
  handles : List Handle
deriving DecidableEq, Repr

/-- A block-tile context's configuration (R61); `imem` lists the words written, `unload` the unloadable blocks (R75). -/
structure TileCfg where
  imem : List (Nat × Word)
  iaddr : Nat
  ihalf : Nat
  gather : Word
  galloc : Nat
  entry : Nat
  unload : List (Nat × Nat)
deriving DecidableEq, Repr

/-- A matrix-island context's configuration (R61). -/
structure MxCfg where
  kpass : Nat
  planes : Nat
  afmt : Nat
  swzA : BitVec 4
  swzB : BitVec 4
  locA : Nat
  locB : Nat
  locD : Nat
deriving DecidableEq, Repr

/-- A streamer context's configuration (R61). -/
structure StrmCfg where
  runahead : Nat
  outloc : Nat
  outfmt : Half
deriving DecidableEq, Repr

/-- An element's slot table and a table that waits for slot 0, with the clock at which it takes over (R179 to R181). The slot pointer moves every clock from 0, so
it is the clock modulo 16; `served` is the first clock whose grant is still to be given. -/
structure SlotTable where
  slots : List (BitVec 2)
  pending : Option (Nat × List (BitVec 2))
  served : Nat
  spare : Nat
deriving DecidableEq, Repr

/-- The state of a launch's configuration stream: its selection, page, hold, count and staged commands (R60). -/
structure Stream where
  launch : LKey
  sel : Option (Nat × Nat)
  discard : Bool
  page : Nat
  hold : Bool
  count : Nat
  staged : List (Nat × Nat × Half)    -- element, effective field, value
deriving DecidableEq, Repr

structure Cfg where
  stream : Stream                     -- the stream of the last command
  others : List Stream                -- streams of other launches
  vpe : List (EKey × VpeCfg)
  sce : List (EKey × SceCfg)
  tile : List (EKey × TileCfg)
  mx : List (EKey × MxCfg)
  strm : List (EKey × StrmCfg)
  frontier : List (Nat × Nat × Nat)   -- stand, FLUSHINT, FLUSHCNT
  switchPts : List (Nat × Nat × Nat × Half)  -- stand, point, output, value
  tables : List (Nat × Nat × SlotTable)      -- stand, element number 0-38
deriving DecidableEq, Repr

/-! ### VPEs (R85 to R88, R204 to R208) -/

/-- Four registers of one kind. -/
structure Four (α : Type) where
  r0 : α
  r1 : α
  r2 : α
  r3 : α
deriving DecidableEq, Repr

/-- L0 to L3 and M0 to M3 of a VPE context (R86, R87). -/
structure LaneRegs where
  l : Four Lanes
  m : Four Half
deriving DecidableEq, Repr

/-- A matched input of a firing: its DATA tokens (one, or a burst) and its HEAD. -/
structure FInput where
  inp : Nat
  toks : List Token
  head : Option Token
deriving DecidableEq, Repr

/-- A stage's result: Sk, its valid bits, and a direction when the result is one (R205). -/
structure StageRes where
  lanes : Lanes
  v : Half
  dir : Option Direction
deriving DecidableEq, Repr

/-- Where a poison arose (R320, R321). -/
structure PoisonInfo where
  code : BitVec 8
  stand : Nat
  elem : BitVec 8
  detail : Lane
deriving DecidableEq, Repr

/-- A NOTIFY request a firing will register (R235). -/
structure NoteReq where
  loc : Nat
  edge : Nat
deriving DecidableEq, Repr

/-- A firing in the pipeline (R13, R205, R206). `out` holds the tokens each port sends; `nodes` the memory nodes the
present stage has issued; `issued` says it has; `posted` the SST nodes of earlier stages. -/
structure Firing where
  id : Nat
  vpe : EKey
  launch : LKey
  tag : Tag
  seg : BitVec 12
  stage : Nat
  drm : BitVec 3
  inputs : List FInput
  results : List StageRes
  out : List (Nat × Token)
  notes : List NoteReq
  poison : Option PoisonInfo
  issued : Bool
  nodes : List Nat
  reserved : List (EdgeKey × Nat)
  entered : List (LKey × Nat)         -- loops whose free slot the firing took (R195)
  bfs : List (Nat × Nat)              -- lanes an EXITQ lets pass, with the queue entry reserved for each (R311)
  since : Nat                         -- the clock at which it entered stage 0 (R101)
deriving DecidableEq, Repr

/-! ### Block tiles (R90 to R98, R242 to R285) -/

/-- An unresolved spawn site of a segment's chain (R274). -/
structure Link where
  handle : Nat
  side : Bool
  lkp : Nat
deriving DecidableEq, Repr

/-- A store waiting to issue: what it writes (R245). -/
inductive Posted where
  | mem (addr : Word) (bytes : List Byte) (ord : Ord) (scope : Scope) (idx : Nat)
  | scratch (addr : Nat) (bytes : List Byte) (ord : Ord) (idx : Nat)
  | sync (addr : Nat) (word : Word) (ord : Ord) (scope : Scope) (idx : Nat)
  | remote (stand addr : Nat) (bytes : List Byte) (ord : Ord) (scope : Scope) (idx : Nat)
  | fence (src dst : BitVec 8) (scope : Scope) (idx : Nat)
  | resolve (handle : Word) (outcome : Bool)
  | squash (handle : Word)
deriving DecidableEq, Repr

/-- A send or fork waiting to leave (R272, R254); `hold` is the location of the new thread token's count, its creator's if none. -/
inductive Leaving where
  | send (port : Nat) (tok : Token) (idx : Nat)
  | fork (block : Nat) (regs : List (Nat × Word)) (tag : Tag) (frame : Option Nat) (hold : Option Nat) (idx : Nat)
deriving DecidableEq, Repr

/-- What a segment holds beside its thread token (R98, R274, R278). -/
structure Segment where
  sid : BitVec 12
  lks : Nat
  lkp : Nat
  chain : List Link
  root : Nat
  order : Nat
  stores : List Posted
  leaving : List Leaving
  dbuf : List (Nat × Direction)
  halted : Bool
deriving DecidableEq, Repr

/-- Where a thread token stands. -/
inductive ThreadAt where
  | queued (order : Nat)      -- waits at its block's entry, by order of arrival
  | running (exe : Nat)
  | deck                      -- a segment between executions
  | ended                     -- a halted segment whose chain is open
  | noFrame (order : Nat)     -- a committed fork that waits for a frame (R254)
deriving DecidableEq, Repr

/-- A thread token with its frame (R13, R90, R97). `hold` is the location of its count (R162). -/
structure Thread where
  uid : Nat
  tile : EKey
  frame : Nat
  launch : LKey
  block : Nat
  tag : Tag
  hold : Nat
  g : List Word
  lc : List Lane
  guard : Nat
  guarded : Option (Nat × Tag)   -- the pointstamp the guard's count stands at (R172)
  at_ : ThreadAt
  seg : Option Segment
deriving DecidableEq, Repr

/-- A value standing in a slot of an execution: 512 bits, and the format and edge of one that came straight from RECV's T0 (R248). -/
structure SlotVal where
  idx : Nat
  slot : Nat
  val : Lanes
  ft : Option (Fmt × Nat)
deriving DecidableEq, Repr

/-- The control transfer an execution ends with (R246). -/
inductive Control where
  | goto (block : Nat) (yields : Bool)
  | halt
  | trap (code : BitVec 16) (operand : Word)
deriving DecidableEq, Repr

/-- A spawn a SPAWNP reserved (R274). -/
structure SpawnReq where
  handle : Nat
  tblk : Nat
  fblk : Option Nat
  q : Nat
  site : Option Nat
  frames : List Nat
  sids : List (BitVec 12)
deriving DecidableEq, Repr

/-- An instruction that fired and waits its turn: for a frame of its tile, or for a token of a port under an identifier (R254, R273). -/
structure InLine where
  on : Option (EdgeKey × BitVec 12)
  tile : EKey
  clock : Nat
  frame : Nat
  exe : Nat
  idx : Nat
deriving DecidableEq, Repr

/-- A token an execution's RECV took (R273); `order` counts takings (R285). -/
structure Taken where
  edge : EdgeKey
  tok : Token
  last : Bool
  bad : Bool
  start : Option (Nat × Option Nat)     -- entry block of the thread token it creates, and the frame; a segment reserves none
  retag : Bool
  order : Nat
deriving DecidableEq, Repr

/-- An instruction of an execution that has issued and waits (R245). -/
structure Waiting where
  idx : Nat
  nodes : List Nat
deriving DecidableEq, Repr

/-- One execution of a block (R242 to R247). -/
structure Exec where
  id : Nat
  thread : Nat
  tile : EKey
  block : Nat
  tag : Tag
  seg : BitVec 12
  drm : BitVec 3
  dregs : List Direction
  sys : List Word                 -- SY.FPM, SY.FPF, SY.LCLK, then SY.XWC0-15 at the start
  vals : List SlotVal
  fired : List Nat
  waits : List Waiting
  writes : List (Nat × Nat × Lanes)  -- write entry, registers of its group, value
  dwrites : List (Nat × Direction)
  sysw : List (Nat × Word)
  lc : List (Nat × Lane)
  stores : List Posted
  leaving : List Leaving
  spawns : List SpawnReq
  recs : List Posted              -- a segment's RESOLVE, SQUASH and FENCE, in firing order
  control : Option Control
  taken : List Taken
  frames : List Nat               -- frames reserved by FORK, RECV and SPAWNP
  bound : Bool                    -- has issued an atomic, SAMO, BARX, ECALL or E-layout command (R285)
  abort : Option PoisonInfo
  ended : Option Nat              -- the clock at which it ended (R95, R245)
deriving DecidableEq, Repr

/-- A block tile context's scheduler (R149, R183): the chosen block, executions run of it, waits and overdue list. -/
structure Sched where
  chosen : Option Nat
  run : Nat
  waits : List (Nat × Nat)        -- block, clock at which its queue became non-empty
  overdue : List Nat
  resident : List Nat             -- loop buffer, last chosen first
deriving DecidableEq, Repr

/-- A handle given out by a die (R274). -/
structure HandleRec where
  handle : Nat
  launch : LKey
  live : Bool
  site : Option Nat
  spawner : Nat                  -- the thread token whose SPAWNP gave it out (R373)
deriving DecidableEq, Repr

structure Tiles where
  turns : List (Nat × Nat × Option Nat)   -- stand and element of a tile that contexts share, the context this clock is granted to (R180)
  threads : List Thread
  execs : List Exec
  sched : List (EKey × Sched)
  dregs : List (EKey × List Direction)
  handles : List HandleRec
  handleGen : List ((LKey × Nat) × Nat)   -- launch, die and number; generation (R373)
  sites : List (LKey × Nat × Nat × Nat)   -- launch, die, site, code (R184)
  ecalls : List (EKey × Nat)              -- outstanding ECALL of a tile context: its execution (R343)
  lines : List InLine
  sysw1 : List (Nat × Nat × Nat × Nat)    -- stand, context and number of a register that tile 1 wrote, with the clock (R101)
  stage0 : List (Nat × Nat × Nat × Nat)   -- stand, context and firing that entered stage 0, with the clock, the last one (R101)
deriving DecidableEq, Repr

/-! ### Memories (R105 to R124) -/

/-- A byte memory: addresses strictly rising, no entry equal to what an unlisted address reads as. -/
abbrev Memory := List Host.Cell

/-- A write mark (R329): launch number and epoch. -/
structure WriteMark where
  launch : BitVec 8
  epoch : Half
deriving DecidableEq, Repr

/-- An L2 line (R117). -/
structure L2Line where
  line : Nat
  data : BitVec 1024
  valid : List Bool
  dirty : List Bool
  wts : Nat
  rts : Nat
  part : Nat
  key : Nat
  sq : Half
  used : Nat
  marks : List (Option WriteMark)
deriving DecidableEq, Repr

/-- A stand's L1 copy of a line (R114, R115), as it decrypted under a partition's key (R118). -/
structure L1Line where
  stand : Nat
  line : Nat
  part : Nat
  key : Nat
  data : BitVec 1024
  wts : Nat
  rts : Nat
  used : Nat
deriving DecidableEq, Repr

/-- A stash sector (R111), by stand scratch address of its first byte. -/
structure Sector where
  key : ScratchKey
  wts : Nat
  rts : Nat
  leased : Bool                   -- false: an empty lease
  dirty : BitVec 64
  full : BitVec 64                -- bytes filled or written: the others are filled before the next load of them
  due : Bool                      -- its write-back at a reconfiguration waits for a page (R332)
deriving DecidableEq, Repr

/-- A stash write-back that a teardown left to wait for its page (R121, R332): the sector's bytes, which of them are dirty, its home, and
its write mark. -/
structure DueWrite where
  key : ScratchKey
  part : Nat
  va : Word
  bytes : List Byte
  dirty : BitVec 64
  mark : WriteMark
deriving DecidableEq, Repr

/-- A cached translation (R120): `stand` none is the die's translation cache. `table` marks a cached table entry. -/
structure Trans where
  die : Nat
  stand : Option Nat
  part : Nat
  base : Nat
  level : Nat
  entry : Word
  used : Nat
deriving DecidableEq, Repr

/-- A plane-store slot's state (R113, R296). -/
structure PlaneSlot where
  key : ScratchKey
  swz : BitVec 4
  scale : BitVec 8
  refine : BitVec 8
  rv : Bool
deriving DecidableEq, Repr

/-- A scratch sync word's stamp and fault mark (R137, R194). -/
structure SyncMark where
  key : ScratchKey
  stamp : Nat
  fault : Bool
deriving DecidableEq, Repr

/-- A not-present fault open at a die (R121). -/
structure OpenFault where
  die : Nat
  part : Nat
  page : Nat
  since : Nat
  stopped : Option Nat            -- clocks run so far, while a pre-emption stops the clock (R331)
deriving DecidableEq, Repr

/-- An engine's access that stands at a crossbar since it was held: the engine, its command and the access, the range and whether it writes. -/
structure BarAsk where
  elem : Nat
  cmd : Nat
  acc : Nat
  ctx : Nat
  addr : Nat
  size : Nat
  write : Bool
deriving DecidableEq, Repr

/-- A SCE's crossbar: what it has granted in a clock (R106 to R108, R180), and how its streamer port turns (R107). A key is 16 for a
context without first claim, plus the port. -/
structure Bar where
  stand : Nat
  sce : Nat
  clock : Nat
  first : Option Nat              -- the context with first claim, once a bank has been given
  used : List (Nat × Nat × Nat × Nat × Nat)  -- bank, row, node or command served, its key, bytes moved
  perm : Option Nat               -- the key of the permute that holds it
  held : Bool                     -- an engine's access was held
  advs : List (Nat × Nat × Nat)   -- context and handle whose pointer moved, by which port (R96)
  turn : Nat                      -- the streamer served last
  asks : List BarAsk              -- the engines' accesses held since
deriving DecidableEq, Repr

structure Mems where
  bars : List Bar
  hbm : Memory                    -- by place in the stacks (R116)
  hbmKeys : List (Nat × Nat)      -- sector, key identifier its ciphertext stands under
  l2 : List L2Line
  l1 : List L1Line
  scratch : Memory
  sectors : List Sector
  visY : List ScratchKey          -- exchange regions whose visible bank is Y
  planes : List PlaneSlot         -- slots that are FULL
  syncs : List SyncMark
  marks : List (ScratchKey × WriteMark)
  trans : List Trans
  opens : List OpenFault
  host : Memory
  dues : List DueWrite
deriving DecidableEq, Repr

/-! ### The order machine (R125 to R140) -/

/-- The access paths (R127). -/
inductive Path where
  | ls | sa | st | cp | mx | co | bf | hi
deriving DecidableEq, Repr

/-- A source thread (R126). -/
inductive Source where
  | thread (uid : Nat)
  | stage (k : EKey) (stage : Nat) (tag : Tag)
  | host (part requester : Nat)
deriving DecidableEq, Repr

/-- What an engine command may do to KV map fields in one action at the word's home (R123). -/
inductive KvEvent where
  | read | exit | claim | store | finish | free
deriving DecidableEq, Repr

/-- What a memory node does (R126). -/
inductive MemOp where
  | load (va : Word) (size : Nat) (nc : Bool)
  | store (va : Word) (bytes : List Byte)
  | amo (va : Word) (size aop : Nat) (arg : Word)
  | cas (va : Word) (size : Nat) (expected arg : Word)
  | sload (addr size : Nat)
  | sstore (addr : Nat) (bytes : List Byte)
  | samo (addr size aop : Nat) (arg : Word)
  | swset (addr : Nat) (word : Word)
  | swwait (addr : Nat) (gen : Half)
  | xst (stand addr : Nat) (bytes : List Byte)
  | barx
  | fence (src dst : BitVec 8)
  | engine (i : Instr) (rec_ : List Byte) (a b : Word)
  | kvmap (va : Word) (fields : List Nat) (ev : KvEvent)
deriving DecidableEq, Repr

/-- A translated access: DPA, key identifier, page kind, cacheability (R119). -/
structure Xlat where
  dpa : Nat
  key : Nat
  kind : BitVec 2
  cache : Bool
deriving DecidableEq, Repr

/-- Where a part of a node stands in the machine of R128; in a queue, with the clock and the key with which it arrived (R108). -/
inductive PartAt where
  | waiting
  | transit
  | queued (clock key order : Nat)
  | performed
deriving DecidableEq, Repr

/-- A part of a node: one line of one page, one scratch row, or one line of an engine's range (R106, R133). It keeps the page's
translation it was made through, and the wts its home returned. -/
structure Part where
  off : Nat
  size : Nat
  xl : Option Xlat
  at_ : PartAt
  got : List Byte
  wts : Nat
deriving DecidableEq, Repr
def Part.dpa (p : Part) : Option Nat := p.xl.map (·.dpa)

/-- How a node stands. -/
inductive NodeAt where
  | queued          -- in its issue queue
  | issued
  | performed       -- every part performed, acknowledgement queued
  | acked
deriving DecidableEq, Repr

/-- A memory node. `pos` is its place in source order; `for_` the firing (0) or execution (1) it belongs to. -/
structure MNode where
  id : Nat
  src : Source
  key : EKey
  launch : LKey
  path : Path
  pos : Nat
  op : MemOp
  ord : Ord
  scope : Scope
  parts : List Part
  at_ : NodeAt
  wts : Nat
  sq : Half
  value : Word
  poison : Option PoisonInfo
  epoch : Nat
  held : Option Nat              -- the address on a not-present page at which it stopped (R121)
deriving DecidableEq, Repr

/-- A wts that an acknowledgement of a source thread returned on a path (R135), by the place of its node in source order. -/
structure AckMax where
  src : Source
  path : Path
  pos : Nat
  wts : Nat
deriving DecidableEq, Repr

structure Order where
  nodes : List MNode
  arrivals : Nat                 -- number given to the next arrival at a home queue
  acks : List AckMax
  lclk : List (Nat × Nat × Nat)  -- stand, context, SY.LCLK
deriving DecidableEq, Repr

/-! ### Frontier engine (R159 to R178) -/

/-- A counted change (R160). -/
structure Delta where
  loc : Nat
  tag : Tag
  d : Int
deriving DecidableEq, Repr

/-- A stand's frontier unit for one launch (R159, R163). -/
structure FUnit where
  stand : Nat
  launch : LKey
  table : List Delta
  spill : List Delta             -- what the delta table had no room for
  changed : List (Nat × Tag)     -- entries that have changed since the last flush
  flushed : Nat
  sq : Nat
deriving DecidableEq, Repr

/-- A batch or merge on its way (R163, R164): `from_` is the stand of a batch, 0xFE00 + the die of a merge, which also has the number of
unit batches in it. -/
structure Batch where
  launch : LKey
  from_ : Nat
  sq : Nat
  entries : List Delta
  merged : Nat
deriving DecidableEq, Repr

/-- A die hub for one launch (R164): merge buffer, next expected batch of each stand, merge number, last forward. -/
structure Hub where
  die : Nat
  launch : LKey
  buf : List Delta
  expect : List (Nat × Nat)
  sq : Nat
  forwarded : Nat
  merged : Nat
deriving DecidableEq, Repr

/-- A frontier record (R169). -/
structure FRecord where
  loc : Nat
  tags : List Tag
  empty : Bool
  coll : Bool
deriving DecidableEq, Repr

/-- A notification request at the landing (R157, R171). -/
structure Request where
  id : Nat
  loc : Nat
  tag : Tag
  edge : Nat
  vpe : EKey
  due : Option Nat               -- the update at which it became deliverable
  delivered : Bool               -- its NOTE has been sent (R171)
  again : Bool                   -- a replay runs the NOTIFY of a delivered one again (R30)
deriving DecidableEq, Repr

/-- A path summary (R165, R167). -/
structure Summary where
  src : Nat
  tgt : Nat
  pop : Nat
  push : Nat
  vals : List Nat
deriving DecidableEq, Repr

/-- A launch's landing (R159): counts, summaries, records, queues, next expected merge of each die. -/
structure Landing where
  launch : LKey
  counts : List Delta
  summaries : List Summary
  records : List FRecord
  requests : List Request
  expect : List (Nat × Nat)
deriving DecidableEq, Repr

/-- An epoch shadow (R199). -/
structure Shadow where
  stand : Nat
  ctx : Nat
  epoch : Nat
  fl : FlagSet
  nans : List (Nat × Nat)        -- island element, NaN count
  overs : List (Nat × Nat)
deriving DecidableEq, Repr

structure Front where
  units : List FUnit
  batches : List Batch
  hubs : List Hub
  merges : List Batch
  landings : List Landing
  shadows : List Shadow
  fpm : List (Nat × Nat × Lane)  -- stand, context
  fpf : List (Nat × Nat × Lane)
  mxCounts : List (EKey × Nat × Nat)
  updates : Nat                  -- batches applied
  justMerged : List (Nat × Nat × Nat × Lane)  -- stand, context, clock of the last merge, flags it added (R200)
deriving DecidableEq, Repr

/-! ### Engines (R286 to R317) -/

/-- One access of an engine command (R126): a read or write of memory or scratch, an action on a KV map word, on a page-table
entry or on a page pool (R201; `free` is KVFREE's, which clears the map words and the entries in the same action), or a look at a condition it
waits for. -/
inductive Acc where
  | rd (va : Word) (n : Nat)
  | wr (va : Word) (bytes : List Byte)
  | srd (addr n : Nat)
  | swr (addr : Nat) (bytes : List Byte)
  | map (va : Word) (fields : List Nat) (ev : KvEvent)
  | cas (va : Word) (old new : Nat)
  | take (va : Word) (sa n : Nat)
  | push (va : Word) (sa : Nat) (pages : List Nat)
  | free (va : Word) (sa : Nat) (pages : List Nat) (words : List (Word × List Nat)) (entries : List Word)
  | look
deriving DecidableEq, Repr

/-- A command accepted by an engine (R286): the node it acknowledges, its thread token's node and tag; the accesses still to
make in its present phase and what earlier ones brought. -/
structure Command where
  id : Nat
  eng : EKey
  launch : LKey
  node : Nat
  src : Source
  blockNode : Nat
  hold : Nat                     -- location of its thread token's count
  op : Instr
  rec_ : List Byte
  a : Word
  b : Word
  tag : Tag
  phase : Nat
  todo : List (Nat × Acc)
  got : List (Nat × List Byte)
  count : Nat                    -- tokens sent
  moved : Nat
  counted : Nat                  -- the largest wts of the bytes its sync word counts (R137)
  stalled : Option Nat           -- the address on a not-present page at which it stopped (R121)
  ended : Bool                   -- every access made: only its acknowledgement is due
  reached : Option Nat           -- the place in arrival order of its raise, which waits on a fill (R194)
  aux : List Nat
deriving DecidableEq, Repr

/-- A D tile (R297): bound tag, hold location, accumulators row-major, rows that took a real pass. -/
structure DTile where
  bound : Bool
  held : Bool                    -- its first pass has been made: its count stands (R162)
  draining : Bool
  tag : Tag
  acc : List Lane
  rows : List Bool
  enders : List Nat              -- the TILEEs that wait for its next K-block boundary
deriving DecidableEq, Repr

/-- A matrix island context (R297). -/
structure Island where
  tiles : List DTile
  acc : Nat
  n : Nat
  cur : Nat
  drained : Nat                  -- tokens of the draining tile already sent
  ending : Bool                  -- the END in front on A waits for the drains before it (R361)
deriving DecidableEq, Repr

/-- A spoke contribution (R301): the reduction, the stand, its row when issued. -/
structure Contribution where
  launch : LKey
  red : Nat
  stand : Nat
  node : Nat
  isMax : Bool
  addr : Nat
  row : Lanes
deriving DecidableEq, Repr

/-- A reduction slot of a Syivo switch (R303 to R306, R347). -/
structure SwSlot where
  handle : Nat
  key : Word
  ncontrib : Nat
  op : Nat
  nanr : Nat
  count : Nat
  opened : Nat
  deadline : Nat
  closed : Option Nat
  contribs : List (Nat × List Lane)
  collected : List Nat
deriving DecidableEq, Repr

/-- A backfill queue entry (R155). -/
structure BfEntry where
  id : Nat
  die : Nat
  kvd : Word
  sq : Nat
  pos : Nat
  first : Nat
  last : Nat
  tag : Tag
  dstep : Option Nat
  node : Nat
  launch : LKey
  order : Nat
  claim : Option Nat             -- the layer claimed
  delivered : Bool               -- its claim has reached the port; without a claim, that it had one before
  visible : Bool
  fields : List Nat              -- the area's fields, read at the append (R122)
deriving DecidableEq, Repr

structure Engines where
  commands : List Command
  islands : List (EKey × Island)
  spokes : List Contribution
  slots : List SwSlot
  switchUp : List (Nat × Nat)    -- partition, and die whose port has a switch it has accepted (R347)
  backfill : List BfEntry
  claimOrder : List Nat          -- claims in the order they were made
deriving DecidableEq, Repr

/-! ### Launches and mapping (R24 to R28, R82 to R84, R340) -/

inductive NodeKind where
  | stage | block | matrix | stream | region | ingress | egress
deriving DecidableEq, Repr

structure NodeRec where
  num : Nat
  kind : NodeKind
  inputs : Nat
  outputs : Nat
  weight : Nat
  code : List Word
  firstPat : Nat
  pats : Nat
  region : Option Nat
  params : List Nat
deriving DecidableEq, Repr

structure EdgeRec where
  num : Nat
  prod : Nat
  pport : Nat
  cport : Nat
  cons : Nat
  pull : Bool
  burst : Nat
  ft : Fmt
  scaled : Bool
  swz : Nat
  permits : Nat
  scale : Nat
  refine : Nat
deriving DecidableEq, Repr

structure LoopRec where
  num : Nat
  bound : Option Nat
  level : Nat
  enter : Nat
  leave : Nat
  back : Nat
deriving DecidableEq, Repr

structure RegionRec where
  num : Nat
  mode : Nat
  nofault : Bool
  size : Nat
  init : List Byte
deriving DecidableEq, Repr

/-- A Halom graph module as parsed (R82, R83). -/
structure Module where
  digest : BitVec 512
  widths : List Nat
  step : Option Nat
  nodes : List NodeRec
  edges : List EdgeRec
  loops : List LoopRec
  patterns : List (List Byte)
  data : List Byte
  regions : List RegionRec
  minDies : Nat
  maxDies : Nat
  galloc : Nat
  priority : Nat
  saveKB : Nat
deriving DecidableEq, Repr

/-- A launch's state (R27). -/
inductive LState where
  | waiting | mapping | loading | running | draining | saved | ended | failed
deriving DecidableEq, Repr

/-- The exchange group record (R190) and who has arrived or waits. -/
structure ExGroup where
  gen : Half
  expect : Nat
  arrived : List (Nat × Nat)     -- stand, node
  waiting : List (Nat × Nat)
deriving DecidableEq, Repr

/-- A launch (R24 to R28, R340). -/
structure Launch where
  key : LKey
  state : LState
  order : Nat
  iport : Nat
  eport : Nat
  bfport : Option Nat
  modAddr : Nat
  modLen : Nat
  saveAddr : Nat
  saveKB : Nat
  status : Nat
  entry : List Word
  statusSq : Nat
  dies : BitVec 8
  module : Option Module
  place : Option MapResult
  hidden : List (Nat × Nat)      -- block node, its hidden edge (R162)
  deadline : Option Nat          -- hidden edge of the deadline location (R174)
  sealed : List Nat              -- nodes sealed
  gated : Option Nat             -- clock at which the sources were gated
  preempt : Option Nat           -- clock of a pre-emption request
  reshape : Bool
  preemptCode : Nat
  egressHeld : Bool
  replayable : Bool
  logFull : Option Nat
  ex : ExGroup
  resumed : Bool                 -- a RESUME of a saved launch waits for dies (R341)
  killed : Bool                  -- a KILL waits for the end of a drain (R341)
  cfgBad : Bool                  -- a command of its stream was refused while it loaded (R64)
  tried : Option Nat             -- the step boundary at which a reshape's save failed (R28)
  todo : List (BitVec 32)        -- commands of its stream still to be sent while it loads (R24, R27)
  grid : BitVec 8                -- the dies of a pending reshape (R26)
  atStep : Bool                  -- gated at a step boundary (R26)
  byPreempt : Bool               -- saved by a pre-emption: it waits for a RESUME (R28)
  checked : Bool                 -- the image of a launch that resumes has been read and checked (R335)
deriving DecidableEq, Repr

/-- A mapping-cache entry (R186): its 128 bytes, and the placement that its stream carries out. -/
structure MapEntry where
  part : Nat
  bytes : List Byte
  result : MapResult
  used : Nat
deriving DecidableEq, Repr

/-- A saved image's parts (R333): the pieces of state that a restore puts back. -/
structure Image where
  launch : LKey
  gen : Nat
  place : MapResult
  digest : BitVec 512
  dies : BitVec 8
  counts : List Delta
  records : List FRecord
  requests : List Request
  sites : List (Nat × Nat × Nat)
  lanes : List (EKey × LaneRegs)
  islands : List (EKey × Island)
  streams : List Command
  threads : List Thread
  dregs : List (EKey × List Direction)
  handles : List (EKey × List Handle)
  rings : List (Nat × List Byte)
  fpm : List (Nat × Nat × Lane)
  fpf : List (Nat × Nat × Lane)
  lclk : List (Nat × Nat × Nat)
  shadows : List Shadow
  mxCounts : List (EKey × Nat × Nat)
  reqs : List (EdgeKey × Nat)
  ex : ExGroup
  epochs : List (Nat × Nat)
  sealed : List EKey             -- VPE contexts whose seal bit is set
  stops : List (Nat × List Nat × List Byte)   -- egress port; active states and held bytes of its stop check
  written : List Byte            -- the image's bytes, as they were written, or as a restore has read them
deriving DecidableEq, Repr

structure Launches where
  launches : List Launch
  cache : List MapEntry
  images : List Image
deriving DecidableEq, Repr

/-! ### Host, ports, faults and links (R153, R154, R318, R325, R337 to R348) -/

/-- An ingress port (R153). -/
structure Ingress where
  key : PortKey
  epoch : Nat
  err : Nat
  ended : Bool
  buf : List Token
  stopped : Bool                 -- poisoned by an epoch that overflowed
  log : List (Nat × Token)       -- replay log (R318): epoch, token
  record : List Lanes            -- port 0: tokens of a record so far (R340)
  last : Option Nat              -- the epoch of the last token admitted (R331)
deriving DecidableEq, Repr

/-- An egress port with its control record and stop check (R154, R189, R339). -/
structure Egress where
  key : PortKey
  bufbase : Word
  slots : Nat
  wr : Nat
  rd : Nat
  reqEpoch : Nat
  reqv : Bool
  hold : Nat
  stoptab : Word
  store : List Byte              -- the stop store: 64 bytes of header, then the scratch part
  active : Bool
  set_ : List Nat                -- active states
  held : List (Byte × Tag)       -- held bytes, each with the tag of its token
  due : List (Nat × List Byte)   -- slots that wait for room, each with its epoch
  stopped : List Nat             -- the epochs whose DATA a stop ended
  pendTab : Option Word
  pendHold : Option Nat
  epochSlots : List (Nat × List Nat)  -- open epochs and the slots written for each, in order (R330)
  again : List (Nat × Nat)       -- epochs a replay runs again: slots rewritten so far
deriving DecidableEq, Repr

/-- TDI states (R344). -/
inductive Tdi where
  | unlocked | locked | run | error
deriving DecidableEq, Repr

/-- A partition's control block and TDI (R338, R344). -/
structure Partition where
  num : Nat
  root : Word
  pdeadline : Nat
  fdeadline : Nat
  keyn : Nat
  keyb : Nat
  dies : BitVec 8
  fqrd : BitVec 32
  fqwr : BitVec 32
  fqsize : Nat
  fqbase : Word
  tdi : Tdi
  keys : List (Nat × Word)       -- key identifiers whose keys exist, with the random words they came from
  session : Bool
  peers : List (Nat × Word)
  msix : List Nat                -- vectors raised
  measured : List (Nat × BitVec 512)  -- measurements fixed at the lock
  stopping : Bool                -- a STOP_INTERFACE waits for launches that drain (R341, R344)
  transcript : List Byte         -- messages of the SPDM session so far (R345)
  ideKey : Option Word           -- the key of its IDE selective stream (R345)
deriving DecidableEq, Repr

/-- A fault record before it is written (R325). -/
structure FaultRec where
  part : Nat
  die : Nat
  typ : Nat
  code : Nat
  stand : Nat
  elem : Nat
  ctx : Nat
  launch : Nat
  tag : Tag
  addr : Nat
  detail : Nat
  time : Nat
  extra : List Byte
deriving DecidableEq, Repr

/-- A Syivo port (R346). -/
structure SyivoPort where
  port : Nat
  up : Bool
  lastRx : Nat
  tx : Nat
  failures : Nat
  keys : Nat                     -- how many keys the link has had
  replay : List Nat              -- groups sent and not yet accepted, by their counters, oldest first
deriving DecidableEq, Repr

/-- A poison memory entry (R322). -/
structure PoisonMark where
  elem : Nat × Nat               -- stand, element
  ctx : Nat
  tag : Tag
  info : PoisonInfo
deriving DecidableEq, Repr

/-- A poison come to rest, or a fault without a token, whose containment is still to be carried out (R323). -/
structure RestMark where
  launch : LKey
  node : Nat
  tag : Tag
  info : PoisonInfo
deriving DecidableEq, Repr

/-- A replay position record (R318, R330). -/
structure Position where
  eng : EKey
  addr : Nat
  tag : Tag
  place : Nat
  cmd : Command
deriving DecidableEq, Repr

structure HostSide where
  ingress : List Ingress
  egress : List Egress
  parts : List Partition
  pendingFaults : List FaultRec  -- in order made; of each die the first 64 stand in its fault buffer, later ones wait with their reporters
  poisons : List PoisonMark
  rests : List RestMark
  seals : List EKey
  positions : List Position
  perf : List (Nat × Nat × Word) -- stand, counter 1 to 15
  xwc : List (Nat × Nat × Lane)  -- stand, SCE
  links : List SyivoPort
  hot : Bool
  up : Bool                      -- bring-up has verified the firmware (R348)
  bootFailed : Bool              -- function 0 reports a failed check (R348)
  ideLost : List Nat
  answers : List (Nat × List Byte)  -- SPDM answers given
  faultVas : List (Nat × Nat)    -- partition, and full address of a fault an element keeps for its record (R325)
deriving DecidableEq, Repr

/-! ### The machine -/

/-- Everything the spec gives the machine. -/
structure State where
  ctl : Ctl
  cfg : Cfg
  q : Queues
  regs : List (EKey × LaneRegs)
  firings : List Firing
  tiles : Tiles
  mem : Mems
  ord : Order
  fr : Front
  eng : Engines
  la : Launches
  host : HostSide
deriving DecidableEq, Repr

/-- Why the machine stops. The spec halts it nowhere, so each is a state no run of the spec reaches; each is safe. -/
inductive Fault where
  /-- A step fetched a stage slot or an instruction word that does not decode (R62 and R75 keep such words out). Raised
  by `step`. Safe: the machine stops where the hardware could not stand. -/
  | badWord
deriving DecidableEq, Repr

/-- Why an instruction has no meaning. -/
inductive Refusal where
  /-- The instruction of this mnemonic is not modelled. Raised by an arm of `exec` alone. Safe. -/
  | notModelled (mnemonic : String)
deriving DecidableEq, Repr

/-! ### Reset -/

/-- A stage slot after reset holds NOP (R66, R218). -/
def nopWord : Word := 0x1F0E01C71C700000#64

def Stream.fresh (lk : LKey) : Stream := ⟨lk, none, false, 0, false, 0, []⟩

/-- Physical function 0 and the partitions after reset (R338, R344). -/
def Partition.reset (n : Nat) : Partition :=
  ⟨n, 0, 1000, 2 ^ 24, 0, 0, 0, 0, 0, 0, 0, .unlocked, [], false, [], [], [], false, [], none⟩

/-- The machine right after device reset (R348): every collection empty, so that every component has the reset value of
its state card; clock 0 (R202); every partition unlocked; links up (log entry 9); bring-up not yet done. -/
def State.reset : State where
  ctl := ⟨[], 0, .nothing, 1, 0⟩
  cfg := ⟨Stream.fresh ⟨0, 0⟩, [], [], [], [], [], [], [], [], []⟩
  q := ⟨[], [], [], [], [], [], [], [], [], [], [], [], [], []⟩
  regs := []
  firings := []
  tiles := ⟨[], [], [], [], [], [], [], [], [], [], [], []⟩
  mem := ⟨[], [], [], [], [], [], [], [], [], [], [], [], [], [], []⟩
  ord := ⟨[], 0, [], []⟩
  fr := ⟨[], [], [], [], [], [], [], [], [], 0, []⟩
  eng := ⟨[], [], [], [], [], [], []⟩
  la := ⟨[], [], []⟩
  host := ⟨[], [], (List.range 8).map Partition.reset, [], [], [], [], [], [], [],
    (List.range 16).map fun p => ⟨p, true, 0, 0, 0, 0, []⟩, false, false, false, [], [], []⟩

end Sys2Proof.Machine
end

