-- ==== Sys2Proof/Machine/Ops.lean ====
section
/-! DEFINITION. The named operations over the state: association lists, byte memories, element and edge lookups, flag
shadows, change sets, tokens leaving, fault records, and the taking of poison. -/

namespace Sys2Proof.Machine

/-- What every meaning answers. -/
abbrev Out := Host.Outcome State Fault Refusal
/-- A step that changes nothing: its action is not enabled (R128, log entry 1). -/
def stay (s : State) : Out := .next s

/-! ### Lists -/

def aget {κ υ : Type} [DecidableEq κ] (xs : List (κ × υ)) (k : κ) : Option υ :=
  (xs.find? fun x => decide (x.1 = k)).map (·.2)
def agetD {κ υ : Type} [DecidableEq κ] (xs : List (κ × υ)) (k : κ) (d : υ) : υ := (aget xs k).getD d
def aset {κ υ : Type} [DecidableEq κ] (xs : List (κ × υ)) (k : κ) (v : υ) : List (κ × υ) :=
  if xs.any fun x => decide (x.1 = k) then xs.map fun x => if x.1 = k then (k, v) else x else xs ++ [(k, v)]
def adel {κ υ : Type} [DecidableEq κ] (xs : List (κ × υ)) (k : κ) : List (κ × υ) :=
  xs.filter fun x => !decide (x.1 = k)
/-- The list with `f` applied where `p` holds. -/
def updIf {α : Type} (xs : List α) (p : α → Bool) (f : α → α) : List α := xs.map fun x => if p x then f x else x
def getAt {α : Type} (xs : List α) (i : Nat) (d : α) : α := (xs[i]?).getD d
def setAt {α : Type} (xs : List α) (i : Nat) (v : α) : List α := xs.set i v
/-- Register n of four. -/
def Four.get {α : Type} (q : Four α) (n : Nat) : α :=
  match n with
  | 0 => q.r0 | 1 => q.r1 | 2 => q.r2 | _ => q.r3
def Four.set {α : Type} (q : Four α) (n : Nat) (x : α) : Four α :=
  match n with
  | 0 => { q with r0 := x } | 1 => { q with r1 := x } | 2 => { q with r2 := x } | 3 => { q with r3 := x } | _ => q
def Four.toList {α : Type} (q : Four α) : List α := [q.r0, q.r1, q.r2, q.r3]
/-- The element with the least key. -/
def minBy {α : Type} (key : α → Nat) : List α → Option α
  | [] => none
  | x :: xs => match minBy key xs with
    | none => some x
    | some y => if key y < key x then some y else some x

/-! ### Byte memories (R105, R106) -/

/-- What an unlisted address reads as (log entry 5). -/
def Memory.default : Byte := 0
def Memory.read : Memory → Nat → Byte
  | [], _ => Memory.default
  | (b, v) :: rest, a => if b = a then v else if a < b then Memory.default else Memory.read rest a
/-- A write keeps the addresses rising and lists no default byte. -/
def Memory.write : Memory → Nat → Byte → Memory
  | [], a, v => if v = Memory.default then [] else [(a, v)]
  | (b, w) :: rest, a, v =>
    if a = b then (if v = Memory.default then rest else (a, v) :: rest)
    else if a < b then (if v = Memory.default then (b, w) :: rest else (a, v) :: (b, w) :: rest)
    else (b, w) :: Memory.write rest a v
def Memory.readN (m : Memory) (a n : Nat) : List Byte := (List.range n).map fun i => Memory.read m (a + i)
def Memory.writeN (m : Memory) (a : Nat) : List Byte → Memory
  | [] => m
  | b :: bs => Memory.writeN (Memory.write m a b) (a + 1) bs
/-- The canonical form: addresses above `lo` strictly rising, no default byte. -/
def Memory.wfFrom : Nat → Memory → Bool
  | _, [] => true
  | lo, (a, v) :: rest => decide (lo ≤ a) && v != Memory.default && Memory.wfFrom (a + 1) rest
def Memory.wf (m : Memory) : Bool := Memory.wfFrom 0 m

/-- Little-endian value of bytes. -/
def leNat : List Byte → Nat
  | [] => 0
  | b :: bs => b.toNat + 256 * leNat bs
/-- The `n` low bytes of a number, little-endian. -/
def leBytes : Nat → Nat → List Byte
  | 0, _ => []
  | n + 1, v => BitVec.ofNat 8 v :: leBytes n (v / 256)
def leWord (bs : List Byte) : Word := BitVec.ofNat 64 (leNat bs)
def leLanes (bs : List Byte) : Lanes := BitVec.ofNat 512 (leNat bs)
/-- Bytes lo to lo + n − 1 of a record, as a number. -/
def recNat (r : List Byte) (lo n : Nat) : Nat := leNat ((r.drop lo).take n)
/-- Whether bytes lo to lo + n − 1 of a record are 0. -/
def recZero (r : List Byte) (lo n : Nat) : Bool := ((r.drop lo).take n).all (· == 0)
/-- A field as a signed number of 8n bits. -/
def recInt (r : List Byte) (lo n : Nat) : Int := (BitVec.ofNat (8 * n) (recNat r lo n)).toInt

/-! ### Elements (R6, R8, R59) -/

def dieOf (stand : Nat) : Nat := stand / 64
def isVpe (e : Nat) : Bool := decide (e < 0x10)
def isSce (e : Nat) : Bool := decide (0x10 ≤ e) && decide (e < 0x20)
def isTile (e : Nat) : Bool := e == 0x20 || e == 0x21
def isMatrix (e : Nat) : Bool := e == 0x28
def isStreamer (e : Nat) : Bool := decide (0x30 ≤ e) && decide (e < 0x34)

/-- Row and column of a VPE in the stand's chequerboard (R8). -/
def vpeCell (v : Nat) : Nat × Nat := (v % 4, 2 * (v / 4) + v % 2)
/-- The SCE at a row and column (R8), if the cell holds one. -/
def sceAt (row col : Nat) : Option Nat :=
  (List.range 16).find? fun c => (c % 4) ^^^ 1 == row && 2 * (c / 4) + (c % 2) == col
/-- The SCE adjacent to a VPE on side 0 west, 1 north, 2 east, 3 south (R8, R107, R229). -/
def sceBeside (v side : Nat) : Option Nat :=
  let (r, c) := vpeCell v
  match side with
  | 0 => if c = 0 then none else sceAt r (c - 1)
  | 1 => if r = 0 then none else sceAt (r - 1) c
  | 2 => sceAt r (c + 1)
  | _ => sceAt (r + 1) c
/-- Whether SCE `c` is adjacent to VPE `v`. -/
def adjacent (v c : Nat) : Bool := (List.range 4).any fun d => sceBeside v d == some c
/-- The element number of R61 whose slot table serves an element. -/
def tableIndex (e : Nat) : Nat :=
  if e < 0x20 then e else if e < 0x28 then e else if e = 0x28 then 34 else 35 + (e - 0x30)

/-! ### Configuration of an element (R61); the values a context holds before its stream are log entry 4's -/

def VpeCfg.initial : VpeCfg :=
  ⟨List.replicate 6 nopWord, [], 1, 0, 0, [0, 0, 0, 0], [0, 0], 0, [0, 0], 0, 0⟩
def Region.unused : Region := ⟨0, 0, 0, 0, false⟩
def Handle.initial : Handle := ⟨0, 0, 0, 0⟩
def SceCfg.initial : SceCfg := ⟨List.replicate 8 Region.unused, List.replicate 16 Handle.initial⟩
def TileCfg.initial : TileCfg := ⟨[], 0, 0, 0, 1, 0, []⟩
def MxCfg.initial : MxCfg := ⟨1, 8, 0, 0, 0, 0, 0, 0⟩
def StrmCfg.initial : StrmCfg := ⟨1, 0, 0⟩
def SlotTable.initial : SlotTable := ⟨List.replicate 16 0, none, 0, 0⟩
/-- L0 to L3 are 0 and every mask bit set after a context load (R85, R87). -/
def LaneRegs.initial : LaneRegs := ⟨⟨0, 0, 0, 0⟩, ⟨0xFFFF#16, 0xFFFF#16, 0xFFFF#16, 0xFFFF#16⟩⟩

def vpeCfg (s : State) (k : EKey) : VpeCfg := agetD s.cfg.vpe k VpeCfg.initial
def sceCfg (s : State) (k : EKey) : SceCfg := agetD s.cfg.sce k SceCfg.initial
def tileCfg (s : State) (k : EKey) : TileCfg := agetD s.cfg.tile k TileCfg.initial
def mxCfg (s : State) (k : EKey) : MxCfg := agetD s.cfg.mx k MxCfg.initial
def strmCfg (s : State) (k : EKey) : StrmCfg := agetD s.cfg.strm k StrmCfg.initial
def laneRegs (s : State) (k : EKey) : LaneRegs := agetD s.regs k LaneRegs.initial
def setLaneRegs (s : State) (k : EKey) (r : LaneRegs) : State := { s with regs := aset s.regs k r }
def setVpeCfg (s : State) (k : EKey) (c : VpeCfg) : State := { s with cfg := { s.cfg with vpe := aset s.cfg.vpe k c } }
def setSceCfg (s : State) (k : EKey) (c : SceCfg) : State := { s with cfg := { s.cfg with sce := aset s.cfg.sce k c } }
def setTileCfg (s : State) (k : EKey) (c : TileCfg) : State := { s with cfg := { s.cfg with tile := aset s.cfg.tile k c } }
def setMxCfg (s : State) (k : EKey) (c : MxCfg) : State := { s with cfg := { s.cfg with mx := aset s.cfg.mx k c } }
def setStrmCfg (s : State) (k : EKey) (c : StrmCfg) : State := { s with cfg := { s.cfg with strm := aset s.cfg.strm k c } }

/-- A handle of a SCE context (R96). -/
def handleOf (s : State) (k : EKey) (h : Nat) : Handle := getAt (sceCfg s k).handles h Handle.initial
def setHandle (s : State) (k : EKey) (h : Nat) (v : Handle) : State :=
  let c := sceCfg s k
  setSceCfg s k { c with handles := setAt c.handles h v }
def offOf (p : BitVec 11) : Nat := p.toNat % 1024
def wrapOf (p : BitVec 11) : Bool := bitAt p 10
/-- Filled slots of a ring (R96); 0 on a handle of size 0 (R197). -/
def Handle.fill (h : Handle) : Nat :=
  if h.size = 0 then 0
  else if wrapOf h.tail = wrapOf h.head then offOf h.tail - offOf h.head
  else h.size - offOf h.head + offOf h.tail
def Handle.free (h : Handle) : Nat := h.size - h.fill
/-- A pointer moved by k slots: past size − 1 back to 0, inverting the wrap bit (R96). -/
def advance (size : Nat) (p : BitVec 11) (k : Nat) : BitVec 11 :=
  if size = 0 then p
  else
    let o := offOf p + k
    let w := if o / size % 2 = 1 then !wrapOf p else wrapOf p
    BitVec.ofNat 11 (o % size + if w then 1024 else 0)
/-- The 48-bit image (R96). -/
def Handle.image (h : Handle) : BitVec 48 :=
  BitVec.ofNat 48 (h.base % 1024 + h.size * 2 ^ 10 + h.head.toNat * 2 ^ 26 + h.tail.toNat * 2 ^ 37)

/-! ### Launches, nodes and edges (R13, R16, R82 to R84) -/

def launchOf (s : State) (k : LKey) : Option Launch := s.la.launches.find? fun l => decide (l.key = k)
def setLaunch (s : State) (l : Launch) : State :=
  { s with la := { s.la with launches := updIf s.la.launches (fun x => decide (x.key = l.key)) fun _ => l } }
def LState.live : LState → Bool
  | .ended => false | .failed => false | _ => true
def LState.onElements : LState → Bool
  | .loading => true | .running => true | .draining => true | _ => false
/-- The configuration stream of a launch (R60). -/
def streamOf (s : State) (lk : LKey) : Stream :=
  if s.cfg.stream.launch = lk then s.cfg.stream
  else (s.cfg.others.find? fun x => decide (x.launch = lk)).getD (Stream.fresh lk)
/-- The next command is one of a launch's stream. -/
def tune (s : State) (lk : LKey) : State :=
  if s.cfg.stream.launch = lk then s
  else { s with cfg := { s.cfg with stream := streamOf s lk
                                    others := s.cfg.stream :: s.cfg.others.filter fun x => decide (x.launch ≠ lk) } }
/-- A launch that begins to load has a stream of its own, with nothing selected (R24, R60). -/
def openStream (s : State) (lk : LKey) : State :=
  { s with cfg := { s.cfg with stream := if s.cfg.stream.launch = lk then Stream.fresh lk else s.cfg.stream
                               others := s.cfg.others.filter fun x => decide (x.launch ≠ lk) } }
def Launch.placed (l : Launch) : List Placed := (l.place.map (·.nodes)).getD []
/-- The launch that an element's context serves (R16). -/
def launchAt (s : State) (k : EKey) : Option Launch :=
  s.la.launches.find? fun l => l.state.onElements && l.placed.any fun p => decide (p.at_ = k)
/-- The reporter of a record that finds its die's fault buffer full stalls until there is room (R326). -/
def reporting (s : State) (stand elem : Nat) : Bool :=
  ((s.host.pendingFaults.filter fun r => r.die == dieOf stand).drop Config.faultBuffer).any fun r => r.stand == stand && r.elem == elem
def running (s : State) (k : EKey) : Bool :=
  (match launchAt s k with
  | some l => l.state = .running || l.state = .draining
  | none => false) && !reporting s k.stand k.elem
def Launch.nodeAt (l : Launch) (k : EKey) : Option Nat := (l.placed.find? fun p => decide (p.at_ = k)).map (·.node)
def Launch.whereIs (l : Launch) (node : Nat) : Option EKey := (l.placed.find? fun p => p.node == node).map (·.at_)
def Launch.nodeRec (l : Launch) (node : Nat) : Option NodeRec := l.module.bind fun m => m.nodes.find? fun n => n.num == node
def Launch.edgeRec (l : Launch) (e : Nat) : Option EdgeRec := l.module.bind fun m => m.edges.find? fun x => x.num == e
def Launch.widths (l : Launch) : List Nat := (l.module.map (·.widths)).getD []
def Launch.ctx (l : Launch) : Nat := (l.place.map (·.ctx)).getD 0
def edgeRec (s : State) (k : EdgeKey) : Option EdgeRec := (launchOf s ⟨k.part, k.launch⟩).bind fun l => l.edgeRec k.edge
def ekLaunch (k : EdgeKey) : LKey := ⟨k.part, k.launch⟩
def lkEdge (k : LKey) (e : Nat) : EdgeKey := ⟨k.part, k.launch, e⟩
/-- The format of an edge, and whether bursts on it carry a HEAD (R33). -/
def fmtHeaded : Fmt → Bool
  | .e4 => true | .e5 => true | .i8 => true | .o4 => true | .dir => true | _ => false
/-- Elements per lane and bits per element (R33, R34). -/
def fmtBits : Fmt → Nat
  | .f32 => 32 | .b16 => 16 | .e4 => 8 | .e5 => 8 | .i32 => 32 | .i8 => 8 | .o4 => 4 | .dir => 16

/-- Who takes the tokens of an edge. -/
inductive Consumer where
  | vpe (k : EKey) (inp : Nat)
  | tile (k : EKey) (port : Nat)
  | matrix (k : EKey) (isB : Bool)
  | egress (k : PortKey)
  | nobody
deriving DecidableEq, Repr

/-- Index of the ingress or egress node among those of its kind, in declaration order (R340). -/
def Module.portIndex (m : Module) (kind : NodeKind) (node : Nat) : Nat :=
  ((m.nodes.filter fun n => n.kind = kind).map (·.num)).idxOf node

/-- The consumer of an edge: VPE inputs are found by INLOC, island inputs by their location fields (R61, R84), the other
consumers by the module's records. -/
def consumerOf (s : State) (ek : EdgeKey) : Consumer :=
  match launchOf s (ekLaunch ek) with
  | none => .nobody
  | some l =>
    let loc := 2048 + ek.edge
    let hit := l.placed.findSome? fun p =>
      if isVpe p.at_.elem then
        ((List.range 4).find? fun i => getAt (vpeCfg s p.at_).inloc i 0 == loc && bitAt (vpeCfg s p.at_).matched i).map
          fun i => Consumer.vpe p.at_ i
      else if isMatrix p.at_.elem then
        if (mxCfg s p.at_).locA == loc then some (.matrix p.at_ false)
        else if (mxCfg s p.at_).locB == loc then some (.matrix p.at_ true) else none
      else none
    match hit, l.edgeRec ek.edge with
    | some c, _ => c
    | none, some e =>
      match l.nodeRec e.cons, l.module with
      | some n, some m =>
        match n.kind with
        | .block => match l.whereIs n.num with
          | some k => .tile k e.cport
          | none => .nobody
        | .egress => .egress ⟨ek.part, l.eport + m.portIndex .egress n.num⟩
        | _ => .nobody
      | _, _ => .nobody
    | none, none => .nobody

/-- The element a node sends from. -/
def producerOf (s : State) (ek : EdgeKey) : Option EKey :=
  (launchOf s (ekLaunch ek)).bind fun l => (l.edgeRec ek.edge).bind fun e => l.whereIs e.prod
/-- The edge an output port of a block node feeds, and the edge that feeds an input port. -/
def Launch.outEdge (l : Launch) (node port : Nat) : Option EdgeRec :=
  l.module.bind fun m => m.edges.find? fun e => e.prod == node && e.pport == port
def Launch.inEdge (l : Launch) (node port : Nat) : Option EdgeRec :=
  l.module.bind fun m => m.edges.find? fun e => e.cons == node && e.cport == port
/-- Every edge out of a node, in port order. -/
def Launch.outEdges (l : Launch) (node : Nat) : List EdgeRec :=
  (List.range 16).filterMap fun p => l.outEdge node p

/-- Edges whose consumer is a VPE carry no credits (R143). -/
def credited (s : State) (ek : EdgeKey) : Bool :=
  match consumerOf s ek with
  | .vpe _ _ => false
  | _ => true
def Kind.code : Kind → Nat
  | .data => 0 | .head => 1 | .endOf => 2 | .poison => 3 | .note => 4 | .brake => 5 | .req => 6
/-- Tokens that take a credit (R144, log entry 8): a REQ needs none, and a BRAKE waits in no buffer. -/
def Kind.credit : Kind → Bool
  | .req => false | .brake => false | _ => true
/-- Free credits of an edge: 32 slots less the tokens buffered, in flight and reserved (R143). -/
def credits (s : State) (ek : EdgeKey) : Nat :=
  Config.edgeSlots
    - ((s.q.buffers.filter fun b => decide (b.edge = ek)).length
      + (s.q.flights.filter fun f => decide (f.edge = ek) && f.tok.kind.credit).length
      + ((s.firings.map fun f => agetD f.reserved ek 0).foldl (· + ·) 0))

/-! ### Tags (R18, R19) -/

def tagDepth (t : Tag) : Nat := (field t 60 4).toNat
/-- Bit where level i starts. -/
def levelStart (ws : List Nat) (i : Nat) : Nat := (ws.take i).foldl (· + ·) 0
def levelWidth (ws : List Nat) (i : Nat) : Nat := getAt ws i 0
def tagLevel (ws : List Nat) (t : Tag) (i : Nat) : Nat := t.toNat / 2 ^ levelStart ws i % 2 ^ levelWidth ws i
def setLevel (ws : List Nat) (t : Tag) (i v : Nat) : Tag :=
  t - BitVec.ofNat 64 (tagLevel ws t i * 2 ^ levelStart ws i) + BitVec.ofNat 64 (v * 2 ^ levelStart ws i)
def setDepth (t : Tag) (d : Nat) : Tag := (t &&& 0x0FFFFFFFFFFFFFFF#64) ||| BitVec.ofNat 64 (d * 2 ^ 60)
def tagEnter (ws : List Nat) (t : Tag) : Option Tag :=
  if tagDepth t ≥ ws.length then none else some (setLevel ws (setDepth t (tagDepth t + 1)) (tagDepth t) 0)
def tagStep (ws : List Nat) (t : Tag) : Option Tag :=
  let k := tagDepth t - 1
  if tagLevel ws t k + 1 ≥ 2 ^ levelWidth ws k then none else some (setLevel ws t k (tagLevel ws t k + 1))
def tagLeave (ws : List Nat) (t : Tag) : Option Tag :=
  if tagDepth t ≤ 1 then none else some (setDepth (setLevel ws t (tagDepth t - 1) 0) (tagDepth t - 1))
/-- The depth-1 tag of an epoch. -/
def epochTag (ws : List Nat) (e : Nat) : Tag := setLevel ws (setDepth 0 1) 0 e
/-- Level 0 of a tag, by the layout of its launch. -/
def epochOf (s : State) (lk : LKey) (t : Tag) : Nat :=
  match launchOf s lk with
  | some l => tagLevel l.widths t 0
  | none => 0
/-- u ≤ v of two tags of equal depth (R20). -/
def tagLe (ws : List Nat) (u v : Tag) : Bool :=
  (List.range (tagDepth u)).all fun i => decide (tagLevel ws u i ≤ tagLevel ws v i)

/-! ### Numbers of the model's own -/

/-- A fresh name for a token in flight, a firing, a thread token, an execution, a node. -/
def fresh (s : State) : Nat × State := (s.ctl.nextId, { s with ctl := { s.ctl with nextId := s.ctl.nextId + 1 } })

/-! ### Flag shadows (R199) and performance counters (R202) -/

def shadowMine (stand ctx epoch : Nat) (h : Shadow) : Bool := h.stand == stand && h.ctx == ctx && h.epoch == epoch
/-- Whether the epoch has a shadow or a free one (8 per context of a stand). -/
def shadowRoom (s : State) (stand ctx epoch : Nat) : Bool :=
  s.fr.shadows.any (shadowMine stand ctx epoch)
    || decide ((s.fr.shadows.filter fun h => h.stand == stand && h.ctx == ctx).length < 8)
def setShadows (s : State) (hs : List Shadow) : State := { s with fr := { s.fr with shadows := hs } }
/-- The shadow of an epoch is allocated at its first event. -/
def openShadow (s : State) (stand ctx epoch : Nat) : State :=
  if s.fr.shadows.any (shadowMine stand ctx epoch) then s
  else setShadows s (s.fr.shadows ++ [⟨stand, ctx, epoch, 0, [], []⟩])
/-- Flags set in an epoch's shadow; an empty set changes nothing. -/
def raiseFlags (s : State) (stand ctx epoch : Nat) (fl : FlagSet) : State :=
  if fl = 0 then s
  else
    let s := openShadow s stand ctx epoch
    setShadows s (updIf s.fr.shadows (shadowMine stand ctx epoch) fun h => { h with fl := h.fl ||| fl })
/-- Whether raising the flags must wait for a shadow. -/
def flagsWait (s : State) (stand ctx epoch : Nat) (fl : FlagSet) : Bool := fl != 0 && !shadowRoom s stand ctx epoch
def satAdd32 (a b : Nat) : Nat := min (a + b) 0xFFFFFFFF
/-- NaN and overflow counts of an island (R199, R200). -/
def raiseCounts (s : State) (k : EKey) (epoch nans overs : Nat) : State :=
  if nans = 0 && overs = 0 then s
  else
    let s := openShadow s k.stand k.ctx epoch
    setShadows s (updIf s.fr.shadows (shadowMine k.stand k.ctx epoch) fun h =>
      { h with nans := aset h.nans k.elem (satAdd32 (agetD h.nans k.elem 0) nans),
               overs := aset h.overs k.elem (satAdd32 (agetD h.overs k.elem 0) overs) })
/-- A performance counter of a stand; counter 0 is the clock (R202). -/
def perfOf (s : State) (stand i : Nat) : Word :=
  if i = 0 then BitVec.ofNat 64 s.ctl.clock
  else ((s.host.perf.find? fun (a, b, _) => a == stand && b == i).map fun (_, _, v) => v).getD 0
def bumpPerf (s : State) (stand i : Nat) (n : Nat) : State :=
  let v := perfOf s stand i + BitVec.ofNat 64 n
  let rest := s.host.perf.filter fun (a, b, _) => !(a == stand && b == i)
  if n = 0 then s else { s with host := { s.host with perf := rest ++ [(stand, i, v)] } }

/-! ### Change sets (R160 to R163) -/

/-- Deltas netted by location and tag; a zero entry vanishes. -/
def netDelta (t : List Delta) (x : Delta) : List Delta :=
  if t.any fun y => y.loc == x.loc && y.tag == x.tag then
    (updIf t (fun y => y.loc == x.loc && y.tag == x.tag) fun y => { y with d := y.d + x.d }).filter fun y => y.d != 0
  else if x.d = 0 then t else t ++ [x]
def netAll (t : List Delta) (xs : List Delta) : List Delta := xs.foldl netDelta t
def unitMine (stand : Nat) (lk : LKey) (u : FUnit) : Bool := u.stand == stand && decide (u.launch = lk)
def unitOf (s : State) (stand : Nat) (lk : LKey) : FUnit :=
  (s.fr.units.find? (unitMine stand lk)).getD ⟨stand, lk, [], [], [], s.ctl.clock, 0⟩
def setUnit (s : State) (u : FUnit) : State :=
  if s.fr.units.any (unitMine u.stand u.launch) then
    { s with fr := { s.fr with units := updIf s.fr.units (unitMine u.stand u.launch) fun _ => u } }
  else { s with fr := { s.fr with units := s.fr.units ++ [u] } }
def FUnit.entries (u : FUnit) : List Delta := u.table ++ u.spill
/-- A change nets where its entry stands; a new entry goes into the delta table, or, when that is full, into the spill table (R163).
`room` is what the delta table holds for this launch. -/
def FUnit.add (room : Nat) (u : FUnit) (x : Delta) : FUnit :=
  let same := fun (y : Delta) => y.loc == x.loc && y.tag == x.tag
  let u := if u.changed.contains (x.loc, x.tag) then u else { u with changed := (x.loc, x.tag) :: u.changed }
  if u.table.any same || (!u.spill.any same && decide (u.table.length < room)) then { u with table := netDelta u.table x }
  else { u with spill := netDelta u.spill x }
/-- Entries of a stand's unit, which all its launches share. -/
def unitUse (s : State) (stand : Nat) (f : FUnit → List Delta) : Nat :=
  ((s.fr.units.filter fun u => u.stand == stand).map fun u => (f u).length).foldl (· + ·) 0
/-- One change set enters its frontier unit whole (R161, R163). -/
def changeSet (s : State) (stand : Nat) (lk : LKey) (ds : List Delta) : State :=
  if ds.isEmpty then s
  else
    let u := unitOf s stand lk
    setUnit s (ds.foldl (FUnit.add (Config.deltaEntries + u.table.length - unitUse s stand FUnit.table)) u)
/-- Whether the stand's delta and spill tables have room for `n` more entries (R163). -/
def unitRoom (s : State) (stand n : Nat) : Bool := decide (unitUse s stand FUnit.entries + n ≤ Config.deltaEntries + Config.spillEntries)
/-- Every unit's entries fit its tables. -/
def unitsFit (s : State) : Bool := s.fr.units.all fun u => unitRoom s u.stand 0
/-- A step whose change sets find no room in a unit's tables is stalled (R163). -/
def roomed (s t : State) : Out := if unitsFit t then .next t else stay s
/-- DATA, END and POISON are counted, unless they belong to a segment (R161). -/
def Token.counted (t : Token) : Bool :=
  t.seg == 0 && (match t.kind with | .data => true | .endOf => true | .poison => true | _ => false)
/-- The change a consumer makes when it takes a token; a NOTE's count is its request's (R162, R171). -/
def usedDelta (e : Nat) (t : Token) : List Delta :=
  if t.counted || (t.seg == 0 && t.kind = .note) then [⟨e, t.tag, -1⟩] else []
/-- The change a counted token makes at its edge, n times. -/
def tokDelta (e : Nat) (t : Token) (n : Int) : List Delta := if t.counted then [⟨e, t.tag, n⟩] else []
/-- The location that counts work taken in by edge e (R84). -/
def inLoc (e : Nat) : Nat := 2048 + e

/-! ### Pull edges (R21, R144, R196) -/

def reqCount (s : State) (ek : EdgeKey) : Nat :=
  match edgeRec s ek with
  | some e => agetD s.q.reqs ek e.permits
  | none => 0
def setReqs (s : State) (ek : EdgeKey) (n : Nat) : State := { s with q := { s.q with reqs := aset s.q.reqs ek n } }
def isPull (s : State) (ek : EdgeKey) : Bool := match edgeRec s ek with | some e => e.pull || e.permits != 0 | none => false
/-- A producer may start a burst on the edge: a push edge, or one with an unanswered request. -/
def mayStart (s : State) (ek : EdgeKey) : Bool := !isPull s ek || decide (0 < reqCount s ek)
/-- The first DATA token of a burst uses a request. -/
def useRequest (s : State) (ek : EdgeKey) : State := if isPull s ek then setReqs s ek (reqCount s ek - 1) else s

/-! ### Bursts of a block tile's thread tokens (R22, R272) -/

def setBursts (s : State) (bs : List OpenBurst) : State := { s with q := { s.q with bursts := bs } }
def burstOf (s : State) (ek : EdgeKey) (src : EKey) : Option OpenBurst :=
  s.q.bursts.find? fun b => decide (b.edge = ek) && decide (b.src = src)
def closeBurst (s : State) (ek : EdgeKey) (src : EKey) : State :=
  setBursts s (s.q.bursts.filter fun b => !(decide (b.edge = ek) && decide (b.src = src)))
def edgeBurst (s : State) (ek : EdgeKey) : Nat := match edgeRec s ek with | some e => e.burst | none => 1
/-- What a thread token's token does to its burst: a HEAD opens it, the B-th DATA or an END ends it; its first DATA uses a
request. -/
def burstStep (s : State) (ek : EdgeKey) (src : EKey) (owner : Nat) (t : Token) : State :=
  let sent := ((burstOf s ek src).map (·.sent)).getD 0
  match t.kind with
  | .head => setBursts (closeBurst s ek src) ((closeBurst s ek src).q.bursts ++ [⟨ek, src, owner, t.tag, 0⟩])
  | .data =>
    let s := if sent = 0 then useRequest s ek else s
    let s' := closeBurst s ek src
    if edgeBurst s ek ≤ sent + 1 then s' else setBursts s' (s'.q.bursts ++ [⟨ek, src, owner, t.tag, sent + 1⟩])
  | .endOf => closeBurst s ek src
  | _ => s

/-! ### Tokens leaving (R9, R143) -/

def setFlights (s : State) (fs : List Flight) : State := { s with q := { s.q with flights := fs } }
/-- A token put on an edge, behind every token its producer has sent there. -/
def launchTok (s : State) (ek : EdgeKey) (src : EKey) (t : Token) : State :=
  let (id, s) := fresh s
  setFlights s (s.q.flights ++ [⟨id, ek, src, t⟩])
def launchToks (s : State) (ek : EdgeKey) (src : EKey) (ts : List Token) : State :=
  ts.foldl (fun s t => launchTok s ek src t) s
def setOwed (s : State) (o : List Owed) : State := { s with q := { s.q with owed := o } }
/-- What may leave on an edge now, of an owner (0 the element itself, else a thread token): no burst of another thread token
stands open, a burst's first DATA has its request, and a credit is free where the edge carries them (R143, R144, R272). -/
def edgeFree (s : State) (ek : EdgeKey) (src : EKey) (owner : Nat) (t : Token) : Bool :=
  let open_ := burstOf s ek src
  (owner == 0 || ((match open_ with | some b => b.owner == owner | none => true)
      && (t.kind != .data || (match open_ with | some b => b.sent != 0 | none => false) || mayStart s ek)))
    && (!credited s ek || !t.kind.credit || decide (0 < credits s ek))
/-- Owed tokens that a token of an owner may not pass. -/
def owedBefore (os : List Owed) (ek : EdgeKey) (src : EKey) (owner : Nat) : Bool :=
  os.any fun o => decide (o.edge = ek) && decide (o.src = src) && (o.owner == 0 || owner == 0 || o.owner == owner)
def mayLeave (s : State) (ek : EdgeKey) (src : EKey) (owner : Nat) (t : Token) : Bool :=
  !owedBefore s.q.owed ek src owner && edgeFree s ek src owner t
/-- A token leaves; a thread token's is counted in its burst. -/
def leaveTok (s : State) (ek : EdgeKey) (src : EKey) (owner : Nat) (t : Token) : State :=
  launchTok (if owner = 0 then s else burstStep s ek src owner t) ek src t
/-- A token that must be sent leaves at once, or waits in order (R143). -/
def sendBy (s : State) (ek : EdgeKey) (src : EKey) (owner : Nat) (t : Token) : State :=
  if mayLeave s ek src owner t then leaveTok s ek src owner t
  else setOwed s (s.q.owed ++ [⟨src, ek, t, owner⟩])
def mustSend (s : State) (ek : EdgeKey) (src : EKey) (t : Token) : State := sendBy s ek src 0 t
/-- Owed tokens that may leave do so, in order; every step begins with this. -/
def payOwed (s : State) : State :=
  s.q.owed.foldl (fun s o =>
    if !owedBefore (s.q.owed.takeWhile fun x => !decide (x = o)) o.edge o.src o.owner && edgeFree s o.edge o.src o.owner o.tok then
      leaveTok (setOwed s (s.q.owed.erase o)) o.edge o.src o.owner o.tok
    else s) s

/-- An END (R11): VALID 0x0001, lane 0 the code. -/
def endToken (tag : Tag) (ft : Fmt) (code : Lane) : Token := ⟨tag, 0, .endOf, ft, 0x0001#16, code.setWidth 512⟩
/-- A POISON (R321). -/
def poisonToken (tag : Tag) (p : PoisonInfo) : Token :=
  ⟨tag, 0, .poison, .i32, 0x0007#16,
   lanesFrom fun i => match i with
     | 0 => p.code.setWidth 32
     | 1 => BitVec.ofNat 32 (p.stand % 512) ||| (p.elem.setWidth 32 <<< 16)
     | 2 => p.detail
     | _ => 0⟩
/-- What a POISON says (R321). -/
def poisonOf (t : Token) : PoisonInfo :=
  ⟨field t.payload 0 8, (field t.payload 32 9).toNat, field t.payload 48 8, laneOf t.payload 2⟩
/-- A HEAD whose reserved bits are 0 (R39). The fields that R39 fixes for its format count among them (NORM 0, or SCALE 0x7F and REFINE 0
of a DIR HEAD); its VALID does not (DESIGN CHOICE, log entry 97). -/
def headOk (t : Token) : Bool :=
  let l0 := laneOf t.payload 0
  let dir := t.ft = .dir
  (field l0 28 4 == 0) && (field l0 17 7 == 0)
    && (List.range 14).all (fun i => laneOf t.payload (i + 2) == 0)
    && (if dir then field l0 0 8 == 0x7F && field l0 8 8 == 0 else laneOf t.payload 1 == 0)
/-- The HEAD an element forms (R39, R205). -/
def formHead (tag : Tag) (seg : BitVec 12) (ft : Fmt) (scale refine : BitVec 8) (rv : Bool) (swz : BitVec 4) (norm : Lane) : Token :=
  let l0 : Lane := scale.setWidth 32 ||| (refine.setWidth 32 <<< 8) ||| (if rv then 0x10000#32 else 0) ||| (swz.setWidth 32 <<< 24)
  ⟨tag, seg, .head, ft, if ft = .dir then 0x0003#16 else 0x0001#16,
   lanesFrom fun i => match i with | 0 => l0 | 1 => if ft = .dir then norm else 0 | _ => 0⟩

/-! ### Fault records (R325, R326, R338) -/

def partOf (s : State) (n : Nat) : Option Partition := s.host.parts.find? fun p => p.num == n
def setPart (s : State) (p : Partition) : State :=
  { s with host := { s.host with parts := updIf s.host.parts (fun x => x.num == p.num) fun _ => p } }
/-- The partition a stand belongs to (R338): the one whose die mask holds its die. -/
def partOfStand (s : State) (stand : Nat) : Option Nat :=
  (s.host.parts.find? fun p => bitAt p.dies (dieOf stand)).map (·.num)
/-- A record goes to its die's fault buffer, or waits with its reporter for room there; FAULT_RECORD_WRITE moves it to the queue. -/
def record (s : State) (r : FaultRec) : State :=
  { s with host := { s.host with pendingFaults := s.host.pendingFaults ++ [r] } }
/-- A record with no detail of its own, reported at a stand. -/
def simpleRec (s : State) (part typ code stand elem ctx launch : Nat) (tag : Tag) (detail : Nat) : FaultRec :=
  ⟨part, dieOf stand, typ, code, stand, elem, ctx, launch, tag, 0, detail, s.ctl.clock, List.replicate 24 0⟩
/-- Whether the die fault buffer has room (R326). -/
def faultRoom (s : State) (die : Nat) : Bool :=
  decide ((s.host.pendingFaults.filter fun r => r.die == die).length < Config.faultBuffer)
/-- An MSI-X vector of a partition raised (R337). -/
def raiseVector (s : State) (part v : Nat) : State :=
  match partOf s part with
  | some p => setPart s { p with msix := p.msix ++ [v] }
  | none => s

/-- Lowest-numbered die of a mask. -/
def lowDie (m : BitVec 8) : Nat := ((List.range 8).find? fun d => bitAt m d).getD 0

/-! ### Seals and poison memories (R318, R322, R324) -/

def sealedAt (s : State) (k : EKey) : Bool := s.host.seals.contains k
/-- A POISON met in an element's poison memory is absorbed; otherwise it is recorded, the oldest of 16 replaced. -/
def poisonSeen (s : State) (k : EKey) (tag : Tag) (p : PoisonInfo) : Bool :=
  s.host.poisons.any fun m => m.elem == (k.stand, k.elem) && m.ctx == k.ctx && m.tag == tag
    && m.info.code == p.code && m.info.stand == p.stand && m.info.elem == p.elem
def notePoison (s : State) (k : EKey) (tag : Tag) (p : PoisonInfo) : State :=
  let mine := fun m : PoisonMark => m.elem == (k.stand, k.elem)
  let all := s.host.poisons
  let all := if (all.filter mine).length < 16 then all
    else match all.find? mine with
      | some old => all.erase old
      | none => all
  { s with host := { s.host with poisons := all ++ [⟨(k.stand, k.elem), k.ctx, tag, p⟩] } }

/-- The poison codes of R320. -/
def pILL : BitVec 8 := 1
def pREGRANGE : BitVec 8 := 2
def pFMT : BitVec 8 := 3
def pO4TAIL : BitVec 8 := 4
def pO4DENSE : BitVec 8 := 5
def pSWZ : BitVec 8 := 6
def pDIMS : BitVec 8 := 7
def pTAGOVF : BitVec 8 := 8
def pSYNC : BitVec 8 := 9
def pPERM : BitVec 8 := 10
def pPAGE : BitVec 8 := 11
def pSAVE : BitVec 8 := 12
def pLINK : BitVec 8 := 13

/-! ### Syivo links, and what a fault record keeps (R325, R346) -/

def linkOf (s : State) (port : Nat) : Option SyivoPort := s.host.links.find? fun x => x.port == port
/-- The port by which a stand's accesses to a peer package leave: of the two of its die, the one that carries no switch (DESIGN CHOICE, log
entry 131). -/
def peerPort (stand : Nat) : Nat := 2 * dieOf stand + 1
def linkLost (s : State) (stand : Nat) : Bool := !((linkOf s (peerPort stand)).any (·.up))
/-- An element keeps the full address of a fault for its record; a poison carries the low 32 bits (R320, R325; log entry 124). -/
def noteVa (s : State) (part va : Nat) : State :=
  { s with host := { s.host with
    faultVas := (s.host.faultVas.filter fun x => !(x.1 == part && x.2 % 2 ^ 32 == va % 2 ^ 32)) ++ [(part, va)] } }
/-- The address kept for a partition's fault with those low bits; 0: the fault is of no virtual address. -/
def faultVa (s : State) (part detail : Nat) : Nat :=
  ((s.host.faultVas.find? fun x => x.1 == part && x.2 % 2 ^ 32 == detail).map (·.2)).getD 0

end Sys2Proof.Machine
end

