-- ==== Sys2Proof/Machine/Memory.lean ====
section
/-! DEFINITION. What an access reaches and what it changes (R105 to R121): address translation, L2 lines and HBM, the
stand L1 with its leases, scratch in its region modes. -/

namespace Sys2Proof.Machine

def setMem (s : State) (m : Mems) : State := { s with mem := m }
def withL2 (s : State) (l : List L2Line) : State := setMem s { s.mem with l2 := l }
def withL1 (s : State) (l : List L1Line) : State := setMem s { s.mem with l1 := l }
def withScratch (s : State) (m : Memory) : State := setMem s { s.mem with scratch := m }
def withHost (s : State) (m : Memory) : State := setMem s { s.mem with host := m }
def withSectors (s : State) (x : List Sector) : State := setMem s { s.mem with sectors := x }
def withTrans (s : State) (x : List Trans) : State := setMem s { s.mem with trans := x }

/-! ### SY.LCLK (R115) -/

def lclkOf (s : State) (stand ctx : Nat) : Nat :=
  ((s.ord.lclk.find? fun (a, b, _) => a == stand && b == ctx).map fun (_, _, v) => v).getD 0
def setLclk (s : State) (stand ctx v : Nat) : State :=
  { s with ord := { s.ord with lclk := (s.ord.lclk.filter fun (a, b, _) => !(a == stand && b == ctx)) ++ [(stand, ctx, v)] } }
/-- The clock never falls. -/
def raiseLclk (s : State) (stand ctx v : Nat) : State :=
  if lclkOf s stand ctx < v then setLclk s stand ctx v else s

/-! ### L2 and HBM (R116 to R118) -/

/-- A byte of a 128-byte line. -/
def lineByte (d : BitVec 1024) (i : Nat) : Byte := d.extractLsb' (8 * i) 8
def setLineByte (d : BitVec 1024) (i : Nat) (b : Byte) : BitVec 1024 :=
  (d &&& ~~~((0xFF#1024) <<< (8 * i))) ||| (b.setWidth 1024 <<< (8 * i))
def lineBytes (d : BitVec 1024) (lo n : Nat) : List Byte := (List.range n).map fun i => lineByte d (lo + i)
def setLineBytes (d : BitVec 1024) (lo : Nat) (bs : List Byte) : BitVec 1024 :=
  bs.zipIdx.foldl (fun d (b, i) => setLineByte d (lo + i) b) d

/-- Package and die, slice and set of a line (R116). -/
def homeOf (line : Nat) : Nat × Nat × Nat :=
  let n := line % 2 ^ 31
  (line / 2 ^ 31, ((n % 512) ^^^ (n / 2 ^ 9 % 512) ^^^ (n / 2 ^ 18 % 512) ^^^ (n / 2 ^ 27 % 16)), n / 2 ^ 9 % 256)

/-- The key a sector's ciphertext stands under; 64 where nothing was ever written. -/
def sectorKey (s : State) (sec : Nat) : Nat := agetD s.mem.hbmKeys sec 64
/-- Place of a device address in HBM (R116): even lines of a die's window on its first stack, odd ones on its second, each at
byte (n >> 1) × 128; a stack spans 2^37. -/
def hbmAt (dpa : Nat) : Nat :=
  let n := dpa % 2 ^ 38 / 128
  dpa / 2 ^ 38 * 2 ^ 38 + n % 2 * 2 ^ 37 + n / 2 * 128 + dpa % 128
/-- A byte of HBM under the key it was written under. -/
def hbmPlain (s : State) (a : Nat) : Byte := Memory.read s.mem.hbm (hbmAt a)
/-- A byte of HBM as it decrypts under a key (R117, R118): a foreign key turns each block of 16 bytes into another. -/
def hbmByte (s : State) (key a : Nat) : Byte :=
  let k := sectorKey s (a / 64)
  if k = 64 || k = key then hbmPlain s a
  else
    let blk := a / 16 * 16
    let c : BitVec 128 := BitVec.ofNat 128 (leNat ((List.range 16).map fun i => hbmPlain s (blk + i)))
    (Config.foreignBlock k key (a / 64) (a / 16 % 4) c).extractLsb' (8 * (a % 16)) 8
def lineOf (s : State) (line : Nat) : Option L2Line := s.mem.l2.find? fun l => l.line == line
def setLine (s : State) (l : L2Line) : State := withL2 s (updIf s.mem.l2 (fun x => x.line == l.line) fun _ => l)

/-- The dirty sectors of a line written back under its key (R117). -/
def writeBackLine (s : State) (l : L2Line) : State :=
  (List.range 2).foldl (fun s i =>
    if getAt l.dirty i false then
      let a := l.line * 128 + 64 * i
      setMem s { s.mem with hbm := Memory.writeN s.mem.hbm (hbmAt a) (lineBytes l.data (64 * i) 64),
                            hbmKeys := aset s.mem.hbmKeys (a / 64) l.key }
    else s) s
def dropLine (s : State) (line : Nat) : State := withL2 s (s.mem.l2.filter fun l => !(l.line == line))

/-- A resident line for the access, its sector filled: a foreign key writes the line back and refills it; a full set
evicts its least recently used line (R117). -/
def fetchLine (s : State) (part key line sec : Nat) : State × L2Line :=
  let (stamp, s) := fresh s
  let s := match lineOf s line with
    | some l => if l.key != key then dropLine (writeBackLine s l) line else s
    | none => s
  let s := match lineOf s line with
    | some _ => s
    | none =>
      let mine := s.mem.l2.filter fun l => decide (homeOf l.line = homeOf line)
      let s := if mine.length < 16 then s
        else match minBy (·.used) mine with
          | some v => dropLine (writeBackLine s v) v.line
          | none => s
      withL2 s (s.mem.l2 ++ [⟨line, 0, [false, false], [false, false], 0, 0, part, key, 0, stamp, [none, none]⟩])
  match lineOf s line with
  | none => (s, ⟨line, 0, [true, true], [false, false], 0, 0, part, key, 0, stamp, [none, none]⟩)
  | some l =>
    let l := if getAt l.valid sec false then { l with used := stamp }
      else
        let bs := (List.range 64).map fun i => hbmByte s key (line * 128 + 64 * sec + i)
        { l with used := stamp, data := setLineBytes l.data (64 * sec) bs, valid := setAt l.valid sec true,
                 marks := setAt l.marks sec none }
    (setLine s l, l)

/-- The sectors a range within one line touches. -/
def sectorsOf (lo n : Nat) : List Nat :=
  if n = 0 then [] else (List.range 2).filter fun i => decide (lo < 64 * (i + 1)) && decide (64 * i < lo + n)

/-- `load_nc` at the home (R115), within one line: bytes and wts. -/
def homeRead (s : State) (part key dpa n clock : Nat) : State × List Byte × Nat :=
  let line := dpa / 128
  let s := (sectorsOf (dpa % 128) n).foldl (fun s i => (fetchLine s part key line i).1) s
  match lineOf s line with
  | none => (s, List.replicate n 0, 0)
  | some l =>
    let l := { l with rts := max l.rts clock }
    (setLine s l, lineBytes l.data (dpa % 128) n, l.wts)

/-- The mark of a first or later write (R329). -/
def nextMark (old : Option WriteMark) (m : WriteMark) : Option WriteMark :=
  match old with
  | none => some m
  | some o => if o = m then some m else some ⟨0xFF, o.epoch⟩

/-- `write` at the home (R115, R198), within one line: bytes applied, wts returned, sequence number raised. -/
def homeWrite (s : State) (part key dpa clock : Nat) (bs : List Byte) (mark : WriteMark) : State × Nat × Half :=
  let line := dpa / 128
  let secs := sectorsOf (dpa % 128) bs.length
  let s := secs.foldl (fun s i => (fetchLine s part key line i).1) s
  match lineOf s line with
  | none => (s, 0, 0)
  | some l =>
    let w := max clock (l.rts + 1)
    let l := { l with data := setLineBytes l.data (dpa % 128) bs, wts := w, rts := w, sq := l.sq + 1,
                      dirty := secs.foldl (fun d i => setAt d i true) l.dirty,
                      marks := secs.foldl (fun d i => setAt d i (nextMark (getAt d i none) mark)) l.marks }
    (setLine s l, w, l.sq)

/-- A byte of device memory as the home holds it, with no trace left (table reads, R119; log entry 10). -/
def peekByte (s : State) (key a : Nat) : Byte :=
  match lineOf s (a / 128) with
  | some l => if getAt l.valid (a % 128 / 64) false && l.key == key then lineByte l.data (a % 128) else hbmByte s key a
  | none => hbmByte s key a
def peekAny (s : State) (a : Nat) : Byte :=
  match lineOf s (a / 128) with
  | some l => if getAt l.valid (a % 128 / 64) false then lineByte l.data (a % 128) else hbmPlain s a
  | none => hbmPlain s a

/-- A home timestamp of the partition, or a clock that its accesses carry, is about to pass 2^63: its slices hold all traffic (R115). -/
def timestampsFull (s : State) (part : Nat) : Bool :=
  let near := fun t => decide (2 ^ 63 ≤ t + Config.lease + 1)
  (s.mem.l2.any fun l => l.part == part && near (max l.wts l.rts))
    || s.ord.lclk.any fun x => near x.2.2 && partOfStand s x.1 == some part

/-! ### Translation (R119, R120) -/

inductive Walk where
  | ok (x : Xlat)
  | notPresent
  | permission
deriving DecidableEq, Repr

/-- Bits of the page offset of a leaf at a level. -/
def pageBits : Nat → Nat
  | 1 => 30 | 2 => 21 | _ => 16
/-- The index a level takes from the address. -/
def levelIndex (va level : Nat) : Nat :=
  match level with
  | 0 => va / 2 ^ 39 % 512 | 1 => va / 2 ^ 30 % 512 | 2 => va / 2 ^ 21 % 512 | _ => va / 2 ^ 16 % 32
def entryOA (e : Word) : Nat := (field e 8 45).toNat * 256
/-- Whether a DPA lies in a backed window of the partition's own dies, or names a peer of its table (R120, R346). -/
def ownDpa (p : Partition) (dpa : Nat) : Bool :=
  let pkg := dpa / 2 ^ 41
  if pkg = 0 then bitAt p.dies (dpa / 2 ^ 38 % 8) && decide (dpa % 2 ^ 38 < Config.backedBytes)
  else p.peers.any fun x => x.1 == pkg
/-- The checks on a leaf (R119, R120), permissions and the address apart. -/
def leafOk (p : Partition) (e : Word) (level : Nat) : Bool :=
  field e 59 5 == 0 && !(bitAt e 4) && field e 5 2 != 3 && field e 49 4 == 0
    && entryOA e % 2 ^ pageBits level == 0 && level != 0
    && decide (p.keyb ≤ (field e 53 6).toNat) && decide ((field e 53 6).toNat < p.keyb + p.keyn)
/-- The checks on a table pointer (R119, R120): its table too lies in a backed window of the partition. -/
def pointerOk (p : Partition) (e : Word) (level : Nat) : Bool :=
  ownDpa p (entryOA e) &&
  field e 59 5 == 0 && !(bitAt e 4) && field e 53 6 == 0 && field e 49 4 == 0 && !(bitAt e 7) && field e 5 2 == 0
    && !(bitAt e 3) && !(bitAt e 2) && decide (level < 3) && (if level = 2 then true else entryOA e % 4096 == 0)

/-- The answer a leaf gives an access: the address it reaches must be backed and the partition's own (R120). -/
def useLeaf (p : Partition) (e : Word) (level va : Nat) (rd wr : Bool) : Walk :=
  if !leafOk p e level || !ownDpa p (entryOA e + va % 2 ^ pageBits level) then .permission
  else if (rd && !(bitAt e 2)) || (wr && !(bitAt e 3)) then .permission
  else .ok ⟨entryOA e + va % 2 ^ pageBits level, (field e 53 6).toNat, field e 5 2, bitAt e 7⟩

/-- A walker's read of a table entry (R120): through the L2, as UO data, under the key its bytes stand under (log entry 10). -/
def tableWord (s : State) (p : Partition) (dpa : Nat) : State × Word :=
  let key := match lineOf s (dpa / 128) with
    | some l => l.key
    | none => if sectorKey s (dpa / 64) = 64 then p.keyb else sectorKey s (dpa / 64)
  let (s, bs, _) := homeRead s p.num key dpa 8 0
  (s, leWord bs)
/-- The levels a walk still reads, from the table at `tab`; a die's translation cache supplies table entries it holds.
Answers the walk and the entries read. -/
def walkFrom (die : Nat) (p : Partition) (va : Nat) (rd wr : Bool) :
    List Nat → State → Nat → List (Nat × Word) → State × Walk × List (Nat × Word)
  | [], s, _, seen => (s, .permission, seen)
  | level :: rest, s, tab, seen =>
    let sz := 2 ^ (match level with | 0 => 39 | n => pageBits n)
    let base := va / sz * sz
    let (s, e) := match s.mem.trans.find? fun t => t.die == die && t.stand.isNone && t.part == p.num && t.level == level && t.base == base with
      | some t => (s, t.entry)
      | none => tableWord s p (tab + 8 * levelIndex va level)
    if !(bitAt e 0) then (s, .notPresent, seen)
    else if bitAt e 1 then (s, useLeaf p e level va rd wr, seen ++ [(level, e)])
    else if pointerOk p e level then walkFrom die p va rd wr rest s (entryOA e) (seen ++ [(level, e)])
    else (s, .permission, seen)
/-- A list cut to a capacity: of the entries in question, the oldest go (log entry 104). -/
def trimTo (mine : Trans → Bool) (cap : Nat) (xs : List Trans) : List Trans :=
  (List.range ((xs.filter mine).length - cap)).foldl (fun xs _ => match minBy (·.used) (xs.filter mine) with
    | some t => xs.erase t
    | none => xs) xs

/-- A translation held by a stand's TLB or its die's cache, or walked and then held by both (R120). DESIGN CHOICE: of a full TLB or
cache the entry inserted first goes (log entry 104). -/
def translate (s : State) (stand part : Nat) (va : Word) (rd wr : Bool) : State × Walk :=
  match partOf s part with
  | none => (s, .permission)
  | some p =>
    if field va 48 16 != 0 then (s, .permission)
    else
      let v := va.toNat
      let die := dieOf stand
      match s.mem.trans.find? fun t => t.stand == some stand && t.part == part && bitAt t.entry 1 && v / 2 ^ pageBits t.level * 2 ^ pageBits t.level == t.base with
      | some t => (s, useLeaf p t.entry t.level v rd wr)
      | none =>
        let s := bumpPerf s stand 8 1
        let (s, w, seen) := walkFrom die p v rd wr [0, 1, 2, 3] s p.root.toNat []
        match w with
        | .ok _ =>
          let (stamp, s) := fresh s
          let mk := fun (st : Option Nat) (x : Nat × Word) =>
            let sz := 2 ^ (match x.1 with | 0 => 39 | n => pageBits n)
            (⟨die, st, part, v / sz * sz, x.1, x.2, stamp⟩ : Trans)
          let leaf := (seen.getLast?.map fun x => [mk (some stand) x]).getD []
          let new := (seen.map (mk none)).filter fun t =>
            !(s.mem.trans.any fun u => u.die == die && u.stand.isNone && u.part == part && u.level == t.level && u.base == t.base)
          let all := s.mem.trans ++ new ++ leaf
          let all := trimTo (fun t => t.stand == some stand) Config.tlbEntries all
          (withTrans s (trimTo (fun t => t.stand.isNone && t.die == die) Config.tcacheEntries all), w)
        | _ => (s, w)

/-- The 64 KiB page of an address. -/
def pageOf (va : Nat) : Nat := va / 65536
/-- A not-present fault noted at a die: the first on a page writes its record and opens its clock (R121). -/
def noteNotPresent (s : State) (die stand elem ctx part launch : Nat) (tag : Tag) (va : Nat) : State :=
  let s := bumpPerf s stand 9 1
  if s.mem.opens.any fun o => o.die == die && o.part == part && o.page == pageOf va then s
  else
    let s := setMem s { s.mem with opens := s.mem.opens ++ [⟨die, part, pageOf va, s.ctl.clock, none⟩] }
    record s ⟨part, die, 2, 0, stand, elem, ctx, launch, tag, va, va, s.ctl.clock, List.replicate 24 0⟩

/-! ### The stand L1 (R114, R115) -/

/-- A stand's copy of a line, under the partition's key it was read with (R118). -/
def l1Of (s : State) (stand part key line : Nat) : Option L1Line :=
  s.mem.l1.find? fun l => l.stand == stand && l.line == line && l.part == part && l.key == key
def l1Set (line : Nat) : Nat := line % 128
/-- A copy kept: it replaces an older copy of the line, or the least recently used of its set (R114). -/
def keepL1 (s : State) (c : L1Line) : State :=
  let rest := s.mem.l1.filter fun l => !(l.stand == c.stand && l.line == c.line)
  let mine := rest.filter fun l => l.stand == c.stand && l1Set l.line == l1Set c.line
  let rest := if mine.length < 8 then rest
    else match minBy (·.used) mine with
      | some v => rest.erase v
      | none => rest
  withL1 s (rest ++ [c])
/-- A copy within its lease, by the context's clock. -/
def l1Hit (s : State) (stand ctx part : Nat) (x : Xlat) : Option L1Line :=
  (l1Of s stand part x.key (x.dpa / 128)).filter fun c => decide (lclkOf s stand ctx ≤ c.rts)
/-- `load` at the home (R115): the lease is extended and L1 keeps the line. -/
def homeLoad (s : State) (part key stand dpa n clock : Nat) : State × List Byte × Nat :=
  let line := dpa / 128
  let s := [0, 1].foldl (fun s i => (fetchLine s part key line i).1) s
  let (stamp, s) := fresh s
  match lineOf s line with
  | none => (s, List.replicate n 0, 0)
  | some l =>
    let l := { l with rts := max l.rts (clock + Config.lease) }
    let s := setLine s l
    (keepL1 s ⟨stand, line, part, key, l.data, l.wts, l.rts, stamp⟩, lineBytes l.data (dpa % 128) n, l.wts)
/-- A write's acknowledgement reaching the stand: its copy takes the bytes and the new lease (R115). -/
def l1Update (s : State) (stand part : Nat) (x : Xlat) (wts : Nat) (bs : List Byte) : State :=
  let dpa := x.dpa
  withL1 s (updIf s.mem.l1 (fun l => l.stand == stand && l.line == dpa / 128 && l.part == part && l.key == x.key) fun c =>
    { c with data := setLineBytes c.data (dpa % 128) bs, wts := wts, rts := wts })

/-! ### Scratch (R106 to R113) -/

/-- Place of a stand scratch address in the scratch memory. -/
def scratchAt (stand addr : Nat) : Nat := stand * 2 ^ 20 + addr % 2 ^ 20
def scratchRead (s : State) (stand addr n : Nat) : List Byte := Memory.readN s.mem.scratch (scratchAt stand addr) n
def scratchWrite (s : State) (stand addr : Nat) (bs : List Byte) : State :=
  withScratch s (Memory.writeN s.mem.scratch (scratchAt stand addr) bs)
/-- The SCE of a stand scratch address. -/
def sceOf (addr : Nat) : Nat := addr % 2 ^ 20 / 65536
def sceKey (stand ctx addr : Nat) : EKey := ⟨stand, 0x10 + sceOf addr, ctx⟩
/-- The region of a context that holds the whole range, with its number (R109). -/
def regionOf (s : State) (stand ctx addr n : Nat) : Option (Nat × Region) :=
  let o := addr % 65536
  ((sceCfg s (sceKey stand ctx addr)).regions.zipIdx.find? fun (r, _) =>
    r.size != 0 && decide (r.base * 64 ≤ o) && decide (o + n ≤ (r.base + r.size) * 64)).map fun (r, i) => (i, r)
def regionBase (stand addr : Nat) (r : Region) : ScratchKey := ⟨stand, addr % 2 ^ 20 / 65536 * 65536 + r.base * 64⟩
/-- Where a local access to an exchange region lands: the visible bank, modulo the bank size (R112). -/
def exchangeAddr (s : State) (stand addr : Nat) (r : Region) (shadow : Bool) : Nat :=
  let z := r.size * 32
  let k := regionBase stand addr r
  let y := s.mem.visY.contains k
  k.addr + (addr % 65536 - r.base * 64) % z + if y != shadow then z else 0
/-- The block slot of a plane-store region that holds an address (R113). -/
def planeKey (stand addr : Nat) (r : Region) : ScratchKey :=
  let k := regionBase stand addr r
  ⟨stand, k.addr + (addr % 65536 - r.base * 64) / 12288 * 12288⟩
def planeFull (s : State) (k : ScratchKey) : Bool := s.mem.planes.any fun p => decide (p.key = k)
/-- The address an access of a region reaches. -/
def effAddr (s : State) (stand addr : Nat) (r : Region) : Nat :=
  if r.mode = 3 then exchangeAddr s stand addr r false else addr
/-- A plain store into a FULL slot is refused (R113). -/
def storeRefused (s : State) (stand addr : Nat) (r : Region) : Bool := r.mode == 4 && planeFull s (planeKey stand addr r)

def sectorKeyOf (stand addr : Nat) : ScratchKey := ⟨stand, addr % 2 ^ 20 / 64 * 64⟩
def sectorOf (s : State) (k : ScratchKey) : Option Sector := s.mem.sectors.find? fun x => decide (x.key = k)
def setSector (s : State) (x : Sector) : State :=
  withSectors s ((s.mem.sectors.filter fun y => !decide (y.key = x.key)) ++ [x])
/-- The bytes of a sector that a range of scratch touches. -/
def sectorMask (k : ScratchKey) (addr n : Nat) : BitVec 64 :=
  (List.range 64).foldl (fun m i => if decide (addr % 2 ^ 20 ≤ k.addr + i) && decide (k.addr + i < addr % 2 ^ 20 + n) then m ||| (1#64 <<< i) else m) 0
/-- A sector that serves a load of some of its bytes: dirty, or valid within its lease, with those bytes filled or written (R111). -/
def sectorServes (s : State) (ctx : Nat) (k : ScratchKey) (m : BitVec 64) : Bool :=
  match sectorOf s k with
  | some x => (x.dirty != 0 || (x.leased && decide (lclkOf s k.stand ctx ≤ x.rts))) && x.full &&& m == m
  | none => false
/-- Global virtual address of a byte of a stash region (R111). -/
def stashVa (stand addr : Nat) (r : Region) : Word := r.gbase + BitVec.ofNat 64 (addr % 2 ^ 20 - (regionBase stand addr r).addr)

/-- What a stash fill or write-back came to. -/
inductive StashOut where
  | done (s : State)
  | notPresent (s : State) (va : Word)
  | permission (s : State) (va : Word)

/-- The partition and launch number a context of a stand works for (0xFF marks none, R329). -/
def whoAt (s : State) (stand ctx : Nat) : Nat × Nat :=
  match s.la.launches.find? fun l => l.state.onElements && l.ctx == ctx && (l.placed.any fun p => p.at_.stand == stand) with
  | some l => (l.key.part, l.key.launch)
  | none => ((partOfStand s stand).getD 0, 0xFF)

/-- The write mark of a scratch row; one whose writer is not known admits no replay (R329). -/
def rowMark (s : State) (k : ScratchKey) : WriteMark := (aget s.mem.marks k).getD ⟨0xFF, 0⟩
/-- A row that was filled or written back has no write since (R329). -/
def clearMark (s : State) (k : ScratchKey) : State := setMem s { s.mem with marks := adel s.mem.marks k }
/-- A stash sector filled from its home under the lease rules (R111, R115); dirty bytes keep their values. -/
def stashFill (s : State) (ctx : Nat) (k : ScratchKey) : StashOut :=
  match regionOf s k.stand ctx k.addr 64 with
  | none => .done s
  | some (_, r) =>
    let va := stashVa k.stand k.addr r
    let (part, _) := whoAt s k.stand ctx
    match translate s k.stand part va true false with
    | (s, .notPresent) => .notPresent s va
    | (s, .permission) => .permission s va
    | (s, .ok x) =>
      let clock := lclkOf s k.stand ctx
      let (s, bs, wts) := homeRead s part x.key x.dpa 64 (clock + Config.lease)
      let old := sectorOf s k
      let dirty := (old.map (·.dirty)).getD 0
      let keep := scratchRead s k.stand k.addr 64
      let new := (List.zip bs keep).zipIdx.map fun ((b, o), i) => if bitAt dirty i then o else b
      let rts := ((lineOf s (x.dpa / 128)).map (·.rts)).getD 0
      let s := scratchWrite s k.stand k.addr new
      let s := setSector s ⟨k, wts, rts, true, dirty, BitVec.allOnes 64, (old.map (·.due)).getD false⟩
      let s := if dirty = 0 then clearMark s k else s
      .done (raiseLclk s k.stand ctx wts)

/-- The dirty bytes of a sector written to its home, with the write mark of their writer (R111, R329), and the wts the write returned. -/
def pushBytes (s : State) (part : Nat) (t : Xlat) (bs : List Byte) (dirty : BitVec 64) (clock : Nat) (m : WriteMark) : State × Nat :=
  let s := (List.range 64).foldl (fun s i => (fetchLine s part t.key (t.dpa / 128) ((t.dpa % 128 + i) / 64)).1) s
  match lineOf s (t.dpa / 128) with
  | none => (s, 0)
  | some l =>
    let merged := bs.zipIdx.map fun (b, i) => if bitAt dirty i then b else lineByte l.data (t.dpa % 128 + i)
    let (s, wts, _) := homeWrite s part t.key t.dpa clock merged m
    (s, wts)
/-- The dirty bytes of a sector written to its home and the mask cleared (R111); the lease is the acknowledgement's. -/
def stashWriteBack (s : State) (ctx : Nat) (k : ScratchKey) : StashOut :=
  match sectorOf s k, regionOf s k.stand ctx k.addr 64 with
  | some x, some (_, r) =>
    if x.dirty = 0 then .done s
    else
      let va := stashVa k.stand k.addr r
      let (part, _) := whoAt s k.stand ctx
      match translate s k.stand part va false true with
      | (s, .notPresent) => .notPresent s va
      | (s, .permission) => .permission (clearMark (setSector s { x with dirty := 0, full := x.full &&& ~~~x.dirty, due := false }) k) va
      | (s, .ok t) =>
        let (s, wts) := pushBytes s part t (scratchRead s k.stand k.addr 64) x.dirty (lclkOf s k.stand ctx) (rowMark s k)
        let s := clearMark (setSector s ⟨k, wts, wts, true, 0, x.full, false⟩) k
        .done (raiseLclk s k.stand ctx wts)
  | some x, none => .done (setSector s { x with dirty := 0, due := false })
  | none, _ => .done s
/-- A store into a stash sector: bytes written, their dirty bits set; an invalid sector gets an empty lease (R111). -/
def stashStore (s : State) (stand addr : Nat) (bs : List Byte) : State :=
  let s := scratchWrite s stand addr bs
  bs.zipIdx.foldl (fun s (_, i) =>
    let k := sectorKeyOf stand (addr + i)
    let x := (sectorOf s k).getD ⟨k, 0, 0, false, 0, 0, false⟩
    let b := 1#64 <<< ((addr + i) % 64)
    setSector s { x with dirty := x.dirty ||| b, full := x.full ||| b }) s

/-- A write mark set on a scratch row (R329). -/
def markRow (s : State) (stand addr : Nat) (m : WriteMark) : State :=
  let k := sectorKeyOf stand addr
  match nextMark (aget s.mem.marks k) m with
  | some v => setMem s { s.mem with marks := aset s.mem.marks k v }
  | none => s

/-- Bytes stored to scratch under the region's mode (R110 to R113): stash stores mark dirty, exchange stores land in the
visible bank. -/
def storeScratch (s : State) (stand addr : Nat) (r : Region) (bs : List Byte) (m : WriteMark) : State :=
  let s := markRow s stand addr m
  if r.mode = 2 then stashStore s stand addr bs else scratchWrite s stand (effAddr s stand addr r) bs
def loadScratch (s : State) (stand addr : Nat) (r : Region) (n : Nat) : List Byte := scratchRead s stand (effAddr s stand addr r) n

/-! ### Atomics (R71, R264, R241) -/

/-- The new word of an atomic operation code, over `n` bits, with the flags of its FP32 forms (R55, R211, R264). -/
def atomicOp (aop : Nat) (size : Nat) (old arg : Word) : Word × FlagSet :=
  let lo := fun (x : Word) => x.setWidth 32
  let f32 := fun (v : Val) => (v.bits.setWidth 64, v.fl)
  let pick := fun (b : Bool) => if b then old else arg
  let slt := fun (x y : Word) => if size = 4 then (lo x).slt (lo y) else x.slt y
  let ult := fun (x y : Word) => if size = 4 then (lo x).ult (lo y) else x.ult y
  let r : Word × FlagSet := match aop with
    | 0 => (old + arg, 0)
    | 1 => (old &&& arg, 0)
    | 2 => (old ||| arg, 0)
    | 3 => (old ^^^ arg, 0)
    | 4 => (pick (slt old arg), 0)
    | 5 => (pick (slt arg old), 0)
    | 6 => (pick (ult old arg), 0)
    | 7 => (pick (ult arg old), 0)
    | 8 => (arg, 0)
    | 9 => f32 (fAdd (lo old) (lo arg) rneCtx)
    | 10 => f32 (fMinMax false (lo old) (lo arg))
    | _ => f32 (fMinMax true (lo old) (lo arg))
  if size = 4 then ((lo r.1).setWidth 64, r.2) else r

end Sys2Proof.Machine
end

