-- ==== Sys2Proof/Machine/Operands.lean ====
section
/-! DEFINITION. Operands of a stage (R67, R68, R204): sources, predicates, burst operands, direction operands; and the
one operation that runs a stage and commits its result (R86, R87, R205, R206). -/

namespace Sys2Proof.Machine

/-- The constant ROM K0 to K7 (R67). -/
def constRom : Nat → Lane
  | 0 => 0x3F800000#32 | 1 => 0xBF800000#32 | 2 => 0x3F000000#32 | 3 => 0x40000000#32 | 4 => 0x3F317218#32
  | 5 => 0x3FB8AA3B#32 | 6 => 0 | _ => 0xFFFFFFFF#32

/-- What a stage sees: the firing, its stage number, its lane registers, its VPE's configuration, its word. -/
structure SEnv where
  f : Firing
  k : Nat
  regs : LaneRegs
  cfg : VpeCfg
  w : SWord
  widths : List Nat
deriving DecidableEq, Repr

def SEnv.input (e : SEnv) (i : Nat) : Option FInput := e.f.inputs.find? fun x => x.inp == i
/-- The first DATA token of an input (R204). -/
def FInput.first (x : FInput) : Token := getAt x.toks 0 ⟨0, 0, .data, .f32, 0, 0⟩
def SEnv.whole (e : SEnv) (i : Nat) : Bool := bitAt e.cfg.whole i
/-- Declared burst length of an input (R61 INBURST). -/
def SEnv.inBurst (e : SEnv) (i : Nat) : Nat := (field e.cfg.inburst (4 * i) 4).toNat + 1
def SEnv.result (e : SEnv) (j : Nat) : StageRes := getAt e.f.results j ⟨0, 0, none⟩

/-- BSCALE (R67): lane 0 of IN0's HEAD, NORM for DIR, 0x7F for a format without HEAD, and where IN0 is not matched (DESIGN CHOICE, log
entry 103). -/
def SEnv.bscale (e : SEnv) : Lane :=
  match (e.input 0).bind (·.head) with
  | some h => if h.ft = .dir then laneOf h.payload 1 else laneOf h.payload 0
  | none => 0x0000007F#32

/-- What a source reads in a lane (R67). -/
def SEnv.src (e : SEnv) (x : Src) (lane : Nat) : Lane :=
  match x with
  | .l n => laneOf (e.regs.l.get n.val) lane
  | .inp n => match e.input n.val with
    | some i => laneOf i.first.payload lane
    | none => 0
  | .prev => laneOf (e.result (e.k - 1)).lanes lane
  | .lane => BitVec.ofNat 32 lane
  | .tagLo => field e.f.tag 0 32
  | .tagHi => field e.f.tag 32 32
  | .bscale => e.bscale
  | .zero => 0
  | .imm => e.w.imm.signExtend 32
  | .s j => laneOf (e.result j.val).lanes lane
  | .k n => constRom n.val
/-- ok(x, lane) of R204. -/
def SEnv.okSrc (e : SEnv) (x : Src) (lane : Nat) : Bool :=
  match x with
  | .inp n => match e.input n.val with
    | some i => bitAt i.first.valid lane
    | none => false
  | .prev => bitAt (e.result (e.k - 1)).v lane
  | .s j => bitAt (e.result j.val).v lane
  | _ => true
/-- The IN sources a stage reads. -/
def insOf (w : SWord) : List Nat :=
  [w.a, w.b, w.c].filterMap fun x => match x with | .inp n => some n.val | _ => none
/-- act[lane] of R204, by PM (R68). -/
def SEnv.act (e : SEnv) (lane : Nat) : Bool :=
  match e.w.pm with
  | .all => true
  | .mask n => bitAt (e.regs.m.get n.val) lane
  | .valid => (insOf e.w).all fun i => match e.input i with
    | some x => bitAt x.first.valid lane
    | none => false
/-- v[lane] of R204. -/
def SEnv.v (e : SEnv) (lane : Nat) : Bool :=
  e.act lane && e.okSrc e.w.a lane && e.okSrc e.w.b lane && e.okSrc e.w.c lane
def SEnv.a (e : SEnv) (lane : Nat) : Lane := e.src e.w.a lane
def SEnv.b (e : SEnv) (lane : Nat) : Lane := e.src e.w.b lane
def SEnv.c (e : SEnv) (lane : Nat) : Lane := e.src e.w.c lane
def SEnv.vMask (e : SEnv) : Half := maskFrom e.v
/-- A qualifier bit of IMM20: clear when a source is the immediate (R66). -/
def SEnv.qual (e : SEnv) (i : Nat) : Bool := bitAt e.w.imm i && !([e.w.a, e.w.b, e.w.c].contains .imm)
/-- The rounding of one lane's element (R207). -/
def SEnv.rc (e : SEnv) (lane elem : Nat) (sat : Bool) : Rctx :=
  ⟨resolveRm e.f.drm e.w.rm, stoWord e.f.tag e.k lane elem, sat⟩

/-- The scale of a source's burst (R41): the HEAD of an IN source, 1.0 otherwise. -/
def SEnv.scale (e : SEnv) (x : Src) : Scale :=
  match x with
  | .inp n => match (e.input n.val).bind (·.head) with
    | some h => if h.ft = .dir then Scale.one else scaleOf (laneOf h.payload 0)
    | none => Scale.one
  | _ => Scale.one
/-- The format of an IN source's tokens. -/
def SEnv.fmt (e : SEnv) (x : Src) : Option Fmt :=
  match x with
  | .inp n => (e.input n.val).map fun i => i.first.ft
  | _ => none
/-- The 16 B elements of an F32 burst; elements in invalid lanes, and those of missing tokens, read +0 (R224, R226). -/
def SEnv.burstF32 (e : SEnv) (i : Nat) : List Lane :=
  let ts := ((e.input i).map (·.toks)).getD []
  (List.range (e.inBurst i)).flatMap fun j => (List.range 16).map fun lane =>
    match ts[j]? with
    | some t => if bitAt t.valid lane then laneOf t.payload lane else 0
    | none => 0

/-- The location of an IN source (R320, DETAIL); 0 for any other source. -/
def SEnv.locOf (e : SEnv) (x : Src) : Lane :=
  match x with
  | .inp n => BitVec.ofNat 32 (getAt e.cfg.inloc n.val 0)
  | _ => 0
/-- The stage's slot as the DETAIL of ILL (R320). -/
def SEnv.slotDetail (e : SEnv) : Lane := BitVec.ofNat 32 e.k
/-- A direction operand (R226 to R228), or the poison it raises: a whole-burst DIR input (missing tokens of a short burst
read 0), or the direction of an earlier stage. -/
def SEnv.dir (e : SEnv) (x : Src) : Except (BitVec 8 × Lane) Direction :=
  let ofRes := fun (r : StageRes) => match r.dir with
    | some d => Except.ok d
    | none => Except.error (pILL, e.slotDetail)
  match x with
  | .inp n =>
    match e.input n.val with
    | none => .error (pFMT, e.locOf x)
    | some i =>
      if i.first.ft != .dir then .error (pFMT, e.locOf x)
      else
        let comps := (List.range (e.inBurst n.val)).flatMap fun j =>
          let p := (getAt i.toks j ⟨0, 0, .data, .dir, 0, 0⟩).payload
          (List.range 32).map fun c => (p.extractLsb' (16 * c) 16 : BitVec 16)
        .ok ⟨comps, (i.head.map fun h => laneOf h.payload 1).getD 0⟩
  | .prev => ofRes (e.result (e.k - 1))
  | .s j => ofRes (e.result j.val)
  | _ => .error (pILL, e.slotDetail)

/-! ### Output ports (R61, R205) -/

def outFmt (c : VpeCfg) (port : Nat) : Fmt := Fmt.ofCode (field c.outfmt (4 * port) 3).toNat
def outBurst (c : VpeCfg) (port : Nat) : Nat := (field c.outfmt (8 + 4 * port) 4).toNat + 1
def outSwz (c : VpeCfg) (port : Nat) : BitVec 4 := field c.swzout (4 * port) 4
def portsOf : Dst → List Nat
  | .out0 => [0] | .out1 => [1] | .outB => [0, 1] | _ => []
/-- The HEAD a port forms from its configuration (R205). -/
def portHead (c : VpeCfg) (port : Nat) (tag : Tag) (seg : BitVec 12) (scale : Option (BitVec 8)) (norm : Lane) : Token :=
  let d := getAt c.dscale port 0
  let ft := outFmt c port
  if ft = .dir then formHead tag seg ft 0x7F 0 false (outSwz c port) norm
  else match scale with
    | some sc => formHead tag seg ft sc 0 false (outSwz c port) 0
    | none => formHead tag seg ft (field d 0 8) (field d 8 8) (field d 8 8 != 0) (outSwz c port) 0
/-- The HEAD of the first IN source that carries one (R205). -/
def SEnv.firstHead (e : SEnv) : Option Token :=
  (insOf e.w).findSome? fun i => (e.input i).bind (·.head)
/-- The tokens a lane result sends on a port: one DATA token with VALID v, its HEAD before it; the port's burst length must be 1 (R205). -/
def laneTokens (e : SEnv) (fwd : Bool) (tag : Tag) (port : Nat) (lanes : Lanes) (v : Half) : List (Nat × Token) :=
  let ft := outFmt e.cfg port
  let head := if fmtHeaded ft then
      match if fwd then e.firstHead else none with
      | some h => [(port, { h with tag := tag, seg := e.f.seg })]
      | none => [(port, portHead e.cfg port tag e.f.seg none 0)]
    else []
  head ++ [(port, ⟨tag, e.f.seg, .data, ft, v, lanes⟩)]
/-- The same for an operation that sends no token whose VALID would be 0 (R232, R311). -/
def validTokens (e : SEnv) (fwd : Bool) (tag : Tag) (port : Nat) (lanes : Lanes) (v : Half) : List (Nat × Token) :=
  if v = 0 then [] else laneTokens e fwd tag port lanes v

/-! ### What a stage comes to -/

/-- The outcome of a stage's operation, before it is committed. `ports` says whether `lanes` go to the ports of DS;
`out` are tokens of a burst result or of EXITQ; `lset` are whole lane registers it writes beside DS; `shrink` says that a lane result without
a valid lane is not sent (R195, R232). -/
structure SOut where
  lanes : Lanes := 0
  v : Half := 0
  fl : FlagSet := 0
  dir : Option Direction := none
  poison : Option (BitVec 8 × Lane) := none
  ports : Bool := true
  fwd : Bool := false
  tag : Option Tag := none
  out : List (Nat × Token) := []
  lset : List (Nat × Lanes) := []
  note : Option Nat := none
  shrink : Bool := false
deriving DecidableEq, Repr

/-- A stage that ends in poison (R206). -/
def SOut.bad (code : BitVec 8) (detail : Lane) : SOut := { poison := some (code, detail) }
/-- A lane result: `f` in active lanes, 0 elsewhere, with the flags of the active lanes (R205, R207). -/
def SEnv.lanewise (e : SEnv) (f : Nat → Val) : SOut :=
  { lanes := lanesFrom fun i => if e.act i then (f i).bits else 0
    v := e.vMask
    fl := (List.range 16).foldl (fun fl i => if e.act i then fl ||| (f i).fl else fl) 0 }
/-- A lane result that raises no flag. -/
def SEnv.plain (e : SEnv) (f : Nat → Lane) : SOut := e.lanewise fun i => ⟨f i, 0⟩

/-! ### Running a stage -/

/-- The lane registers a stage word reads, and those it writes, by name (L0–L3 as 0–3, M0–M3 as 4–7). -/
def regReads (i : Instr) (w : SWord) : List Nat :=
  ([w.a, w.b, w.c].filterMap fun x => match x with | .l n => some n.val | _ => none)
    ++ (match w.pm with | .mask n => [4 + n.val] | _ => [])
    ++ (match i, w.d with
        | .acc _, .l n => [n.val, n.val + 1]
        | .smaxi _, .l n => [n.val, n.val + 1]
        | .exitq _, _ => [3]
        | _, _ => [])
def regWrites (i : Instr) (w : SWord) : List Nat :=
  (match w.d with | .l n => [n.val] | .m n => [4 + n.val] | _ => [])
    ++ (match i, w.d with
        | .acc _, .l n => [n.val + 1]
        | .smaxi _, .l n => [n.val + 1]
        | _, _ => [])
/-- The instruction and operand fields a slot's word decodes to. -/
def slotInstr (w : Word) : Option (Instr × SWord) :=
  match decodeStage w with
  | .ok i => (sform i).map fun p => (i, p.2)
  | .error _ => none

/-- An earlier firing of the context still has a stage whose lane registers meet this word's (R86, R87; log entry 7). -/
def regConflict (cfg : VpeCfg) (g : Firing) (reads writes : List Nat) : Bool :=
  ((cfg.slots.take cfg.stages).drop g.stage).any fun x =>
    match slotInstr x with
    | some (i, w) => (regWrites i w).any (fun r => reads.contains r || writes.contains r)
        || (regReads i w).any (fun r => writes.contains r)
    | none => false

def firingOf (s : State) (id : Nat) : Option Firing := s.firings.find? fun f => f.id == id
def setFiring (s : State) (f : Firing) : State := { s with firings := updIf s.firings (fun g => g.id == f.id) fun _ => f }
/-- A stage may run: every firing ahead of it has passed that stage, and no firing ahead still uses its lane registers
(R86, R205). -/
def stageFree (s : State) (f : Firing) (cfg : VpeCfg) (reads writes : List Nat) : Bool :=
  s.firings.all fun g =>
    !(g.vpe.stand == f.vpe.stand && g.vpe.elem == f.vpe.elem && decide (g.id < f.id))
      || (decide (f.stage < g.stage)
        && (g.vpe.ctx != f.vpe.ctx || g.poison.isSome || !regConflict cfg g reads writes))
/-- Widths of the tag layout a firing's launch uses (R18). -/
def widthsOf (s : State) (lk : LKey) : List Nat := ((launchOf s lk).map Launch.widths).getD []

/-- What the firing in focus shows to its next stage, when that stage may run. -/
def stageEnv (s : State) (i : Instr) (w : SWord) : Option SEnv :=
  match s.ctl.focus with
  | .firing id =>
    match firingOf s id with
    | some f =>
      let cfg := vpeCfg s f.vpe
      if decide (f.stage < cfg.stages) && f.poison.isNone && stageFree s f cfg (regReads i w) (regWrites i w) then
        some ⟨f, f.stage, laneRegs s f.vpe, cfg, w, widthsOf s f.launch⟩
      else none
    | none => none
  | _ => none

/-- Lanes merged: the new value where the bit is set, else the old. -/
def mergeLanes (mask : Half) (new old : Lanes) : Lanes := lanesFrom fun i => if bitAt mask i then laneOf new i else laneOf old i
def actMask (e : SEnv) : Half := maskFrom e.act

/-- The poison of a firing (R206): its stages write nothing more and it ends with one POISON on each port it names. -/
def poisonFiring (s : State) (f : Firing) (code : BitVec 8) (detail : Lane) : State :=
  let last := (vpeCfg s f.vpe).stages
  let info : PoisonInfo := ⟨code, f.vpe.stand, BitVec.ofNat 8 f.vpe.elem, detail⟩
  let s := if code = pSYNC then bumpPerf s f.vpe.stand 15 1 else s
  setFiring s { f with poison := some info, stage := last, out := [], notes := [], issued := false, nodes := [] }

/-- The poison an outcome ends in: its own; else a lane result needs ports of burst length 1, and a direction result DIR ports of
its length (R205). -/
def SOut.stop (o : SOut) (e : SEnv) : Option (BitVec 8 × Lane) :=
  match o.poison with
  | some p => some p
  | none =>
    if !o.ports then none
    else match o.dir with
      | some d => (portsOf e.w.d).findSome? fun p =>
          if outFmt e.cfg p != .dir then some (pFMT, BitVec.ofNat 32 (getAt e.cfg.outloc p 0))
          else if outBurst e.cfg p != d.dim / 32 then some (pDIMS, BitVec.ofNat 32 (getAt e.cfg.outloc p 0)) else none
      | none => (portsOf e.w.d).findSome? fun p =>
          if outBurst e.cfg p != 1 then some (pFMT, BitVec.ofNat 32 (getAt e.cfg.outloc p 0)) else none
/-- The lane registers an outcome leaves (R67, R86, R87). -/
def regsAfter (r : LaneRegs) (e : SEnv) (o : SOut) : LaneRegs :=
  let act := actMask e
  let r := match e.w.d with
    | .l n => { r with l := r.l.set n.val (mergeLanes act o.lanes (r.l.get n.val)) }
    | .m n => { r with m := r.m.set n.val (maskFrom fun i => if bitAt act i then laneOf o.lanes i != 0 else bitAt (r.m.get n.val) i) }
    | _ => r
  o.lset.foldl (fun r (n, x) => { r with l := r.l.set n x }) r
/-- The tokens an outcome adds to those its firing will send (R205). -/
def sentOf (e : SEnv) (o : SOut) : List (Nat × Token) :=
  let tag := o.tag.getD e.f.tag
  if !o.ports then o.out
  else match o.dir with
    | some d => (portsOf e.w.d).flatMap fun p =>
        (p, portHead e.cfg p tag e.f.seg none d.norm) ::
          (List.range (d.dim / 32)).map fun j =>
            (p, ⟨tag, e.f.seg, .data, .dir, 0xFFFF#16, packElems 16 ((d.comps.drop (32 * j)).take 32)⟩)
    | none => (portsOf e.w.d).flatMap fun p => (if o.shrink then validTokens else laneTokens) e o.fwd tag p o.lanes o.v
/-- A stage's outcome committed (R205, R206). -/
def stageCommit (s : State) (e : SEnv) (o : SOut) : State :=
  let f := e.f
  let s := raiseFlags s f.vpe.stand f.vpe.ctx (tagLevel e.widths f.tag 0) o.fl
  match o.stop e with
  | some (code, detail) => poisonFiring s f code detail
  | none =>
    let s := setLaneRegs s f.vpe (regsAfter (laneRegs s f.vpe) e o)
    setFiring s { f with
      stage := f.stage + 1, results := f.results ++ [⟨o.lanes, o.v, o.dir⟩], out := f.out ++ sentOf e o,
      notes := f.notes ++ (o.note.map fun loc => ⟨loc, getAt e.cfg.outloc ((portsOf e.w.d).headD 0) 0⟩).toList,
      issued := false, nodes := [] }

/-- A stage whose operation needs no memory: it runs when it may and its flags find a shadow. -/
def runStage (i : Instr) (w : SWord) (s : State) (body : SEnv → SOut) : Out :=
  match stageEnv s i w with
  | none => stay s
  | some e =>
    let o := body e
    if flagsWait s e.f.vpe.stand e.f.vpe.ctx (tagLevel e.widths e.f.tag 0) o.fl then stay s
    else .next (stageCommit s e o)

end Sys2Proof.Machine
end

