-- ==== Sys2Proof/Machine/Records.lean ====
section
/-! DEFINITION. The records engine commands name (R288 to R292, R295, R296): stream patterns, tensor maps, copies, planes; their sync
word, and the ranges of memory a command of each reaches. -/

namespace Sys2Proof.Machine

/-- A range cut at multiples of `unit`: offsets and sizes (R106, R133). -/
def pieces (unit : Nat) : Nat → Nat → Nat → Nat → List (Nat × Nat)
  | 0, _, _, _ => []
  | fuel + 1, start, off, n =>
    if n = 0 then []
    else
      let k := min n (unit - (start + off) % unit)
      (off, k) :: pieces unit fuel start (off + k) (n - k)

/-- Stream patterns (R288, R291). -/
def isPattern : Instr → Bool
  | .strmLd _ => true | .strmSt _ => true | .strmGth _ => true | .strmSct _ => true | .strmWin _ => true | _ => false
def hasOutput : Instr → Bool
  | .strmLd _ => true | .strmGth _ => true | .strmWin _ => true | _ => false

/-- The sync word a record names: its scratch address (R288). -/
def syncOf (r : List Byte) : Option Nat :=
  let w := recNat r 52 4
  if w / 2 ^ 31 = 1 then some (w % 2 ^ 20) else none
/-- Whether the sync field of a record is well formed. -/
def syncOk (r : List Byte) : Bool :=
  let w := recNat r 52 4
  w % 2 ^ 31 / 2 ^ 20 == 0 && w % 8 == 0

/-! ### Pattern records (R288, R289) -/

structure Pat where
  base : Word
  counts : List Nat              -- NDIM of them
  strides : List Int
  esize : Nat                    -- bytes
  idx : Nat
  src : Nat
deriving DecidableEq, Repr

def usesIndex : Instr → Bool
  | .strmGth _ => true | .strmSct _ => true | _ => false
def writesMem : Instr → Bool
  | .strmSt _ => true | .strmSct _ => true | _ => false
def patOf (i : Instr) (r : List Byte) : Option Pat :=
  let nd := recNat r 45 1
  let idx := recNat r 48 4
  let src := recNat r 60 4
  let cnt := (List.range 6).map fun d => recNat r (8 + 2 * d) 2
  if decide (1 ≤ nd) && decide (nd ≤ 6) && (cnt.drop nd).all (· == 0) && decide (recNat r 44 1 ≤ 6) && recZero r 46 2
      && recZero r 59 1 && decide (recNat r 58 1 < 16) && syncOk r
      && (if usesIndex i then idx % 4 == 0 && decide (idx < 2 ^ 20) else idx == 0)
      && (if writesMem i then decide (src < 2 ^ 20) else src == 0) then
    some ⟨BitVec.ofNat 64 (recNat r 0 8), cnt.take nd, (List.range nd).map fun d => recInt r (20 + 4 * d) 4,
      2 ^ recNat r 44 1, idx, src⟩
  else none
def Pat.total (p : Pat) : Nat := p.counts.foldl (· * ·) 1
/-- Coordinate of dimension d of element i; dimension 0 is innermost. -/
def Pat.coord (p : Pat) (i d : Nat) : Nat := i / (p.counts.take d).foldl (· * ·) 1 % getAt p.counts d 1
def Pat.outer (p : Pat) (i : Nat) : Nat := p.coord i (p.counts.length - 1)
/-- The address of element i, its outermost coordinate replaced where an index list gives one. -/
def Pat.addr (p : Pat) (i : Nat) (outer : Int) : Word :=
  let n := p.counts.length - 1
  let off := (List.range n).foldl (fun a d => a + (p.coord i d : Int) * getAt p.strides d 0) (outer * getAt p.strides n 0)
  p.base + BitVec.ofInt 64 off

/-! ### Tensor maps (R291, R292) -/

structure TMap where
  base : Word
  w : Nat
  h : Nat
  c : Nat
  r : Nat
  s : Nat
  sh : Nat
  sw : Nat
  ph : Nat
  pw : Nat
  oh : Nat
  ow : Nat
  kpad : Nat
  rowpitch : Nat
  pixpitch : Nat
  esize : Nat                    -- bytes, 1 or 2
  fill : List Byte
deriving DecidableEq, Repr

def tmapOf (r : List Byte) : Option TMap :=
  let g := recNat r
  let es := g 44 1
  let m : TMap := ⟨BitVec.ofNat 64 (g 0 8), g 8 2, g 10 2, g 12 2, g 14 1, g 15 1, g 16 1, g 17 1, g 18 1, g 19 1, g 20 2, g 22 2,
    g 24 2, g 28 4, g 32 4, es + 1, (r.drop 48).take (es + 1)⟩
  if recZero r 59 5 && recZero r 45 3 && recZero r 36 8 && recZero r 26 2 && decide (es ≤ 1) && decide (g 58 1 < 16) && syncOk r
      && [m.w, m.h, m.c, m.r, m.s, m.sh, m.sw, m.oh, m.ow].all (fun x => decide (1 ≤ x))
      && m.kpad % 64 == 0 && decide (m.r * m.s * m.c ≤ m.kpad) && decide (m.kpad ≤ 4096) then some m
  else none
/-- What element k of a row is. -/
inductive WinElem where
  | zero | fill
  | mem (va : Word)
deriving DecidableEq, Repr
def TMap.rows (m : TMap) : Nat := (m.oh * m.ow + 31) / 32 * (m.kpad / 64) * 32
/-- Output position and K-block of a row. -/
def TMap.rowAt (m : TMap) (row : Nat) : Nat × Nat := (32 * (row / (32 * (m.kpad / 64))) + row % 32, row / 32 % (m.kpad / 64))
def TMap.padding (m : TMap) (row : Nat) : Bool := decide (m.oh * m.ow ≤ (m.rowAt row).1)
def TMap.elem (m : TMap) (e : Nat) : WinElem :=
  let (p, kb) := m.rowAt (e / 64)
  let k := 64 * kb + e % 64
  if m.oh * m.ow ≤ p || m.r * m.s * m.c ≤ k then .zero
  else
    let ky := k / (m.s * m.c)
    let kx := k / m.c % m.s
    let ch := k % m.c
    let iy : Int := ((p / m.ow * m.sh + ky : Nat) : Int) - (m.ph : Int)
    let ix : Int := ((p % m.ow * m.sw + kx : Nat) : Int) - (m.pw : Int)
    if 0 ≤ iy && iy < m.h && 0 ≤ ix && ix < m.w then
      .mem (m.base + BitVec.ofNat 64 (iy.toNat * m.rowpitch + ix.toNat * m.pixpitch + ch * m.esize))
    else .fill

/-! ### Copies (R295) -/

structure CopyRec where
  src : Word
  dst : Word
  bytes : Nat
  srcScratch : Bool
  dstScratch : Bool
deriving DecidableEq, Repr
def copyOf (r : List Byte) : Option CopyRec :=
  let w := fun lo => BitVec.ofNat 64 (recNat r lo 8)
  let c : CopyRec := ⟨w 0, w 8, recNat r 16 4, recNat r 20 1 % 2 == 1, recNat r 20 1 / 2 == 1⟩
  let inScratch := fun (sc : Bool) (a : Word) => !sc || decide (a.toNat + c.bytes ≤ 2 ^ 20)
  let overlap := c.srcScratch == c.dstScratch && decide (c.src.toNat < c.dst.toNat + c.bytes)
    && decide (c.dst.toNat < c.src.toNat + c.bytes) && c.bytes != 0
  if recZero r 56 8 && recZero r 21 31 && decide (recNat r 20 1 < 4) && decide (c.bytes < 2 ^ 24) && syncOk r
      && inScratch c.srcScratch c.src && inScratch c.dstScratch c.dst && !overlap then some c
  else none

/-! ### Planes (R48, R113, R296) -/

structure PlaneRec where
  src : Word
  pitch : Nat
  slot : Nat
  planes : Nat
  swz : BitVec 4
  scale : BitVec 8
  refine : BitVec 8
deriving DecidableEq, Repr
def planeOf (r : List Byte) : Option PlaneRec :=
  let b := fun lo => BitVec.ofNat 8 (recNat r lo 1)
  let p : PlaneRec := ⟨BitVec.ofNat 64 (recNat r 0 8), recNat r 8 4, recNat r 12 4, recNat r 16 1, (b 17).setWidth 4, b 18, b 19⟩
  if recZero r 56 8 && recZero r 20 32 && decide (1 ≤ p.planes) && decide (p.planes ≤ 8) && decide (recNat r 17 1 < 16)
      && decide (p.slot < 2 ^ 20) && syncOk r then some p
  else none
/-- Columns of a block at P planes. -/
def planeCols (p : Nat) : Nat := 1536 / p

def namesSync : Instr → Bool
  | .cpy _ => true | .plane _ => true | i => isPattern i
def Command.sync (c : Command) : Option Nat := if namesSync c.op then syncOf c.rec_ else none

/-- The scratch address of an entry named by a signed offset from a descriptor at a scratch address; 2^20 where it is none. -/
def offsetAddr (pa : Nat) (off : Word) : Nat :=
  let x := (pa : Int) + off.toInt
  if 0 ≤ x && x < 2 ^ 20 then x.toNat else 2 ^ 20
/-! ### In-switch reductions (R303) -/

structure SwRec where
  key : Word
  ncontrib : Nat
  index : Nat
  op : Nat
  nanr : Nat
  count : Nat
  src : Word
  dst : Word
  deadline : Nat
deriving DecidableEq, Repr
def swOf (r : List Byte) : Option SwRec :=
  let g := recNat r
  let w : SwRec := ⟨BitVec.ofNat 64 (g 0 8), g 8 1, g 9 1, g 10 1, g 11 1, g 12 4, BitVec.ofNat 64 (g 16 8), BitVec.ofNat 64 (g 24 8), g 32 4⟩
  if recZero r 36 28 && decide (1 ≤ w.ncontrib) && decide (w.ncontrib ≤ 64) && decide (w.index < w.ncontrib) && decide (w.op ≤ 2)
      && decide (w.nanr ≤ 1) && decide (1 ≤ w.count) && decide (w.count ≤ 4096) && decide (1 ≤ w.deadline) && decide (w.deadline < 65536) then some w
  else none

/-! ### What a command reaches in memory -/

/-- Extents copied `n` times a stride apart; copies no more than a page apart make one extent. -/
def spread (xs : List (Int × Int)) (n : Nat) (stride : Int) : List (Int × Int) :=
  let far := ((n : Int) - 1) * stride
  match xs with
  | [(lo, hi)] =>
    if stride.natAbs ≤ 65536 || n ≤ 1 then [(lo + min 0 far, hi + max 0 far)]
    else (List.range n).map fun i => (lo + i * stride, hi + i * stride)
  | xs => (List.range n).flatMap fun i => xs.map fun x => (x.1 + i * stride, x.2 + i * stride)
/-- The extents of a pattern's elements about its base. -/
def Pat.extents (p : Pat) : List (Int × Int) :=
  if p.counts.any (· == 0) then [] else (List.zip p.counts p.strides).foldl (fun xs x => spread xs x.1 x.2) [(0, (p.esize : Int))]
/-- The extents of an image's rows. -/
def TMap.extents (m : TMap) : List (Int × Int) := spread (spread [(0, (m.c * m.esize : Nat))] m.w m.pixpitch) m.h m.rowpitch
def spanOf (base : Word) (xs : List (Int × Int)) : List (Word × Nat) :=
  xs.map fun x => (base + BitVec.ofInt 64 x.1, (x.2 - x.1).toNat)
/-- The extents of one row of a pattern whose outermost coordinate an index list gives (R290). -/
def Pat.rowExtents (p : Pat) : List (Int × Int) :=
  let n := p.counts.length - 1
  if p.counts.any (· == 0) then []
  else (List.zip (p.counts.take n) (p.strides.take n)).foldl (fun xs x => spread xs x.1 x.2) [(0, (p.esize : Int))]
/-- The base of a pattern's row at an index. -/
def Pat.rowBase (p : Pat) (idx : Int) : Word := p.base + BitVec.ofInt 64 (idx * getAt p.strides (p.counts.length - 1) 0)
/-- The ranges of memory a copy, a plane, a reduction or a pattern without an index list reads or writes, with which of the two (R130). -/
def engineSpans (i : Instr) (r : List Byte) : List (Word × Nat × Bool) :=
  match i with
  | .cpy _ => match copyOf r with
    | some c => (if c.srcScratch then [] else [(c.src, c.bytes, false)]) ++ if c.dstScratch then [] else [(c.dst, c.bytes, true)]
    | none => []
  | .plane _ => match planeOf r with
    | some p => (List.range 64).map fun k => (p.src + BitVec.ofNat 64 (k * p.pitch), planeCols p.planes, false)
    | none => []
  | .strmWin _ => match tmapOf r with
    | some m => (spanOf m.base m.extents).map fun x => (x.1, x.2, false)
    | none => []
  | .strmLd _ | .strmSt _ => match patOf i r with
    | some p => (spanOf p.base p.extents).map fun x => (x.1, x.2, writesMem i)
    | none => []
  | .xred _ => match swOf r with
    | some w => [(w.src, 4 * w.count, false)]
    | none => []
  | .xrwait _ => match swOf r with
    | some w => [(w.dst, 4 * w.count, true)]
    | none => []
  | _ => []

end Sys2Proof.Machine
end

