-- ==== Sys2Proof/Machine/Crossbar.lean ====
section
/-! DEFINITION. Slot tables at work (R180, R181), and the SCE crossbars (R106 to R108): who asks for a bank in a clock, who is served,
what a permute holds (R229), and what counts as held (R89). -/

namespace Sys2Proof.Machine

/-! ### Slot tables (R180, R181) -/

def slotTable (s : State) (stand idx : Nat) : SlotTable :=
  ((s.cfg.tables.find? fun (a, b, _) => a == stand && b == idx).map fun (_, _, t) => t).getD SlotTable.initial
def setSlotTable (s : State) (stand idx : Nat) (t : SlotTable) : State :=
  { s with cfg := { s.cfg with
      tables := (s.cfg.tables.filter fun (a, b, _) => !(a == stand && b == idx)) ++ [(stand, idx, t)] } }
/-- The table as it stands at a clock: one that waited for the slot pointer's return to 0 has taken over (R63, R181). -/
def SlotTable.at_ (t : SlotTable) (clock : Nat) : SlotTable :=
  match t.pending with
  | some (due, p) => if due ≤ clock then { t with slots := p, pending := none } else t
  | none => t
/-- The slots last written to the table, whether or not they have taken over. -/
def SlotTable.written (t : SlotTable) : List (BitVec 2) := (t.pending.map (·.2)).getD t.slots
/-- The context a clock's unit goes to, of those that are ready, with the table after the grant (R181); none: the clock is idle. -/
def SlotTable.grantee (t : SlotTable) (clock : Nat) (ready : Nat → Bool) : Option (Nat × SlotTable) :=
  let t := t.at_ clock
  let o := (getAt t.slots (clock % 16) 0).toNat
  let t' := { t with served := clock + 1 }
  if ready o then some (o, t')
  else (([1, 2, 3, 4].map fun i => (t.spare + i) % 4).find? fun c => c != o && ready c).map fun c => (c, { t' with spare := c })
/-- The arbiter grants this clock's unit of an element to context k.ctx, or to no one or another (none). -/
def grant (s : State) (k : EKey) (ready : EKey → Bool) : Option State :=
  let idx := tableIndex k.elem
  let t := slotTable s k.stand idx
  if s.ctl.clock < t.served then none
  else match t.grantee s.ctl.clock fun c => running s { k with ctx := c } && ready { k with ctx := c } with
    | some (c, t') => if c = k.ctx then some (setSlotTable s k.stand idx t') else none
    | none => none
/-- Whether a block tile's clock is granted to a context, where contexts share the tile (R180). -/
def tileTurn (s : State) (k : EKey) : Bool :=
  match s.tiles.turns.find? fun t => t.1 == k.stand && t.2.1 == k.elem with
  | some t => t.2.2 == some k.ctx
  | none => true

/-! ### The nodes at a bank -/

def setNodes (s : State) (ns : List MNode) : State := { s with ord := { s.ord with nodes := ns } }
def nodeById (s : State) (id : Nat) : Option MNode := s.ord.nodes.find? fun n => n.id == id
def setNode (s : State) (n : MNode) : State := setNodes s (updIf s.ord.nodes (fun m => m.id == n.id) fun _ => n)
/-- The scratch range of a node at a bank: stand, address, bytes. -/
def scratchRange (k : EKey) : MemOp → Option (Nat × Nat × Nat)
  | .sload a n => some (k.stand, a, n)
  | .sstore a bs => some (k.stand, a, bs.length)
  | .samo a n _ _ => some (k.stand, a, n)
  | .swset a _ => some (k.stand, a, 8)
  | .swwait a _ => some (k.stand, a, 8)
  | .xst st a bs => some (st, a, bs.length)
  | _ => none
def isWait : MemOp → Bool
  | .swwait .. => true | _ => false
def isXst : MemOp → Bool
  | .xst .. => true | _ => false
/-- A part that stands in its queue, with the clock, key and number of its arrival. -/
def Part.queuedAt (p : Part) : Option (Nat × Nat × Nat) := match p.at_ with | .queued c k o => some (c, k, o) | _ => none
/-- Place in a bank, exchange banks as they lie in scratch: the bytes an address of a node reaches (R112). -/
def physAddr (s : State) (stand ctx addr n : Nat) (shadow : Bool) : Nat :=
  let a := addr % 2 ^ 20
  match regionOf s stand ctx a n with
  | some (_, r) => if r.mode = 3 then exchangeAddr s stand a r shadow else a
  | none => a
def partPlace (s : State) (n : MNode) (p : Part) : Option (Nat × Nat) :=
  (scratchRange n.key n.op).map fun (st, a, _) => (st, physAddr s st n.key.ctx (a + p.off) p.size (isXst n.op))
/-- Bank and row of a byte of a SCE (R106). -/
def bankOf (addr : Nat) : Nat := addr % 65536 / 64 % 16
def rowOf (addr : Nat) : Nat := addr % 65536 / 1024
/-- The port by which an element reaches a SCE's crossbar (R107): a VPE's by its side of the SCE, a tile's, the streamers', the matrix
island's; everything else comes over the mesh (DESIGN CHOICE for the copy engine, the spoke port and the KV unit: log entry 109). -/
def portOf (elem sce : Nat) : Nat :=
  if elem < 0x10 then (((List.range 4).find? fun d => sceBeside elem d == some sce).map fun d => (d + 2) % 4).getD 8
  else if elem = 0x20 then 4
  else if elem = 0x21 then 5
  else if isStreamer elem then 6
  else if isMatrix elem then 7
  else 8
def MNode.port (n : MNode) (addr : Nat) : Nat := if isXst n.op then 8 else portOf n.key.elem (sceOf addr)
/-- Lanes of one firing share a row's access (R237): what a request is told by. -/
def MNode.asker (n : MNode) : Nat := match n.src with | .stage .. => n.pos / 4096 | _ => n.id

/-! ### The crossbar in a clock -/

def Bar.fresh (stand sce clock : Nat) : Bar := ⟨stand, sce, clock, none, [], none, false, [], 0, []⟩
/-- A crossbar in the present clock. -/
def barAt (s : State) (stand sce : Nat) : Bar :=
  match s.mem.bars.find? fun b => b.stand == stand && b.sce == sce with
  | some b => if b.clock = s.ctl.clock then b else { Bar.fresh stand sce s.ctl.clock with turn := b.turn, asks := b.asks }
  | none => Bar.fresh stand sce s.ctl.clock
def setBar (s : State) (b : Bar) : State :=
  setMem s { s.mem with bars := (s.mem.bars.filter fun x => !(x.stand == b.stand && x.sce == b.sce)) ++ [b] }
/-- The order in which requests are served: the context with first claim before the others, then by port (R108, R180). -/
def Bar.key (b : Bar) (ctx port : Nat) : Nat := (if b.first.all fun c => c == ctx then 0 else 16) + port
/-- Two arrivals in order: by clock, within a clock by key, then as they came (R108). -/
def arrivedBefore (a b : Nat × Nat × Nat) : Bool :=
  decide (a.1 < b.1) || (a.1 == b.1 && (decide (a.2.1 < b.2.1) || (a.2.1 == b.2.1 && decide (a.2.2 < b.2.2))))
/-- Two accesses that share a home queue: one line, or one scratch word. -/
def sameQueue (s : State) (n : MNode) (p : Part) (m : MNode) (q : Part) : Bool :=
  match p.xl, q.xl with
  | some x, some y => x.dpa / 128 == y.dpa / 128
  | none, none =>
    match partPlace s n p, partPlace s m q with
    | some (st, a), some (st', b) =>
      st == st' && decide (a / 4 * 4 < b + q.size) && decide (b / 4 * 4 < a + p.size)
    | _, _ => false
  | _, _ => false
/-- A part at the head of its queue; a waiting SWWAIT keeps nothing behind it. -/
def atHead (s : State) (n : MNode) (p : Part) : Bool :=
  match p.queuedAt with
  | none => false
  | some k => isWait n.op || s.ord.nodes.all fun m => isWait m.op || m.parts.all fun q =>
      match q.queuedAt with
      | some j => !arrivedBefore j k || !sameQueue s n p m q
      | none => true
/-- The flags an atomic would raise when it performs. -/
def performFlags (s : State) (n : MNode) (p : Part) : FlagSet :=
  match n.op, p.xl with
  | .amo _ sz aop arg, some x => (atomicOp aop sz (leWord ((List.range sz).map fun i => peekByte s x.key (x.dpa + i))) arg).2
  | .samo a sz aop arg, _ =>
    match regionOf s n.key.stand n.key.ctx a sz with
    | some (_, r) => (atomicOp aop sz (leWord (loadScratch s n.key.stand a r sz)) arg).2
    | none => 0
  | _, _ => 0
/-- The parts of a split SO-class scratch access perform in address order (R133). -/
def scratchTurn (n : MNode) (i : Nat) : Bool :=
  n.ord != .so || (n.parts.take i).all fun p => p.at_ = .performed
/-- A request stands at its bank: the access could be made now. -/
def asksBank (s : State) (n : MNode) (i : Nat) (p : Part) : Bool :=
  n.at_ = .issued && !isWait n.op && atHead s n p && scratchTurn n i
    && !flagsWait s n.key.stand n.key.ctx n.epoch (performFlags s n p)
/-- The scratch rows of a range. -/
def sectorKeys (stand addr n : Nat) : List ScratchKey :=
  (List.range ((addr % 64 + n + 63) / 64)).map fun i => sectorKeyOf stand (addr / 64 * 64 + 64 * i)
/-- Whether a stash access that reads must first have its sectors filled (R111). -/
def stashReady (s : State) (stand ctx addr n : Nat) : Bool := (sectorKeys stand addr n).all fun k => sectorServes s ctx k (sectorMask k addr n)
/-- A command's raise can be made: its word's sector, in a stash region, is filled (R194). -/
def raiseReady (s : State) (c : Command) (a : Nat) : Bool :=
  match regionOf s c.eng.stand c.eng.ctx a 8 with
  | some (_, r) => r.mode != 2 || stashReady s c.eng.stand c.eng.ctx a 8
  | none => false
/-- A request at a crossbar for a row of a bank. -/
structure BankAsk where
  ctx : Nat
  port : Nat
  bank : Nat
  size : Nat
deriving DecidableEq, Repr
/-- The raises of sync words that wait at a crossbar, with their elements. -/
def raiseAsks (s : State) (stand sce : Nat) : List (Nat × BankAsk) :=
  s.eng.commands.filterMap fun c => match c.sync with
    | some a => if c.ended && c.eng.stand == stand && sceOf a == sce && raiseReady s c a then
        some (c.eng.elem, ⟨c.eng.ctx, portOf c.eng.elem sce, bankOf a, 8⟩) else none
    | none => none
/-- An engine's access that was held still stands: its command has it to make, and waits for no page and no fill. -/
def BarAsk.stands (s : State) (stand : Nat) (a : BarAsk) : Bool :=
  !reporting s stand a.elem
    && s.eng.commands.any (fun c => c.id == a.cmd && c.eng.stand == stand && !c.ended && c.stalled.isNone
        && (isPattern c.op || (aget c.todo a.acc).isSome))
    && match regionOf s stand a.ctx a.addr a.size with
      | some (_, r) => r.mode != 2 || a.write || stashReady s stand a.ctx a.addr a.size
      | none => false
/-- The engines' accesses that stand at a crossbar (R107, R108). -/
def engineAsks (s : State) (stand sce : Nat) : List BankAsk :=
  match s.mem.bars.find? fun b => b.stand == stand && b.sce == sce with
  | none => []
  | some b => (b.asks.filter (·.stands s stand)).flatMap fun a =>
      (pieces 64 (a.size / 32 + 2) a.addr 0 a.size).map fun (o, k) =>
        ⟨a.ctx, portOf a.elem sce, bankOf (physAddr s stand a.ctx a.addr a.size false + o), k⟩
/-- The requests that stand at a crossbar: of queued accesses, raises and engines' accesses. -/
def bankAsks (s : State) (stand sce : Nat) : List BankAsk :=
  (raiseAsks s stand sce).map (·.2) ++ engineAsks s stand sce ++ s.ord.nodes.flatMap fun n => n.parts.zipIdx.filterMap fun (p, i) =>
    match partPlace s n p with
    | some (st, a) => if st == stand && sceOf a == sce && asksBank s n i p then some ⟨n.key.ctx, n.port a, bankOf a, p.size⟩ else none
    | none => none
/-- The firings that stand at a stage which needs a crossbar: with the instruction, its context and port. -/
def stageAsks (s : State) (stand sce : Nat) : List (Instr × Nat × Nat) :=
  s.firings.filterMap fun f =>
    if f.vpe.stand != stand || portOf f.vpe.elem sce = 8 then none
    else match ((vpeCfg s f.vpe).slots[f.stage]?).bind slotInstr with
      | some (i, w) =>
        let side := match i with
          | .perm w => some (field w.imm 0 2).toNat
          | .advh w => some (field w.imm 16 2).toNat
          | .waith w => some (field w.imm 16 2).toNat
          | .peekh w => some (field w.imm 16 2).toNat
          | _ => none
        if side.isSome && side.bind (sceBeside f.vpe.elem) == some sce
            && (stageEnv { s with ctl := { s.ctl with focus := .firing f.id } } i w).isSome then
          some (i, f.vpe.ctx, portOf f.vpe.elem sce)
        else none
      | none => none
def isPerm : Instr → Bool
  | .perm _ => true | _ => false
/-- The permutes that ask for a crossbar: context and port (R229). -/
def permAsks (s : State) (stand sce : Nat) : List (Nat × Nat) :=
  (stageAsks s stand sce).filterMap fun (i, c, p) => if isPerm i then some (c, p) else none
/-- A context is loaded on an element (R181): its launch runs there, a drain included. -/
def loadedOn (s : State) (stand ctx : Nat) : Bool :=
  s.la.launches.any fun l => (l.state = .running || l.state = .draining) && l.ctx == ctx && l.placed.any fun p => p.at_.stand == stand
/-- First claim on a crossbar in the clock, decided when it first serves: one of the contexts that ask (R180). -/
def firstClaim (s : State) (b : Bar) (ctx : Nat) : State × Bar :=
  match b.first with
  | some _ => (s, b)
  | none =>
    let others := (bankAsks s b.stand b.sce).map (·.ctx) ++ (permAsks s b.stand b.sce).map (·.1)
    let ready := fun c => (c == ctx || others.contains c) && loadedOn s b.stand c
    match (slotTable s b.stand (0x10 + b.sce)).grantee s.ctl.clock ready with
    | some (c, t) => (setSlotTable s b.stand (0x10 + b.sce) t, { b with first := some c })
    | none => (s, { b with first := some ctx })
/-- A permute that comes first still waits for the crossbar. -/
def permFirst (s : State) (b : Bar) (key : Nat) : Bool := (permAsks s b.stand b.sce).any fun x => decide (b.key x.1 x.2 < key)
/-- Bytes a port has moved in the clock; it moves at most 64 (R106). -/
def Bar.moved (b : Bar) (port : Nat) : Nat := (b.used.filter fun u => u.2.2.2.1 % 16 == port).foldl (fun m u => m + u.2.2.2.2) 0
/-- A row's access at a bank, for a context and port (R106, R108): one row of one request in a clock, 64 bytes through a port, the lowest
first. None: it is held to a later clock. -/
def serveBank (s : State) (stand addr n ctx port who : Nat) : Option State :=
  let (s, b) := firstClaim s (barAt s stand (sceOf addr)) ctx
  let key := b.key ctx port
  let bank := bankOf addr
  if b.perm.isSome || decide (64 < b.moved port + n)
      || b.used.any (fun u => u.1 == bank && !(u.2.1 == rowOf addr && u.2.2.1 == who && u.2.2.2.1 == key))
      || (bankAsks s stand b.sce).any (fun x => x.bank == bank && decide (b.key x.ctx x.port < key))
      || permFirst s b key then none
  else some (setBar s { b with used := b.used ++ [(bank, rowOf addr, who, key, n)] })
/-- A range's rows served in one clock, in address order; none: some bank is not free for it. -/
def serveRange (s : State) (stand addr n ctx port who : Nat) : Option State :=
  (pieces 64 (n / 32 + 2) addr 0 n).foldl (fun acc (o, k) =>
    acc.bind fun s => serveBank s stand ((addr + o) % 2 ^ 20) k ctx port who) (some s)
/-- A permute takes a crossbar for the clock (R229): it comes before every other request, and nothing has been served. -/
def permBar (s : State) (stand sce ctx port : Nat) : Option State :=
  let (s, b) := firstClaim s (barAt s stand sce) ctx
  let key := b.key ctx port
  if !b.used.isEmpty || b.perm.isSome || permFirst s b key
      || (bankAsks s stand sce).any (fun x => decide (b.key x.ctx x.port < key)) then none
  else some (setBar s { b with perm := some key })
/-- An access may reach its bank in this clock: nothing that comes after it has been served (R108). -/
def mayReach (s : State) (stand addr ctx port : Nat) : Bool :=
  let b := barAt s stand (sceOf addr)
  b.used.all (fun u => u.1 != bankOf addr || decide (u.2.2.2.1 ≤ b.key ctx port)) && b.perm.all fun k => decide (k ≤ b.key ctx port)
/-- A handle's pointer or counts may be reached: no permute holds the crossbar (R89, R107). -/
def handleFree (s : State) (k : EKey) : Bool := (barAt s k.stand (k.elem - 0x10)).perm.isNone
/-- A pointer moves: of several moves of one handle in a clock, in increasing port order (R96). None: not in this clock. -/
def moveHandle (s : State) (k : EKey) (h port : Nat) : Option State :=
  let b := barAt s k.stand (k.elem - 0x10)
  if b.perm.isSome || b.advs.any (fun x => x.1 == k.ctx && x.2.1 == h && decide (port < x.2.2)) then none
  else some (setBar s { b with advs := b.advs ++ [(k.ctx, h, port)] })
/-- The streamers' port takes them in rotating order (R107): of those whose accesses or raises stand, the next after the one served last
comes first. Every other engine has its port to itself. -/
def streamerTurn (s : State) (stand elem sce : Nat) : Bool :=
  let b := barAt s stand sce
  let place := fun e => (e + 4 - b.turn - 1) % 4
  !isStreamer elem || (((b.asks.filter (·.stands s stand)).map (·.elem)) ++ (raiseAsks s stand sce).map (·.1)).all fun e =>
    !isStreamer e || e == elem || decide (place (elem % 4) < place (e % 4))
/-- An engine's access or raise has been served: it stands no longer, and a streamer has had its turn. -/
def servedBar (s : State) (stand sce elem cmd acc : Nat) : State :=
  let b := barAt s stand sce
  setBar s { b with turn := if isStreamer elem then elem % 4 else b.turn, asks := b.asks.filter fun y => !(y.cmd == cmd && y.acc == acc) }
/-- An engine's access is held, and stands at the crossbar from now on. -/
def askBar (s : State) (stand sce : Nat) (a : BarAsk) : State :=
  let b := barAt s stand sce
  setBar s { b with held := true, asks := (b.asks.filter fun y => !(y.cmd == a.cmd && y.acc == a.acc)) ++ [a] }
/-- An engine's access is held. -/
def holdBar (s : State) (stand sce : Nat) : State := setBar s { barAt s stand sce with held := true }
/-- Some request on the crossbar is held in the present clock because it is busy (R89). -/
def barHeld (s : State) (b : Bar) : Bool :=
  b.held
    || (bankAsks s b.stand b.sce).any (fun x => b.perm.isSome || b.used.any (fun u => u.1 == x.bank)
      || (decide (0 < b.moved x.port) && decide (64 < b.moved x.port + x.size)))
    || (stageAsks s b.stand b.sce).any fun x => b.perm.isSome || (isPerm x.1 && !b.used.isEmpty)

end Sys2Proof.Machine
end

