-- ==== Sys2Proof/Machine/Blocks.lean ====
section
/-! DEFINITION. Blocks and their executions (R69, R70, R75, R242 to R247): the header, the load checks, slots, dead
instructions, delivery to targets, the abort of an execution, and the one operation that fires a block instruction. -/

namespace Sys2Proof.Machine

/-! ### The words of a block -/

/-- A block's header as R70 lays it out. -/
structure BHead where
  icount : Nat
  nwrite : Nat
  nstore : Nat
  reads : List (Nat × Target)     -- G number, target
  writes : List Nat               -- G number
deriving DecidableEq, Repr

def imemWord (s : State) (tile : EKey) (a : Nat) : Word := agetD (tileCfg s tile).imem a 0
/-- Word 0 of a header: its OPC, its counts in their ranges, its reserved bits 0 (R70). -/
def header0Ok (h0 : Word) : Bool :=
  let icount := (field h0 49 7).toNat
  field h0 56 8 == 0xF8#8 && field h0 0 35 == 0 && decide (1 ≤ icount) && decide (icount ≤ 124)
    && decide ((field h0 45 4).toNat ≤ 8) && decide ((field h0 41 4).toNat ≤ 8) && decide ((field h0 35 6).toNat ≤ 32)
/-- Four header words read, when they are valid (R70). -/
def parseHead (word : Nat → Word) : Option BHead :=
  let h0 := word 0
  let h12 : Nat → Half := fun e => (word (1 + e / 4) >>> (16 * (e % 4))).setWidth 16
  let h3 : Nat → Byte := fun e => (word 3 >>> (8 * e)).setWidth 8
  let nread := (field h0 45 4).toNat
  let nwrite := (field h0 41 4).toNat
  let reads := (List.range nread).map fun e => ((field (h12 e) 9 7).toNat, Target.ofCode (field (h12 e) 0 9).toNat)
  let writes := (List.range nwrite).map fun e => (field (h3 e) 0 7).toNat
  if header0Ok h0
      && (List.range 8).all (fun e => decide (e < nread) || h12 e == 0)
      && (List.range 8).all (fun e => if e < nwrite then bitAt (h3 e) 7 else h3 e == 0)
      && reads.all (fun x => x.2.isSome) then
    some ⟨(field h0 49 7).toNat, nwrite, (field h0 35 6).toNat, reads.filterMap fun x => x.2.map fun t => (x.1, t), writes⟩
  else none
/-- The header at a block address, when it is valid and its block lies in the instruction memory; one that runs past word 8,191 is no block
(DESIGN CHOICE, log entry 117). -/
def headerOf (s : State) (tile : EKey) (block : Nat) : Option BHead :=
  (parseHead fun i => imemWord s tile (block + i)).filter fun h => decide (block + 4 + h.icount ≤ 8192)

/-- A transfer's target holds a header word (R246): what stands behind word 0 is checked when the block is loaded (R70, R75). -/
def headerWordAt (s : State) (tile : EKey) (block : Nat) : Bool := header0Ok (imemWord s tile block)

/-- What every block word shares: targets, predication, slots, register counts (R70's table), required format. -/
structure BInfo where
  t0 : Target
  t1 : Target
  pr : Pr
  a : Use
  b : Use
  cInP : Bool
  n0 : Nat
  n1 : Nat
  na : Nat
  nb : Nat
  ft : Option Fmt
deriving DecidableEq, Repr

/-- Registers of a datum of SZ code 0 to 6 (R70, R260). -/
def szRegs (sz : Nat) : Nat := match sz with | 4 => 2 | 5 => 4 | 6 => 8 | _ => 1
def binfo (i : Instr) : Option BInfo :=
  match bform i with
  | some (f, w) =>
    let n := if w.w = .tok then 8 else 1
    let mk := fun n0 n1 na nb ft => some (⟨w.t0, w.t1, w.pr, f.a, f.b, f.cInP, n0, n1, na, nb, ft⟩ : BInfo)
    match i with
    | .send _ => mk 1 1 8 1 none
    | .sendBrk _ => mk 1 1 1 1 none
    | .recv _ => mk 8 1 1 1 none
    | .recvStart _ => mk 1 1 1 1 none
    | .dfromBlock _ => mk 1 1 8 8 w.ft
    | _ => mk n n n n w.ft
  | none =>
    match mform i with
    | some (f, w) =>
      let n := szRegs w.sz.val
      let load := match i with | .ld _ => true | .ldv _ => true | .sldBlock _ => true | _ => false
      some ⟨w.t0, w.t1, w.pr, f.a, f.b, f.cInP, if load then n else 1, if load then n else 1, 1, n, none⟩
    | none =>
      (eform i).map fun (f, w) => ⟨w.t0, w.t1, w.pr, f.a, f.b, false, 1, 1, 1, 1, none⟩

/-- Store-completing instructions (R245). -/
def isStore : Instr → Bool
  | .st _ | .stv _ | .dst _ | .sstBlock _ | .xst _ | .swset _ => true
  | _ => false
/-- Loads, atomics and SWWAIT (R132). -/
def isLoadLike : Instr → Bool
  | .ld _ | .ldv _ | .dld _ | .sldBlock _ | .samoBlock _ | .amo _ | .famo _ | .cas _ | .swwait _ => true
  | _ => false
def isAtomic : Instr → Bool
  | .samoBlock _ | .amo _ | .famo _ | .cas _ => true
  | _ => false
/-- The path of a memory or engine instruction (R127). -/
def pathOf : Instr → Option Path
  | .ld _ | .ldv _ | .st _ | .stv _ | .amo _ | .famo _ | .cas _ | .dld _ | .dst _ => some .ls
  | .sldBlock _ | .sstBlock _ | .samoBlock _ | .swset _ | .swwait _ | .xst _ | .barx _ => some .sa
  | .strmLd _ | .strmSt _ | .strmGth _ | .strmSct _ | .strmWin _ | .strmStop _ | .strmPos _ => some .st
  | .cpy _ | .plane _ => some .cp
  | .tilef _ | .tilee _ | .mxrd _ | .mxclr _ => some .mx
  | .xrslot _ | .xred _ | .xrwait _ | .rnsum _ | .rnmax _ => some .co
  | .kvst _ | .kvstFin _ | .kvld _ | .kvalloc _ | .kvfree _ | .bfq _ | .bfwait _ => some .bf
  | _ => none
/-- Bit k of a FENCE's path sets (R71). -/
def pathBit : Path → Nat
  | .ls => 0 | .sa => 1 | .st => 2 | .cp => 3 | .mx => 4 | .co => 5 | .bf => 6 | .hi => 7
/-- The ORD of a memory instruction. -/
def ordOf (i : Instr) : Ord := ((mform i).map fun x => x.2.ord).getD .plain

/-- A block as loaded. -/
structure Block where
  addr : Nat
  head : BHead
  instrs : List Instr
deriving DecidableEq, Repr

def targetSlot : Target → Option (Nat × Nat)
  | .a i => some (i.val, 0) | .b i => some (i.val, 1) | .p i => some (i.val, 2) | _ => none
/-- The slots the instruction at an index sends to. -/
def sendsTo (i : Instr) : List Target := ((binfo i).map fun f => [f.t0, f.t1]).getD []
/-- The instructions that target a slot. -/
def Block.feeders (b : Block) (slot : Nat × Nat) : List Nat :=
  (b.instrs.zipIdx.filter fun (i, _) => (sendsTo i).any fun t => targetSlot t == some slot).map (·.2)
def Block.read (b : Block) (slot : Nat × Nat) : Bool := b.head.reads.any fun x => targetSlot x.2 == some slot
/-- Whether some target or read entry names the slot (R242). -/
def Block.named (b : Block) (slot : Nat × Nat) : Bool := b.read slot || !(b.feeders slot).isEmpty
/-- The used slots of the instruction at an index (R242). -/
def Block.used (b : Block) (idx : Nat) : List Nat :=
  match (b.instrs[idx]?).bind binfo with
  | none => []
  | some f =>
    let use := fun (u : Use) k => match u with
      | .no => []
      | .yes => [k]
      | .optional => if b.named (idx, k) then [k] else []
    use f.a 0 ++ use f.b 1 ++ if f.pr != .always || f.cInP then [2] else []
/-- Registers a slot takes from a read entry. -/
def Block.slotRegs (b : Block) (slot : Nat × Nat) : Nat :=
  match (b.instrs[slot.1]?).bind binfo with
  | none => 1
  | some f => match slot.2 with | 0 => f.na | 1 => f.nb | _ => 1
/-- The register counts that the feeders of a write entry give it. -/
def Block.writeRegs (b : Block) (n : Nat) : List Nat :=
  let isN := fun (t : Target) => match t with | .w k => k.val == n | _ => false
  (b.instrs.flatMap fun i => match binfo i with
    | some f => (if isN f.t0 then [f.n0] else []) ++ (if isN f.t1 then [f.n1] else [])
    | none => [])
  ++ (b.head.reads.filter fun x => isN x.2).map fun _ => 1

/-- A load or atomic at `j` held behind a store at `i` of its own block (R132), by index. -/
def Block.heldBehind (b : Block) (i j : Nat) : Bool :=
  match b.instrs[i]?, b.instrs[j]? with
  | some si, some lj =>
    match pathOf si, pathOf lj with
    | some ps, some pl =>
      isStore si && isLoadLike lj && decide (i < j)
        && ((ps = pl && ordOf si = .so && ordOf lj = .so)
          || (ps = pl && isAtomic lj && (ordOf lj = .rel || ordOf lj = .ar))
          || b.instrs.zipIdx.any fun (g, k) => match g with
            | .fence w => decide (i < k) && decide (k < j) && bitAt w.off (8 + pathBit ps) && bitAt w.off (pathBit pl)
            | _ => false)
    | _, _ => false
  | _, _ => false

/-- An instruction that a RECV's T0 feeds directly (R248). -/
def Block.fedByRecv (b : Block) (j : Nat) : Bool :=
  b.instrs.any fun i => match i with
    | .recv w => (targetSlot w.t0).any fun x => x.1 == j
    | _ => false
/-- A format tag where R248 allows none. -/
def Block.strayFt (b : Block) (j : Nat) : Bool :=
  match b.instrs[j]? with
  | some (.send _) | some (.sendBrk _) | some (.recv _) | some (.recvStart _) => false
  | some i => match bform i with
    | some (_, w) => w.ft.isSome && !b.fedByRecv j
    | none => false
  | none => false

/-- The load checks (R70, R75, R99, R132, R242, R245, R248, R254): ILL, REGRANGE, or the block. -/
def loadBlock (s : State) (tile : EKey) (addr : Nat) : Except (BitVec 8) Block :=
  match headerOf s tile addr with
  | none => .error pILL
  | some h =>
    let words := (List.range h.icount).map fun i => decodeBlock (imemWord s tile (addr + 4 + i))
    let instrs := words.filterMap fun r => match r with | .ok i => some i | .error _ => none
    let b : Block := ⟨addr, h, instrs⟩
    let lim := 16 * (tileCfg s tile).galloc
    let targetOk := fun (from_ : Option Nat) (t : Target) => match t with
      | .nowhere => true
      | .w n => decide (n.val < h.nwrite)
      | t => match targetSlot t with
        | some (i, k) => decide (i < h.icount) && (match from_ with | some j => decide (j < i) | none => true)
            && (b.used i).contains k
        | none => false
    let groups : List (Nat × Nat) :=
      (h.reads.map fun x => (x.1, match targetSlot x.2 with | some sl => b.slotRegs sl | none => 1))
        ++ h.writes.zipIdx.map fun (g, n) => (g, (b.writeRegs n).headD 1)
    let stores := (instrs.filter isStore).length
    let idxs := List.range h.icount
    if instrs.length != h.icount
        || instrs.any (fun i => (binfo i).isNone)
        || instrs.zipIdx.any (fun (i, j) => (sendsTo i).any fun t => !targetOk (some j) t)
        || h.reads.any (fun x => !targetOk none x.2)
        || idxs.any (fun j => (b.used j).any fun k => !b.named (j, k))
        || idxs.any (fun j => match (b.instrs[j]?).bind bform with
            | some (f, w) => f.immB && b.named (j, 1) && field w.imm 0 23 != 0
            | none => false)
        || idxs.any (fun j => b.strayFt j)
        || idxs.any (fun j => match b.instrs[j]? with
            | some (.swwait w) => b.named (j, 1) && w.off != 0
            | _ => false)
        || (List.range h.nwrite).any (fun n => (b.writeRegs n).any fun c => c != (b.writeRegs n).headD 1)
        || groups.any (fun g => g.1 % g.2 != 0)
        || stores != h.nstore
        || idxs.any (fun i => idxs.any fun j => b.heldBehind i j) then .error pILL
    else if groups.any (fun g => decide (lim < g.1 + g.2))
        || idxs.any (fun j => match b.instrs[j]? with
            | some (.fork w) => decide (lim < (field w.imm 13 7).toNat + if b.named (j, 1) then 2 else 1)
            | _ => false) then .error pREGRANGE
    else .ok b

/-! ### Executions -/

def execOf (s : State) (id : Nat) : Option Exec := s.tiles.execs.find? fun x => x.id == id
def setExecs (s : State) (xs : List Exec) : State := { s with tiles := { s.tiles with execs := xs } }
def setExec (s : State) (x : Exec) : State := setExecs s (updIf s.tiles.execs (fun y => y.id == x.id) fun _ => x)
def dropExec (s : State) (id : Nat) : State := setExecs s (s.tiles.execs.filter fun x => !(x.id == id))
def threadOf (s : State) (uid : Nat) : Option Thread := s.tiles.threads.find? fun t => t.uid == uid
def setThreads (s : State) (ts : List Thread) : State := { s with tiles := { s.tiles with threads := ts } }
def setThread (s : State) (t : Thread) : State := setThreads s (updIf s.tiles.threads (fun u => u.uid == t.uid) fun _ => t)
def dropThread (s : State) (uid : Nat) : State := setThreads s (s.tiles.threads.filter fun t => !(t.uid == uid))
/-- A segment whose chain is open; a committed segment is an ordinary thread token (R275). -/
def Thread.speculative (t : Thread) : Bool := match t.seg with | some g => !g.chain.isEmpty | none => false

def slotVal (x : Exec) (slot : Nat × Nat) : Option SlotVal := x.vals.find? fun v => v.idx == slot.1 && v.slot == slot.2
/-- The dead instructions of an execution (R244). Targets lead to larger indices, so one pass settles each. -/
def Block.deadSet (b : Block) (x : Exec) : List Nat :=
  (List.range b.instrs.length).foldl (fun dead idx =>
    if x.fired.contains idx then dead
    else match (b.instrs[idx]?).bind binfo with
      | none => dead
      | some f =>
        let off := match f.pr, slotVal x (idx, 2) with
          | .onTrue, some v => !(bitAt v.val 0)
          | .onFalse, some v => bitAt v.val 0
          | _, _ => false
        let starved := (b.used idx).any fun k =>
          (slotVal x (idx, k)).isNone && !b.read (idx, k) && (b.feeders (idx, k)).all fun j => dead.contains j
        if off || starved then dead ++ [idx] else dead) []

/-- A value put in a target's slot or write entry; false when the slot holds one already (R69). -/
def deliver1 (x : Exec) (t : Target) (n : Nat) (v : Lanes) (ft : Option (Fmt × Nat)) : Exec × Bool :=
  match t with
  | .nowhere => (x, true)
  | .w k => if x.writes.any fun w => w.1 == k.val then (x, false) else ({ x with writes := x.writes ++ [(k.val, n, v)] }, true)
  | t => match targetSlot t with
    | none => (x, true)
    | some sl =>
      if (slotVal x sl).isSome then (x, false) else ({ x with vals := x.vals ++ [⟨sl.1, sl.2, v, ft⟩] }, true)
/-- Both targets of an instruction (R242); `ft` says where T0's value came straight from. -/
def deliver (x : Exec) (f : BInfo) (v0 v1 : Lanes) (ft : Option (Fmt × Nat)) : Exec × Bool :=
  let (x, ok0) := deliver1 x f.t0 f.n0 v0 ft
  let (x, ok1) := deliver1 x f.t1 f.n1 v1 none
  (x, ok0 && ok1)

/-! ### Frames (R90, R149) -/

/-- Frames of a block tile in use: those of its thread tokens, and those executions have reserved. -/
def framesUsed (s : State) (tile : EKey) : List Nat :=
  let mine := fun (k : EKey) => k.stand == tile.stand && k.elem == tile.elem
  (s.tiles.threads.filter fun t => mine t.tile && (match t.at_ with | .noFrame _ => false | .ended => false | _ => true)).map (·.frame)
    ++ (s.tiles.execs.filter fun x => mine x.tile).flatMap fun x => x.frames ++ x.spawns.flatMap (·.frames)
/-- The frames that are free, lowest first: the order in which they are given is the model's (DESIGN CHOICE, log entry 120). -/
def freeFrames (s : State) (tile : EKey) : List Nat :=
  let used := framesUsed s tile
  (List.range Config.framesPerTile).filter fun f => !used.contains f

/-! ### Poison from an element (R247, R322, R323) -/

/-- A poison that has come to rest, or a fault without a token: its containment is due (R323). -/
def restPoison (s : State) (lk : LKey) (node : Nat) (tag : Tag) (p : PoisonInfo) : State :=
  { s with host := { s.host with rests := s.host.rests ++ [⟨lk, node, tag, p⟩] } }
/-- The node a POISON comes from: the one placed at its origin, an ingress port that it ended, else the node it rests at. -/
def originNode (s : State) (lk : LKey) (node : Nat) (p : PoisonInfo) : Nat :=
  match launchOf s lk with
  | none => node
  | some l =>
    match l.placed.find? fun x => x.at_.stand == p.stand && x.at_.elem == p.elem.toNat with
    | some x => x.node
    | none =>
      let ended := fun (i : Nat) => s.host.ingress.any fun q => q.key.part == lk.part && q.key.port == l.iport + i && q.stopped
      if p.elem = 0xF8 then
        ((l.module.bind fun m => ((m.nodes.filter fun n => n.kind = .ingress).zipIdx.find? fun x => ended x.2).map fun x => x.1.num)).getD node
      else node
/-- A POISON sent on each of the given edges of an element's node, in order, in one change set with `ds`; with no edge it
comes to rest there (R322, R323). -/
def sendPoison (s : State) (k : EKey) (lk : LKey) (node : Nat) (edges : List Nat) (tag : Tag) (p : PoisonInfo)
    (ds : List Delta) : State :=
  let s := changeSet s k.stand lk (ds ++ edges.map fun e => ⟨e, tag, 1⟩)
  let s := edges.foldl (fun s e => mustSend s (lkEdge lk e) k (poisonToken tag p)) s
  if edges.isEmpty then restPoison s lk (originNode s lk node p) tag p else s
/-- A POISON that arrived is forwarded once: one its element's memory holds is absorbed (R322). -/
def forwardPoison (s : State) (k : EKey) (lk : LKey) (node : Nat) (edges : List Nat) (tag : Tag) (p : PoisonInfo)
    (ds : List Delta) : State :=
  if poisonSeen s k tag p then changeSet s k.stand lk ds
  else sendPoison (notePoison s k tag p) k lk node edges tag p ds
/-- The output edges of a launch's node, in port order. -/
def nodeOutEdges (s : State) (lk : LKey) (k : EKey) : List Nat :=
  match launchOf s lk with
  | some l => match l.nodeAt k with
    | some n => (l.outEdges n).map (·.num)
    | none => []
  | none => []
def nodeOf (s : State) (lk : LKey) (k : EKey) : Nat := ((launchOf s lk).bind fun l => l.nodeAt k).getD 0

/-- The count a thread token holds (R162). -/
def holdDelta (t : Thread) (n : Int) : List Delta := if t.speculative then [] else [⟨t.hold, t.tag, n⟩]
def takenDeltas (x : Exec) : List Delta := x.taken.flatMap fun t => usedDelta t.edge.edge t.tok
/-- A thread token that is no more; while segments of it live, its guard's record stays (R172). -/
def endThread (s : State) (t : Thread) : State :=
  if t.guard = 0 then dropThread s t.uid else setThread s { t with at_ := .ended }
/-- A thread token replaced by POISON of the given tag: its frame is free, its hold moved to the POISON (R247); `fwd` says that
the POISON was taken by a RECV. -/
def poisonThread (s : State) (t : Thread) (tag : Tag) (p : PoisonInfo) (ds : List Delta) (fwd : Bool) : State :=
  let s := endThread s t
  let s := { s with q := { s.q with bursts := s.q.bursts.filter fun b => !(b.owner == t.uid) } }
  (if fwd then forwardPoison else sendPoison) s t.tile t.launch (nodeOf s t.launch t.tile) (nodeOutEdges s t.launch t.tile) tag p
    (ds ++ holdDelta t (-1))
/-- Nodes of an execution that have not issued go with it (R247). -/
def dropUnissued (s : State) (x : Exec) : State :=
  { s with ord := { s.ord with nodes := s.ord.nodes.filter fun n =>
      !(n.at_ = .queued && decide (n.src = .thread x.thread) && n.pos / 1024 == x.id && decide (n.pos % 1024 < 512)) } }
/-- An execution meets poison (R247): a segment's stops (R278), any other's thread token becomes POISON. -/
def abortWith (s : State) (x : Exec) (p : PoisonInfo) : State :=
  match threadOf s x.thread with
  | none => dropExec s x.id
  | some t =>
    let s := if p.code = pSYNC then bumpPerf s x.tile.stand 15 1 else s
    if t.speculative then setExec s { x with abort := some p }
    else
      let got := x.taken.find? fun t => t.tok.kind = .poison
      poisonThread (dropUnissued (dropExec s x.id) x) t ((got.map fun t => t.tok.tag).getD t.tag) p (takenDeltas x) got.isSome
def ownPoison (k : EKey) (code : BitVec 8) (detail : Nat) : PoisonInfo :=
  ⟨code, k.stand, BitVec.ofNat 8 k.elem, BitVec.ofNat 32 detail⟩
def abortExec (s : State) (x : Exec) (code : BitVec 8) (detail : Nat) : State := abortWith s x (ownPoison x.tile code detail)
/-- The frontier unit has room for what the end of a thread token in POISON changes: its tokens taken, its POISONs, its hold (R161, R163). -/
def poisonRoom (s : State) (t : Thread) (taken : Nat) : Bool :=
  unitRoom s t.tile.stand (taken + (nodeOutEdges s t.launch t.tile).length + 1)
/-- The same of an execution that aborts; a segment's changes nothing yet. -/
def abortRoom (s : State) (x : Exec) : Bool :=
  match threadOf s x.thread with
  | none => true
  | some t => t.speculative || poisonRoom s t x.taken.length
/-- An execution aborts, once the frontier unit has room (R163). -/
def abortOut (s : State) (x : Exec) (code : BitVec 8) (detail : Nat) : Out :=
  if abortRoom s x then .next (abortExec s x code detail) else stay s

/-! ### Firing an instruction (R242) -/

/-- A tile acts for a context in this clock: the clock is the context's, and no record of the tile waits for room (R180, R326). -/
def tileActs (s : State) (k : EKey) : Bool := tileTurn s k && !reporting s k.stand k.elem
/-- What a block instruction sees when it may fire. -/
structure BEnv where
  x : Exec
  th : Thread
  b : Block
  idx : Nat
  inf : BInfo
  widths : List Nat
deriving DecidableEq, Repr

def BEnv.slot (e : BEnv) (k : Nat) : Lanes := ((slotVal e.x (e.idx, k)).map (·.val)).getD 0
def BEnv.named (e : BEnv) (k : Nat) : Bool := e.b.named (e.idx, k)
def BEnv.a (e : BEnv) : Lanes := e.slot 0
def BEnv.b' (e : BEnv) : Lanes := e.slot 1
def BEnv.p (e : BEnv) : Lanes := e.slot 2
def BEnv.a64 (e : BEnv) : Word := e.a.setWidth 64
def BEnv.b64 (e : BEnv) : Word := e.b'.setWidth 64
def BEnv.p64 (e : BEnv) : Word := e.p.setWidth 64
/-- The slots of the operands that carry 512 bits: a, b, and the c operand in p beside a 512-bit a. -/
def BInfo.wide (f : BInfo) : List Nat :=
  (if f.na = 8 then [0] else []) ++ (if f.nb = 8 then [1] else []) ++ if f.cInP && f.na == 8 then [2] else []
/-- The edge by which a 512-bit operand came straight from RECV in another format than FT (R248). -/
def BEnv.badInput (e : BEnv) : Option Nat :=
  e.inf.ft.bind fun f => e.inf.wide.findSome? fun k =>
    ((slotVal e.x (e.idx, k)).bind (·.ft)).bind fun g => if g.1 = f then none else some g.2
def BEnv.badFormat (e : BEnv) : Bool := e.badInput.isSome

/-- The instruction in focus, with what it needs: every used slot filled, not fired, not dead (R242, R244). -/
def readyEnv (s : State) (i : Instr) : Option BEnv :=
  match s.ctl.focus with
  | .exec id idx =>
    match execOf s id with
    | none => none
    | some x =>
      match threadOf s x.thread, loadBlock s x.tile x.block, binfo i with
      | some t, .ok b, some f =>
        if x.abort.isNone && b.instrs[idx]? == some i && !x.fired.contains idx && !(b.deadSet x).contains idx
            && (b.used idx).all (fun k => (slotVal x (idx, k)).isSome) then
          some ⟨x, t, b, idx, f, widthsOf s t.launch⟩
        else none
      | _, _, _ => none
  | _ => none
/-- The same, when it may fire: its tile acts for its context. -/
def blockEnv (s : State) (i : Instr) : Option BEnv := (readyEnv s i).filter fun e => tileActs s e.x.tile

/-- The epoch whose shadow takes an execution's flags (R242). -/
def BEnv.epoch (e : BEnv) : Nat := tagLevel e.widths e.x.tag 0
/-! ### Turns (R254, R273) -/

/-- An instruction still waits: its execution runs and it has not fired. -/
def InLine.live (w : InLine) (s : State) : Bool :=
  match execOf s w.exe with
  | some x => x.abort.isNone && !x.fired.contains w.idx
  | none => false
/-- Firing order, lower frame number first within a clock. -/
def InLine.before (a b : InLine) : Bool :=
  decide (a.clock < b.clock) || (a.clock == b.clock
    && (decide (a.frame < b.frame) || (a.frame == b.frame && decide (a.idx < b.idx))))
/-- Two that wait for the same thing. -/
def InLine.with_ (a b : InLine) : Bool :=
  a.on == b.on && (a.on.isSome || (a.tile.stand == b.tile.stand && a.tile.elem == b.tile.elem))
/-- The place of an instruction in a line: the one it has, or one taken now. -/
def BEnv.place (e : BEnv) (s : State) (on : Option (EdgeKey × BitVec 12)) : InLine :=
  (s.tiles.lines.find? fun w => w.on == on && w.exe == e.x.id && w.idx == e.idx).getD ⟨on, e.x.tile, s.ctl.clock, e.th.frame, e.x.id, e.idx⟩
/-- None that still waits for the same thing comes before it. -/
def BEnv.first (e : BEnv) (s : State) (on : Option (EdgeKey × BitVec 12)) : Bool :=
  s.tiles.lines.all fun w => !(w.with_ (e.place s on) && w.live s && w.before (e.place s on))
/-- It is its turn: it comes first, and the clock in which it joined is over, so that every other of that clock stands in line too. -/
def BEnv.turn (e : BEnv) (s : State) (on : Option (EdgeKey × BitVec 12)) : Bool :=
  decide ((e.place s on).clock < s.ctl.clock) && e.first s on
/-- It joins the line it waits in. -/
def joinLine (s : State) (e : BEnv) (on : Option (EdgeKey × BitVec 12)) : State :=
  let w := e.place s on
  if s.tiles.lines.contains w then s else { s with tiles := { s.tiles with lines := (s.tiles.lines.filter (·.live s)) ++ [w] } }
/-- The frame an instruction reserves, when it is its turn and one is free. -/
def BEnv.freeFrame (e : BEnv) (s : State) : Option Nat := if e.turn s none then (freeFrames s e.x.tile).head? else none
/-- It waits for a frame: none is free, or another is owed the next. -/
def BEnv.frameless (e : BEnv) (s : State) : Bool := !e.th.speculative && ((freeFrames s e.x.tile).isEmpty || !e.first s none)
/-- The frames of a tile that no waiting instruction is owed. -/
def spareFrames (s : State) (tile : EKey) : List Nat :=
  (freeFrames s tile).drop (s.tiles.lines.filter fun w => w.on.isNone && w.tile.stand == tile.stand && w.tile.elem == tile.elem && w.live s).length

/-- What a fired instruction comes to. -/
inductive BRes where
  | send (v0 v1 : Lanes) (fl : FlagSet) (x : Exec)   -- the execution with the instruction's own changes
  | poison (code : BitVec 8) (detail : Nat)
  | wait
  | line                                             -- it waits its turn for a frame of the tile
deriving DecidableEq, Repr

/-- An instruction marked as fired. -/
def BEnv.mark (e : BEnv) (x : Exec) : Exec := { x with fired := e.idx :: x.fired }
/-- The end of a firing: values go to the targets, flags to the shadow; a second value in a slot is poison ILL. `s` is the state that
stands when the frontier unit has no room for the poison, `t` the one the instruction has made. -/
def fireInto (s t : State) (e : BEnv) (x : Exec) (v0 v1 : Lanes) (ft : Option (Fmt × Nat)) (fl : FlagSet) : Out :=
  let t := raiseFlags t e.x.tile.stand e.x.tile.ctx e.epoch fl
  match deliver (e.mark x) e.inf v0 v1 ft with
  | (x, true) => .next (setExec t x)
  | (x, false) => if abortRoom t x then .next (abortExec t x pILL e.x.block) else stay s
/-- Run the instruction in focus. -/
def runBlock (i : Instr) (s : State) (body : BEnv → BRes) : Out :=
  match blockEnv s i with
  | none => stay s
  | some e =>
    match e.badInput with
    | some edge => abortOut s e.x pFMT (inLoc edge)
    | none => match body e with
      | .wait => stay s
      | .line => .next (joinLine s e none)
      | .poison code detail => abortOut s e.x code detail
      | .send v0 v1 fl x =>
        if flagsWait s e.x.tile.stand e.x.tile.ctx e.epoch fl then stay s
        else fireInto s s e x v0 v1 none fl

end Sys2Proof.Machine
end

