-- ==== Sys2Proof/Machine/StageArith.lean ====
section
/-! DEFINITION. Stage operations on one value per lane: FP32 arithmetic and moves (R210 to R218), integer and logic
operations (R219 to R221), special functions (R225). -/

namespace Sys2Proof.Machine

/-- `.sat` of a stage word (R207). -/
def SEnv.sat (e : SEnv) : Bool := e.qual 19
/-- A lane result of a rounding operation on a, b and c (R207). -/
def SEnv.rounded (e : SEnv) (f : Lane → Lane → Lane → Rctx → Val) : SOut :=
  e.lanewise fun i => f (e.a i) (e.b i) (e.c i) (e.rc i 0 e.sat)
/-- A lane result on the bits of a and b, without flags. -/
def SEnv.bitwise (e : SEnv) (f : Lane → Lane → Lane) : SOut := e.plain fun i => f (e.a i) (e.b i)
/-- 0xFFFF_FFFF or 0 (R212, R220). -/
def truthLane (b : Bool) : Lane := if b then 0xFFFFFFFF#32 else 0

def execFadd (w : SWord) (s : State) : Out := runStage (.fadd w) w s fun e => e.rounded fun a b _ r => fAdd a b r
def execFsub (w : SWord) (s : State) : Out := runStage (.fsub w) w s fun e => e.rounded fun a b _ r => fSub a b r
def execFmul (w : SWord) (s : State) : Out := runStage (.fmul w) w s fun e => e.rounded fun a b _ r => fMul a b r
def execFfma (w : SWord) (s : State) : Out := runStage (.ffma w) w s fun e => e.rounded fun a b c r => fFma false false a b c r
def execFfms (w : SWord) (s : State) : Out := runStage (.ffms w) w s fun e => e.rounded fun a b c r => fFma false true a b c r
def execFnma (w : SWord) (s : State) : Out := runStage (.fnma w) w s fun e => e.rounded fun a b c r => fFma true false a b c r
/-- R211. -/
def execFmin (w : SWord) (s : State) : Out :=
  runStage (.fmin w) w s fun e => e.lanewise fun i => fMinMax false (e.a i) (e.b i)
def execFmax (w : SWord) (s : State) : Out :=
  runStage (.fmax w) w s fun e => e.lanewise fun i => fMinMax true (e.a i) (e.b i)
/-- R212. -/
def execFcmp (cond : FCond) (w : SWord) (s : State) : Out :=
  runStage (.fcmp cond w) w s fun e => e.lanewise fun i =>
    let (t, fl) := fCmp cond (e.a i) (e.b i)
    ⟨truthLane t, fl⟩
/-- R213. -/
def execFclass (w : SWord) (s : State) : Out := runStage (.fclass w) w s fun e => e.plain fun i => fClass (e.a i)
/-- R214. -/
def execFabs (w : SWord) (s : State) : Out := runStage (.fabs w) w s fun e => e.plain fun i => e.a i &&& 0x7FFFFFFF#32
def execFneg (w : SWord) (s : State) : Out := runStage (.fneg w) w s fun e => e.plain fun i => e.a i ^^^ 0x80000000#32
def execFcpys (w : SWord) (s : State) : Out :=
  runStage (.fcpys w) w s fun e => e.bitwise fun a b => (a &&& 0x7FFFFFFF#32) ||| (b &&& 0x80000000#32)
/-- R215; MOV and SEL forward the HEAD of their first IN source (R205). -/
def execMov (w : SWord) (s : State) : Out := runStage (.mov w) w s fun e => { e.plain e.a with fwd := true }
def execSelStage (w : SWord) (s : State) : Out :=
  runStage (.selStage w) w s fun e => { e.plain (fun i => if e.c i != 0 then e.a i else e.b i) with fwd := true }
/-- R216. -/
def execLdi (w : SWord) (s : State) : Out :=
  runStage (.ldi w) w s fun e => e.plain fun i => (w.imm.setWidth 32 <<< 12) ||| (e.a i &&& 0xFFF#32)

/-- One lane of ACC (R217): sum, compensation, flags. -/
def accLane (s c a : Lane) (r : Rctx) : Lane × Lane × FlagSet :=
  let y := fSub a c r
  let t := fAdd s y.bits r
  let u := fSub t.bits s r
  let z := fSub u.bits y.bits r
  (t.bits, z.bits, y.fl ||| t.fl ||| u.fl ||| z.fl)
/-- R217: Ln takes the sum through DS, L(n+1) the compensation. -/
def execAcc (w : SWord) (s : State) : Out :=
  runStage (.acc w) w s fun e =>
    let n := match w.d with | .l n => n.val | _ => 0
    let old := fun k i => laneOf (e.regs.l.get k) i
    let one := fun i => accLane (old n i) (old (n + 1) i) (e.a i) (e.rc i 0 false)
    let o := e.lanewise fun i => ⟨(one i).1, (one i).2.2⟩
    { o with lset := [(n + 1, lanesFrom fun i => if e.act i then (one i).2.1 else old (n + 1) i)] }
/-- R218. -/
def execNop (w : SWord) (s : State) : Out := runStage (.nop w) w s fun e => e.plain fun _ => 0

/-! ### Integer and logic (R219 to R221) -/

/-- A lane result of an operation with a flag set. -/
def SEnv.flagged (e : SEnv) (f : Lane → Lane → Lane × FlagSet) : SOut :=
  e.lanewise fun i => ⟨(f (e.a i) (e.b i)).1, (f (e.a i) (e.b i)).2⟩

def execIadd (w : SWord) (s : State) : Out := runStage (.iadd w) w s fun e => e.flagged fun a b => iAdd e.sat a b
def execIsub (w : SWord) (s : State) : Out := runStage (.isub w) w s fun e => e.flagged fun a b => iSub e.sat a b
def execImul (w : SWord) (s : State) : Out := runStage (.imul w) w s fun e => e.flagged fun a b => iMul e.sat a b
def execImulh (w : SWord) (s : State) : Out := runStage (.imulh w) w s fun e => e.bitwise iMulH
def execImulhu (w : SWord) (s : State) : Out := runStage (.imulhu w) w s fun e => e.bitwise iMulHU
def execImin (w : SWord) (s : State) : Out := runStage (.imin w) w s fun e => e.bitwise iMinOp
def execImax (w : SWord) (s : State) : Out := runStage (.imax w) w s fun e => e.bitwise iMaxOp
def execUmin (w : SWord) (s : State) : Out := runStage (.umin w) w s fun e => e.bitwise uMinOp
def execUmax (w : SWord) (s : State) : Out := runStage (.umax w) w s fun e => e.bitwise uMaxOp
def execIcmp (cond : ICond) (w : SWord) (s : State) : Out :=
  runStage (.icmp cond w) w s fun e => e.bitwise fun a b => truthLane (iCmp cond a b)
def execAnd (w : SWord) (s : State) : Out := runStage (.and w) w s fun e => e.bitwise fun a b => a &&& b
def execOr (w : SWord) (s : State) : Out := runStage (.or w) w s fun e => e.bitwise fun a b => a ||| b
def execXor (w : SWord) (s : State) : Out := runStage (.xor w) w s fun e => e.bitwise fun a b => a ^^^ b
def execAndn (w : SWord) (s : State) : Out := runStage (.andn w) w s fun e => e.bitwise fun a b => a &&& ~~~b
def execNot (w : SWord) (s : State) : Out := runStage (.not w) w s fun e => e.plain fun i => ~~~(e.a i)
def execShl (w : SWord) (s : State) : Out := runStage (.shl w) w s fun e => e.bitwise shlOp
def execShr (w : SWord) (s : State) : Out := runStage (.shr w) w s fun e => e.bitwise shrOp
def execSar (w : SWord) (s : State) : Out := runStage (.sar w) w s fun e => e.bitwise sarOp
def execRotl (w : SWord) (s : State) : Out := runStage (.rotl w) w s fun e => e.bitwise rotlOp
def execPopc (w : SWord) (s : State) : Out := runStage (.popc w) w s fun e => e.plain fun i => popcOp (e.a i)
def execClz (w : SWord) (s : State) : Out := runStage (.clz w) w s fun e => e.plain fun i => clzOp (e.a i)
def execCtz (w : SWord) (s : State) : Out := runStage (.ctz w) w s fun e => e.plain fun i => ctzOp (e.a i)

/-! ### Special functions (R225) -/

/-- A lane result of a rounded function of a. -/
def SEnv.special (e : SEnv) (f : Lane → Rctx → Val) : SOut := e.lanewise fun i => f (e.a i) (e.rc i 0 false)

def execRcp (w : SWord) (s : State) : Out := runStage (.rcp w) w s fun e => e.special fRcp
def execRsq (w : SWord) (s : State) : Out := runStage (.rsq w) w s fun e => e.special fRsq
def execSqrt (w : SWord) (s : State) : Out := runStage (.sqrt w) w s fun e => e.special fSqrt
def execExp2 (w : SWord) (s : State) : Out := runStage (.exp2 w) w s fun e => e.special fExp2
def execLog2 (w : SWord) (s : State) : Out := runStage (.log2 w) w s fun e => e.special (fLog true)
def execLn (w : SWord) (s : State) : Out := runStage (.ln w) w s fun e => e.special (fLog false)
def execTanh (w : SWord) (s : State) : Out := runStage (.tanh w) w s fun e => e.special fTanh
def execSigm (w : SWord) (s : State) : Out := runStage (.sigm w) w s fun e => e.special fSigm
def execErf (w : SWord) (s : State) : Out := runStage (.erf w) w s fun e => e.special fErf

end Sys2Proof.Machine
end

