-- ==== Sys2Proof/Machine/BlockArith.lean ====
section
/-! DEFINITION. The operations that blocks share with stages (R249), the directional operations of a block (R250), and
scalar and address arithmetic (R257 to R259). -/

namespace Sys2Proof.Machine

/-! ### Operands and widths (R243, R249) -/

/-- The rounding of a lane of a block instruction: site 16 + index (R46, R242). -/
def BEnv.rc (e : BEnv) (rm : Rm) (lane elem : Nat) (sat : Bool) : Rctx :=
  ⟨resolveRm e.x.drm rm, stoWord e.x.tag (16 + e.idx) lane elem, sat⟩
/-- IMM24[22:0] as an FP32 immediate, and sign-extended (R243). -/
def fpImm (w : BWord) : Lane := (field w.imm 0 23).setWidth 32 <<< 9
def intImm (w : BWord) : Word := (field w.imm 0 23).signExtend 64
/-- Lane `i` of operands a, b and c; an unnamed slot b takes the immediate. -/
def BEnv.la (e : BEnv) (i : Nat) : Lane := laneOf e.a i
def BEnv.lb (e : BEnv) (imm : Lane) (i : Nat) : Lane := if e.named 1 then laneOf e.b' i else imm
def BEnv.lc (e : BEnv) (i : Nat) : Lane := laneOf e.p i
/-- One value sent to both targets. -/
def BEnv.give (e : BEnv) (v : Lanes) (fl : FlagSet) : BRes := .send v v fl e.x
def BEnv.give64 (e : BEnv) (v : Word) : BRes := e.give (v.setWidth 512) 0
/-- `.sat` of a block word. -/
def bSat (w : BWord) : Bool := bitAt w.imm 23
/-- A result per lane at W = 10, of lane 0 alone at W = 01 (R249). -/
def BEnv.perLane (e : BEnv) (w : BWord) (f : Nat → Val) : BRes :=
  if w.w = .tok then
    e.give (lanesFrom fun i => (f i).bits) ((List.range 16).foldl (fun fl i => fl ||| (f i).fl) 0)
  else e.give ((f 0).bits.setWidth 512) (f 0).fl
/-- An FP32 operation on a, b and c. -/
def BEnv.fp (e : BEnv) (w : BWord) (f : Lane → Lane → Lane → Rctx → Val) : BRes :=
  e.perLane w fun i => f (e.la i) (e.lb (fpImm w) i) (e.lc i) (e.rc w.rm i 0 (bSat w))
/-- An integer operation on a and b: 64 bits at W = 00, else lanes (R249). -/
def BEnv.int (e : BEnv) (w : BWord) (f64 : Word → Word → Word × FlagSet) (f32 : Lane → Lane → Lane × FlagSet) : BRes :=
  if w.w = .w64 then
    let r := f64 e.a64 (if e.named 1 then e.b64 else intImm w)
    e.give (r.1.setWidth 512) r.2
  else e.perLane w fun i =>
    let r := f32 (e.la i) (e.lb ((intImm w).setWidth 32) i)
    ⟨r.1, r.2⟩
/-- An integer operation without flags. -/
def BEnv.intPlain (e : BEnv) (w : BWord) (f64 : Word → Word → Word) (f32 : Lane → Lane → Lane) : BRes :=
  e.int w (fun a b => (f64 a b, 0)) (fun a b => (f32 a b, 0))

def execFaddBlock (w : BWord) (s : State) : Out := runBlock (.faddBlock w) s fun e => e.fp w fun a b _ r => fAdd a b r
def execFsubBlock (w : BWord) (s : State) : Out := runBlock (.fsubBlock w) s fun e => e.fp w fun a b _ r => fSub a b r
def execFmulBlock (w : BWord) (s : State) : Out := runBlock (.fmulBlock w) s fun e => e.fp w fun a b _ r => fMul a b r
def execFfmaBlock (w : BWord) (s : State) : Out := runBlock (.ffmaBlock w) s fun e => e.fp w (fFma false false)
def execFfmsBlock (w : BWord) (s : State) : Out := runBlock (.ffmsBlock w) s fun e => e.fp w (fFma false true)
def execFnmaBlock (w : BWord) (s : State) : Out := runBlock (.fnmaBlock w) s fun e => e.fp w (fFma true false)
def execFminBlock (w : BWord) (s : State) : Out := runBlock (.fminBlock w) s fun e => e.fp w fun a b _ _ => fMinMax false a b
def execFmaxBlock (w : BWord) (s : State) : Out := runBlock (.fmaxBlock w) s fun e => e.fp w fun a b _ _ => fMinMax true a b
def execFcmpBlock (cond : FCond) (w : BWord) (s : State) : Out :=
  runBlock (.fcmpBlock cond w) s fun e => e.fp w fun a b _ _ =>
    let (t, fl) := fCmp cond a b
    ⟨truthLane t, fl⟩
def execFclassBlock (w : BWord) (s : State) : Out := runBlock (.fclassBlock w) s fun e => e.fp w fun a _ _ _ => ⟨fClass a, 0⟩
def execFabsBlock (w : BWord) (s : State) : Out := runBlock (.fabsBlock w) s fun e => e.fp w fun a _ _ _ => ⟨a &&& 0x7FFFFFFF#32, 0⟩
def execFnegBlock (w : BWord) (s : State) : Out := runBlock (.fnegBlock w) s fun e => e.fp w fun a _ _ _ => ⟨a ^^^ 0x80000000#32, 0⟩
def execFcpysBlock (w : BWord) (s : State) : Out :=
  runBlock (.fcpysBlock w) s fun e => e.fp w fun a b _ _ => ⟨(a &&& 0x7FFFFFFF#32) ||| (b &&& 0x80000000#32), 0⟩
/-- MOV copies a; SEL gives a where c is not 0, b elsewhere (R215). -/
def execMovBlock (w : BWord) (s : State) : Out := runBlock (.movBlock w) s fun e => e.intPlain w (fun a _ => a) (fun a _ => a)
def execSelBlock (w : BWord) (s : State) : Out :=
  runBlock (.selBlock w) s fun e =>
    if w.w = .w64 then e.give64 (if e.p64 != 0 then e.a64 else e.b64)
    else e.perLane w fun i => ⟨if e.lc i != 0 then e.la i else laneOf e.b' i, 0⟩
/-- NOP fires and sends nothing (R249). -/
def execNopBlock (w : BWord) (s : State) : Out :=
  match blockEnv s (.nopBlock w) with
  | none => stay s
  | some e => .next (setExec s (e.mark e.x))

def execIaddBlock (w : BWord) (s : State) : Out := runBlock (.iaddBlock w) s fun e => e.int w (iAdd (bSat w)) (iAdd (bSat w))
def execIsubBlock (w : BWord) (s : State) : Out := runBlock (.isubBlock w) s fun e => e.int w (iSub (bSat w)) (iSub (bSat w))
def execImulBlock (w : BWord) (s : State) : Out := runBlock (.imulBlock w) s fun e => e.int w (iMul (bSat w)) (iMul (bSat w))
def execImulhBlock (w : BWord) (s : State) : Out := runBlock (.imulhBlock w) s fun e => e.intPlain w iMulH iMulH
def execImulhuBlock (w : BWord) (s : State) : Out := runBlock (.imulhuBlock w) s fun e => e.intPlain w iMulHU iMulHU
def execIminBlock (w : BWord) (s : State) : Out := runBlock (.iminBlock w) s fun e => e.intPlain w iMinOp iMinOp
def execImaxBlock (w : BWord) (s : State) : Out := runBlock (.imaxBlock w) s fun e => e.intPlain w iMaxOp iMaxOp
def execUminBlock (w : BWord) (s : State) : Out := runBlock (.uminBlock w) s fun e => e.intPlain w uMinOp uMinOp
def execUmaxBlock (w : BWord) (s : State) : Out := runBlock (.umaxBlock w) s fun e => e.intPlain w uMaxOp uMaxOp
/-- A true ICMP gives all ones of its width (R249). -/
def execIcmpBlock (cond : ICond) (w : BWord) (s : State) : Out :=
  runBlock (.icmpBlock cond w) s fun e => e.intPlain w
    (fun a b => if iCmp cond a b then 0xFFFFFFFFFFFFFFFF#64 else 0) (fun a b => truthLane (iCmp cond a b))
def execAndBlock (w : BWord) (s : State) : Out := runBlock (.andBlock w) s fun e => e.intPlain w (fun a b => a &&& b) (fun a b => a &&& b)
def execOrBlock (w : BWord) (s : State) : Out := runBlock (.orBlock w) s fun e => e.intPlain w (fun a b => a ||| b) (fun a b => a ||| b)
def execXorBlock (w : BWord) (s : State) : Out := runBlock (.xorBlock w) s fun e => e.intPlain w (fun a b => a ^^^ b) (fun a b => a ^^^ b)
def execAndnBlock (w : BWord) (s : State) : Out := runBlock (.andnBlock w) s fun e => e.intPlain w (fun a b => a &&& ~~~b) (fun a b => a &&& ~~~b)
def execNotBlock (w : BWord) (s : State) : Out := runBlock (.notBlock w) s fun e => e.intPlain w (fun a _ => ~~~a) (fun a _ => ~~~a)
def execShlBlock (w : BWord) (s : State) : Out := runBlock (.shlBlock w) s fun e => e.intPlain w shlOp shlOp
def execShrBlock (w : BWord) (s : State) : Out := runBlock (.shrBlock w) s fun e => e.intPlain w shrOp shrOp
def execSarBlock (w : BWord) (s : State) : Out := runBlock (.sarBlock w) s fun e => e.intPlain w sarOp sarOp
def execRotlBlock (w : BWord) (s : State) : Out := runBlock (.rotlBlock w) s fun e => e.intPlain w rotlOp rotlOp
def execPopcBlock (w : BWord) (s : State) : Out := runBlock (.popcBlock w) s fun e => e.intPlain w (fun a _ => popcOp a) (fun a _ => popcOp a)
def execClzBlock (w : BWord) (s : State) : Out := runBlock (.clzBlock w) s fun e => e.intPlain w (fun a _ => clzOp a) (fun a _ => clzOp a)
def execCtzBlock (w : BWord) (s : State) : Out := runBlock (.ctzBlock w) s fun e => e.intPlain w (fun a _ => ctzOp a) (fun a _ => ctzOp a)
/-- CVT applies no scale in a block (R249). -/
def execCvtBlock (pair : Pair) (w : BWord) (s : State) : Out :=
  runBlock (.cvtBlock pair w) s fun e =>
    let p := (field w.imm 0 2).toNat
    e.perLane w fun i => cvtLane pair p (e.la i) (laneOf e.b' i) Scale.one (e.rc w.rm i p (bSat w))

/-! ### Directional operations (R250) -/

/-- The direction a D group held when the execution started: the base register's norm (R94, R95). -/
def BEnv.group (e : BEnv) (base n : Nat) : Direction :=
  let regs := (List.range n).map fun j => getAt e.x.dregs (base + j) (Direction.zero 32)
  ⟨regs.flatMap (·.comps), (getAt regs 0 (Direction.zero 32)).norm⟩
/-- The D writes of a direction: every member takes the norm (R94). -/
def groupWrites (base n : Nat) (d : Direction) : List (Nat × Direction) :=
  (List.range n).map fun j => (base + j, ⟨(d.comps.drop (32 * j)).take 32, d.norm⟩)
/-- A direction written to DD at commit; the targets take 1. -/
def BEnv.putDir (e : BEnv) (w : BWord) (d : DirVal) : BRes :=
  .send 1 1 d.fl { e.x with dwrites := e.x.dwrites ++ groupWrites (dDst w.imm) (dGroup w.imm) d.dir }
def BEnv.da (e : BEnv) (w : BWord) : Direction := e.group (dA w.imm) (dGroup w.imm)
def BEnv.db (e : BEnv) (w : BWord) : Direction := e.group (dB w.imm) (dGroup w.imm)

def execDfromBlock (w : BWord) (s : State) : Out :=
  runBlock (.dfromBlock w) s fun e =>
    e.putDir w (dFrom ((List.range 16).map e.la ++ (List.range 16).map (laneOf e.b')) 32)
def execDtoBlock (w : BWord) (s : State) : Out :=
  runBlock (.dtoBlock w) s fun e =>
    let word := fun i => stoWord e.x.tag (16 + e.idx) (i % 16) 0
    let vs := ((dTo (e.da w) (resolveRm e.x.drm w.rm) word).drop (16 * dJ w.imm)).take 16
    e.give (lanesFrom fun i => (getAt vs i ⟨0, 0⟩).bits) (vs.foldl (fun fl v => fl ||| v.fl) 0)
def execDdotBlock (w : BWord) (s : State) : Out :=
  runBlock (.ddotBlock w) s fun e =>
    let v := dDot (bitAt w.imm 0) (e.da w) (e.db w) (e.rc w.rm 0 0 false)
    e.give (v.bits.setWidth 512) v.fl
def execDaddBlock (w : BWord) (s : State) : Out := runBlock (.daddBlock w) s fun e => e.putDir w (dAdd false (e.da w) (e.db w))
def execDsubBlock (w : BWord) (s : State) : Out := runBlock (.dsubBlock w) s fun e => e.putDir w (dAdd true (e.da w) (e.db w))
def execDnegBlock (w : BWord) (s : State) : Out := runBlock (.dnegBlock w) s fun e => e.putDir w (dNeg (e.da w))
def execDsclBlock (w : BWord) (s : State) : Out := runBlock (.dsclBlock w) s fun e => e.putDir w (dScl (e.da w) (laneOf e.b' 0))
def execDlerpBlock (w : BWord) (s : State) : Out :=
  runBlock (.dlerpBlock w) s fun e => e.putDir w (dLerp (e.da w) (e.db w) (laneOf e.b' 0))
def execDnrmBlock (w : BWord) (s : State) : Out := runBlock (.dnrmBlock w) s fun e => e.putDir w (dNrm (e.da w))

/-! ### Scalar and address arithmetic (R257 to R259) -/

def execLea (w : BWord) (s : State) : Out :=
  runBlock (.lea w) s fun e =>
    e.give64 (e.a64 + (e.b64 <<< (field w.imm 0 3).toNat) + (field w.imm 3 21).signExtend 64)
def execMovi (w : BWord) (s : State) : Out :=
  runBlock (.movi w) s fun e =>
    e.give64 (if w.w = .w64 then w.imm.signExtend 64 else (w.imm.signExtend 32).setWidth 64)
def execMovhi (w : BWord) (s : State) : Out :=
  runBlock (.movhi w) s fun e =>
    let sh := 16 * (field w.imm 16 2).toNat
    e.give64 ((e.a64 &&& ~~~(0xFFFF#64 <<< sh)) ||| ((field w.imm 0 16).setWidth 64 <<< sh))
/-- Position, length (0 means 64) and mask of a bit field (R259). -/
def bfPos (w : BWord) : Nat := (field w.imm 0 6).toNat
def bfLen (w : BWord) : Nat := let n := (field w.imm 6 6).toNat; if n = 0 then 64 else n
def bfMask (w : BWord) : Word := BitVec.ofNat 64 (2 ^ bfLen w - 1)
def execBfext (w : BWord) (s : State) : Out :=
  runBlock (.bfext w) s fun e =>
    let x := (e.a64 >>> bfPos w) &&& bfMask w
    let neg := bitAt w.imm 12 && bitAt x (bfLen w - 1)
    e.give64 (if neg then x ||| ~~~(bfMask w) else x)
def execBfins (w : BWord) (s : State) : Out :=
  runBlock (.bfins w) s fun e =>
    e.give64 ((e.a64 &&& ~~~(bfMask w <<< bfPos w)) ||| ((e.b64 &&& bfMask w) <<< bfPos w))

end Sys2Proof.Machine
end

