-- ==== Sys2Proof/Machine/Order.lean ====
section
/-! DEFINITION. The order machine's nodes (R125 to R140): their creation, the edges that hold them, issue, arrival,
performance and acknowledgement. Each event of the machine calls one operation of this file. -/

namespace Sys2Proof.Machine

def dropNode (s : State) (id : Nat) : State := setNodes s (s.ord.nodes.filter fun n => !(n.id == id))
/-- A node enters its issue queue at a place of its source order. -/
def addNode (s : State) (src : Source) (key : EKey) (lk : LKey) (path : Path) (pos : Nat) (op : MemOp) (ord : Ord)
    (scope : Scope) (epoch : Nat) : State × Nat :=
  let (id, s) := fresh s
  (setNodes s (s.ord.nodes ++ [⟨id, src, key, lk, path, pos, op, ord, scope, [], .queued, 0, 0, 0, none, epoch, none⟩]), id)
/-- Place in source order of an instruction of an execution; its stores come after its other nodes (R126). -/
def posOf (exe idx : Nat) (store : Bool) : Nat := exe * 1024 + (if store then 512 else 0) + idx

/-! ### KV states (R123) -/

/-- The next state of one entry: ABSENT 0, VALID 1, DEFERRED 2, FILLING 3. -/
def kvNext (ev : KvEvent) (st : Nat) : Nat :=
  match ev, st with
  | .exit, 0 => 2
  | .claim, 2 => 3
  | .store, 3 => 3
  | .store, _ => 1
  | .finish, 3 => 1
  | .free, _ => 0
  | _, st => st
def kvField (w : Nat) (i : Nat) : Nat := w / 4 ^ i % 4
/-- A map word after an event on some of its fields; KVFREE changes nothing while one of them is FILLING. -/
def kvWord (ev : KvEvent) (fields : List Nat) (w : Nat) : Nat :=
  if ev = .free && fields.any (fun i => kvField w i == 3) then w
  else fields.foldl (fun w i => w - kvField w i * 4 ^ i + kvNext ev (kvField w i) * 4 ^ i) w
/-! ### KV areas (R122) -/

/-- A KV descriptor, with the global address of its first byte. -/
structure Area where
  va : Word
  nseq : Nat
  npos : Nat
  nlayer : Nat
  ppg : Nat
  ebytes : Nat
  map : Word
  table : Word
  page : Word
  pool : Word
deriving DecidableEq, Repr

def areaOf (va : Word) (r : List Byte) : Option Area :=
  let off := fun lo => BitVec.ofNat 64 (recNat r lo 8)
  let a : Area := ⟨va, recNat r 32 2, recNat r 34 2, recNat r 36 1, recNat r 37 1, recNat r 38 2, off 0, off 8, off 16, off 24⟩
  if recZero r 40 24 && decide (1 ≤ a.nseq) && decide (1 ≤ a.npos) && decide (1 ≤ a.nlayer) && decide (a.ppg ≤ 10)
      && a.ebytes % 128 == 0 && decide (128 ≤ a.ebytes) && decide (a.ebytes ≤ 65408) && a.map.toNat % 8 == 0 then some a
  else none
/-- What a KV command's descriptor gives: not yet readable, PERM, or the area. -/
inductive AreaOut where
  | wait
  | perm
  | ok (a : Area)
deriving DecidableEq, Repr
/-- The descriptor at a scratch address: 64-byte aligned, in a stash region, read through its sector (R122). -/
def areaAt (s : State) (stand ctx addr : Nat) : AreaOut :=
  if addr % 64 != 0 then .perm
  else match regionOf s stand ctx addr 64 with
    | none => .perm
    | some (_, r) =>
      if r.mode != 2 then .perm
      else if !(stashReady s stand ctx addr 64) then .wait
      else match areaOf (stashVa stand addr r) (scratchRead s stand addr 64) with
        | some a => .ok a
        | none => .perm
def Area.holds (a : Area) (sq pos : Nat) : Bool := decide (sq < a.nseq) && decide (pos < a.npos)
def Area.index (a : Area) (sq pos l : Nat) : Nat := (sq * a.npos + pos) * a.nlayer + l
/-- Address of the map word of an entry, and its field. -/
def Area.mapWord (a : Area) (sq pos l : Nat) : Word × Nat :=
  let i := a.index sq pos l
  (a.va + a.map + BitVec.ofNat 64 (8 * (i / 32)), i % 32)
def Area.mapAcc (a : Area) (sq pos l : Nat) (ev : KvEvent) : Acc :=
  let (va, f) := a.mapWord sq pos l
  .map va [f] ev
/-- Page-table entries of a sequence. -/
def Area.rowLen (a : Area) : Nat := (a.npos + 2 ^ a.ppg - 1) / 2 ^ a.ppg
def Area.tableVa (a : Area) (sq j : Nat) : Word := a.va + a.table + BitVec.ofNat 64 (4 * (sq * a.rowLen + j))
def Area.entryVa (a : Area) (page pos l : Nat) : Word :=
  a.va + a.page + BitVec.ofNat 64 (page * (2 ^ a.ppg * a.nlayer * a.ebytes) + ((pos % 2 ^ a.ppg) * a.nlayer + l) * a.ebytes)
def noPage : Nat := 0xFFFFFFFF
/-- An area as plain numbers, and back. -/
def Area.fields (a : Area) : List Nat :=
  [a.va.toNat, a.nseq, a.npos, a.nlayer, a.ppg, a.ebytes, a.map.toNat, a.table.toNat, a.page.toNat, a.pool.toNat]
def areaFrom (f : List Nat) : Area :=
  let g := fun i => getAt f i 0
  let w := fun i => BitVec.ofNat 64 (g i)
  ⟨w 0, g 1, g 2, g 3, g 4, g 5, w 6, w 7, w 8, w 9⟩

/-- Slot a of a KV command: s, position or table index, and the field above. -/
def kvS (a : Word) : Nat := (field a 0 16).toNat
def kvP (a : Word) : Nat := (field a 16 16).toNat
/-- Positions a page-table index of a sequence covers. -/
def Area.pagePos (a : Area) (j : Nat) : Nat × Nat := (j * 2 ^ a.ppg, min a.npos ((j + 1) * 2 ^ a.ppg))
/-- The areas' map words that hold layers `lo` to `hi` of a position, each with its fields. -/
def Area.words (a : Area) (sq pos lo hi : Nat) : List (Word × List Nat) :=
  let ls := (List.range (hi + 1 - lo)).map fun i => a.mapWord sq pos (lo + i)
  ((ls.map (·.1)).dedup).map fun va => (va, (ls.filter fun x => x.1 == va).map (·.2))
/-- The map words of every layer of positions `lo` to `hi` − 1. -/
def Area.wordsOf (a : Area) (sq lo hi : Nat) : List (Word × List Nat) :=
  let ls := (List.range (hi - lo)).flatMap fun i => (List.range a.nlayer).map fun l => a.mapWord sq (lo + i) l
  ((ls.map (·.1)).dedup).map fun va => (va, (ls.filter fun x => x.1 == va).map (·.2))

/-! ### What a node accesses -/

/-- The memory range of a node on a translated path, with whether it reads and writes. -/
def memRange : MemOp → Option (Word × Nat × Bool × Bool)
  | .load va n _ => some (va, n, true, false)
  | .store va bs => some (va, bs.length, false, true)
  | .amo va n _ _ => some (va, n, true, true)
  | .cas va n _ _ => some (va, n, true, true)
  | .kvmap va _ _ => some (va, 8, true, true)
  | _ => none
/-- The record an engine command's node names, as it stands in scratch. -/
def recordNow (s : State) (n : MNode) (i : Instr) : List Byte :=
  let pa := ((eform i).map fun x => x.2.pa.toNat).getD 0
  match regionOf s n.key.stand n.key.ctx pa 64 with
  | some (_, r) => loadScratch s n.key.stand pa r 64
  | none => scratchRead s n.key.stand pa 64
/-- A word of memory as it stands now, where its page is present; the look leaves no trace. -/
def peekWord (s : State) (n : MNode) (va : Word) (size : Nat) : Option Nat :=
  match (translate s n.key.stand n.launch.part va true false).2 with
  | .ok x => some (leNat ((List.range size).map fun i => peekByte s x.key (x.dpa + i)))
  | _ => none
/-- Ranges of a command that reads and writes them both. -/
def bothWays (xs : List (Word × Nat)) : List (Word × Nat × Bool × Bool) := xs.map fun x => (x.1, x.2, true, true)
/-- An entry's data, on the page that its page table names now (R122). -/
def Area.dataReach (a : Area) (s : State) (n : MNode) (sq pos l : Nat) (wr : Bool) : List (Word × Nat × Bool × Bool) :=
  match peekWord s n (a.tableVa sq (pos / 2 ^ a.ppg)) 4 with
  | some page => if page = noPage then [] else [(a.entryVa page pos l, a.ebytes, !wr, wr)]
  | none => []
/-- The ranges of memory a KV command reaches (R201, R312 to R317): map words, page-table entries, data, the page pool. -/
def kvReach (s : State) (n : MNode) (i : Instr) (a : Area) (x y : Word) : List (Word × Nat × Bool × Bool) :=
  let sq := kvS x
  let pos := kvP x
  let l := (field x 32 8).toNat
  let pages := (field x 32 16).toNat
  let table := (a.tableVa sq (pos / 2 ^ a.ppg), 4, true, false)
  let maps := fun (ws : List (Word × List Nat)) => bothWays (ws.map fun w => (w.1, 8))
  let layers := a.words sq pos (field y 0 8).toNat (field y 8 8).toNat
  let pool := fun (back : Nat) =>
    let sa := offsetAddr (((eform i).map fun x => x.2.pa.toNat).getD 0) a.pool
    let off := BitVec.ofNat 64 (recNat (scratchRead s n.key.stand sa 64) 16 8)
    let va := a.va + a.pool
    (va, 64, true, true) :: match peekWord s n va 4 with
      | some free => [(va + off + BitVec.ofNat 64 (4 * (free - back)), 4 * pages, true, true)]
      | none => []
  match i with
  | .kvst _ | .kvstFin _ => bothWays [((a.mapWord sq pos l).1, 8)] ++ table :: a.dataReach s n sq pos l true
  | .kvld w =>
    let lo := if field w.eq 0 2 == 1#2 then 0 else l
    maps (a.words sq pos lo l) ++ table :: (List.range (l + 1 - lo)).flatMap fun j => a.dataReach s n sq pos (lo + j) false
  | .kvalloc _ => bothWays [(a.tableVa sq pos, 4 * pages)] ++ pool pages
  | .kvfree _ => bothWays [(a.tableVa sq pos, 4 * pages)] ++ maps (a.wordsOf sq (a.pagePos pos).1 (a.pagePos (pos + pages - 1)).2) ++ pool 0
  | .bfq _ | .bfwait _ => maps layers
  | _ => []
/-- The ranges of memory an engine command reaches, as far as its record, its index list and its area tell now (R130). -/
def engineReach (s : State) (n : MNode) (i : Instr) (r : List Byte) (a b : Word) : List (Word × Nat × Bool × Bool) :=
  let r := if r.isEmpty then recordNow s n i else r
  match i with
  | .strmGth _ | .strmSct _ => match patOf i r with
    | some p => (List.range (getAt p.counts (p.counts.length - 1) 0)).flatMap fun j =>
        (spanOf (p.rowBase (recInt (scratchRead s n.key.stand (p.idx + 4 * j) 4) 0 4)) p.rowExtents).map fun x => (x.1, x.2, !writesMem i, writesMem i)
    | none => []
  | .kvst _ | .kvstFin _ | .kvld _ | .kvalloc _ | .kvfree _ | .bfq _ | .bfwait _ =>
    match areaAt s n.key.stand n.key.ctx (((eform i).map fun x => x.2.pa.toNat).getD 0) with
    | .ok ar => kvReach s n i ar a b
    | _ => []
  | i => (engineSpans i r).map fun x => (x.1, x.2.1, !x.2.2, x.2.2)
/-- The pieces of memory a node reaches, each within a line, or of an engine's range within a page (R133): address, bytes, and whether
it reads and writes. -/
def nodePieces (s : State) (n : MNode) : List (Word × Nat × Bool × Bool) :=
  match n.op with
  | .engine i r a b => (engineReach s n i r a b).flatMap fun (va, size, rd, wr) =>
      (pieces 65536 (size / 32768 + 2) va.toNat 0 size).map fun (o, k) => (va + BitVec.ofNat 64 o, k, rd, wr)
  | op => match memRange op with
    | none => []
    | some (va, size, rd, wr) => (pieces 128 8 va.toNat 0 size).map fun (o, k) => (va + BitVec.ofNat 64 o, k, rd, wr)
/-- The translations of a node's pieces, with their sizes; they leave no trace. -/
def peekAll (s : State) (n : MNode) : List (Walk × Nat) :=
  (nodePieces s n).map fun (va, k, rd, wr) => ((translate s n.key.stand n.launch.part va rd wr).2, k)
/-- The translation a command's page gives now, where it was not present when its engine took the command. -/
def latePage (s : State) (n : MNode) (p : Part) : Walk := (translate s n.key.stand n.launch.part (BitVec.ofNat 64 p.off) false false).2
/-- The translations a node is made through, as far as they are known: those its parts keep, else those its pages give now. -/
def nodeXlats (s : State) (n : MNode) : List (Xlat × Nat) :=
  if n.at_ = .queued then (peekAll s n).filterMap fun (w, k) => match w with | .ok x => some (x, k) | _ => none
  else n.parts.filterMap fun p => match p.xl, n.op with
    | some x, _ => some (x, p.size)
    | none, .engine .. => match latePage s n p with | .ok x => some (x, p.size) | _ => none
    | none, _ => none
/-- The parts that keep the class of a command, once its engine has taken it: its pieces on RC and SO pages, and those whose page is not
present yet (R130), each with its address. -/
def classParts (s : State) (n : MNode) : List Part :=
  ((nodePieces s n).zip (peekAll s n)).filterMap fun (x, w) => match w.1 with
    | .ok y => if y.kind = 0 then none else some ⟨x.1.toNat, w.2, some y, .waiting, [], 0⟩
    | .notPresent => some ⟨x.1.toNat, w.2, none, .waiting, [], 0⟩
    | .permission => none
def isEngineOp : MemOp → Bool
  | .engine .. => true | _ => false
/-- Whether a node's class is known: it has issued, or its pages translate; a command's, once none of its pages is missing (R130). -/
def classKnown (s : State) (n : MNode) : Bool :=
  if n.at_ = .queued then (peekAll s n).all fun w => match w.1 with | .notPresent => false | _ => true
  else !isEngineOp n.op || n.at_ = .acked || n.at_ = .performed
    || n.parts.all fun p => p.xl.isSome || match latePage s n p with | .notPresent => false | _ => true
/-- SO-class: by its page, by `.so`, or an access of HI (R130). -/
def isSo (s : State) (n : MNode) : Bool :=
  n.ord = .so || n.path = .hi || (nodeXlats s n).any fun x => x.1.kind == 2
def onRc (s : State) (n : MNode) : Bool := (nodeXlats s n).any fun x => x.1.kind == 1
/-- The path a node travels: a block's access homed in a peer package goes by CO (R127, R346). -/
def pathNow (s : State) (n : MNode) : Path :=
  if n.path = .ls && (nodeXlats s n).any fun x => decide (2 ^ 41 ≤ x.1.dpa) then .co else n.path
def isMemAtomic : MemOp → Bool
  | .amo .. => true | .cas .. => true | _ => false
/-- A plain atomic on an RC page acts as `.ar` (R130); a BFWAIT's final reads are acquires (R317). -/
def acquires (s : State) (n : MNode) : Bool :=
  n.ord = .acq || n.ord = .ar || (n.ord = .plain && isMemAtomic n.op && onRc s n)
    || match n.op with | .engine (.bfwait _) .. => true | _ => false
def releases (s : State) (n : MNode) : Bool := n.ord = .rel || n.ord = .ar || (n.ord = .plain && isMemAtomic n.op && onRc s n)
/-- Two ranges that share a line. -/
def shareLine (x y : Xlat × Nat) : Bool :=
  decide (x.1.dpa / 128 * 128 < y.1.dpa + y.2) && decide (y.1.dpa / 128 * 128 < x.1.dpa + x.2)
/-- A same-line edge (R129): the earlier node is on an RC or SO page; none runs from an SO-class access to a UO one (R133). -/
def sameLine (s : State) (e f : MNode) : Bool :=
  (nodeXlats s e).any fun x => x.1.kind != 0 && (nodeXlats s f).any fun y => shareLine x y && !(isSo s e && y.1.kind == 0)
/-- A node homed outside the package or on CO, which its scope's acknowledgement may precede (R136). -/
def leavesPackage (n : MNode) : Bool := n.path = .co || n.parts.any fun p => match p.dpa with | some d => decide (2 ^ 41 ≤ d) | none => false
def scopeRank : Scope → Nat
  | .stand => 0 | .die => 1 | .pkg => 2 | .sys => 3
/-- A node whose bytes stand dirty in a stash sector (R111, R136). -/
def stashOpen (s : State) (n : MNode) : Bool :=
  match scratchRange n.key n.op with
  | some (st, a, k) => (match regionOf s st n.key.ctx a k with | some (_, r) => r.mode == 2 | none => false)
      && s.mem.sectors.any fun x => x.key.stand == st && x.dirty &&& sectorMask x.key a k != 0
  | none => false
/-- A node acknowledged at a scope (R136): a stash access of scope die or wider once its sector is written back. -/
def ackedAt (s : State) (n : MNode) (sc : Scope) : Bool :=
  (n.at_ = .acked && (sc = .stand || !stashOpen s n))
    || (leavesPackage n && ((n.at_ != .queued && decide (scopeRank sc ≤ 1)) || (n.at_ = .performed && decide (scopeRank sc ≤ 2))))

/-! ### Edges (R129 to R140) -/

/-- The nodes before a node in its source order. -/
def earlier (s : State) (f : MNode) : List MNode :=
  s.ord.nodes.filter fun e => decide (e.src = f.src) && decide (e.pos < f.pos)
/-- Instructions of a node's own execution that come before it and have not fired: its class may still order it (R126). -/
def unfired (s : State) (f : MNode) (p : Instr → Bool) : Bool :=
  match f.src with
  | .thread _ =>
    match execOf s (f.pos / 1024) with
    | none => false
    | some x =>
      match loadBlock s x.tile x.block with
      | .error _ => false
      | .ok b =>
        let dead := b.deadSet x
        (List.range (min (f.pos % 1024) b.instrs.length)).any fun j =>
          !x.fired.contains j && !dead.contains j && match b.instrs[j]? with | some i => p i | none => false
  | _ => false
/-- Whether an instruction may travel on a path: a block's access may turn out to be homed in a peer package (R127). -/
def mayTravel (p : Option Path) (q : Path) : Bool := p == some q || (p == some .ls && q = .co)
/-- Whether an instruction that has not fired may hold a node: as its fence or wait; off the scratch path, because its page and so its class
are not known yet (R130; DEDUCED, log entry 118); on it, by its qualifier or the node's. -/
def mayHold (s : State) (f : MNode) (i : Instr) : Bool :=
  match i with
  | .fence w => bitAt w.off (pathBit (pathNow s f))
  | .swwait _ => true
  | .barx _ => f.path = .sa
  | i => !isStore i && mayTravel (pathOf i) (pathNow s f)
      && (f.path != .sa || ordOf i = .acq || ordOf i = .ar || releases s f || (isSo s f && ordOf i = .so))
def unfiredBefore (s : State) (f : MNode) : Bool := unfired s f (mayHold s f)
/-- A command that makes no access: no class of an earlier node has an edge to it. -/
def accessless (n : MNode) : Bool :=
  match n.op with
  | .engine (.strmStop _) .. => true
  | .engine (.strmPos _) .. => true
  | _ => false
/-- The class of `e` is not known yet, so that it holds `f` (R130); an accepted command that waits for a page does not keep a STRM.STOP or
STRM.POS, which R294 lets find it stalled (DEDUCED, log entry 118). -/
def unknownHolds (s : State) (e f : MNode) : Bool := !classKnown s e && (e.at_ = .queued || !accessless f)
/-- One earlier node `e` that holds `f` (R129). -/
def holds (s : State) (e f : MNode) : Bool :=
  match e.op with
  | .fence _ dst => e.at_ != .acked && bitAt dst (pathBit (pathNow s f))
  | .swwait .. => e.at_ != .acked
  | .barx => e.at_ != .acked && f.path = .sa
  | _ =>
    (f.op = .barx && isXst e.op && e.at_ != .acked)
      || ((pathNow s e = pathNow s f || (unknownHolds s e f && mayTravel (some e.path) (pathNow s f)))
        && (unknownHolds s e f
          || (!ackedAt s e e.scope
            && ((isSo s e && isSo s f) || acquires s e || releases s f || (e.path != .sa && sameLine s e f)))))
/-- Scratch words a node touches. -/
def nodeWords (n : MNode) : Option (Nat × Nat × Nat) := (scratchRange n.key n.op).map fun (st, a, k) => (st, a / 4, (a + k - 1) / 4)
/-- Lanes of one firing that touch one word keep their order (R237, R241). -/
def laneHeld (e f : MNode) : Bool :=
  match e.src with
  | .stage .. => e.pos / 4096 == f.pos / 4096 && e.at_ != .performed && e.at_ != .acked
      && match nodeWords e, nodeWords f with
        | some (st, a, b), some (st', a', b') => st == st' && decide (a ≤ b') && decide (a' ≤ b)
        | _, _ => false
  | _ => false
/-- No edge holds the node. -/
def released (s : State) (f : MNode) : Bool :=
  !(unfiredBefore s f) && (earlier s f).all fun e => !(holds s e f) && !(laneHeld e f)

/-! ### Issue -/

/-- The thread token's tag of a node, for a fault record. -/
def nodeTag (s : State) (n : MNode) : Tag :=
  match n.src with
  | .thread uid => ((threadOf s uid).map (·.tag)).getD 0
  | .stage _ _ t => t
  | .host _ _ => 0

def poisonNode (s : State) (n : MNode) (p : PoisonInfo) : State := setNode s { n with at_ := .performed, poison := some p }
/-- PERM at the accessing element (R109, R120). -/
def permNode (s : State) (n : MNode) (addr : Nat) : State := poisonNode s n (ownPoison n.key pPERM (addr % 2 ^ 32))
/-- What a stand's L1 gives a piece of a load: its copy, within its lease (R114, R115, R128). -/
def l1Serve (s : State) (n : MNode) (nc : Bool) (x : Xlat) (size : Nat) : Option (List Byte × Nat) :=
  if nc || !x.cache || decide (2 ^ 41 ≤ x.dpa) then none
  else (l1Hit s n.key.stand n.key.ctx n.launch.part x).map fun c => (lineBytes c.data (x.dpa % 128) size, c.wts)
/-- A use of the L1 copies. -/
def touchL1 (s : State) (stand : Nat) (lines : List Nat) : State :=
  let (stamp, s) := fresh s
  withL1 s (updIf s.mem.l1 (fun c => c.stand == stand && lines.contains c.line) fun c => { c with used := stamp })
/-- A node every part of which has performed, and the largest wts of its parts. -/
def partsDone (n : MNode) : MNode :=
  let n := { n with wts := n.parts.foldl (fun m (p : Part) => max m p.wts) n.wts }
  if n.parts.all fun (p : Part) => decide (p.at_ = .performed) then { n with at_ := .performed } else n
/-- An access to the page waits for an open fault of its die (R121). -/
def pageHeld (s : State) (die part va : Nat) : Bool :=
  s.mem.opens.any fun o => o.die == die && o.part == part && o.page == pageOf va
/-- Issue of a node on a translated path: every piece translates first, so that a fault leaves no part done (R121, R130). A copy within
its lease serves its part, but for a part of an SO-class access behind one that goes home (R133). -/
def issueMem (s : State) (n : MNode) (va : Word) (size : Nat) (rd wr : Bool) : State :=
  let ps := pieces 128 8 va.toNat 0 size
  match ps.find? fun x => pageHeld s (dieOf n.key.stand) n.launch.part (va.toNat + x.1) with
  | some x => setNode s { n with held := some (va.toNat + x.1) }
  | none =>
  let go := ps.foldl (fun (acc : State × List (Walk × Nat × Nat)) (o, k) =>
    let (s, w) := translate acc.1 n.key.stand n.launch.part (va + BitVec.ofNat 64 o) rd wr
    (s, acc.2 ++ [(w, o, k)])) (s, [])
  let s := go.1
  match go.2.find? fun (w, _, _) => w = .notPresent with
  | some (_, o, _) =>
    noteNotPresent (setNode s { n with held := some (va.toNat + o) }) (dieOf n.key.stand) n.key.stand n.key.elem n.key.ctx n.launch.part n.launch.launch (nodeTag s n) (va.toNat + o)
  | none =>
    match go.2.find? fun (w, _, _) => w = .permission with
    | some (_, o, _) => permNode (noteVa s n.launch.part (va.toNat + o)) n (va.toNat + o)
    | none =>
      let xs := go.2.filterMap fun (w, o, k) => match w with | .ok x => some (x, o, k) | _ => none
      if xs.any (fun x => decide (2 ^ 41 ≤ x.1.dpa)) && linkLost s n.key.stand then
        poisonNode s n (ownPoison n.key pLINK (peerPort n.key.stand))
      else
      let nc := n.path != .ls || (match n.op with | .load _ _ nc => nc | _ => true)
      let inOrder := n.ord = .so || xs.all fun x => x.1.kind == 2
      let ps : List Part := xs.zipIdx.map fun ((x, o, k), i) =>
        let first := !inOrder || (xs.take i).all fun y => (l1Serve s n nc y.1 y.2.2).isSome
        match if first then l1Serve s n nc x k else none with
        | some (bs, wts) => ⟨o, k, some x, .performed, bs, wts⟩
        | none => ⟨o, k, some x, .transit, [], 0⟩
      let served := ps.filter fun p => decide (p.at_ = .performed)
      let s := if served.isEmpty then s else touchL1 s n.key.stand (served.filterMap fun p => p.dpa.map (· / 128))
      setNode s (partsDone { n with at_ := .issued, held := none, parts := ps })

/-- Where a sync word, or any word of scratch, is marked. -/
def syncMark (s : State) (k : ScratchKey) : SyncMark := (s.mem.syncs.find? fun m => decide (m.key = k)).getD ⟨k, 0, false⟩
def setSync (s : State) (m : SyncMark) : State :=
  setMem s { s.mem with syncs := (s.mem.syncs.filter fun x => !decide (x.key = m.key)) ++ [m] }
/-- The write mark of a node (R329): a block tile's is marked 0xFF. -/
def markOf (n : MNode) : WriteMark := ⟨if isTile n.key.elem || n.path = .hi then 0xFF else BitVec.ofNat 8 n.launch.launch, BitVec.ofNat 16 n.epoch⟩
/-- A scratch word read or written through its region. -/
def scratchWordR (s : State) (stand addr : Nat) (r : Region) (n : Nat) : Word := leWord (loadScratch s stand addr r n)

/-- A waiter on a sync word: it has reached the bank, and waits for another generation (R269). -/
def waitsOn (n : MNode) (stand addr : Nat) : Bool :=
  match n.op with
  | .swwait a _ => n.at_ = .issued && n.key.stand == stand && a % 2 ^ 20 == addr && n.parts.any fun p => p.queuedAt.isSome
  | _ => false
/-- What a sync word lets a waiter do: poison SYNC under its fault mark, or go on past another generation (R194, R269). -/
def letGo (s : State) (n : MNode) (word : Word) (g : Half) (addr : Nat) : MNode :=
  let m := syncMark s ⟨n.key.stand, addr⟩
  if m.fault then { n with at_ := .performed, poison := some (ownPoison n.key pSYNC addr) }
  else if field word 48 16 != g then
    { n with at_ := .performed, value := (field word 48 16).setWidth 64, wts := m.stamp,
             parts := n.parts.map fun p => { p with at_ := .performed } }
  else n
/-- The waiters of the words a write reached are woken, or poisoned, in the same action (R194). -/
def wakeWaiters (s : State) (stand addr n : Nat) : State :=
  s.ord.nodes.foldl (fun s w => match w.op with
    | .swwait a g =>
      let a := a % 2 ^ 20
      if waitsOn w stand a && decide (a < addr + n) && decide (addr < a + 8) then
        match regionOf s stand w.key.ctx a 8 with
        | some (_, r) => setNode s (letGo s w (scratchWordR s stand a r 8) g a)
        | none => s
      else s
    | _ => s) s
/-- A FULL slot that a range of a plane-store region meets (R113). -/
def fullInRange (s : State) (stand addr n : Nat) (r : Region) : Bool :=
  r.mode == 4 && n != 0 && (List.range ((n + 12287) / 12288 + 1)).any fun i =>
    planeFull s (planeKey stand (min (addr + 12288 * i) (addr + n - 1)) r)
def storesScratch : MemOp → Bool
  | .sload .. => false | .swwait .. => false | _ => true
/-- A scratch access its bank refuses whole, writing nothing: outside one region (R109), a remote store to a region that is no exchange
region (R271), a store that meets a FULL slot (R113; DESIGN CHOICE for SAMO: log entry 105). -/
def bankRefuses (s : State) (n : MNode) (stand ctx addr size : Nat) : Bool :=
  match regionOf s stand ctx addr size with
  | none => true
  | some (_, r) => (isXst n.op && r.mode != 3) || (storesScratch n.op && fullInRange s stand addr size r)
/-- What a scratch access does at its bank, in one action (R108, R110 to R113, R193, R194, R241): the bytes or word it
returns, and flags. -/
def bankAccess (s : State) (n : MNode) (stand ctx addr : Nat) (off size : Nat) : State × List Byte × FlagSet :=
  match regionOf s stand ctx addr size with
  | none => (s, [], 0)
  | some (_, r) =>
    let m := markOf n
    let woken := fun (s : State) => wakeWaiters s stand (addr % 2 ^ 20) size
    match n.op with
    | .sload .. => (s, loadScratch s stand addr r size, 0)
    | .swwait .. => (s, loadScratch s stand addr r size, 0)
    | .sstore _ bs => (woken (storeScratch s stand addr r ((bs.drop off).take size) m), [], 0)
    | .swset _ w =>
      let s := storeScratch s stand addr r (leBytes 8 w.toNat) m
      (woken (setSync s { syncMark s ⟨stand, addr % 2 ^ 20⟩ with fault := false }), [], 0)
    | .samo _ sz aop arg =>
      let old := loadScratch s stand addr r sz
      let (new, fl) := atomicOp aop sz (leWord old) arg
      (woken (storeScratch s stand addr r (leBytes sz new.toNat) m), old, fl)
    | .xst _ _ bs =>
      let s := markRow s stand addr m
      (scratchWrite s stand (exchangeAddr s stand addr r true) ((bs.drop off).take size), [], 0)
    | _ => (s, [], 0)

/-- Issue of a scratch node (R109, R128): outside a region it is PERM; on valid stash sectors it is served at once, at its bank, if the
bank is free for it in this clock; a stash access that needs a fill waits for it. None: not enabled. -/
def issueScratch (s : State) (n : MNode) (stand addr size : Nat) : Option State :=
  let ctx := n.key.ctx
  let ps := pieces 64 (size / 64 + 3) addr 0 size
  let trans := setNode s { n with at_ := .issued, parts := ps.map fun (o, k) => ⟨o, k, none, .transit, [], 0⟩ }
  match n.op with
  | .xst .. => some trans
  | _ =>
    match regionOf s stand ctx addr size with
    | none => some (permNode s n addr)
    | some (_, r) =>
      let ready := stashReady s stand ctx addr size
      if r.mode != 2 || isWait n.op && ready then some trans
      else if !ready then (if storesScratch n.op && !(match n.op with | .samo .. => true | _ => false) then some trans else none)
      else if flagsWait s n.key.stand ctx n.epoch (performFlags s n ⟨0, size, none, .transit, [], 0⟩) then none
      else
        (serveRange s stand addr size ctx (n.port addr) n.asker).map fun s =>
        let go := ps.foldl (fun (acc : State × List Part × FlagSet × Word) (o, k) =>
          let (s, got, fl) := bankAccess acc.1 n stand ctx (addr + o) o k
          (s, acc.2.1 ++ [⟨o, k, none, .performed, got, 0⟩], acc.2.2.1 ||| fl, if o = 0 then leWord got else acc.2.2.2)) (s, [], 0, 0)
        let s := raiseFlags go.1 n.key.stand ctx n.epoch go.2.2.1
        setNode s { n with at_ := .performed, parts := go.2.1, value := go.2.2.2 }

/-! ### Arrival and performance -/

def setPartAt (n : MNode) (i : Nat) (f : Part → Part) : MNode :=
  { n with parts := n.parts.zipIdx.map fun (p, j) => if j = i then f p else p }
/-- An access joins the tail of its line's or word's queue (R128); at a bank, in its clock's port order (R55, R108). Two contexts share no
word, so that first claim (R180) orders no queue. -/
def arrivePart (s : State) (n : MNode) (i : Nat) : State :=
  let k := s.ord.arrivals
  let s := { s with ord := { s.ord with arrivals := k + 1 } }
  setNode s (setPartAt n i fun p =>
    let key := match partPlace s n p with
      | some (_, a) => n.port a
      | none => 0
    { p with at_ := .queued s.ctl.clock key k })
/-- A part may arrive: at a bank, after the parts of lower address, and before the bank has served what comes after it (R106, R108). -/
def mayArrive (s : State) (n : MNode) (i : Nat) (p : Part) : Bool :=
  match partPlace s n p with
  | some (st, a) => mayReach s st a n.key.ctx (n.port a) && (n.parts.take i).all fun q => q.at_ != .transit
  | none => true
/-- The clock a node's accesses carry to a home: its context's, or 0 on an engine's path (R115, R127). -/
def clockOf (s : State) (n : MNode) : Nat :=
  match pathNow s n with
  | .ls => lclkOf s n.key.stand n.key.ctx
  | .sa => lclkOf s n.key.stand n.key.ctx
  | _ => 0
/-- The parts of a split access perform in address order when every one is SO-class (R133). -/
def partTurn (n : MNode) (i : Nat) : Bool :=
  !(n.parts.length > 1 && (n.ord = .so || n.path = .hi || n.parts.all fun p => match p.xl with | some x => x.kind == 2 | none => false))
    || (n.parts.take i).all fun p => p.at_ = .performed
/-- The flags and new word of a memory atomic at its home. -/
def homeAtomic (op : MemOp) (old : Word) : Word × FlagSet :=
  match op with
  | .amo _ sz aop arg => atomicOp aop sz old arg
  | .kvmap _ fs ev => (BitVec.ofNat 64 (kvWord ev fs old.toNat), 0)
  | .cas _ sz e arg => if (if sz = 4 then old.setWidth 32 == e.setWidth 32 else old == e) then (arg, 0) else (old, 0)
  | _ => (old, 0)
/-- One part performs at its home, under the translation it was made through (R128, R115). -/
def performMem (s : State) (n : MNode) (i : Nat) (p : Part) (x : Xlat) : State :=
  let part := n.launch.part
  let clock := clockOf s n
  let mark := fun (n : MNode) (got : List Byte) (wts : Nat) =>
    partsDone (setPartAt n i fun q => { q with at_ := .performed, got := got, wts := wts })
  match n.op with
  | .load _ _ nc =>
    let (s, bs, wts) := if pathNow s n = .ls && x.cache && !nc then homeLoad s part x.key n.key.stand x.dpa p.size clock
      else homeRead s part x.key x.dpa p.size clock
    setNode s (mark n bs wts)
  | .store _ bs =>
    let (s, wts, sq) := homeWrite s part x.key x.dpa clock ((bs.drop p.off).take p.size) (markOf n)
    setNode s (mark { n with sq := sq } ((bs.drop p.off).take p.size) wts)
  | _ =>
    -- an atomic is a write to the line's times (R115)
    let (s, bs, _) := homeRead s part x.key x.dpa p.size 0
    let (new, fl) := homeAtomic n.op (leWord bs)
    let bytes := leBytes p.size new.toNat
    let (s, wts, sq) := homeWrite s part x.key x.dpa clock bytes (markOf n)
    let s := raiseFlags s n.key.stand n.key.ctx n.epoch fl
    setNode s (mark { n with sq := sq, value := leWord bs } bytes wts)

/-- A record and containment for a fault that no token carries (R323): the issuing node is the origin. -/
def tokenlessFault (s : State) (lk : LKey) (k : EKey) (tag : Tag) (p : PoisonInfo) : State :=
  restPoison s lk (nodeOf s lk k) tag p
/-- PERM of a scratch access at its bank: a remote store's is the target stand's (R271). -/
def bankPerm (s : State) (n : MNode) (stand addr : Nat) : State :=
  if isXst n.op then poisonNode s n (ownPoison ⟨stand, 0x10 + sceOf addr, n.key.ctx⟩ pPERM (addr % 2 ^ 20)) else permNode s n addr
/-- One part of a scratch node performs at its bank. None: the bank does not serve it in this clock, or an SWWAIT's word does not let it
go. -/
def performScratch (s : State) (n : MNode) (i : Nat) (p : Part) (stand addr size : Nat) : Option State :=
  let ctx := n.key.ctx
  let place := physAddr s stand ctx (addr + p.off) p.size (isXst n.op)
  let serve := serveBank s stand place p.size ctx (n.port place) n.asker
  match n.op with
  | .swwait a g =>
    match regionOf s stand ctx addr 8 with
    | none => some (permNode s n addr)
    | some (_, r) =>
      if r.mode = 2 && !(stashReady s stand ctx addr 8) then none
      else
        let m := letGo s n (scratchWordR s stand addr r 8) g (a % 2 ^ 20)
        if m.at_ = .performed then serve.map fun s => setNode s m else none
  | _ =>
    if n.parts.all (fun q => q.at_ != .performed) && bankRefuses s n stand ctx addr size then
      serve.map fun s => bankPerm s n stand (addr + p.off)
    else serve.map fun s =>
      let (s, got, fl) := bankAccess s n stand ctx (addr + p.off) p.off p.size
      let s := raiseFlags s n.key.stand ctx n.epoch fl
      setNode s (partsDone (setPartAt { n with value := if i = 0 then leWord got else n.value } i fun q => { q with at_ := .performed, got := got }))

/-! ### Acknowledgement -/

/-- An acknowledgement's wts noted; one that an earlier node's covers goes (R135). -/
def setAck (s : State) (a : AckMax) : State :=
  let mine := fun (x : AckMax) => decide (x.src = a.src) && x.path = a.path
  if s.ord.acks.any fun x => mine x && decide (x.pos ≤ a.pos) && decide (a.wts ≤ x.wts) then s
  else
    { s with ord := { s.ord with acks := (s.ord.acks.filter fun x => !(mine x && decide (a.pos ≤ x.pos) && decide (x.wts ≤ a.wts))) ++ [a] } }
/-- The largest wts that the acknowledgements of a source's nodes before a place returned on a path. -/
def ackOf (s : State) (src : Source) (path : Path) (pos : Nat) : Nat :=
  (s.ord.acks.filter fun x => decide (x.src = src) && x.path = path && decide (x.pos < pos)).foldl (fun m x => max m x.wts) 0
/-- The bytes a load's parts brought, in address order. -/
def MNode.bytes (n : MNode) : List Byte := (n.parts.flatMap (·.got))
/-- The values a node's targets receive (R128, R260, R265). -/
def ackValues (i : Instr) (n : MNode) : Lanes × Lanes :=
  match i with
  | .ld _ | .ldv _ | .sldBlock _ => (leLanes n.bytes, leLanes n.bytes)
  | .amo _ | .famo _ | .cas _ => (n.value.setWidth 512, n.sq.setWidth 512)
  | .samoBlock _ => (n.value.setWidth 512, 0)
  | .swwait _ | .barx _ => (n.value.setWidth 512, n.value.setWidth 512)
  | .strmLd _ | .strmSt _ | .strmGth _ | .strmSct _ | .strmWin _ | .strmStop _ | .strmPos _ | .cpy _ | .plane _
  | .tilef _ | .tilee _ | .mxrd _ | .mxclr _ | .xrslot _ | .xred _ | .xrwait _ | .rnsum _ | .rnmax _ | .kvst _
  | .kvstFin _ | .kvld _ | .kvalloc _ | .kvfree _ | .bfq _ | .bfwait _ => (n.value.setWidth 512, n.sq.setWidth 512)
  | _ => (1, 1)
/-- Targets that a command sends at acceptance (R286): T0, unless its entry gives it another value or a later moment, which STRM.STOP and
STRM.POS have at acceptance already. -/
def acceptT0 : Instr → Bool
  | .strmStop _ => true | .strmPos _ => true | .cpy _ => true | .plane _ => true | .mxclr _ => true | i => isPattern i
/-- T1, of which only these entries say otherwise. -/
def acceptT1 : Instr → Bool
  | .xrslot _ => false | .xred _ => false | .xrwait _ => false | .kvalloc _ => false | i => (eform i).isSome
/-- What the targets of an instruction receive from its acknowledged node; a command's may have been sent at acceptance. -/
def ackDeliver (x : Exec) (i : Instr) (f : BInfo) (n : MNode) : Exec × Bool :=
  let (v0, v1) := ackValues i n
  let (x, ok0) := if acceptT0 i then (x, true) else deliver1 x f.t0 f.n0 v0 none
  let (x, ok1) := if acceptT1 i then (x, true) else deliver1 x f.t1 f.n1 v1 none
  (x, ok0 && ok1)
/-- The direction a 128-byte image holds (R93). -/
def imageDir (bs : List Byte) : Direction :=
  ⟨(List.range 32).map fun i => BitVec.ofNat 16 (recNat bs (2 * i) 2), BitVec.ofNat 32 (recNat bs 64 4)⟩
def dirImage (d : Direction) : List Byte :=
  (d.comps.flatMap fun c => leBytes 2 c.toNat) ++ leBytes 4 d.norm.toNat ++ List.replicate 60 0
/-- DLD's D writes: a group takes the norm of its first image (R266). -/
def dldWrites (base n : Nat) (bs : List Byte) : List (Nat × Direction) :=
  let norm := (imageDir bs).norm
  (List.range n).map fun j => (base + j, { imageDir (bs.drop (128 * j)) with norm := norm })

/-- The value of an acknowledged node reaches the targets of its instruction, when every node of it is acknowledged. -/
def ackExec (s : State) (n : MNode) : State :=
  match execOf s (n.pos / 1024) with
  | none => s
  | some x =>
    let idx := n.pos % 1024
    match x.waits.find? fun w => w.idx == idx, loadBlock s x.tile x.block with
    | some w, .ok b =>
      match n.poison with
      | some p => if x.abort.isSome then s else abortWith s x p
      | none =>
        let rest := x.waits.filter fun v => !(v.idx == idx)
        let left := w.nodes.filter fun m => !(m == n.id)
        if !left.isEmpty then setExec s { x with waits := rest ++ [⟨idx, left⟩] }
        else
          let x := { x with waits := rest }
          match b.instrs[idx]?, (b.instrs[idx]?).bind binfo with
          | some i, some f =>
            let x := match i with
              | .dld w => { x with dwrites := x.dwrites ++ dldWrites w.aop.toNat (2 ^ w.sz.val) n.bytes }
              | _ => x
            match ackDeliver x i f n with
            | (x, true) => setExec s x
            | (x, false) => abortExec s x pILL x.block
          | _, _ => setExec s x
    | _, _ => s
/-- A posted store, or a store of a firing that has moved on, meets a fault (R237, R260, R271). -/
def postedFault (s : State) (n : MNode) (p : PoisonInfo) : State :=
  tokenlessFault s n.launch n.key (nodeTag s n) p
/-- An acknowledged node of a thread goes; a stash access of scope die or wider stays until its sector is written back (R136). -/
def leaveNode (s : State) (n : MNode) : State :=
  if n.poison.isNone && n.scope != .stand && stashOpen s n then setNode s { n with at_ := .acked } else dropNode s n.id
/-- Kept nodes whose sectors have been written back go. -/
def dropAcked (s : State) : State :=
  let gone := fun (n : MNode) => n.at_ = .acked && (match n.src with | .thread _ => true | _ => false) && !stashOpen s n
  if s.ord.nodes.any gone then setNodes s (s.ord.nodes.filter fun n => !gone n) else s
/-- An acknowledgement reaches its source (R128): the clock moves, L1 takes a write's bytes, values are delivered. -/
def ackNode (s : State) (n : MNode) : State :=
  let s := setAck s ⟨n.src, pathNow s n, n.pos, n.wts⟩
  let s := match n.src with
    | .host .. => s
    | _ => raiseLclk s n.key.stand n.key.ctx n.wts
  let s := match n.path, n.op with
    | .ls, .load .. => s
    | .ls, _ => n.parts.foldl (fun s p => match p.xl with
        | some x => l1Update s n.key.stand n.launch.part x p.wts p.got
        | none => s) s
    | _, _ => s
  let leave := fun (s : State) => leaveNode s n
  match n.src with
  | .thread _ =>
    if n.pos % 1024 < 512 then ackExec (leave s) n
    else match n.poison with
      | some p => postedFault (dropNode s n.id) n p
      | none => leave s
  | .stage .. =>
    -- the stage that waits for the node reads it before it goes
    if s.firings.any fun f => f.nodes.contains n.id then setNode s { n with at_ := .acked }
    else match n.poison with
      | some p => postedFault (dropNode s n.id) n p
      | none => dropNode s n.id
  | .host .. => dropNode s n.id

/-! ### Fences (R135) -/

/-- Dirty stash sectors of a context on its stand. -/
def dirtySectors (s : State) (stand ctx : Nat) : List ScratchKey :=
  (s.mem.sectors.filter fun x => (x.key.stand == stand) && (x.dirty != (0 : BitVec 64))
    && (match regionOf s stand ctx x.key.addr 64 with | some (_, r) => r.mode == 2 | none => false)).map (·.key)
/-- An instruction on one of a fence's source paths. -/
def onPaths (src : BitVec 8) (i : Instr) : Bool :=
  !isStore i && match i with
    | .fence _ => false
    | i => [Path.ls, .sa, .st, .cp, .mx, .co, .bf, .hi].any fun q => bitAt src (pathBit q) && mayTravel (pathOf i) q
/-- Whether a node travels on one of a fence's source paths, or may, as long as its page is not present. -/
def onSource (s : State) (src : BitVec 8) (e : MNode) : Bool :=
  bitAt src (pathBit (pathNow s e)) || (e.path = .ls && !classKnown s e && bitAt src (pathBit .co))
/-- The earlier nodes a fence waits for are acknowledged at its scope; it writes back their stash sectors itself. -/
def fenceClear (s : State) (f : MNode) (src : BitVec 8) : Bool :=
  !(unfired s f (onPaths src)) && (earlier s f).all fun e => !(onSource s src e) || ackedAt s e f.scope || e.at_ = .acked
    || (match e.op with | .fence .. => true | _ => false)
/-- A fence writes back stash sectors when SA is in its source set and its scope is die or wider. -/
def fenceWrites (f : MNode) (src : BitVec 8) : Bool := bitAt src 1 && decide (1 ≤ scopeRank f.scope)
/-- A fence may complete. -/
def fenceDone (s : State) (f : MNode) : Bool :=
  match f.op with
  | .fence src _ => f.at_ = .queued && fenceClear s f src
      && (!(fenceWrites f src) || (dirtySectors s f.key.stand f.key.ctx).isEmpty)
  | _ => false
/-- A stash write-back is called for (R111): a fence of the context waits for nothing else. -/
def writeBackDue (s : State) (stand ctx : Nat) : Bool :=
  s.ord.nodes.any fun f => f.key.stand == stand && f.key.ctx == ctx && f.at_ = .queued
    && match f.op with
      | .fence src _ => fenceWrites f src && fenceClear s f src
      | _ => false

end Sys2Proof.Machine
end

