-- ==== Sys2Proof/Machine/Segments.lean ====
section
/-! DEFINITION. Thread tokens and segments: creation (R254, R256), handles, likelihoods and predictor sites (R184, R185,
R274), guards (R172), and what RESOLVE, SQUASH and a brake do to segments (R275, R276, R278). -/

namespace Sys2Proof.Machine

/-! ### Loops (R23, R195) -/

def launchLoops (s : State) (lk : LKey) : List LoopRec := ((launchOf s lk).bind (·.module) |>.map (·.loops)).getD []
def moduleEdges (s : State) (lk : LKey) : List EdgeRec := ((launchOf s lk).bind (·.module) |>.map (·.edges)).getD []
/-- Nodes of a loop's body: those reached from its entering edge's consumer without passing its leaving edge. -/
def reachNodes (edges : List EdgeRec) (stop : Nat) : Nat → List Nat → List Nat
  | 0, ns => ns
  | fuel + 1, ns =>
    let more := (edges.filter fun e => ns.contains e.prod && e.num != stop && !ns.contains e.cons).map (·.cons)
    if more.isEmpty then ns else reachNodes edges stop fuel (ns ++ more.dedup)
/-- The node that enters a loop and the node that leaves it, by its records (R83). -/
def LoopRec.enterNode (l : LoopRec) : Nat := l.enter
def LoopRec.leaveNode (l : LoopRec) : Nat := l.leave
def slotCount (s : State) (lk : LKey) (l : LoopRec) : Int :=
  ((s.q.slots.find? fun (k, n, _) => decide (k = lk) && n == l.num).map fun (_, _, v) => v).getD (l.bound.getD 0)
def addSlots (s : State) (lk : LKey) (l : LoopRec) (d : Int) : State :=
  if l.bound.isNone || d = 0 then s
  else
    let v := slotCount s lk l + d
    { s with q := { s.q with slots := (s.q.slots.filter fun (k, n, _) => !(decide (k = lk) && n == l.num)) ++ [(lk, l.num, v)] } }
/-- A number no edge has. -/
def noEdge : Nat := 4096
/-- The nodes reached from some along edges, back edges included. -/
def reachedFrom (edges : List EdgeRec) (ns : List Nat) : List Nat := reachNodes edges noEdge (edges.length + 1) ns
def swapEdge (e : EdgeRec) : EdgeRec := { e with prod := e.cons, cons := e.prod }
/-- The edges of a loop's body: behind the node that enters and before the node that leaves, the back edge among them (R195). -/
def bodyEdges (edges : List EdgeRec) (l : LoopRec) : List Nat :=
  let fwd := reachedFrom (edges.filter fun e => e.prod != l.leave) [l.enter]
  let bwd := reachedFrom ((edges.filter fun e => e.cons != l.enter).map swapEdge) [l.leave]
  (edges.filter fun e => e.num == l.back
    || (fwd.contains e.prod && e.prod != l.leave && bwd.contains e.cons && e.cons != l.enter)).map (·.num)
/-- A loop's slots that come back for `n` of its body tokens on an edge. -/
def slotsBack (s : State) (lk : LKey) (e : Nat) (n : Int) : State :=
  (launchLoops s lk).foldl (fun s l => if (bodyEdges (moduleEdges s lk) l).contains e then addSlots s lk l n else s) s
/-- Tokens that hold a loop's slot while they stand in its body: DATA and POISON, a segment's among them (R195). -/
def Token.slotted (t : Token) : Bool := t.kind = .data || t.kind = .poison

/-! ### Permits and tokens that go (R143, R144, R195) -/

/-- A REQ travels upstream on an edge (R11, R144). -/
def reqToken (tag : Tag) : Token := ⟨tag, 0, .req, .i32, 0x0001#16, 0⟩
def sendReq (s : State) (ek : EdgeKey) (tag : Tag) : State :=
  match (match consumerOf s ek with
    | .vpe k _ => some k | .tile k _ => some k | .matrix k _ => some k | _ => none) with
  | some k => launchTok s ek k (reqToken tag)
  | none => launchTok s ek ⟨0, 0xF9, 0⟩ (reqToken tag)
def arrivingOn (s : State) (ek : EdgeKey) : Nat × Bool × BitVec 12 := agetD s.q.arriving ek (0, false, 0)
def setArriving (s : State) (ek : EdgeKey) (x : Nat × Bool × BitVec 12) : State :=
  let rest := s.q.arriving.filter fun y => !decide (y.1 = ek)
  { s with q := { s.q with arriving := if x.1 = 0 && !x.2.1 then rest else rest ++ [(ek, x)] } }
/-- A consumer takes a token: the one that ends its burst gives the permit back (R144). -/
def permitBack (s : State) (ek : EdgeKey) (tag : Tag) (last : Bool) : State := if last then sendReq s ek tag else s
/-- The edge that feeds an input of a VPE's context (R61). -/
def inputEdge (s : State) (k : EKey) (i : Nat) : Nat := getAt (vpeCfg s k).inloc i 2048 - 2048
/-- A firing's inputs as the edge tokens they were. -/
def Firing.tokens (f : Firing) (s : State) : List (Nat × Token) := f.inputs.flatMap fun x => x.toks.map fun t => (inputEdge s f.vpe x.inp, t)
/-- A token removed from a queue: its permit may go back, and the slot of a loop's body token comes back. -/
def forgetTok (s : State) (ek : EdgeKey) (t : Token) (last : Bool) : State :=
  let s := permitBack s ek t.tag last
  if t.slotted then slotsBack s (ekLaunch ek) ek.edge 1 else s
/-- The loop slots of a firing that stops: those of the body tokens it took, and the one it took to enter. -/
def firingSlotsBack (s : State) (f : Firing) : State :=
  let s := f.entered.foldl (fun s x => (((launchLoops s x.1).find? fun l => l.num == x.2).map fun l => addSlots s x.1 l 1).getD s) s
  (f.tokens s).foldl (fun s x => if x.2.slotted then slotsBack s f.launch x.1 1 else s) s

/-! ### Thread tokens -/

/-- A frame's registers with some of them set (R90). -/
def frameRegs (galloc : Nat) (set_ : List (Nat × Word)) : List Word :=
  (List.range (16 * galloc)).map fun i => agetD set_ i 0
/-- A new thread token at a block's entry, in a frame (R149, R254). -/
def newThread (s : State) (tile : EKey) (lk : LKey) (block : Nat) (tag : Tag) (hold : Nat) (regs : List (Nat × Word))
    (frame : Option Nat) : State :=
  let (uid, s) := fresh s
  let (ord, s) := fresh s
  let t : Thread := ⟨uid, tile, frame.getD 0, lk, block, tag, hold, frameRegs (tileCfg s tile).galloc regs, [0, 0, 0], 0, none,
    match frame with | some _ => .queued ord | none => .noFrame ord, none⟩
  setThreads s (s.tiles.threads ++ [t])
/-- Frames go to committed creations that wait for one, in the order they were committed (R254). -/
def giveFrames (s : State) (tile : EKey) : State :=
  let waiting := s.tiles.threads.filter fun t => t.tile.stand == tile.stand && t.tile.elem == tile.elem
    && (match t.at_ with | .noFrame _ => true | _ => false)
  match minBy (fun t => match t.at_ with | .noFrame o => o | _ => 0) waiting, freeFrames s tile with
  | some t, f :: _ =>
    let (ord, s) := fresh s
    setThread s { t with frame := f, at_ := .queued ord }
  | _, _ => s

/-! ### Likelihoods and predictor sites (R184, R185) -/

/-- lkp(q), unsigned Q8.8, ties to even. -/
def lkpOf (q : Nat) : Nat :=
  if q = 0 then 0xFFFF
  else if q = 2 ^ q.log2 then (8 - q.log2) * 256
  else (((CReal.ofInt 8).sub (log2Dyad q 0)).nearest 8).toNat
def siteCode (s : State) (lk : LKey) (die site : Nat) : Nat :=
  ((s.tiles.sites.find? fun (k, d, n, _) => decide (k = lk) && d == die && n == site).map fun (_, _, _, q) => q).getD 128
def setSite (s : State) (lk : LKey) (die site q : Nat) : State :=
  { s with tiles := { s.tiles with
      sites := (s.tiles.sites.filter fun (k, d, n, _) => !(decide (k = lk) && d == die && n == site)) ++ [(lk, die, site, q)] } }
/-- p + trunc((outcome × 256 − p) / 16). -/
def siteUpdate (p : Nat) (won : Bool) : Nat :=
  ((p : Int) + (((if won then 256 else 0 : Int) - p).tdiv 16)).toNat

/-! ### Handles, deck entries, identifiers (R150, R274, R373) -/

def setHandleRecs (s : State) (hs : List HandleRec) : State := { s with tiles := { s.tiles with handles := hs } }
/-- The lowest handle number of a die that no launch on it has in use (R373). -/
def freeHandle (s : State) (die : Nat) : Option Nat :=
  let used := ((s.tiles.handles.map (·.handle) ++ s.tiles.execs.flatMap fun x => x.spawns.map (·.handle)).filter fun h =>
    h / 2 ^ 16 == die).map fun h => h % 4096
  ((List.range 4095).map (· + 1)).find? fun n => !used.contains n
def handleWord (s : State) (lk : LKey) (die n : Nat) : Nat :=
  die * 2 ^ 16 + agetD s.tiles.handleGen (lk, die * 4096 + n) 0 % 16 * 2 ^ 12 + n
/-- A number freed: its generation in its launch rises by one. -/
def freeNumber (s : State) (lk : LKey) (h : Nat) : State :=
  let k := (lk, h / 2 ^ 16 * 4096 + h % 4096)
  let s := setHandleRecs s (s.tiles.handles.filter fun x => !(x.handle == h))
  { s with tiles := { s.tiles with handleGen := aset s.tiles.handleGen k ((agetD s.tiles.handleGen k 0 + 1) % 16) } }
/-- The live handle that a value names in a launch: handles are the launch's own. -/
def handleLive (s : State) (lk : LKey) (h : Word) : Option HandleRec :=
  if (field h 19 45) != 0 then none else s.tiles.handles.find? fun x => decide (x.launch = lk) && x.handle == h.toNat && x.live
/-- Log-deck entries of a die in use or reserved. -/
def deckUsed (s : State) (die : Nat) : Nat :=
  (s.tiles.threads.filter fun t => t.speculative && dieOf t.tile.stand == die).length
    + ((s.tiles.execs.filter fun x => dieOf x.tile.stand == die).map fun x =>
        (x.spawns.map fun p => p.sids.length).foldl (· + ·) 0).foldl (· + ·) 0
/-- Segment identifiers of a stand that are free, lowest first (R15). -/
def freeSids (s : State) (stand : Nat) : List (BitVec 12) :=
  let used := (s.tiles.threads.filter fun t => t.tile.stand == stand).filterMap (fun t => t.seg.map (·.sid))
    ++ (s.tiles.execs.filter fun x => x.tile.stand == stand).flatMap fun x => x.spawns.flatMap (·.sids)
  ((List.range 4095).map fun i => BitVec.ofNat 12 (i + 1)).filter fun i => !used.contains i

/-! ### Guards (R172) -/

/-- A root's guard lowered by one: at 0 its pointstamp goes, and a root that has ended is forgotten. -/
def lowerGuard (s : State) (root : Nat) : State × List Delta :=
  match threadOf s root with
  | none => (s, [])
  | some t =>
    let g := t.guard - 1
    let ds := if g = 0 then (t.guarded.map fun (loc, tag) => (⟨loc, tag, -1⟩ : Delta)).toList else []
    let t' := { t with guard := g, guarded := if g = 0 then none else t.guarded }
    (if g = 0 && decide (t.at_ = .ended) && !t.speculative then dropThread s root else setThread s t', ds)
/-- A root's guard raised: from 0, its held pointstamp takes +1 in the same change set. -/
def raiseGuard (s : State) (root n : Nat) : State × List Delta :=
  match threadOf s root with
  | none => (s, [])
  | some t =>
    if n = 0 then (s, [])
    else if t.guard = 0 then
      (setThread s { t with guard := n, guarded := some (t.hold, t.tag) }, [⟨t.hold, t.tag, 1⟩])
    else (setThread s { t with guard := t.guard + n }, [])

/-! ### Pruning and committing a segment (R275) -/

/-- A VPE's spill filter clears when no token of it stands in the pile (R146). -/
def vpeWide (k : EKey) : EKey := { k with ctx := 0 }
def clearFilter (s : State) (k : EKey) : State :=
  if s.q.store.any fun x => x.inPile && vpeWide x.vpe == vpeWide k then s
  else { s with q := { s.q with filter := s.q.filter.filter fun x => x.1 != vpeWide k } }
/-- Bursts of a segment on an edge that have not arrived whole: the permit of each comes back with the burst (R144, R151). -/
def cutBursts (s : State) (ek : EdgeKey) (sid : BitVec 12) : Nat :=
  let flying := (s.q.flights.filter fun f => decide (f.edge = ek) && f.tok.seg == sid && f.tok.kind = .data).length
  let (n, _, g) := arrivingOn s ek
  let b := edgeBurst s ek
  if (edgeRec s ek).any fun e => e.permits != 0 then (flying + (if g = sid then n else 0) + b - 1) / b else 0
/-- Tokens of a segment on its stand are discarded (R15), with its firings; permits and loop slots come back. -/
def dropSegTokens (s : State) (stand : Nat) (sid : BitVec 12) (tag : Tag) : State :=
  if sid = 0 then s
  else
    let q := s.q
    let ours := fun (ek : EdgeKey) => (producerOf s ek).map (·.stand) == some stand
    let fl := q.flights.filter fun f => f.src.stand == stand && f.tok.seg == sid
    let bs := q.buffers.filter fun b => b.tok.seg == sid && ours b.edge
    let st := q.store.filter fun x => x.vpe.stand == stand && x.tok.seg == sid
    let hs := q.held.filter fun h => h.vpe.stand == stand && h.tok.seg == sid
    let es := q.ends.filter fun x => x.vpe.stand == stand && x.seg == sid
    let fs := s.firings.filter fun f => f.vpe.stand == stand && f.seg == sid
    let cuts := ((fl.map (·.edge) ++ q.arriving.filterMap fun x => if x.2.2.2 == sid && ours x.1 then some x.1 else none).dedup).map
      fun ek => (ek, cutBursts s ek sid)
    let edge := fun (k : EKey) (i : Nat) => (launchAt s k).map fun l => lkEdge l.key (inputEdge s k i)
    let gone := (fl.map fun f => (some f.edge, f.tok, false)) ++ (bs.map fun b => (some b.edge, b.tok, b.last))
      ++ (st.map fun x => (edge x.vpe x.inp, x.tok, x.last)) ++ hs.map fun x => (edge x.vpe x.inp, x.tok, x.last)
    let s := { s with
      q := { q with
        flights := q.flights.filter fun f => !(f.src.stand == stand && f.tok.seg == sid)
        buffers := q.buffers.filter fun b => !(b.tok.seg == sid && ours b.edge)
        store := q.store.filter fun x => !(x.vpe.stand == stand && x.tok.seg == sid)
        counts := q.counts.filter fun c => !(c.vpe.stand == stand && c.seg == sid)
        heads := q.heads.filter fun h => !(h.vpe.stand == stand && h.head.seg == sid)
        held := q.held.filter fun h => !(h.vpe.stand == stand && h.tok.seg == sid)
        ends := q.ends.filter fun x => !(x.vpe.stand == stand && x.seg == sid)
        arriving := q.arriving.filter fun x => !(x.2.2.2 == sid && ours x.1) }
      firings := s.firings.filter fun f => !(f.vpe.stand == stand && f.seg == sid) }
    let s := gone.foldl (fun s x => match x.1 with | some ek => forgetTok s ek x.2.1 x.2.2 | none => s) s
    let s := es.foldl (fun s x => match edge x.vpe x.inp with | some ek => permitBack s ek x.tag x.short | none => s) s
    let s := cuts.foldl (fun s x => (List.range x.2).foldl (fun s _ => sendReq s x.1 tag) s) s
    (((st.filter (·.inPile)).map fun x => vpeWide x.vpe).dedup).foldl clearFilter (fs.foldl firingSlotsBack s)
/-- Handles a segment spawned are withdrawn with it (R373). -/
def withdrawHandles (s : State) (uid : Nat) : State :=
  (s.tiles.handles.filter fun h => h.spawner == uid).foldl (fun s h => freeNumber s h.launch h.handle) s
/-- What a thread token's executions have not issued does not issue. -/
def dropQueued (s : State) (uid : Nat) : State :=
  { s with ord := { s.ord with nodes := s.ord.nodes.filter fun n => !(n.at_ = .queued && decide (n.src = .thread uid)) } }
/-- The bursts a thread token has open on its ports are forgotten: what it has sent stands, and the ports are free. -/
def dropBursts (s : State) (uid : Nat) : State := { s with q := { s.q with bursts := s.q.bursts.filter fun b => !(b.owner == uid) } }
/-- A segment pruned or squashed: it stops, its buffer, its open bursts and its frame are gone, its root's guard falls (R172, R275). -/
def pruneSegment (s : State) (uid : Nat) : State :=
  match threadOf s uid with
  | none => s
  | some t =>
    match t.seg with
    | none => s
    | some g =>
      let s := dropQueued (setExecs s (s.tiles.execs.filter fun x => !(x.thread == uid))) uid
      let s := dropSegTokens (dropBursts s uid) t.tile.stand g.sid t.tag
      let s := withdrawHandles (dropThread s uid) uid
      let s := bumpPerf s t.tile.stand 13 1
      let (s, ds) := lowerGuard s g.root
      giveFrames (changeSet s t.tile.stand t.launch ds) t.tile
/-- D writes reach the registers a context's thread tokens share (R95): of two of one execution to one register, the one that fired or was
acknowledged last stands (DESIGN CHOICE, log entry 120). -/
def writeDregs (s : State) (tile : EKey) (ws : List (Nat × Direction)) : State :=
  if ws.isEmpty then s
  else
    let old := agetD s.tiles.dregs tile (List.replicate 16 (Direction.zero 32))
    { s with tiles := { s.tiles with dregs := aset s.tiles.dregs tile (ws.foldl (fun d (i, v) => setAt d i v) old) } }
def dregsOf (s : State) (tile : EKey) : List Direction := agetD s.tiles.dregs tile (List.replicate 16 (Direction.zero 32))
/-- A posted store of a thread token enters its issue queue (R126, R245); `idx` of a Posted is its place in source order. -/
def postStore (s : State) (t : Thread) (epoch : Nat) (p : Posted) : State :=
  let add := fun path pos op ord scope => (addNode s (.thread t.uid) t.tile t.launch path pos op ord scope epoch).1
  match p with
  | .mem a bs ord scope pos => add .ls pos (.store a bs) ord scope
  | .scratch a bs ord pos => add .sa pos (.sstore a bs) ord .stand
  | .sync a w ord scope pos => add .sa pos (.swset a w) ord scope
  | .remote st a bs ord scope pos => add .sa pos (.xst st a bs) ord scope
  | .fence src dst scope pos => add .sa pos (.fence src dst) .plain scope
  | .resolve _ _ => s
  | .squash _ => s
/-- The changes that sends and forks make (R161). -/
def leavingDelta (s : State) (t : Thread) : Leaving → List Delta
  | .send port tok _ => match (launchOf s t.launch).bind fun l => (l.nodeAt t.tile).bind fun n => l.outEdge n port with
    | some e => tokDelta e.num tok 1
    | none => []
  | .fork _ _ tag _ hold _ => [⟨hold.getD t.hold, tag, 1⟩]
/-- The edge an output port of a tile's node feeds. -/
def tileOutEdge (s : State) (lk : LKey) (tile : EKey) (port : Nat) : Option EdgeRec :=
  (launchOf s lk).bind fun l => (l.nodeAt tile).bind fun n => l.outEdge n port
def tileInEdge (s : State) (lk : LKey) (tile : EKey) (port : Nat) : Option EdgeRec :=
  (launchOf s lk).bind fun l => (l.nodeAt tile).bind fun n => l.inEdge n port
/-- One buffered send or fork leaves. -/
def leave1 (s : State) (t : Thread) : Leaving → State
  | .send port tok _ => match tileOutEdge s t.launch t.tile port with
    | some e =>
      let s := sendBy s (lkEdge t.launch e.num) t.tile t.uid tok
      if tok.slotted then slotsBack s t.launch e.num (-1) else s
    | none => s
  | .fork block regs tag frame hold _ =>
    let frame := match frame with
      | some f => some f
      | none => (freeFrames s t.tile).head?
    newThread s t.tile t.launch block tag (hold.getD t.hold) regs frame

/-- An edge whose consumer, or whose producer, is a VPE of the tile's own stand (R272, R273). -/
def localOut (s : State) (tile : EKey) (ek : EdgeKey) : Bool :=
  match consumerOf s ek with | .vpe k _ => k.stand == tile.stand | _ => false
def localIn (s : State) (tile : EKey) (ek : EdgeKey) : Bool :=
  match producerOf s ek with | some k => k.stand == tile.stand && isVpe k.elem | none => false
/-- The identifier a thread token's local traffic carries: a segment's, until it halts (R275). -/
def Thread.sid (t : Thread) : BitVec 12 := match t.seg with | some g => g.sid | none => 0
/-- A thread token that halts closes its open bursts short, each with an END (R272); on a local edge it carries the identifier of a
segment, committed or not, and is not counted (R15, R275). -/
def closeBursts (s : State) (t : Thread) : State :=
  (s.q.bursts.filter fun b => b.owner == t.uid).foldl (fun s b =>
    let ft := ((edgeRec s b.edge).map (·.ft)).getD .i32
    let tok : Token := { endToken b.tag ft 0 with seg := if localOut s t.tile b.edge then t.sid else 0 }
    sendBy (changeSet s t.tile.stand t.launch (tokDelta b.edge.edge tok 1)) b.edge b.src t.uid tok) s

/-- A segment whose chain is empty commits (R275): stores issue, sends and forks leave, D writes apply, its recorded
RESOLVEs and SQUASHes are handed back to act in order, those of the execution still running after them; a halted one ends; one that met
poison aborts. -/
def commitSegment (s : State) (uid : Nat) : State × List Posted :=
  match threadOf s uid with
  | none => (s, [])
  | some t =>
    match t.seg with
    | none => (s, [])
    | some g =>
      let epoch := epochOf s t.launch t.tag
      let held : List Delta := if g.halted then [] else [⟨t.hold, t.tag, 1⟩]
      let (s, gd) := lowerGuard s g.root
      let s := changeSet s t.tile.stand t.launch (g.leaving.flatMap (leavingDelta s t) ++ held ++ gd)
      let recs := ((s.tiles.execs.find? fun x => x.thread == uid).map (·.recs)).getD []
      let s := setExecs s (updIf s.tiles.execs (fun (x : Exec) => x.thread == uid) fun x => { x with recs := [] })
      let s := (g.stores ++ recs).foldl (fun s p => postStore s t epoch p) s
      let s := g.leaving.foldl (fun s l => leave1 s t l) s
      let s := writeDregs s t.tile g.dbuf
      let later := (g.stores ++ recs).filter fun p => match p with | .resolve _ _ => true | .squash _ => true | _ => false
      let (ord, s) := fresh s
      let at_ := match t.at_ with | .deck => ThreadAt.queued ord | a => a
      let g' := { g with chain := [], lks := 0, stores := [], leaving := [], dbuf := [] }
      if g.halted then (endThread (closeBursts s t) { t with seg := none, guard := ((threadOf s uid).map (·.guard)).getD 0 }, later)
      else
        let s := match threadOf s uid with
          | some t => setThread s { t with seg := some g', at_ := at_ }
          | none => s
        let s := match s.tiles.execs.find? fun x => x.thread == uid with
          | some x => match x.abort with
            | some p => abortWith s { x with abort := none } p
            | none => s
          | none => s
        (s, later)

/-! ### RESOLVE and SQUASH (R275, R276) -/

def chainHas (g : Segment) (h : Nat) (side : Bool) : Bool := g.chain.any fun l => l.handle == h && l.side == side
def segmentsWith (s : State) (h : Nat) (side : Bool) : List Nat :=
  (s.tiles.threads.filter fun t => match t.seg with | some g => chainHas g h side | none => false).map (·.uid)
/-- The winning side's entry leaves a segment's chain; an LKS that stood at its limit stops at 0 (DESIGN CHOICE, log entry 120). -/
def dropLink (s : State) (uid h : Nat) (side : Bool) : State :=
  match threadOf s uid with
  | none => s
  | some t =>
    match t.seg with
    | none => s
    | some g =>
      let d := ((g.chain.filter fun l => l.handle == h && l.side == side).map (·.lkp)).foldl (· + ·) 0
      setThread s { t with seg := some { g with chain := g.chain.filter fun l => !(l.handle == h && l.side == side), lks := g.lks - d } }
/-- One condition decided: the state, and recorded RESOLVEs and SQUASHes that now act. False: the handle is not live. -/
def resolveOne (s : State) (lk : LKey) (h : Word) (o : Bool) : State × List Posted × Bool :=
  match handleLive s lk h with
  | none => (s, [], false)
  | some r =>
    let n := h.toNat
    let s := (segmentsWith s n (!o)).foldl pruneSegment s
    let winners := segmentsWith s n o
    let s := winners.foldl (fun s u => dropLink s u n o) s
    let (s, later) := winners.foldl (fun (acc : State × List Posted) u =>
      match threadOf acc.1 u with
      | some t => if t.speculative then acc else
          let (s, l) := commitSegment acc.1 u
          (s, acc.2 ++ l)
      | none => acc) (s, [])
    let s := match r.site with
      | some site => setSite s lk (n / 2 ^ 16) site (siteUpdate (siteCode s lk (n / 2 ^ 16) site) o)
      | none => s
    (freeNumber s lk n, later, true)
def squashOne (s : State) (lk : LKey) (h : Word) : State × Bool :=
  match handleLive s lk h with
  | none => (s, false)
  | some _ =>
    let n := h.toNat
    let s := (segmentsWith s n true ++ segmentsWith s n false).foldl pruneSegment s
    (freeNumber s lk n, true)
/-- Recorded decisions act in buffer order; each may commit further segments. -/
def actAll (lk : LKey) : Nat → State → List Posted → State
  | 0, s, _ => s
  | _, s, [] => s
  | fuel + 1, s, p :: ps =>
    match p with
    | .resolve h o => let (s, later, _) := resolveOne s lk h o; actAll lk fuel s (ps ++ later)
    | .squash h => actAll lk fuel (squashOne s lk h).1 ps
    | _ => actAll lk fuel s ps
/-- Every decision that can still act: one a segment at most adds its own. -/
def actFuel (s : State) : Nat := 1 + (s.tiles.threads.map fun t => match t.seg with | some g => g.stores.length + 1 | none => 1).foldl (· + ·) 0
def resolveHandle (s : State) (lk : LKey) (h : Word) (o : Bool) : State × Bool :=
  let fuel := actFuel s
  let (s, later, ok) := resolveOne s lk h o
  (actAll lk fuel s later, ok)
/-- A live handle whose every segment is gone is withdrawn, when a brake or pre-emption squashed them (R274). -/
def withdrawEmpty (s : State) : State :=
  let gone := s.tiles.handles.filter fun h => h.live && !(s.tiles.threads.any fun t => match t.seg with
    | some g => g.chain.any fun l => l.handle == h.handle
    | none => false)
  gone.foldl (fun s h => freeNumber s h.launch h.handle) s
/-- Every segment that a predicate picks is squashed. -/
def squashWhere (s : State) (p : Thread → Bool) : State :=
  let us := (s.tiles.threads.filter fun t => t.speculative && p t).map (·.uid)
  if us.isEmpty then s else withdrawEmpty (us.foldl pruneSegment s)

end Sys2Proof.Machine
end

