-- ==== Sys2Proof/Machine/Tokens.lean ====
section
/-! DEFINITION. Tokens taken from edge buffers and the permits that go back (R143, R144, R196). -/

namespace Sys2Proof.Machine

def setBuffers (s : State) (bs : List Buffered) : State := { s with q := { s.q with buffers := bs } }
/-- A token arrives at its edge's consumer, in its burst (R22): whether its taking will give a permit back, which the burst's last DATA
does and an END that closes it short (R144), and whether it is a malformed HEAD or DATA without the HEAD its format asks for (R39). -/
def burstArrival (s : State) (ek : EdgeKey) (t : Token) : State × Bool × Bool :=
  let (n, headed, _) := arrivingOn s ek
  let permits := match edgeRec s ek with | some e => e.permits != 0 | none => false
  match t.kind with
  | .head => (setArriving s ek (0, true, t.seg), false, !headOk t)
  | .data =>
    let bad := fmtHeaded t.ft && !headed
    if edgeBurst s ek ≤ n + 1 then (setArriving s ek (0, false, 0), permits, bad) else (setArriving s ek (n + 1, headed, t.seg), false, bad)
  | .endOf => (setArriving s ek (0, false, 0), permits && n != 0, false)
  | _ => (s, false, false)
/-- A buffered token is taken: its slot frees (R143), and its permit may go back. -/
def takeBuffered (s : State) (b : Buffered) : State := permitBack (setBuffers s (s.q.buffers.erase b)) b.edge b.tok.tag b.last
/-- The oldest buffered token of an edge. -/
def oldest (s : State) (ek : EdgeKey) : Option Buffered := s.q.buffers.find? fun b => decide (b.edge = ek)

end Sys2Proof.Machine
end

