-- ==== Sys2Proof/Machine/BlockControl.lean ====
section
/-! DEFINITION. Block control (R251 to R255), speculation (R274 to R278), token input and output of a block (R272, R273,
R371), BARX (R270) and the system operations (R280 to R284). -/

namespace Sys2Proof.Machine

/-! ### Control transfers (R246) -/

/-- The fall-through of a block (R246). -/
def BEnv.fallThrough (e : BEnv) : Nat := e.b.addr + 4 + e.b.head.icount
/-- A control instruction fires: a second one in an execution is ILL. -/
def BEnv.control (e : BEnv) (c : Control) (x : Exec) (v : Word) : BRes :=
  if e.x.control.isSome then .poison pILL e.b.addr
  else .send (v.setWidth 512) (v.setWidth 512) 0 { x with control := some c }
/-- A transfer: its target must hold a valid block header (R246). -/
def BEnv.transfer (e : BEnv) (s : State) (target : Nat) (yields : Bool) (x : Exec) (v : Word) : BRes :=
  if target < 8192 && headerWordAt s e.x.tile target then e.control (.goto target yields) x v
  else .poison pILL e.b.addr
/-- Loop counters in use: the nonzero ones come first (R253). -/
def BEnv.depth (e : BEnv) : Nat := (e.th.lc.filter fun c => c != 0).length
/-- The target a[12:0] of BR and RET; a[63:13] must be 0. -/
def BEnv.aTarget (e : BEnv) : Option Nat := if field e.a64 13 51 = 0 then some (field e.a64 0 13).toNat else none
def immTarget (w : BWord) : Nat := (field w.imm 0 13).toNat

/-- The end of a loop's pass: the last counter falls by one, and at 0 the loop is over (R253). -/
def BEnv.lendTo (e : BEnv) (s : State) (target : Option Nat) : BRes :=
  match e.depth, target with
  | 0, _ => .poison pILL e.b.addr
  | _, none => .poison pILL e.b.addr
  | k + 1, some t =>
    let c := getAt e.th.lc k 0 - 1
    e.transfer s (if c != 0 then t else e.fallThrough) false { e.x with lc := e.x.lc ++ [(k, c)] } 1

def execBr (w : BWord) (s : State) : Out :=
  runBlock (.br w) s fun e =>
    match e.aTarget with
    | none => .poison pILL e.b.addr
    | some t => e.transfer s t false e.x 1
def execBri (w : BWord) (s : State) : Out := runBlock (.bri w) s fun e => e.transfer s (immTarget w) false e.x 1
/-- BR and BRI with LEND set; `imm` says which (R251, R253). -/
def execLend (imm : Bool) (w : BWord) (s : State) : Out :=
  runBlock (.lend imm w) s fun e => e.lendTo s (if imm then some (immTarget w) else e.aTarget)
/-- RET has exactly the effect of BR. -/
def execRet (w : BWord) (s : State) : Out :=
  runBlock (.ret w) s fun e =>
    match e.aTarget with
    | none => .poison pILL e.b.addr
    | some t => e.transfer s t false e.x 1
/-- R252. -/
def execCall (w : BWord) (s : State) : Out :=
  runBlock (.call w) s fun e => e.transfer s (immTarget w) false e.x (BitVec.ofNat 64 e.fallThrough)
/-- R253. -/
def execLoop (w : BWord) (s : State) : Out :=
  runBlock (.loop w) s fun e =>
    let count := laneOf e.a 0
    if count = 0 then e.transfer s (immTarget w) false e.x 1
    else if e.depth = 3 then .poison pILL e.b.addr
    else e.transfer s e.fallThrough false { e.x with lc := e.x.lc ++ [(e.depth, count)] } 1
/-- R255. -/
def execHalt (w : BWord) (s : State) : Out := runBlock (.halt w) s fun e => e.control .halt e.x 1
def execYield (w : BWord) (s : State) : Out := runBlock (.yield w) s fun e => e.transfer s (immTarget w) true e.x 1

/-! ### FORK and the buffer of a segment (R254, R278) -/

/-- A segment's sends that leave at its execution's commit: those on local edges (R272). -/
def leavesNow (s : State) (t : Thread) : Leaving → Bool
  | .send port _ _ => match tileOutEdge s t.launch t.tile port with
    | some e => localOut s t.tile (lkEdge t.launch e.num)
    | none => false
  | .fork .. => false
/-- Sends and forks that a segment's buffer holds or will take from the running execution: non-local SENDs, FORKs and the thread tokens
of RECV START (R254, R273, R278). -/
def BEnv.sendsHeld (e : BEnv) (s : State) : Nat :=
  (match e.th.seg with | some g => g.leaving.length | none => 0) + (e.x.leaving.filter fun l => !leavesNow s e.th l).length
    + (e.x.taken.filter fun t => t.start.isSome).length
/-- Stores likewise. -/
def isSlotStore : Posted → Bool
  | .mem .. => true | .scratch .. => true | .sync .. => true | .remote .. => true | _ => false
def BEnv.storesHeld (e : BEnv) : Nat :=
  ((match e.th.seg with | some g => g.stores | none => []).filter isSlotStore).length + (e.x.stores.filter isSlotStore).length
/-- A store or send that finds a segment's buffer full holds the execution (R278). -/
def BEnv.sendRoom (e : BEnv) (s : State) : Bool := !e.th.speculative || decide (e.sendsHeld s < Config.segSends)
def BEnv.storeRoom (e : BEnv) : Bool := !e.th.speculative || decide (e.storesHeld < Config.segStores)

def execFork (w : BWord) (s : State) : Out :=
  runBlock (.fork w) s fun e =>
    let n := (field w.imm 13 7).toNat
    let regs := (n, e.a64) :: if e.named 1 then [(n + 1, e.b64)] else []
    let go := fun (fr : Option Nat) =>
      BRes.send 1 1 0 { e.x with
        leaving := e.x.leaving ++ [.fork (immTarget w) regs e.x.tag fr (some e.th.hold) e.idx], frames := e.x.frames ++ fr.toList }
    if e.th.speculative then (if e.sendRoom s then go none else .wait)
    else match e.freeFrame s with
      | none => .line
      | some f => go (some f)

/-! ### Tokens (R272, R273, R371) -/

def execSend (w : BWord) (s : State) : Out :=
  runBlock (.send w) s fun e =>
    let port := (field w.imm 0 4).toNat
    match tileOutEdge s e.th.launch e.x.tile port with
    | none => .poison pILL e.b.addr
    | some ed =>
      let ek := lkEdge e.th.launch ed.num
      let loc := localOut s e.x.tile ek
      let kind := match (field w.imm 4 2).toNat with | 0 => Kind.data | 1 => Kind.head | _ => Kind.endOf
      let tok : Token := ⟨e.x.tag, if loc then e.th.sid else 0, kind, w.ft.getD .i32,
        if e.named 1 then field e.b64 0 16 else 0xFFFF#16, e.a⟩
      if !loc && !e.sendRoom s then .wait
      else .send 1 1 0 { e.x with leaving := e.x.leaving ++ [.send port tok e.idx] }

/-- A brake's token (R11, R371). -/
def brakeToken (tag : Tag) (p : Nat) : Token := ⟨tag, 0, .brake, .i32, 0x0001#16, BitVec.ofNat 512 p⟩
/-- The position level of a brake, and the tokens it covers (R151). -/
def brakePos (t : Token) : Nat := (field t.payload 0 3).toNat
def covered (ws : List Nat) (b : Tag) (p : Nat) (u : Tag) : Bool :=
  decide (p < tagDepth u) && (List.range p).all (fun i => tagLevel ws u i == tagLevel ws b i) && decide (tagLevel ws b p ≤ tagLevel ws u p)

def execSendBrk (w : BWord) (s : State) : Out :=
  runBlock (.sendBrk w) s fun e =>
    let port := (field w.imm 0 4).toNat
    let p := (field w.imm 7 3).toNat
    if e.th.speculative then .wait
    else match tileOutEdge s e.th.launch e.x.tile port with
      | none => .poison pILL e.b.addr
      | some _ =>
        if tagDepth e.x.tag ≤ p then .poison pILL e.b.addr
        else if tagLevel e.widths e.x.tag p + 1 ≥ 2 ^ levelWidth e.widths p then .poison pTAGOVF p
        else
          let tag := setLevel e.widths e.x.tag p (tagLevel e.widths e.x.tag p + 1)
          .send 1 1 0 { e.x with leaving := e.x.leaving ++ [.send port (brakeToken tag p) e.idx] }

/-- The identifier of the tokens a RECV of a thread token may take on an edge, and the oldest of them (R273). -/
def recvSid (s : State) (e : BEnv) (ek : EdgeKey) : BitVec 12 := if localIn s e.x.tile ek then e.th.sid else 0
def recvToken (s : State) (e : BEnv) (ek : EdgeKey) : Option Buffered :=
  s.q.buffers.find? fun b => decide (b.edge = ek) && b.tok.seg == recvSid s e ek
/-- The frame of a START: one reserved when it is its turn, or none for a segment with a send slot free (R254, R273); no answer: it waits. -/
def BEnv.startFrame (e : BEnv) (s : State) : Option (Option Nat) :=
  if e.th.speculative then (if e.sendRoom s then some none else none) else (e.freeFrame s).map some
/-- A token that RECV may not take as it stands: a malformed or missing HEAD, or another format than FT (R39, R273). -/
def recvBad (ft : Option Fmt) (b : Buffered) : Bool := b.bad || match ft with | some f => f != b.tok.ft | none => false
/-- What RECV does with a token it took, or that it waits (none). -/
def recvTake (s : State) (e : BEnv) (ft : Option Fmt) (start : Option Nat) (retag : Bool) (ek : EdgeKey) (b : Buffered) :
    Option Out :=
  let stop := fun (x : Exec) (t : State) => some (if abortRoom s x then Host.Outcome.next t else stay s)
  let (ord, s') := fresh (takeBuffered s b)
  let x' := fun (st : Option (Nat × Option Nat)) => { e.x with
    taken := e.x.taken ++ [⟨ek, b.tok, b.last, b.bad, st, retag, ord⟩], frames := e.x.frames ++ (st.bind (·.2)).toList }
  let t1 : Lanes := (b.tok.valid.setWidth 512) ||| BitVec.ofNat 512 (Fmt.code b.tok.ft * 2 ^ 16 + b.tok.kind.code * 2 ^ 19)
  match b.tok.kind with
  | .poison =>
    if e.th.speculative then stop (x' none) (abortWith s' (x' none) (poisonOf b.tok))
    else stop (x' none) (poisonThread (dropUnissued (dropExec s' e.x.id) e.x) e.th b.tok.tag (poisonOf b.tok) (takenDeltas (x' none)) true)
  | kind =>
    if recvBad ft b then stop (x' none) (abortExec s' (x' none) pFMT (inLoc ek.edge))
    else match start with
      | none => some (fireInto s s' e (x' none) b.tok.payload t1 (some (b.tok.ft, ek.edge)) 0)
      | some entry =>
        match kind with
        | .head => stop (x' none) (abortExec s' (x' none) pFMT (inLoc ek.edge))
        | .endOf => some (fireInto s s' e (x' none) 0 0 none 0)
        | _ => (e.startFrame s).map fun f => fireInto s s' e (x' (some (entry, f))) 1 1 none 0
/-- RECV with and without START (R273). -/
def recvOn (i : Instr) (w : BWord) (start : Option Nat) (s : State) : Out :=
  match blockEnv s i with
  | none => stay s
  | some e =>
    match tileInEdge s e.th.launch e.x.tile (field w.imm 0 4).toNat with
    | none => abortOut s e.x pILL e.b.addr
    | some ed =>
      let ek := lkEdge e.th.launch ed.num
      let port := some (ek, recvSid s e ek)
      if e.th.speculative && !localIn s e.x.tile ek then stay s
      else if !e.turn s port then .next (joinLine s e port)
      else match recvToken s e ek with
        | none => .next (joinLine s e port)
        | some b => match recvTake s e w.ft start (bitAt w.imm 18) ek b with
          | some o => o
          | none => .next (if e.th.speculative then joinLine s e port else joinLine (joinLine s e port) e none)
def execRecv (w : BWord) (s : State) : Out := recvOn (.recv w) w none s
def execRecvStart (w : BWord) (s : State) : Out := recvOn (.recvStart w) w (some (field w.imm 4 13).toNat) s

/-! ### Speculation (R274 to R277) -/

/-- The probability code of a SPAWNP, and its site. -/
def spawnCode (s : State) (e : BEnv) (w : BWord) : Nat × Option Nat :=
  let qs := (field w.imm 13 8).toNat
  match (field w.imm 21 2).toNat with
  | 0 => (qs, none)
  | 1 => (siteCode s e.th.launch (dieOf e.x.tile.stand) qs, some qs)
  | _ => ((field e.b64 0 8).toNat, none)
def execSpawnp (w : BWord) (s : State) : Out :=
  runBlock (.spawnp w) s fun e =>
    let fside := bitAt w.imm 23
    if fside && field e.a64 13 51 != 0 then .poison pILL e.b.addr
    else
      let sides := if fside then 2 else 1
      let die := dieOf e.x.tile.stand
      let chain := match e.th.seg with | some g => g.chain.length | none => 0
      let sids := freeSids s e.x.tile.stand
      let frames := spareFrames s e.x.tile
      let full := e.th.speculative
        && (decide (Config.segSends ≤ e.sendsHeld s) || decide (Config.segStores ≤ e.storesHeld))
      match freeHandle s die with
      | none => e.give64 0
      | some n =>
        if chain = 8 || decide (Config.deckEntries < deckUsed s die + sides) || decide (sids.length < sides)
            || decide (frames.length < sides) || full then e.give64 0
        else
          let h := handleWord s e.th.launch die n
          let (q, site) := spawnCode s e w
          let req : SpawnReq := ⟨h, immTarget w, if fside then some (field e.a64 0 13).toNat else none, q, site,
            frames.take sides, sids.take sides⟩
          .send (BitVec.ofNat 512 h) (BitVec.ofNat 512 h) 0 { e.x with spawns := e.x.spawns ++ [req] }

/-- A RESOLVE or SQUASH of a segment is recorded (R275, R276); else it acts at once, `act` answering whether the handle was
live. -/
def decideOn (i : Instr) (s : State) (rec_ : BEnv → Posted) (act : State → BEnv → State × Bool) : Out :=
  match blockEnv s i with
  | none => stay s
  | some e =>
    if e.th.speculative then fireInto s s e { e.x with recs := e.x.recs ++ [rec_ e] } 1 1 none 0
    else
      let (t, ok) := act s e
      match execOf t e.x.id with
      | none => roomed s t
      | some x =>
        if ok && !unitsFit t then stay s
        else fireInto s t { e with x := x } x (if ok then 1 else 0) (if ok then 1 else 0) none 0
def execResolve (w : BWord) (s : State) : Out :=
  decideOn (.resolve w) s (fun e => .resolve e.a64 (bitAt e.b64 0)) fun s e => resolveHandle s e.th.launch e.a64 (bitAt e.b64 0)
def execSquash (w : BWord) (s : State) : Out :=
  decideOn (.squash w) s (fun e => .squash e.a64) fun s e => squashOne s e.th.launch e.a64
/-- R277. -/
def execLkrd (w : BWord) (s : State) : Out :=
  runBlock (.lkrd w) s fun e =>
    match e.th.seg with
    | some g =>
      if g.chain.isEmpty then e.give64 0
      else e.give64 (BitVec.ofNat 64 (g.lks + g.lkp * 2 ^ 16 + g.chain.length * 2 ^ 32 + g.sid.toNat * 2 ^ 36))
    | none => e.give64 0

/-! ### BARX (R270) -/

/-- BARX becomes a node on SA; its targets receive the new GEN when the swap acknowledges it. -/
def execBarx (w : BWord) (s : State) : Out :=
  match blockEnv s (.barx w) with
  | none => stay s
  | some e =>
    if e.th.speculative then stay s
    else
      let (s, id) := addNode s (.thread e.th.uid) e.x.tile e.th.launch .sa (posOf e.x.id e.idx false) .barx .plain .stand e.epoch
      .next (setExec s { e.mark e.x with waits := e.x.waits ++ [⟨e.idx, [id]⟩], bound := true })

/-! ### System registers (R100 to R103, R280) -/

/-- Capability words from 0x400 on: ID and payload of each record (R103). -/
def capPayload (dies : BitVec 8) : List (Nat × Nat) :=
  [(1, 0xFF + 0x7F * 2 ^ 8), (2, 0xF),
   (3, 1024 + 4096 * 2 ^ 16 + 8 * 2 ^ 32 + 256 * 2 ^ 40),
   (4, 8 + 4096 * 2 ^ 16 + 256 * 2 ^ 32 + 64 * 2 ^ 48 + 16 * 2 ^ 56),
   (5, 2048), (6, 1 + 512 * 2 ^ 16), (7, 7 + 64 * 2 ^ 8 + 8 * 2 ^ 16), (8, 16 + 8 * 2 ^ 8 + 224 * 2 ^ 16),
   (9, 4 + 2 * 2 ^ 4 + dies.toNat * 2 ^ 8 + 8 * 2 ^ 16 + 8 * 2 ^ 20)]
def capWord (dies : BitVec 8) (i : Nat) : Word :=
  let (id, payload) := getAt (capPayload dies) (i / 2) (0, 0)
  if i % 2 = 1 then BitVec.ofNat 64 payload
  else BitVec.ofNat 64 (id * 2 ^ 48 + 2 ^ 40 + 2 ^ 32 + if i / 2 = 8 then 0 else 0x402 + i)
/-- A system register as an execution read it at its start; none: unassigned. -/
def sysRead (s : State) (x : Exec) (part n : Nat) : Option Word :=
  let cap := fun (k : Nat) => getAt x.sys k 0
  if n = 0 then some (BitVec.ofNat 64 (x.tile.stand % 512 + (x.tile.elem - 0x20) * 2 ^ 9 + x.tile.ctx * 2 ^ 10 + part * 2 ^ 12))
  else if n = 1 then some 0x400
  else if n = 8 then some (cap 0)
  else if n = 9 then some (cap 1)
  else if n = 0x10 then some (cap 2)
  else if 0x20 ≤ n && n ≤ 0x2F then some (cap (3 + (n - 0x20)))
  else if 0x400 ≤ n && n ≤ 0x411 then some (capWord (((partOf s part).map (·.dies)).getD 0) (n - 0x400))
  else none
def sysWritable (n : Nat) : Bool := n == 8 || n == 9 || (decide (0x20 ≤ n) && decide (n ≤ 0x2F))
def sysNum (w : BWord) : Nat := (field w.imm 0 12).toNat
def execSysr (w : BWord) (s : State) : Out :=
  runBlock (.sysr w) s fun e =>
    match sysRead s e.x e.th.launch.part (sysNum w) with
    | some v => e.give64 v
    | none => .poison pILL e.b.addr
def execSysw (w : BWord) (s : State) : Out :=
  runBlock (.sysw w) s fun e =>
    if e.th.speculative then .wait
    else match sysRead s e.x e.th.launch.part (sysNum w) with
      | none => .poison pILL e.b.addr
      | some _ =>
        if sysWritable (sysNum w) then .send 1 1 0 { e.x with sysw := e.x.sysw ++ [(sysNum w, e.a64)] }
        else .poison pPERM (sysNum w)

/-! ### TRAP, ECALL, POISON (R281, R282, R343) -/

/-- The record of a TRAP or ECALL (R281, R325): EXTRA holds a, then the block address. -/
def callRec (s : State) (typ : Nat) (tile : EKey) (lk : LKey) (tag : Tag) (code : BitVec 16) (a : Word) (block : Nat) : FaultRec :=
  { simpleRec s lk.part typ (code.toNat % 256) tile.stand tile.elem tile.ctx lk.launch tag code.toNat with
    extra := leBytes 8 a.toNat ++ leBytes 8 block ++ List.replicate 8 0 }
def execTrap (w : BWord) (s : State) : Out :=
  runBlock (.trap w) s fun e =>
    if e.th.speculative then .wait else e.control (.trap (field w.imm 0 16) e.a64) e.x 1
def execEcall (w : BWord) (s : State) : Out :=
  match blockEnv s (.ecall w) with
  | none => stay s
  | some e =>
    if e.th.speculative || (aget s.tiles.ecalls e.x.tile).isSome || !faultRoom s (dieOf e.x.tile.stand) then stay s
    else
      let s := record s (callRec s 5 e.x.tile e.th.launch e.x.tag (field w.imm 0 16) e.a64 e.b.addr)
      let s := { s with tiles := { s.tiles with ecalls := aset s.tiles.ecalls e.x.tile e.x.id } }
      .next (setExec s { e.mark e.x with waits := e.x.waits ++ [⟨e.idx, []⟩], bound := true })
def execPoison (w : BWord) (s : State) : Out :=
  runBlock (.poison w) s fun e =>
    if e.th.speculative then .wait
    else .poison (if e.x.control.isSome then pILL else field w.imm 0 8) e.b.addr

/-! ### QUIES (R283) -/

/-- An element of the stand, other than a block tile, holds a token, a HEAD among them, a firing, pass or pattern of the context. -/
def standBusy (s : State) (stand ctx : Nat) : Bool :=
  let mine := fun (k : EKey) => k.stand == stand && k.ctx == ctx && !isTile k.elem
  s.q.store.any (fun x => mine x.vpe) || s.q.heads.any (fun x => mine x.vpe) || s.q.held.any (fun x => mine x.vpe) || s.q.ends.any (fun x => mine x.vpe)
    || s.firings.any (fun f => mine f.vpe)
    || s.q.owed.any (fun o => mine o.src)
    || s.q.buffers.any (fun b => match consumerOf s b.edge with | .matrix k _ => mine k | _ => false)
    || s.eng.islands.any (fun (k, i) => mine k && i.tiles.any (·.draining))
    || s.eng.commands.any (fun c => mine c.eng && isPattern c.op)
/-- An earlier memory node of the thread token is not yet acknowledged, or not yet made. -/
def BEnv.nodesOpen (e : BEnv) (s : State) : Bool :=
  (s.ord.nodes.any fun n => decide (n.src = .thread e.th.uid) && decide (n.pos < posOf e.x.id e.idx false) && !ackedAt s n .stand)
    || (List.range e.idx).any fun j => !e.x.fired.contains j && !(e.b.deadSet e.x).contains j
      && match e.b.instrs[j]? with
        | some (.fence _) => true
        | some i => !isStore i && (pathOf i).isSome
        | none => false
def execQuies (w : BWord) (s : State) : Out :=
  runBlock (.quies w) s fun e =>
    if e.th.speculative || e.nodesOpen s || standBusy s e.x.tile.stand e.x.tile.ctx then .wait else e.give64 1

/-! ### INVT (R120, R121, R284) -/

/-- Whether a cached translation meets the page of 2^bits bytes at `base`. -/
def transMeets (t : Trans) (bits base : Nat) : Bool :=
  let sz := 2 ^ (match t.level with | 0 => 39 | n => pageBits n)
  decide (t.base < base + 2 ^ bits) && decide (base < t.base + sz)
/-- Cached translations of a partition that meet a page are dropped on the stands and dies in scope, with the L1 copies of
the lines that dropped leaves named; a stand that held none drops every L1 copy of the partition. -/
def dropTranslations (s : State) (part bits base : Nat) (stands : List Nat) (dies : List Nat) : State :=
  let hit := fun (t : Trans) => t.part == part && transMeets t bits base
    && (match t.stand with | some st => stands.contains st | none => dies.contains t.die)
  let dropped := s.mem.trans.filter hit
  let s := withTrans s (s.mem.trans.filter fun t => !hit t)
  let leaves := (dropped.filter fun t => bitAt t.entry 1).map fun t => (entryOA t.entry, 2 ^ pageBits t.level)
  withL1 s (s.mem.l1.filter fun c =>
    !(stands.contains c.stand && c.part == part
      && (!(dropped.any fun t => t.stand == some c.stand)
        || leaves.any fun (oa, sz) => decide (oa ≤ c.line * 128) && decide (c.line * 128 < oa + sz))))
/-- Open not-present faults of the dies in scope close; FAULT_RESUME lets their waiters reissue (R121). -/
def closeOpens (s : State) (part bits base : Nat) (dies : List Nat) : State :=
  setMem s { s.mem with opens := s.mem.opens.filter fun o =>
    !(o.part == part && dies.contains o.die && decide (o.page * 65536 < base + 2 ^ bits) && decide (base < o.page * 65536 + 65536)) }
def standsOf (dies : List Nat) : List Nat := dies.flatMap fun d => (List.range 64).map fun i => 64 * d + i
def diesOf (m : BitVec 8) : List Nat := (List.range 8).filter fun d => bitAt m d
def partDies (s : State) (part : Nat) : List Nat := diesOf (((partOf s part).map (·.dies)).getD 0)
def execInvt (w : BWord) (s : State) : Out :=
  match blockEnv s (.invt w) with
  | none => stay s
  | some e =>
    if e.th.speculative then stay s
    else
      let part := e.th.launch.part
      let bits := match (field w.imm 0 2).toNat with | 0 => 16 | 1 => 21 | 2 => 30 | _ => 64
      let base := e.a64.toNat / 2 ^ bits * 2 ^ bits
      let die := dieOf e.x.tile.stand
      let (stands, dies) := match (field w.imm 2 2).toNat with
        | 0 => ([e.x.tile.stand], [])
        | 1 => (standsOf [die], [die])
        | _ => (standsOf (partDies s part), partDies s part)
      -- the die's translation cache serves the stand's walks, so it loses the page at every scope
      let t := dropTranslations s part bits base stands (if dies.isEmpty then [die] else dies)
      fireInto s (closeOpens t part bits base dies) e e.x 1 1 none 0

end Sys2Proof.Machine
end

