-- ==== Sys2Proof/Machine/BlockMem.lean ====
section
/-! DEFINITION. Block memory (R260 to R266), scratch from a block (R265), sync words (R268, R269), remote stores (R271) and
FENCE (R135). A load, atomic, fence or wait becomes a node of the order machine; a store is posted at the commit (R245). -/

namespace Sys2Proof.Machine

/-- The address of a memory operation: a + sext(OFF), modulo 2^64 (R260). -/
def BEnv.addr (e : BEnv) (w : MWord) : Word := e.a64 + w.off.signExtend 64
/-- The same for scratch, modulo 2^20 (R265). -/
def BEnv.saddr (e : BEnv) (w : MWord) : Nat := (e.addr w).toNat % 2 ^ 20
def mBytes (w : MWord) : Nat := 2 ^ w.sz.val

/-- What a memory instruction comes to when it fires. -/
inductive MRes where
  | node (path : Path) (op : MemOp) (ord : Ord) (binds : Bool)
  | post (p : Posted)
  | done (s : State)           -- it has acted and its targets receive 1
  | poison (code : BitVec 8) (detail : Nat)
deriving DecidableEq, Repr

/-- Run a memory instruction: a node enters its issue queue and is waited for; a posted store joins the execution's stores,
or holds a segment whose buffer is full (R278). -/
def runMem (i : Instr) (scope : Scope) (s : State) (body : BEnv → MRes) : Out :=
  match blockEnv s i with
  | none => stay s
  | some e =>
    match body e with
    | .poison code detail => abortOut s e.x code detail
    | .done t => fireInto s t e e.x 1 1 none 0
    | .post p =>
      if !e.storeRoom then stay s
      else .next (setExec s { e.mark e.x with stores := e.x.stores ++ [p] })
    | .node path op ord binds =>
      let (s, id) := addNode s (.thread e.th.uid) e.x.tile e.th.launch path (posOf e.x.id e.idx false) op ord scope e.epoch
      .next (setExec s { e.mark e.x with waits := e.x.waits ++ [⟨e.idx, [id]⟩], bound := e.x.bound || binds })

/-- Place in source order of a posted store. -/
def BEnv.storePos (e : BEnv) : Nat := posOf e.x.id e.idx true
/-- The low bytes of slot b. -/
def BEnv.data (e : BEnv) (n : Nat) : List Byte := leBytes n e.b'.toNat
/-- An access whose address must be a multiple of its size, else PERM. -/
def aligned (addr n : Nat) (r : MRes) : MRes := if addr % n = 0 then r else .poison pPERM (addr % 2 ^ 32)

def execLd (w : MWord) (s : State) : Out :=
  runMem (.ld w) w.scope s fun e => .node .ls (.load (e.addr w) (mBytes w) w.nc) w.ord false
def execLdv (w : MWord) (s : State) : Out :=
  runMem (.ldv w) w.scope s fun e => .node .ls (.load (e.addr w) (mBytes w) w.nc) w.ord false
def execSt (w : MWord) (s : State) : Out :=
  runMem (.st w) w.scope s fun e => .post (.mem (e.addr w) (e.data (mBytes w)) w.ord w.scope e.storePos)
def execStv (w : MWord) (s : State) : Out :=
  runMem (.stv w) w.scope s fun e => .post (.mem (e.addr w) (e.data (mBytes w)) w.ord w.scope e.storePos)

/-- PREF: no node; the line is brought into L1 under a lease, as a load brings it (R115: a copy within its lease serves), or into L2 only
(R263). -/
def prefetch (s : State) (e : BEnv) (va : Word) (nc : Bool) : State :=
  let part := e.th.launch.part
  match translate s e.x.tile.stand part va true false with
  | (s, .ok x) =>
    let line := x.dpa / 128 * 128
    if x.cache && !nc && (l1Hit s e.x.tile.stand e.x.tile.ctx part x).isSome then s
    else if x.cache && !nc then (homeLoad s part x.key e.x.tile.stand line 128 (lclkOf s e.x.tile.stand e.x.tile.ctx)).1
    else [0, 1].foldl (fun s i => (fetchLine s part x.key (x.dpa / 128) i).1) s
  | _ => s
def execPref (w : MWord) (s : State) : Out :=
  runMem (.pref w) w.scope s fun e => .done (prefetch s e (e.addr w) w.nc)

/-- AMO and FAMO (R264). -/
def BEnv.amoAt (e : BEnv) (w : MWord) : MRes :=
  aligned (e.addr w).toNat (mBytes w) (.node .ls (.amo (e.addr w) (mBytes w) w.aop.toNat e.b64) w.ord true)
def execAmo (w : MWord) (s : State) : Out := runMem (.amo w) w.scope s fun e => e.amoAt w
def execFamo (w : MWord) (s : State) : Out := runMem (.famo w) w.scope s fun e => e.amoAt w
def execCas (w : MWord) (s : State) : Out :=
  runMem (.cas w) w.scope s fun e =>
    aligned (e.addr w).toNat (mBytes w) (.node .ls (.cas (e.addr w) (mBytes w) e.p64 e.b64) w.ord true)

def execSldBlock (w : MWord) (s : State) : Out :=
  runMem (.sldBlock w) w.scope s fun e => .node .sa (.sload (e.saddr w) (mBytes w)) w.ord false
def execSstBlock (w : MWord) (s : State) : Out :=
  runMem (.sstBlock w) w.scope s fun e => .post (.scratch (e.saddr w) (e.data (mBytes w)) w.ord e.storePos)
def execSamoBlock (w : MWord) (s : State) : Out :=
  runMem (.samoBlock w) w.scope s fun e =>
    aligned (e.saddr w) (mBytes w) (.node .sa (.samo (e.saddr w) (mBytes w) w.aop.toNat e.b64) w.ord true)

/-- DLD and DST take consecutive images of 128 bytes (R266). -/
def execDld (w : MWord) (s : State) : Out :=
  runMem (.dld w) w.scope s fun e =>
    aligned (e.addr w).toNat 128 (.node .ls (.load (e.addr w) (128 * (mBytes w)) w.nc) w.ord false)
def execDst (w : MWord) (s : State) : Out :=
  runMem (.dst w) w.scope s fun e =>
    let g := e.group w.aop.toNat (mBytes w)
    let imgs := (List.range (mBytes w)).flatMap fun j => dirImage ⟨(g.comps.drop (32 * j)).take 32, g.norm⟩
    aligned (e.addr w).toNat 128 (.post (.mem (e.addr w) imgs w.ord w.scope e.storePos))

def execSwset (w : MWord) (s : State) : Out :=
  runMem (.swset w) w.scope s fun e => aligned (e.saddr w) 8 (.post (.sync (e.saddr w) e.b64 w.ord w.scope e.storePos))
/-- SWWAIT waits for another generation than g (R269). -/
def execSwwait (w : MWord) (s : State) : Out :=
  runMem (.swwait w) w.scope s fun e =>
    let addr := e.a64.toNat % 2 ^ 20
    aligned addr 8 (.node .sa (.swwait addr (if e.named 1 then field e.b64 0 16 else w.off)) w.ord false)
/-- XST: a[28:20] the target stand (R271); a[63:29] must be 0. -/
def execXst (w : MWord) (s : State) : Out :=
  runMem (.xst w) w.scope s fun e =>
    if field e.a64 29 35 != 0 then .poison pILL e.b.addr
    else
      let addr := ((field e.a64 0 20).setWidth 64 + w.off.signExtend 64 : Word).toNat % 2 ^ 20
      .post (.remote (field e.a64 20 9).toNat addr (e.data (mBytes w)) w.ord w.scope e.storePos)

/-- FENCE (R135); a segment's is recorded in its buffer (R140). -/
def execFence (w : MWord) (s : State) : Out :=
  match blockEnv s (.fence w) with
  | none => stay s
  | some e =>
    let src := field w.off 8 8
    let dst := field w.off 0 8
    if e.th.speculative then
      fireInto s s e { e.x with recs := e.x.recs ++ [.fence src dst w.scope (posOf e.x.id e.idx false)] } 1 1 none 0
    else
      let (s, id) := addNode s (.thread e.th.uid) e.x.tile e.th.launch .sa (posOf e.x.id e.idx false) (.fence src dst) .plain w.scope e.epoch
      .next (setExec s { e.mark e.x with waits := e.x.waits ++ [⟨e.idx, [id]⟩] })

end Sys2Proof.Machine
end

