-- ==== Sys2Proof/Machine/Engines.lean ====
section
/-! DEFINITION. Engine commands (R286, R287): the accesses they make, one at a time and in any order (R126); KV areas and
their maps (R122, R123), page pools (R201), the backfill queue (R155, R156); completion and faults of a command. -/

namespace Sys2Proof.Machine

/-! ### Commands -/

def setCommands (s : State) (cs : List Command) : State := { s with eng := { s.eng with commands := cs } }
def commandOf (s : State) (id : Nat) : Option Command := s.eng.commands.find? fun c => c.id == id
def setCommand (s : State) (c : Command) : State := setCommands s (updIf s.eng.commands (fun d => d.id == c.id) fun _ => c)
def dropCommand (s : State) (id : Nat) : State := setCommands s (s.eng.commands.filter fun c => !(c.id == id))
/-- The engine of an ENG code (R72, R382): a streamer, the island, the spoke port, the switch port (0x1FC, reported as 0xFC),
the die's skidder, the KV state unit. -/
def engineKey (tile : EKey) (eng : Nat) : EKey :=
  match eng with
  | 4 => ⟨tile.stand, 0x28, tile.ctx⟩
  | 5 => ⟨tile.stand, 0xFC, tile.ctx⟩
  | 6 => ⟨tile.stand, 0x1FC, tile.ctx⟩
  | 7 => ⟨64 * dieOf tile.stand, 0xFB, tile.ctx⟩
  | 8 => ⟨tile.stand, 0xFA, tile.ctx⟩
  | e => ⟨tile.stand, 0x30 + e, tile.ctx⟩
def engineOf (tile : EKey) (i : Instr) : EKey := engineKey tile (((eform i).map fun x => x.2.eng.toNat).getD 0)
def engineEq (i : Instr) : BitVec 8 := ((eform i).map fun x => x.2.eq).getD 0
def enginePa (i : Instr) : Nat := ((eform i).map fun x => x.2.pa.toNat).getD 0
/-- A command has made its start. -/
def Command.started (c : Command) : Bool := c.phase != 0 || !c.got.isEmpty || c.count != 0 || c.ended
/-- A command may make accesses: an earlier one of its source thread on the engine has started, and a pattern is the first
of its context on the streamer (R286). -/
def mayRun (s : State) (c : Command) : Bool :=
  !reporting s c.eng.stand c.eng.elem && (s.eng.commands.takeWhile fun d => d.id != c.id).all fun d =>
    d.eng != c.eng || ((d.src != c.src || d.started) && !(isPattern d.op && isPattern c.op))
/-- Bytes of the reads numbered `lo` to `hi` − 1, in order. -/
def Command.bytes (c : Command) (lo hi : Nat) : List Byte :=
  (List.range (hi - lo)).flatMap fun i => (aget c.got (lo + i)).getD []

/-! ### Single accesses -/

/-- What an access of an engine comes to. -/
inductive AccOut where
  | ok (s : State) (bytes : List Byte) (wts : Nat)
  | wait (s : State) (page : Option Nat)
  | fault (s : State) (code : BitVec 8) (detail : Nat)

/-- Who makes the accesses of engine work: its element, launch, tag. -/
structure Who where
  k : EKey
  lk : LKey
  tag : Tag
deriving DecidableEq, Repr
/-- The mark its writes leave (R329). -/
def Who.mark (w : Who) (s : State) : WriteMark := ⟨BitVec.ofNat 8 w.lk.launch, BitVec.ofNat 16 (epochOf s w.lk w.tag)⟩

/-- An access to memory: it waits for a page that is not present, and faults on a permission (R120, R121, R287). -/
def accMem (s : State) (w : Who) (va : Word) (rd wr : Bool) (act : State → Xlat → State × List Byte × Nat) : AccOut :=
  let die := dieOf w.k.stand
  if pageHeld s die w.lk.part va.toNat then .wait s (some va.toNat)
  else if timestampsFull s w.lk.part then .wait s none
  else match translate s w.k.stand w.lk.part va rd wr with
    | (s, .notPresent) => .wait (noteNotPresent s die w.k.stand w.k.elem w.k.ctx w.lk.part w.lk.launch w.tag va.toNat) (some va.toNat)
    | (s, .permission) => .fault (noteVa s w.lk.part va.toNat) pPERM (va.toNat % 2 ^ 32)
    | (s, .ok x) =>
      if 2 ^ 41 ≤ x.dpa && linkLost s w.k.stand then .fault s pLINK (peerPort w.k.stand)
      else
        let (s, bs, wts) := act s x
        .ok s bs wts
/-- A read of bytes within a line; engines carry a clock of 0 (R115). -/
def readMem (s : State) (w : Who) (va : Word) (n : Nat) : AccOut :=
  accMem s w va true false fun s x => homeRead s w.lk.part x.key x.dpa n 0
def writeMem (s : State) (w : Who) (va : Word) (bs : List Byte) : AccOut :=
  accMem s w va false true fun s x =>
    let (s, wts, _) := homeWrite s w.lk.part x.key x.dpa 0 bs (w.mark s)
    (s, [], wts)
/-- An atomic action on `n` bytes within a line: the old bytes are returned (R123, R138). -/
def atomicMem (s : State) (w : Who) (va : Word) (n : Nat) (f : List Byte → List Byte) : AccOut :=
  accMem s w va true true fun s x =>
    let (s, bs, _) := homeRead s w.lk.part x.key x.dpa n 0
    let (s, wts, _) := homeWrite s w.lk.part x.key x.dpa 0 (f bs) (w.mark s)
    (s, bs, wts)
/-- A range read, or written, piece by piece in one action. -/
def readRange (s : State) (w : Who) (va : Word) (n : Nat) : AccOut :=
  (pieces 128 (n / 64 + 2) va.toNat 0 n).foldl (fun acc (o, k) =>
    match acc with
    | .ok s bs t => match readMem s w (va + BitVec.ofNat 64 o) k with
      | .ok s b t' => .ok s (bs ++ b) (max t t')
      | r => r
    | r => r) (.ok s [] 0)
def writeRange (s : State) (w : Who) (va : Word) (bs : List Byte) : AccOut :=
  (pieces 128 (bs.length / 64 + 2) va.toNat 0 bs.length).foldl (fun acc (o, k) =>
    match acc with
    | .ok s r t => match writeMem s w (va + BitVec.ofNat 64 o) ((bs.drop o).take k) with
      | .ok s _ t' => .ok s r (max t t')
      | r => r
    | r => r) (.ok s [] 0)

/-- What a crossbar tells an engine's requests by. -/
def Who.asker (w : Who) : Nat := 2 ^ 64 + w.k.elem
/-- A scratch read or write of an engine, under the region's mode (R109 to R113), through its port (R107, R108): in a clock in which its
banks are not free for it, it is held. -/
def readScratch (s : State) (w : Who) (addr n : Nat) : AccOut :=
  match regionOf s w.k.stand w.k.ctx addr n with
  | none => .fault s pPERM addr
  | some (_, r) =>
    if r.mode = 2 && !(stashReady s w.k.stand w.k.ctx addr n) then .wait s none
    else match serveRange s w.k.stand (physAddr s w.k.stand w.k.ctx addr n false) n w.k.ctx (portOf w.k.elem (sceOf addr)) w.asker with
      | some s => .ok s (loadScratch s w.k.stand addr r n) 0
      | none => .wait (holdBar s w.k.stand (sceOf addr)) none
def writeScratch (s : State) (w : Who) (addr : Nat) (bs : List Byte) : AccOut :=
  match regionOf s w.k.stand w.k.ctx addr bs.length with
  | none => .fault s pPERM addr
  | some (_, r) =>
    if fullInRange s w.k.stand addr bs.length r then .fault s pPERM addr
    else match serveRange s w.k.stand (physAddr s w.k.stand w.k.ctx addr bs.length false) bs.length w.k.ctx (portOf w.k.elem (sceOf addr)) w.asker with
      | some s => .ok (wakeWaiters (storeScratch s w.k.stand addr r bs (w.mark s)) w.k.stand (addr % 2 ^ 20) bs.length) [] 0
      | none => .wait (holdBar s w.k.stand (sceOf addr)) none

/-! ### KV map words (R123) -/

/-- One action on a map word: the old word is returned. A read is no write. -/
def mapAct (s : State) (w : Who) (va : Word) (fields : List Nat) (ev : KvEvent) : AccOut :=
  if ev = .read then readMem s w va 8
  else atomicMem s w va 8 fun bs => leBytes 8 (kvWord ev fields (leNat bs))

/-! ### Page pools (R201) -/

/-- Fields of a pool descriptor: FREE, RESERVE, TOTAL, LISTOFF; none where one is out of range. -/
def poolOf (r : List Byte) : Option (Nat × Nat × Nat × Word) :=
  let free := recNat r 0 4
  let total := recNat r 8 4
  if recZero r 12 4 && recZero r 24 40 && decide (1 ≤ total) && decide (total ≤ 2 ^ 24) && decide (free ≤ total) then
    some (free, recNat r 4 4, total, BitVec.ofNat 64 (recNat r 16 8))
  else none
/-- A pool's descriptor: 64-byte aligned, in a stash region (DEDUCED from R122: PERM where it is not). Its fields are read through its
sector (R111), but FREE at its home, where KVALLOC and KVFREE act (R201; log entry 110). -/
def poolBytes (s : State) (w : Who) (va : Word) (sa : Nat) : AccOut :=
  match regionOf s w.k.stand w.k.ctx sa 64 with
  | none => .fault (noteVa s w.lk.part va.toNat) pPERM (va.toNat % 2 ^ 32)
  | some (_, r) =>
    if r.mode != 2 || va.toNat % 64 != 0 || decide (2 ^ 20 ≤ sa) then .fault (noteVa s w.lk.part va.toNat) pPERM (va.toNat % 2 ^ 32)
    else if !(stashReady s w.k.stand w.k.ctx sa 64) then .wait s none
    else match serveRange s w.k.stand sa 64 w.k.ctx (portOf w.k.elem (sceOf sa)) w.asker with
      | none => .wait (holdBar s w.k.stand (sceOf sa)) none
      | some s => match readMem s w va 4 with
        | .ok s free t => .ok s (free ++ (scratchRead s w.k.stand sa 64).drop 4) t
        | x => x
/-- KVALLOC's action: the pages taken as u32s, or nothing where the reserve forbids it. -/
def takePages (s : State) (w : Who) (va : Word) (sa n : Nat) : AccOut :=
  match poolBytes s w va sa with
  | .ok s r _ =>
    match poolOf r with
    | none => .fault (noteVa s w.lk.part va.toNat) pPERM (va.toNat % 2 ^ 32)
    | some (free, reserve, _, off) =>
      if free < n + reserve then .ok s [] 0
      else match readRange s w (va + off + BitVec.ofNat 64 (4 * (free - n))) (4 * n) with
        | .ok s pages _ => match writeMem s w va (leBytes 4 (free - n)) with
          | .ok s _ t => .ok s pages t
          | x => x
        | x => x
  | x => x
/-- Pages given back to their pool. -/
def pushPages (s : State) (w : Who) (va : Word) (sa : Nat) (pages : List Nat) : AccOut :=
  match poolBytes s w va sa with
  | .ok s r _ =>
    match poolOf r with
    | none => .fault (noteVa s w.lk.part va.toNat) pPERM (va.toNat % 2 ^ 32)
    | some (free, _, total, off) =>
      if total < free + pages.length then .fault (noteVa s w.lk.part va.toNat) pPERM (va.toNat % 2 ^ 32)
      else match writeRange s w (va + off + BitVec.ofNat 64 (4 * free)) (pages.flatMap (leBytes 4)) with
        | .ok s _ _ => writeMem s w va (leBytes 4 (free + pages.length))
        | x => x
  | x => x

/-- Addresses may be read and written: the look of an action on all of them (R121). -/
def reachAll (s : State) (w : Who) (vas : List Word) : AccOut :=
  vas.foldl (fun acc va => match acc with
    | .ok s bs t => match accMem s w va true true fun s _ => (s, [], 0) with
      | .ok s _ _ => .ok s bs t
      | r => r
    | r => r) (.ok s [] 0)
/-- Actions one after another in one step. -/
def allOf (s : State) (xs : List (State → AccOut)) : AccOut :=
  xs.foldl (fun acc f => match acc with
    | .ok s bs t => match f s with
      | .ok s b t' => .ok s (bs ++ b) (max t t')
      | r => r
    | r => r) (.ok s [] 0)
/-- KVFREE's one action (R201, R315): every word it reaches is looked at first; where a layer is FILLING it changes nothing and answers 0;
where the pool has no room it is PERM and changes nothing; else the states become ABSENT, the entries 0xFFFF_FFFF, the pages are pushed, and
it answers 1. -/
def freePages (s : State) (w : Who) (va : Word) (sa : Nat) (pages : List Nat) (words : List (Word × List Nat)) (entries : List Word) : AccOut :=
  match poolBytes s w va sa with
  | .ok s r _ =>
    match poolOf r with
    | none => .fault (noteVa s w.lk.part va.toNat) pPERM (va.toNat % 2 ^ 32)
    | some (free, _, total, off) =>
      if total < free + pages.length then .fault (noteVa s w.lk.part va.toNat) pPERM (va.toNat % 2 ^ 32)
      else
        let list := (List.range pages.length).map fun i => va + off + BitVec.ofNat 64 (4 * (free + i))
        match reachAll s w (words.map (·.1) ++ entries ++ va :: list) with
        | .ok s _ _ =>
          match allOf s (words.map fun x s => mapAct s w x.1 x.2 .read) with
          | .ok s bs _ =>
            let filling := words.zipIdx.any fun (x, i) => x.2.any fun f => kvField (leNat ((bs.drop (8 * i)).take 8)) f == 3
            if filling then .ok s [0] 0
            else match allOf s ((words.map fun x s => mapAct s w x.1 x.2 .free) ++ (entries.map fun e s => writeMem s w e (leBytes 4 noPage))
                ++ (list.zip pages).map (fun x s => writeMem s w x.1 (leBytes 4 x.2)) ++ [fun s => writeMem s w va (leBytes 4 (free + pages.length))]) with
              | .ok s _ t => .ok s [1] t
              | x => x
          | x => x
        | x => x
  | x => x

/-- One access of an engine command. -/
def doAcc (s : State) (w : Who) : Acc → AccOut
  | .rd va n => readMem s w va n
  | .wr va bs => writeMem s w va bs
  | .srd addr n => readScratch s w addr n
  | .swr addr bs => writeScratch s w addr bs
  | .map va fields ev => mapAct s w va fields ev
  | .cas va old new => atomicMem s w va 4 fun bs => if leNat bs = old then leBytes 4 new else bs
  | .take va sa n => takePages s w va sa n
  | .push va sa pages => pushPages s w va sa pages
  | .free va sa pages words entries => freePages s w va sa pages words entries
  | .look => .ok s [] 0

/-- Accesses to a memory range, numbered from `id`, each within a line; and to a scratch range, each within a row. -/
def readsOf (id : Nat) (va : Word) (n : Nat) : List (Nat × Acc) :=
  (pieces 128 (n / 64 + 2) va.toNat 0 n).zipIdx.map fun ((o, k), i) => (id + i, .rd (va + BitVec.ofNat 64 o) k)
def writesOf (id : Nat) (va : Word) (bs : List Byte) : List (Nat × Acc) :=
  (pieces 128 (bs.length / 64 + 2) va.toNat 0 bs.length).zipIdx.map fun ((o, k), i) =>
    (id + i, .wr (va + BitVec.ofNat 64 o) ((bs.drop o).take k))
def sreadsOf (id addr n : Nat) : List (Nat × Acc) :=
  (pieces 64 (n / 32 + 2) addr 0 n).zipIdx.map fun ((o, k), i) => (id + i, .srd ((addr + o) % 2 ^ 20) k)
def swritesOf (id addr : Nat) (bs : List Byte) : List (Nat × Acc) :=
  (pieces 64 (bs.length / 32 + 2) addr 0 bs.length).zipIdx.map fun ((o, k), i) =>
    (id + i, .swr ((addr + o) % 2 ^ 20) ((bs.drop o).take k))

/-! ### The backfill queue (R155, R156, R174) -/

def setBackfill (s : State) (es : List BfEntry) : State := { s with eng := { s.eng with backfill := es } }
def setBf (s : State) (e : BfEntry) : State := setBackfill s (updIf s.eng.backfill (fun x => x.id == e.id) fun _ => e)
def dropBf (s : State) (id : Nat) : State := setBackfill s (s.eng.backfill.filter fun e => !(e.id == id))
def bfRoom (s : State) (die : Nat) : Bool :=
  decide ((s.eng.backfill.filter fun e => e.die == die).length < Config.backfillEntries)
/-- The pointstamp of a deadline step (R174). -/
def deadlineDelta (s : State) (lk : LKey) (dstep : Option Nat) (n : Int) : List Delta :=
  match dstep, launchOf s lk with
  | some d, some l => match l.deadline with
    | some e => [⟨inLoc e, epochTag l.widths d, n⟩]
    | none => []
  | _, _ => []
/-- A queue entry reserved, not yet visible; and made visible: the append, with its deadline's change set (R155, R174). -/
def reserveBf (s : State) (stand : Nat) (lk : LKey) (node : Nat) (a : Area) (sq pos first last : Nat) (tag : Tag)
    (dstep : Option Nat) : State × Nat :=
  let (id, s) := fresh s
  (setBackfill s (s.eng.backfill ++ [⟨id, dieOf stand, a.va, sq, pos, first, last, tag, dstep, node, lk, id, none,
    false, false, a.fields⟩]), id)
def appendBf (s : State) (stand id : Nat) : State :=
  match s.eng.backfill.find? fun e => e.id == id with
  | none => s
  | some e => changeSet (setBf s { e with visible := true }) stand e.launch (deadlineDelta s e.launch e.dstep 1)
/-- A cancelled entry: layers still DEFERRED return to ABSENT, a layer claimed goes on to its finish (R156). The map actions of the
cancellation are made at once at the words' homes. -/
def cancelBf (s : State) (e : BfEntry) : State :=
  let a := areaFrom e.fields
  let w : Who := ⟨⟨64 * e.die, 0xFB, 0⟩, e.launch, e.tag⟩
  let s := match e.claim with
    | some l => setBf s { e with last := l, dstep := none }
    | none => dropBf s e.id
  let s := (List.range (e.last + 1 - e.first)).foldl (fun s i =>
    let (va, f) := a.mapWord e.sq e.pos (e.first + i)
    match atomicMem s w va 8 fun bs =>
        let v := leNat bs
        leBytes 8 (if kvField v f = 2 then v - 2 * 4 ^ f else v) with
    | .ok s _ _ => s
    | .wait s _ => s
    | .fault s _ _ => s) s
  changeSet s (64 * e.die) e.launch (if e.visible then deadlineDelta s e.launch e.dstep (-1) else [])

/-! ### Completion and faults of a command (R286, R287) -/

/-- The output edge configured for a streamer or island context, when it is an edge of the node placed there (R290, R360). -/
def outEdgeOf (s : State) (k : EKey) (lk : LKey) : Option Nat :=
  (launchOf s lk).bind fun l => (l.nodeAt k).bind fun n =>
    (l.edgeRec (if isMatrix k.elem then (mxCfg s k).locD else (strmCfg s k).outloc)).bind fun e =>
      if e.prod = n then some e.num else none
/-- The hold of a pattern: at the input location by which the thread token that issued it entered (R162, R293). -/
def Command.holdDelta (c : Command) (n : Int) : List Delta := if isPattern c.op then [⟨c.hold, c.tag, n⟩] else []
def endHold (s : State) (c : Command) : State := changeSet s c.eng.stand c.launch (c.holdDelta (-1))
/-- A command whose node is performed goes; a pattern without output stays, with its hold, until the node is acknowledged (R293). -/
def leaveEngine (s : State) (c : Command) : State :=
  if isPattern c.op && !hasOutput c.op then setCommand s { c with ended := true, todo := [] } else dropCommand s c.id
/-- A node is acknowledged: the pattern that stayed for it goes with its hold. -/
def ackCommand (s : State) (n : MNode) : State :=
  match s.eng.commands.find? fun c => c.ended && c.node == n.id with
  | some c => endHold (dropCommand s c.id) c
  | none => s
/-- Every access is made: the node is performed, or waits for its sync word's raise. -/
def cmdEnd (s : State) (c : Command) (t0 : Word) (t1 : Half) : State :=
  match nodeById s c.node with
  | none => if hasOutput c.op then dropCommand s c.id else endHold (dropCommand s c.id) c
  | some n =>
    let n := { n with value := t0, sq := t1 }
    match c.sync with
    | some _ => setCommand (setNode s n) { c with ended := true, todo := [] }
    | none => setNode (leaveEngine s c) { n with at_ := .performed }
/-- A fault after acceptance: POISON on the output edge, or the issuing node is contained; the sync word is marked; the
node is acknowledged and nothing further performs. -/
def cmdFault (s : State) (c : Command) (code : BitVec 8) (detail : Nat) : State :=
  let p := ownPoison c.eng code detail
  let s := match c.sync with
    | some a => wakeWaiters (setSync s { syncMark s ⟨c.eng.stand, a⟩ with fault := true }) c.eng.stand a 8
    | none => s
  let s := dropCommand s c.id
  let s := match nodeById s c.node with
    | some n => dropNode (raiseLclk (setAck s ⟨n.src, n.path, n.pos, n.wts⟩) n.key.stand n.key.ctx n.wts) n.id
    | none => s
  match if hasOutput c.op then outEdgeOf s c.eng c.launch else none with
  | some e => sendPoison s c.eng c.launch (nodeOf s c.launch c.eng) [e] c.tag p (c.holdDelta (-1))
  | none => restPoison (endHold s c) c.launch c.blockNode c.tag p
/-- The largest wts that a command's accesses returned (R127, R135). -/
def raiseWts (s : State) (c : Command) (wts : Nat) : State :=
  match nodeById s c.node with
  | some n => setNode s { n with wts := max n.wts wts }
  | none => s
/-- A command's sync word counts the bytes it writes, or, with an output, those it reads and emits (R137, R286). -/
def Command.counts (c : Command) (a : Acc) : Bool :=
  match a with
  | .wr .. => true
  | .rd .. => isPattern c.op && hasOutput c.op
  | _ => false
def Command.count_ (c : Command) (a : Acc) (wts : Nat) : Command := if c.counts a then { c with counted := max c.counted wts } else c
def Command.who (c : Command) : Who := ⟨c.eng, c.launch, c.tag⟩

/-- A raise of a sync word, one action at its bank, its waiters woken or poisoned in it (R194). None: its stash sector must be filled first. -/
def raiseSync (s : State) (stand ctx addr n wts : Nat) (m : WriteMark) : Option State :=
  match regionOf s stand ctx addr 8 with
  | none => some s
  | some (_, r) =>
    if r.mode = 2 && !(stashReady s stand ctx addr 8) then none
    else
      let k : ScratchKey := ⟨stand, addr⟩
      let mk := syncMark s k
      let w := (leWord (loadScratch s stand addr r 8)).toNat
      let count := w % 2 ^ 24
      let target := w / 2 ^ 24 % 2 ^ 24
      let gen := w / 2 ^ 48
      if mk.fault then some s
      else if target < count + n then some (wakeWaiters (setSync s { mk with fault := true }) stand addr 8)
      else
        let new := if count + n = target then (gen + 1) % 2 ^ 16 * 2 ^ 48 + target * 2 ^ 24
          else gen * 2 ^ 48 + target * 2 ^ 24 + (count + n)
        some (wakeWaiters (setSync (storeScratch s stand addr r (leBytes 8 new) m) { mk with stamp := max mk.stamp wts }) stand addr 8)

end Sys2Proof.Machine
end

