-- ==== Sys2Proof/Machine/Patterns.lean ====
section
/-! DEFINITION. Slot tables at work (R180, R181); stream patterns and tensor maps (R288 to R294): their records, their elements,
the accesses that fetch or write them, and the tokens a streamer emits. -/

namespace Sys2Proof.Machine

/-! ### A pattern's elements -/

/-- Bytes of an element and elements in all. -/
def Command.esize (c : Command) : Nat :=
  match c.op with
  | .strmWin _ => ((tmapOf c.rec_).map (·.esize)).getD 1
  | i => ((patOf i c.rec_).map (·.esize)).getD 1
def Command.elems (c : Command) : Nat :=
  match c.op with
  | .strmWin _ => ((tmapOf c.rec_).map fun m => 64 * m.rows).getD 0
  | i => ((patOf i c.rec_).map (·.total)).getD 0
/-- Elements in a token, and tokens in all. -/
def Command.perTok (c : Command) : Nat := 64 / c.esize
def Command.tokens (c : Command) : Nat := (c.elems + c.perTok - 1) / c.perTok
/-- The pieces of an element's bytes in memory, each within a line; accesses 2 and 3 of an element. -/
def elemPiece (va : Word) (n k : Nat) : Option (Nat × Nat) := (pieces 128 2 va.toNat 0 n)[k - 2]?
/-- The address of element i, once its index is known; none for an element that is no memory. -/
def Command.elemVa (c : Command) (i : Nat) : Option Word :=
  match c.op with
  | .strmWin _ => (tmapOf c.rec_).bind fun m => match m.elem i with | .mem va => some va | _ => none
  | op => (patOf op c.rec_).bind fun p =>
      if usesIndex op then (aget c.got (4 * i)).map fun bs => p.addr i (BitVec.ofNat 32 (leNat bs)).toInt
      else some (p.addr i (p.outer i))
/-- Access number 4 i + k of a pattern, k = 0 an index, 1 source bytes, 2 and 3 memory (R126, R289), when it may be made. -/
def Command.patAcc (c : Command) (ahead id : Nat) : Option Acc :=
  let i := id / 4
  let n := c.esize
  if (aget c.got id).isSome || c.elems ≤ i || (hasOutput c.op && (ahead ≤ i / c.perTok || i / c.perTok < c.count)) then none
  else match id % 4 with
    | 0 => (patOf c.op c.rec_).bind fun p => if usesIndex c.op then some (.srd (p.idx + 4 * p.outer i) 4) else none
    | 1 => (patOf c.op c.rec_).bind fun p => if writesMem c.op then some (.srd ((p.src + i * n) % 2 ^ 20) n) else none
    | k => (c.elemVa i).bind fun va => (elemPiece va n k).bind fun (o, m) =>
        let at_ := va + BitVec.ofNat 64 o
        if writesMem c.op then (aget c.got (4 * i + 1)).map fun bs => .wr at_ ((bs.drop o).take m)
        else some (.rd at_ m)
/-- Every memory access of element i is made. -/
def Command.elemDone (c : Command) (i : Nat) : Bool :=
  match c.elemVa i with
  | some va => (List.range (pieces 128 2 va.toNat 0 c.esize).length).all fun k => (aget c.got (4 * i + 2 + k)).isSome
  | none => match c.op with | .strmWin _ => true | _ => false
/-- Every element before the one an access belongs to is fetched or written, and of that element every memory access before it is made: a
fault of the access is one at the stream position (R121). -/
def Command.reachedInOrder (c : Command) (id : Nat) : Bool :=
  let i := id / 4
  let lo := if hasOutput c.op then c.count * c.perTok else 0
  (List.range (i - lo)).all (fun j => c.elemDone (lo + j)) && (id % 4 != 3 || (aget c.got (id - 1)).isSome)
/-- The bytes of element i of a pattern with an output. -/
def Command.elemBytes (c : Command) (i : Nat) : List Byte :=
  match c.op with
  | .strmWin _ => match tmapOf c.rec_ with
    | none => []
    | some m => match m.elem i with
      | .mem _ => c.bytes (4 * i + 2) (4 * i + 4)
      | .fill => m.fill
      | .zero => List.replicate c.esize 0
  | _ => c.bytes (4 * i + 2) (4 * i + 4)
/-- Elements already delivered: sent in a token, or written. -/
def Command.delivered (c : Command) : Nat :=
  if hasOutput c.op then min c.elems (c.count * c.perTok)
  else ((List.range c.elems).filter fun i => c.elemDone i).length

/-! ### What a streamer emits (R289, R292, R293) -/

/-- Format and burst length of a streamer's output (R61). -/
def strmFmt (c : StrmCfg) : Fmt := Fmt.ofCode (field c.outfmt 0 3).toNat
def strmBurst (c : StrmCfg) : Nat := (field c.outfmt 8 4).toNat + 1
/-- Width in bytes an element must be a multiple of. -/
def fmtElemBytes (f : Fmt) : Nat := max 1 (fmtBits f / 8)
/-- The pattern that runs on a streamer's context. -/
def runningPattern (s : State) (k : EKey) : Option Command := s.eng.commands.find? fun c => c.eng == k && isPattern c.op && !c.ended
/-- Tokens ahead of the credits that may be fetched (R61, R293). -/
def Command.ahead (c : Command) (s : State) : Nat :=
  let cr := match outEdgeOf s c.eng c.launch with
    | some e => if credited s (lkEdge c.launch e) then credits s (lkEdge c.launch e) else 0
    | none => 0
  c.count + cr + (strmCfg s c.eng).runahead
/-- Token j of a pattern. -/
def Command.token (c : Command) (ft : Fmt) (j : Nat) : Token :=
  let lo := c.perTok * j
  let n := min c.perTok (c.elems - lo)
  let bs := (List.range n).flatMap fun i => c.elemBytes (lo + i)
  let v : Half := match c.op with
    | .strmWin _ => if ((tmapOf c.rec_).map fun m => m.padding (lo / 64)).getD false then 0 else 0xFFFF#16
    | _ => maskFrom fun l => decide (4 * l < bs.length)
  ⟨c.tag, 0, .data, ft, v, leLanes bs⟩
def Command.headTok (c : Command) (ft : Fmt) : Token :=
  let g := fun lo => BitVec.ofNat 8 (recNat c.rec_ lo 1)
  formHead c.tag 0 ft (g 56) (g 57) (g 57 != 0) ((g 58).setWidth 4) 0
/-- The bytes a pattern has moved (R286). -/
def Command.movedBytes (c : Command) : Nat := c.delivered * c.esize
/-- The next token of a streamer leaves: a HEAD at a burst's start, a DATA, or the END; none: nothing can leave. Tokens fetched before the
access a stalled pattern stands at still leave (R121, R293). -/
def emitOne (s : State) (c : Command) : Option State :=
  match outEdgeOf s c.eng c.launch with
  | none => none
  | some e =>
    let ek := lkEdge c.launch e
    let cfg := strmCfg s c.eng
    let ft := strmFmt cfg
    let start := c.count % strmBurst cfg == 0
    if !mayRun s c || owedBefore s.q.owed ek c.eng 0 || (credited s ek && credits s ek == 0) then none
    else if c.tokens ≤ c.count then
      let t := endToken c.tag ft 0
      let s := changeSet s c.eng.stand c.launch (tokDelta e t 1 ++ c.holdDelta (-1))
      some (cmdEnd (launchTok s ek c.eng t) { c with moved := c.movedBytes } 1 1)
    else
      let lo := c.perTok * c.count
      let fetched := (List.range (min c.perTok (c.elems - lo))).all fun i => c.elemDone (lo + i)
      if start && !mayStart s ek then none
      else if start && fmtHeaded ft && c.aux.isEmpty then
        if fetched then some (setCommand (launchTok s ek c.eng (c.headTok ft)) { c with aux := [1] }) else none
      else if fetched then
        let t := c.token ft c.count
        let s := if start then useRequest s ek else s
        let s := changeSet s c.eng.stand c.launch (tokDelta e t 1)
        let got := c.got.filter fun g => decide (lo + c.perTok ≤ g.1 / 4)
        some (setCommand (launchTok s ek c.eng t) { c with count := c.count + 1, aux := [], got := got })
      else none
/-- A streamer's context has a token to emit. -/
def emitReady (s : State) (k : EKey) : Bool :=
  match runningPattern s k with
  | some c => hasOutput c.op && (emitOne s c).isSome
  | none => false
/-- STREAMER_EMIT, on a granted clock (R180). -/
def execStreamerEmit (s : State) : Out :=
  match s.ctl.focus with
  | .subject (.elem k) =>
    match runningPattern s k with
    | some c =>
      if !hasOutput c.op then stay s
      else match grant s k (emitReady s) with
        | some s => roomed s ((emitOne s c).getD s)
        | none => stay s
    | none => stay s
  | _ => stay s

/-- STRM.STOP at acceptance (R294): the elements delivered; run-ahead discarded, END sent, the sync word due its raise. -/
def stopPattern (s : State) (k : EKey) : State × Nat :=
  match runningPattern s k with
  | none => (s, 0)
  | some c =>
    let n := c.delivered
    let c' := { c with moved := c.movedBytes, todo := [], got := [] }
    match if hasOutput c.op then outEdgeOf s c.eng c.launch else none with
    | some e =>
      let t := endToken c.tag (strmFmt (strmCfg s k)) 0
      let s := changeSet s k.stand c.launch (tokDelta e t 1 ++ c.holdDelta (-1))
      (cmdEnd (mustSend s (lkEdge c.launch e) k t) c' 1 1, n)
    | none => (cmdEnd s c' 1 1, n)
/-- A pattern a brake, containment or drain stops: no END, no raise; its node is acknowledged (R293). -/
def cancelPattern (s : State) (c : Command) : State :=
  let ends := !hasOutput c.op || !c.ended
  match nodeById s c.node with
  | some n =>
    let s := setNode s { n with at_ := .performed, value := 1, sq := 1 }
    if hasOutput c.op then (if ends then endHold (dropCommand s c.id) c else dropCommand s c.id)
    else leaveEngine s { c with got := [] }
  | none => if ends then endHold (dropCommand s c.id) c else dropCommand s c.id
/-- A command that its element's seal stops: a sync word it names has its fault mark set, which poisons the waiters, and its node is
acknowledged (R194, R287, R324). -/
def stopCommand (s : State) (c : Command) : State :=
  cancelPattern (match c.sync with
    | some a => wakeWaiters (setSync s { syncMark s ⟨c.eng.stand, a⟩ with fault := true }) c.eng.stand a 8
    | none => s) c

end Sys2Proof.Machine
end

