-- ==== Sys2Proof/Machine/EngineOps.lean ====
section
/-! DEFINITION. What engine commands do, phase by phase: copies and planes (R295, R296), tile control (R300), spoke reductions
(R301, R302), in-switch reductions (R303 to R306, R347), KV state and backfill (R312 to R317). A phase makes its accesses in any
order (R126); when none is left the command advances. A command that cannot advance yet looks again. -/

namespace Sys2Proof.Machine

/-- A command with a new phase and its accesses. -/
def Command.go (c : Command) (phase : Nat) (todo : List (Nat × Acc)) : Command := { c with phase := phase, todo := todo, got := [] }
/-- The state with a command in a new phase; with no access to make, it looks at once. -/
def goto (s : State) (c : Command) (phase : Nat) (todo : List (Nat × Acc)) : State :=
  setCommand s (c.go phase (if todo.isEmpty then [(0, .look)] else todo))
/-- All bytes read, in the order of their numbers. -/
def Command.allBytes (c : Command) : List Byte :=
  let ids := (c.got.map (·.1)).mergeSort
  ids.flatMap fun i => (aget c.got i).getD []
/-- A command's PERM at a virtual address, which its element keeps for the record. -/
def permVa (s : State) (c : Command) (va : Word) : State := cmdFault (noteVa s c.launch.part va.toNat) c pPERM (va.toNat % 2 ^ 32)
def nodeStand (s : State) (c : Command) : Nat := ((nodeById s c.node).map (·.key.stand)).getD c.eng.stand
def nodeEpoch (s : State) (c : Command) : Nat := ((nodeById s c.node).map (·.epoch)).getD 0

/-! ### CPY (R295) -/

/-- Reads of a copy are numbered by their byte offset, the writes that follow each from 2^30 on. -/
def copyReads (c : CopyRec) : List (Nat × Acc) :=
  if c.srcScratch then (pieces 64 (c.bytes / 32 + 2) c.src.toNat 0 c.bytes).map fun (o, k) => (o, .srd (c.src.toNat + o) k)
  else (pieces 128 (c.bytes / 64 + 2) c.src.toNat 0 c.bytes).map fun (o, k) => (o, .rd (c.src + BitVec.ofNat 64 o) k)
def copyWrites (c : CopyRec) (off : Nat) (bs : List Byte) : List (Nat × Acc) :=
  if c.dstScratch then (swritesOf 0 (c.dst.toNat + off) bs).map fun (i, a) => (2 ^ 30 + off + i, a)
  else (writesOf 0 (c.dst + BitVec.ofNat 64 off) bs).map fun (i, a) => (2 ^ 30 + off + i, a)

/-! ### PLANE (R48, R113, R296) -/

/-- The slot of a plane-store region an address names. -/
def slotOf (s : State) (k : EKey) (addr : Nat) : Option ScratchKey :=
  match regionOf s k.stand k.ctx addr 12288 with
  | some (_, r) => if r.mode = 4 && decide (planeKey k.stand addr r = ⟨k.stand, addr⟩) then some ⟨k.stand, addr⟩ else none
  | none => none
/-- The 12,288 bytes of a slot whose weight (k, n) is `w k n`, a P-bit two's-complement number. -/
def planeBytes (p : Nat) (w : Nat → Nat → Int) : List Byte :=
  let cols := planeCols p
  let rb := cols / 8
  let sz := 12288 / p
  (List.range 12288).map fun i =>
    let pl := min (p - 1) (i / sz)
    let o := i - pl * sz
    let k := o / rb
    if 64 ≤ k then 0
    else BitVec.ofNat 8 ((List.range 8).foldl (fun a t =>
      let n := 8 * (o % rb) + t
      a + if decide (n < cols) && bitAt (BitVec.ofInt p (w k n)) pl then 2 ^ t else 0) 0)
def planeReads (p : PlaneRec) : List (Nat × Acc) :=
  (List.range 64).flatMap fun k => readsOf (k * 16) (p.src + BitVec.ofNat 64 (k * p.pitch)) (planeCols p.planes)
/-- Weight (k, n) as read, before the clamp. -/
def Command.weight (c : Command) (k n : Nat) : Int := (getAt (c.bytes (k * 16) (k * 16 + 16)) n 0).toInt
def planeClamp (p : Nat) (x : Int) : Int := clampInt (-(2 ^ (p - 1) : Nat)) ((2 ^ (p - 1) : Nat) - 1) x

/-! ### The matrix island's tiles (R297, R300) -/

def islandCols (s : State) (k : EKey) : Nat := planeCols (max 1 (mxCfg s k).planes)
def DTile.free (n : Nat) : DTile := ⟨false, false, false, 0, List.replicate (32 * n) 0, List.replicate 32 false, []⟩
def islandOf (s : State) (k : EKey) : Island :=
  agetD s.eng.islands k ⟨[DTile.free (islandCols s k), DTile.free (islandCols s k)], 0, 0, 0, 0, false⟩
def setIsland (s : State) (k : EKey) (i : Island) : State := { s with eng := { s.eng with islands := aset s.eng.islands k i } }
def Island.tile (i : Island) (t : Nat) : DTile := getAt i.tiles t (DTile.free 0)
def Island.setTile (i : Island) (t : Nat) (d : DTile) : Island := { i with tiles := setAt i.tiles t d }
def DTile.empty (d : DTile) : Bool := !d.bound && !d.draining
/-- The tile an EQ field names; 2 is the one that accumulates next (TILEF) or now. -/
def Island.named (i : Island) (eq : Nat) (next : Bool) : Nat :=
  if eq < 2 then eq else if next && (i.tile i.acc).bound then 1 - i.acc else i.acc
/-- A tile begins to drain; the tile that accumulates hands over to the other (R297). -/
def Island.drain (i : Island) (t : Nat) : Island :=
  let i := i.setTile t { i.tile t with draining := true, enders := [] }
  if t = i.acc then { i with acc := 1 - i.acc, n := 0 } else i
/-- The tile whose rows leave next: of two that drain, the one that began first. -/
def Island.draining (i : Island) : Option Nat :=
  if (i.tile i.acc).draining then some i.acc else if (i.tile (1 - i.acc)).draining then some (1 - i.acc) else none
/-- The location of a tile's hold: the input location of the island's A edge (R162). -/
def mxHold (s : State) (k : EKey) : Nat := (mxCfg s k).locA
def tileHold (s : State) (k : EKey) (d : DTile) (n : Int) : List Delta := if d.held then [⟨mxHold s k, d.tag, n⟩] else []
/-- Bytes of a tile's image, and its parts of 24 KiB (R300): offset and scratch address of each row piece. -/
def imageBytes (s : State) (k : EKey) : Nat := 32 * islandCols s k * 4
def imageParts (s : State) (k : EKey) (pa : Nat) : List (Nat × Nat × Nat) :=
  let n := imageBytes s k
  (List.range ((n + 24575) / 24576)).flatMap fun j =>
    (pieces 64 400 pa 0 (min 24576 (n - j * 24576))).map fun (o, m) => (j * 24576 + o, (pa + j * 65536 + o) % 2 ^ 20, m)
/-- An image's parts lie in plain regions. -/
def imageOk (s : State) (k : EKey) (pa : Nat) : Bool :=
  let n := imageBytes s k
  (List.range ((n + 24575) / 24576)).all fun j =>
    match regionOf s k.stand k.ctx ((pa + j * 65536) % 2 ^ 20) (min 24576 (n - j * 24576)) with
    | some (_, r) => r.mode == 0
    | none => false
def laneBytes (xs : List Lane) : List Byte := xs.flatMap fun x => leBytes 4 x.toNat
def bytesLanes (bs : List Byte) : List Lane := (List.range (bs.length / 4)).map fun i => BitVec.ofNat 32 (recNat bs (4 * i) 4)

/-! ### Spoke reductions (R301, R302) -/

/-- The instructions of a block node's code, block by block (R70). -/
def codeInstrs : Nat → List Word → List Instr
  | 0, _ => []
  | _, [] => []
  | fuel + 1, h :: rest =>
    let n := (field h 49 7).toNat
    ((rest.drop 3).take n).filterMap (fun w => match decodeBlock w with | .ok i => some i | .error _ => none)
      ++ codeInstrs fuel (rest.drop (3 + n))
def NodeRec.instrs (n : NodeRec) : List Instr := codeInstrs n.code.length n.code
/-- The stands of a launch whose code holds an instruction. -/
def Launch.standsWith (l : Launch) (p : Instr → Bool) : List Nat :=
  ((l.placed.filter fun x => isTile x.at_.elem && (match l.nodeRec x.node with
    | some n => n.instrs.any p
    | none => false)).map fun x => x.at_.stand).dedup
/-- The members of a reduction: the stands that issue it. -/
def redMembers (l : Launch) (red : Nat) : List Nat :=
  l.standsWith fun i => match i with
    | .rnsum w => w.eq.toNat == red
    | .rnmax w => w.eq.toNat == red
    | _ => false
/-- Whether pair (a, i) wins over (b, j) (R302). -/
def pairWins (a i b j : Lane) : Bool :=
  !isNan32 a && (isNan32 b || decide (orderKey b < orderKey a) || (orderKey a == orderKey b && i.ult j))
/-- Two rows of eight pairs combined. -/
def maxRows (x y : Lanes) : Lanes :=
  lanesFrom fun l =>
    let p := l / 2 * 2
    let w := if pairWins (laneOf y p) (laneOf y (p + 1)) (laneOf x p) (laneOf x (p + 1)) then y else x
    laneOf w l
/-- A pair whose every contribution is a NaN. -/
def maxResult (x : Lanes) : Lanes :=
  lanesFrom fun l => if isNan32 (laneOf x (l / 2 * 2)) then (if l % 2 = 0 then canonNan else 0xFFFFFFFF#32) else laneOf x l
def sumRows (x y : Lanes × FlagSet) : Lanes × FlagSet :=
  (lanesFrom fun l => (fAdd (laneOf x.1 l) (laneOf y.1 l) rneCtx).bits,
   (List.range 16).foldl (fun f l => f ||| (fAdd (laneOf x.1 l) (laneOf y.1 l) rneCtx).fl) (x.2 ||| y.2))
/-- A package router's neighbour to the west, north, east and south (R6). -/
def routerWest (r : Nat) : Option Nat := if r % 64 = 0 then none else some (r - 1)
def routerNorth (r : Nat) : Option Nat := if r < 64 then none else some (r - 64)
def routerEast (r : Nat) : Option Nat := if r % 64 = 63 then none else some (r + 1)
def routerSouth (r : Nat) : Option Nat := if r < 1984 then some (r + 64) else none
/-- The ports of a router in the order of R12. -/
def routerPorts (r : Nat) : List Nat := [routerWest r, routerNorth r, routerEast r, routerSouth r].filterMap id
/-- The four routers of a package stand (R6). -/
def routersOf (stand : Nat) : List Nat :=
  let x := 16 * (dieOf stand % 4) + 2 * (stand % 8)
  let y := 16 * (dieOf stand / 4) + 2 * (stand % 64 / 8)
  [64 * y + x, 64 * y + x + 1, 64 * (y + 1) + x, 64 * (y + 1) + x + 1]
/-- A router of the tree leads to its root. -/
def spokeReaches (t : SpokeTree) : Nat → Nat → Bool
  | 0, _ => false
  | fuel + 1, r => r == t.root || (match aget t.links r with | some p => spokeReaches t fuel p | none => false)
/-- A tree over the members of a reduction (R12, R301): each enters once, at a router of its stand; every other router sends to one
neighbour; all lead to the one root. -/
def spokeOk (t : SpokeTree) (members : List Nat) : Bool :=
  let enters := t.entries.map (·.1)
  let inner := t.links.map (·.1)
  decide (enters.Nodup) && members.all enters.contains && enters.all members.contains
    && t.entries.all (fun x => (routersOf x.1).contains x.2 && spokeReaches t (t.links.length + 1) x.2)
    && decide (inner.Nodup) && !inner.contains t.root
    && t.links.all fun x => (routerPorts x.1).contains x.2 && spokeReaches t (t.links.length + 1) x.1
/-- What a router's combine unit sends on: the local stand first, then the ports, left to right (R12). -/
def spokeSum (t : SpokeTree) (row : Nat → Lanes) : Nat → Nat → Option (Lanes × FlagSet)
  | 0, _ => none
  | fuel + 1, r =>
    let local_ := ((t.entries.find? fun x => x.2 == r).map fun x => (row x.1, (0 : FlagSet))).toList
    let ports := (routerPorts r).filterMap fun q => if aget t.links q = some r then spokeSum t row fuel q else none
    match local_ ++ ports with
    | [] => none
    | x :: rest => some (rest.foldl sumRows x)
/-- The rows combined at the root. -/
def treeSum (row : Nat → Lanes) (t : SpokeTree) : Lanes × FlagSet := (spokeSum t row (t.links.length + 1) t.root).getD (0, 0)
def Launch.treeOf (l : Launch) (red : Nat) : Option SpokeTree := l.place.bind fun r => r.trees.find? fun t => t.red == red
def setSpokes (s : State) (xs : List Contribution) : State := { s with eng := { s.eng with spokes := xs } }
/-- A reduction whose members have all contributed is written back to every member (R301); none: it waits for one, or for room for its
flags in a member's shadows (R199). -/
def spokeResult (s : State) (lk : LKey) (red : Nat) : Option State :=
  match launchOf s lk with
  | none => none
  | some l =>
    let mine := s.eng.spokes.filter fun c => c.launch == lk && c.red == red
    if !((redMembers l red).all fun st => mine.any fun c => c.stand == st) then none
    else
      let row := fun st => ((mine.find? fun c => c.stand == st).map (·.row)).getD 0
      let isMax := (mine.head?.map (·.isMax)).getD false
      let (out, fl) := if isMax then (maxResult (mine.foldl (fun a c => maxRows a c.row) ((mine.head?.map (·.row)).getD 0)), (0 : FlagSet))
        else ((l.treeOf red).map (treeSum row)).getD (0, 0)
      let full := mine.any fun c => (s.eng.commands.find? fun d => d.node == c.node).any fun d =>
        flagsWait s c.stand d.eng.ctx (nodeEpoch s d) fl
      if full then none
      else
      let s := setSpokes s (s.eng.spokes.filter fun c => !(c.launch == lk && c.red == red))
      some <| mine.foldl (fun s c => match s.eng.commands.find? fun d => d.node == c.node with
        | none => s
        | some d =>
          let s := match regionOf s c.stand d.eng.ctx c.addr 64 with
            | some (_, r) => storeScratch s c.stand c.addr r (leBytes 64 out.toNat) (d.who.mark s)
            | none => s
          cmdEnd (raiseFlags s c.stand d.eng.ctx (nodeEpoch s d) fl) d 1 1) s

/-! ### In-switch reductions (R303 to R306, R347) -/

def setSlots (s : State) (xs : List SwSlot) : State := { s with eng := { s.eng with slots := xs } }
def slotBy (s : State) (h : Word) : Option SwSlot := s.eng.slots.find? fun x => x.handle == h.toNat
def setSlot (s : State) (x : SwSlot) : State := setSlots s (updIf s.eng.slots (fun y => y.handle == x.handle) fun _ => x)
/-- A slot is closed once every contributor is in or its deadline has passed. -/
def SwSlot.isClosed (x : SwSlot) (now : Nat) : Bool := x.closed.isSome || decide (x.deadline ≤ now)
/-- A handle number no slot uses, from the switch's own choice on (log entry 25). -/
def pickHandle (s : State) : Nat :=
  let used := s.eng.slots.map (·.handle)
  let start := Config.slotHandle s.ctl.freeCtr % 65535
  ((List.range 257).map fun i => (start + i) % 65535 + 1).find? (fun h => !used.contains h) |>.getD 1
/-- XRSLOT at the switch: T0 and T1. -/
def joinSlot (s : State) (part die : Nat) (w : SwRec) : State × Nat × Nat :=
  if !s.eng.switchUp.contains (part, die) then (s, 0, 1)
  else match s.eng.slots.find? fun x => x.key == w.key with
    | some x =>
      if x.ncontrib = w.ncontrib && x.op = w.op && x.nanr = w.nanr && x.count = w.count then (s, x.handle, 0) else (s, 0, 2)
    | none =>
      if Config.switchSlots ≤ s.eng.slots.length then (s, 0, 1)
      else
        let h := pickHandle s
        let s := { s with ctl := { s.ctl with freeCtr := s.ctl.freeCtr + 1 } }
        let dl := s.ctl.clock + w.deadline * Config.cyclesPerUs s.host.hot
        (setSlots s (s.eng.slots ++ [⟨h, w.key, w.ncontrib, w.op, w.nanr, w.count, s.ctl.clock, dl, none, [], []⟩]), h, 0)
/-- XRED at the switch: T0 and T1. -/
def contribute (s : State) (h : Word) (w : SwRec) (xs : List Lane) : State × Nat × Nat :=
  match slotBy s h with
  | none => (s, 0, 4)
  | some x =>
    if x.isClosed s.ctl.clock then (setSlot s { x with closed := some (x.closed.getD x.deadline) }, 0, 2)
    else if x.contribs.any fun c => c.1 == w.index then (s, 0, 3)
    else
      let x := { x with contribs := x.contribs ++ [(w.index, xs)] }
      (setSlot s { x with closed := if x.contribs.length = x.ncontrib then some s.ctl.clock else none }, 1, 0)
/-- Element j of a slot's result, in increasing index (R306). -/
def slotElem (x : SwSlot) (j : Nat) : Lane :=
  let all := (List.range x.ncontrib).filterMap fun i => (aget x.contribs i).bind fun xs => xs[j]?
  let real := if x.nanr = 1 then all.filter fun v => !isNan32 v else all
  match if x.nanr = 0 then all.find? isNan32 else none with
  | some v => quiet v
  | none => match real with
    | [] => canonNan
    | v :: vs =>
      let ab := fun (v : Lane) => v &&& 0x7FFFFFFF#32
      match x.op with
      | 0 => vs.foldl (fun r v => (fAdd r v rneCtx).bits) v
      | 1 => vs.foldl (fun r v => (fMinMax true r v).bits) v
      | _ => vs.foldl (fun r v => (fMinMax true r (ab v)).bits) (ab v)
def slotResult (x : SwSlot) : List Byte := laneBytes ((List.range x.count).map (slotElem x))
def SwSlot.bitmap (x : SwSlot) : Word := BitVec.ofNat 64 ((x.contribs.map fun c => 2 ^ c.1).foldl (· + ·) 0)
/-- A contributor has collected; the slot is free once all have (R306). -/
def collectSlot (s : State) (x : SwSlot) (index : Nat) : State :=
  let x := { x with collected := if x.collected.contains index then x.collected else x.collected ++ [index] }
  if x.ncontrib ≤ x.collected.length then setSlots s (s.eng.slots.filter fun y => y.handle != x.handle) else setSlot s x

/-! ### KV entries (R312 to R317) -/

def mapAccs (ws : List (Word × List Nat)) (ev : KvEvent) : List (Nat × Acc) := ws.zipIdx.map fun ((va, fs), i) => (i, .map va fs ev)
/-- The states seen by a phase's map accesses, in order. -/
def Command.states (c : Command) (ws : List (Word × List Nat)) : List Nat :=
  ws.zipIdx.flatMap fun ((_, fs), i) => fs.map fun f => kvField (leNat ((aget c.got i).getD [])) f
def Command.word (c : Command) (id : Nat) : Nat := leNat ((aget c.got id).getD [])
/-- The entry's table read, then its data at the page read. -/
def Area.tableAcc (a : Area) (sq pos : Nat) : List (Nat × Acc) := readsOf 0 (a.tableVa sq (pos / 2 ^ a.ppg)) 4
/-- The counts of a launch on their way to its landing: in the units, the batches, the die hubs, and what those have merged (R163). -/
def movingCounts (s : State) (lk : LKey) : List Delta :=
  (s.fr.units.filter fun u => decide (u.launch = lk)).flatMap FUnit.entries
    ++ (s.fr.batches.filter fun b => decide (b.launch = lk)).flatMap (·.entries)
    ++ (s.fr.hubs.filter fun h => decide (h.launch = lk)).flatMap (·.buf)
    ++ (s.fr.merges.filter fun b => decide (b.launch = lk)).flatMap (·.entries)
/-- The deadline location holds an element at or below an epoch (R314): one of its record, or an entry whose +1 has been made and has not
been taken back, wherever on its way to the landing either count stands. R380 forbids a reader that passes before that +1 lands (DEDUCED, log entry 130). -/
def deadlineHeld (s : State) (lk : LKey) (epoch : Nat) : Bool :=
  match launchOf s lk with
  | none => false
  | some l => match l.deadline, s.fr.landings.find? fun x => x.launch == lk with
    | some e, some ld =>
      let due := fun (t : Tag) => tagLe l.widths t (epochTag l.widths epoch)
      (ld.records.any fun r => r.loc == inLoc e && r.tags.any due)
        || (netAll ld.counts (movingCounts s lk)).any fun d => d.loc == inLoc e && due d.tag && decide (0 < d.d)
    | _, _ => false
def poolVa (a : Area) : Word := a.va + a.pool
/-- The scratch address of the pool's descriptor. -/
def poolSa (c : Command) (a : Area) : Nat := offsetAddr (enginePa c.op) a.pool

/-- The backfill entry whose claim a KVST.fin finishes. -/
def claimOf (s : State) (a : Area) (sq pos l : Nat) : Option BfEntry :=
  s.eng.backfill.find? fun e => e.kvd == a.va && e.sq == sq && e.pos == pos && e.claim == some l
/-- A finished layer: the next may be claimed, or the entry goes with its deadline count (R155, R174). -/
def finishLayer (s : State) (e : BfEntry) (l : Nat) : State :=
  let s := { s with eng := { s.eng with claimOrder := s.eng.claimOrder.filter fun i => i != e.id } }
  if l = e.last then changeSet (dropBf s e.id) (64 * e.die) e.launch (deadlineDelta s e.launch e.dstep (-1))
  else setBf s { e with first := l + 1, claim := none, delivered := true }

/-- KVST and KVST.fin. aux: the area. -/
def advKvst (s : State) (c : Command) (fin : Bool) : Option State :=
  let a := areaFrom c.aux
  let sq := kvS c.a
  let pos := kvP c.a
  let l := (field c.a 32 8).toNat
  let src := c.b.toNat % 2 ^ 20
  let data := fun (s : State) => goto s c 2 (sreadsOf 0 src a.ebytes)
  match c.phase with
  | 0 => some (if fin then goto s c 1 [(0, a.mapAcc sq pos l .read)] else data s)
  | 1 => some (if kvField (c.word 0) (a.mapWord sq pos l).2 = 3 then data s else permVa s c (a.mapWord sq pos l).1)
  | 2 => some (setCommand s { c with phase := 3, todo := (a.tableAcc sq pos).map fun (i, x) => (2 ^ 20 + i, x) })
  | 3 =>
    let page := leNat (c.bytes (2 ^ 20) (2 ^ 20 + 2))
    if page = noPage then some (permVa s c (a.tableVa sq (pos / 2 ^ a.ppg)))
    else some (goto s c 4 (writesOf 0 (a.entryVa page pos l) (c.bytes 0 (2 ^ 20))))
  | 4 => some (goto s c 5 [(0, a.mapAcc sq pos l (if fin then .finish else .store))])
  | 5 =>
    let st := kvField (c.word 0) (a.mapWord sq pos l).2
    if fin then
      let s := match claimOf s a sq pos l with
        | some e => finishLayer s e l
        | none => s
      some (cmdEnd s c 1 1)
    else if st = 3 then some (goto s c 6 [(0, a.mapAcc sq pos l .read)])
    else some (cmdEnd s c 1 1)
  | _ => some (if kvField (c.word 0) (a.mapWord sq pos l).2 = 3 then goto s c 6 [(0, a.mapAcc sq pos l .read)] else data s)

/-- KVLD (R313, R314). aux: the area; count: layers below l tried; moved: the state seen at l. -/
def advKvld (s : State) (c : Command) : Option State :=
  let a := areaFrom c.aux
  let sq := kvS c.a
  let pos := kvP c.a
  let l := (field c.a 32 8).toNat
  let eq := (engineEq c.op).toNat
  let rdMap := fun (c : Command) (s : State) (j : Nat) => goto s c 1 [(0, a.mapAcc sq pos j .read)]
  let status := fun (st w m lay : Nat) => BitVec.ofNat 64 (st + 4 * w + 8 * m + 256 * lay)
  match c.phase with
  | 0 => if eq / 4 % 2 = 1 && deadlineHeld s c.launch (nodeEpoch s c) then none else some (rdMap c s l)
  | 1 =>
    let j := l - c.count
    let st := kvField (c.word 0) (a.mapWord sq pos j).2
    let seen := if c.count = 0 then st else c.moved
    let c := { c with moved := seen }
    if st = 1 then some (goto s c 2 (a.tableAcc sq pos))
    else if c.count = 0 && st = 0 then some (cmdEnd s c (status 0 0 0 l) 1)
    else match eq % 4 with
      | 0 => some (rdMap c s l)
      | 1 => if j = 0 then some (cmdEnd s c (status seen 0 1 l) 1) else some (rdMap { c with count := c.count + 1 } s (j - 1))
      | _ => some (cmdEnd s c (status seen 0 1 l) 1)
  | 2 =>
    let page := leNat (c.bytes 0 2)
    let j := l - c.count
    if page = noPage then some (permVa s c (a.tableVa sq (pos / 2 ^ a.ppg)))
    else some (goto s c 3 (readsOf 0 (a.entryVa page pos j) a.ebytes))
  | 3 => some (goto s c 4 (swritesOf 0 (c.b.toNat % 2 ^ 20) c.allBytes))
  | _ => some (cmdEnd s c (status c.moved 1 0 (l - c.count)) 1)

/-- KVALLOC (R315). aux: the area, then the pages taken; count: entries written. -/
def advKvalloc (s : State) (c : Command) : Option State :=
  let a := areaFrom (c.aux.take 10)
  let sq := kvS c.a
  let j := kvP c.a
  let n := (field c.a 32 16).toNat
  let pages := c.aux.drop 10
  let cas := fun (c : Command) (s : State) (i : Nat) => goto s c 2 [(0, .cas (a.tableVa sq (j + i)) noPage (getAt pages i 0))]
  match c.phase with
  | 0 => some (goto s c 1 [(0, .take (poolVa a) (poolSa c a) n)])
  | 1 =>
    let got := bytesLanes ((aget c.got 0).getD [])
    if got.isEmpty then some (cmdEnd s c 0 1)
    else
      let c := { c with aux := a.fields ++ got.map (·.toNat) }
      some (goto s c 2 [(0, .cas (a.tableVa sq j) noPage ((got.headD 0).toNat))])
  | 2 =>
    if c.word 0 = noPage then
      let k := c.count + 1
      if k = n then some (cmdEnd s c (BitVec.ofNat 64 n) 0) else some (cas { c with count := k } s k)
    else some (goto s c 3 ((List.range c.count).flatMap fun i => (writesOf (2 * i) (a.tableVa sq (j + i)) (leBytes 4 noPage))))
  | 3 => some (goto s c 4 [(0, .push (poolVa a) (poolSa c a) pages)])
  | _ => some (permVa s c (a.tableVa sq (j + c.count)))

/-- KVFREE (R315): its entries are read, and once no layer of their positions is FILLING one action clears them and gives their pages back
(R201). aux: the area, then the pages found. -/
def advKvfree (s : State) (c : Command) : Option State :=
  let a := areaFrom (c.aux.take 10)
  let sq := kvS c.a
  let j := kvP c.a
  let n := (field c.a 32 16).toNat
  let pages := c.aux.drop 10
  let lo := (a.pagePos j).1
  let hi := (a.pagePos (j + n - 1)).2
  let ws := a.wordsOf sq lo hi
  let free := fun pages => [(0, Acc.free (poolVa a) (poolSa c a) pages ws ((List.range n).map fun i => a.tableVa sq (j + i)))]
  match c.phase with
  | 0 => some (goto s c 1 (readsOf 0 (a.tableVa sq j) (4 * n)))
  | 1 =>
    let got := (bytesLanes c.allBytes).map (·.toNat)
    if got.any (· == noPage) then some (permVa s c (a.tableVa sq j))
    else some (goto s { c with aux := a.fields ++ got } 2 (free got))
  | _ =>
    if c.word 0 = 0 then some (goto s c 2 (free pages))
    else
      let mine := s.eng.backfill.filter fun e => e.kvd == a.va && e.sq == sq && decide (lo ≤ e.pos) && decide (e.pos < hi)
      some (cmdEnd (mine.foldl cancelBf s) c (BitVec.ofNat 64 n) 1)

/-- BFQ (R316). aux: the area; count: the entry reserved for it. -/
def advBfq (s : State) (c : Command) : Option State :=
  let a := areaFrom c.aux
  let sq := kvS c.a
  let pos := kvP c.a
  let lo := (field c.b 0 8).toNat
  let hi := (field c.b 8 8).toNat
  let d := (field c.b 16 16).toNat
  let ws := a.words sq pos lo hi
  let stand := nodeStand s c
  match c.phase with
  | 0 =>
    if !bfRoom s (dieOf c.eng.stand) then some (cmdEnd (bumpPerf s stand 11 1) c 0 1)
    else
      let dstep := if d = 0xFFFF then none else some (nodeEpoch s c + d)
      let (s, id) := reserveBf s stand c.launch c.blockNode a sq pos lo hi c.tag dstep
      some (goto s { c with count := id } 1 (mapAccs ws .read))
  | 1 =>
    if (c.states ws).all (· == 1) then some (cmdEnd (dropBf s c.count) c 2 1)
    else some (goto s c 2 (mapAccs ws .exit))
  | _ => some (cmdEnd (appendBf s stand c.count) c 1 1)
/-- BFWAIT (R317). -/
def advBfwait (s : State) (c : Command) : Option State :=
  let a := areaFrom c.aux
  let ws := a.words (kvS c.a) (kvP c.a) (field c.b 0 8).toNat (field c.b 8 8).toNat
  if c.phase = 0 || (c.states ws).any (fun st => decide (2 ≤ st)) then some (goto s c 1 (mapAccs ws .read))
  else some (cmdEnd s c 1 1)

/-! ### The phases of every command -/

def advCpy (s : State) (c : Command) : Option State :=
  match copyOf c.rec_ with
  | none => none
  | some r =>
    if c.phase = 0 && r.bytes != 0 then some (goto s c 1 (copyReads r))
    else some (cmdEnd s { c with moved := r.bytes } 1 1)
def advPlane (s : State) (c : Command) : Option State :=
  match planeOf c.rec_ with
  | none => none
  | some p =>
    let k : ScratchKey := ⟨c.eng.stand, p.slot⟩
    let ctx := c.eng.ctx
    match c.phase with
    | 0 => if planeFull s k then none else some (goto s c 1 (planeReads p))
    | 1 =>
      let sat := (List.range 64).any fun r => (List.range (planeCols p.planes)).any fun n =>
        planeClamp p.planes (c.weight r n) != c.weight r n
      let fl := if sat then fSAT else 0
      if flagsWait s c.eng.stand ctx (nodeEpoch s c) fl then none
      else
        let bs := planeBytes p.planes fun r n => planeClamp p.planes (c.weight r n)
        some (goto (raiseFlags s c.eng.stand ctx (nodeEpoch s c) fl) c 2 (swritesOf 0 p.slot bs))
    | _ =>
      let s := setMem s { s.mem with planes := s.mem.planes ++ [⟨k, p.swz, p.scale, p.refine, p.refine != 0⟩] }
      some (cmdEnd s { c with moved := 12288 } 1 1)
def advTilef (s : State) (c : Command) : Option State :=
  let i := islandOf s c.eng
  let t := i.named (engineEq c.op).toNat true
  match c.phase with
  | 0 => if (i.tile t).empty then
      some (goto s c 1 ((imageParts s c.eng (enginePa c.op)).map fun (o, a, m) => (o, .srd a m))) else none
  | _ =>
    if (i.tile t).empty then
      let d : DTile := ⟨true, false, false, c.tag, bytesLanes c.allBytes, List.replicate 32 false, []⟩
      let i := i.setTile t d
      some (cmdEnd (setIsland s c.eng (if t = i.acc then { i with n := 0 } else i)) c 1 1)
    else none
/-- TILEE (R300). A tile that it has marked drains, or is emptied, in its own time: the mark is then gone. -/
def advTilee (s : State) (c : Command) : Option State :=
  let i := islandOf s c.eng
  let t := if c.phase = 0 then i.named (engineEq c.op).toNat false else c.count
  let d := i.tile t
  if c.phase != 0 then
    if !d.enders.contains c.id then some (cmdEnd s c 1 1)
    else if t != i.acc || i.n % 32 = 0 then some (cmdEnd (setIsland s c.eng (i.drain t)) c 1 1)
    else none
  else if !d.bound || d.draining then some (cmdEnd s c 1 1)
  else if t != i.acc || i.n % 32 = 0 then some (cmdEnd (setIsland s c.eng (i.drain t)) c 1 1)
  else some (goto (setIsland s c.eng (i.setTile t { d with enders := d.enders ++ [c.id] })) { c with count := t } 1 [])
def advMxrd (s : State) (c : Command) : Option State :=
  let i := islandOf s c.eng
  let bs := laneBytes (i.tile (i.named (engineEq c.op).toNat false)).acc
  if c.phase = 0 then
    some (goto s c 1 ((imageParts s c.eng (enginePa c.op)).map fun (o, a, m) => (o, .swr a ((bs.drop o).take m))))
  else some (cmdEnd s c 1 1)
def advMxclr (s : State) (c : Command) : Option State :=
  let i := islandOf s c.eng
  let t := i.named (engineEq c.op).toNat false
  let d := i.tile t
  let i' := i.setTile t (DTile.free (islandCols s c.eng))
  let i' := if t = i.acc then { i' with n := 0 } else i'
  let s := changeSet s c.eng.stand c.launch (tileHold s c.eng d (-1))
  some (cmdEnd (setIsland s c.eng (if i.draining = some t then { i' with drained := 0 } else i')) c 1 1)
def advXrslot (s : State) (c : Command) : Option State :=
  (swOf c.rec_).map fun w =>
    let (s, t0, t1) := joinSlot s c.launch.part (dieOf c.eng.stand) w
    cmdEnd s c (BitVec.ofNat 64 t0) (BitVec.ofNat 16 t1)
def advXred (s : State) (c : Command) : Option State :=
  (swOf c.rec_).map fun w =>
    if c.phase = 0 then goto s c 1 (readsOf 0 w.src (4 * w.count))
    else
      let (s, t0, t1) := contribute s c.a w (bytesLanes c.allBytes)
      cmdEnd s c (BitVec.ofNat 64 t0) (BitVec.ofNat 16 t1)
/-- XRWAIT. aux: the bitmap and status of the result being written. -/
def advXrwait (s : State) (c : Command) : Option State :=
  match swOf c.rec_ with
  | none => none
  | some w =>
    if c.phase = 0 then
      match slotBy s c.a with
      | none => some (cmdEnd s c 0 2)
      | some x =>
        if !x.isClosed s.ctl.clock then none
        else
          let x := { x with closed := some (x.closed.getD x.deadline) }
          let s := collectSlot (setSlot s x) x w.index
          if x.contribs.isEmpty then some (cmdEnd s c 0 3)
          else
            let c := { c with aux := [x.bitmap.toNat, if x.contribs.length = x.ncontrib then 0 else 1] }
            some (goto s c 1 (writesOf 0 w.dst (slotResult x)))
    else some (cmdEnd s c (BitVec.ofNat 64 (getAt c.aux 0 0)) (BitVec.ofNat 16 (getAt c.aux 1 0)))
/-- RNSUM and RNMAX (R301): the row was read at acceptance; a second contribution of the stand waits for the next generation. -/
def advRn (s : State) (c : Command) (isMax : Bool) : Option State :=
  let red := (engineEq c.op).toNat
  match c.phase with
  | 0 =>
    if s.eng.spokes.any fun x => x.launch == c.launch && x.red == red && x.stand == c.eng.stand then none
    else some (goto (setSpokes s (s.eng.spokes ++ [⟨c.launch, red, c.eng.stand, c.node, isMax, enginePa c.op, leLanes (c.bytes 0 1)⟩])) c 1 [])
  | _ => spokeResult s c.launch red

/-- What a command does when no access of its phase is left; none: it cannot go on yet. -/
def advance_ (s : State) (c : Command) : Option State :=
  match c.op with
  | .cpy _ => advCpy s c
  | .plane _ => advPlane s c
  | .tilef _ => advTilef s c
  | .tilee _ => advTilee s c
  | .mxrd _ => advMxrd s c
  | .mxclr _ => advMxclr s c
  | .xrslot _ => advXrslot s c
  | .xred _ => advXred s c
  | .xrwait _ => advXrwait s c
  | .rnsum _ => advRn s c false
  | .rnmax _ => advRn s c true
  | .kvst _ => advKvst s c false
  | .kvstFin _ => advKvst s c true
  | .kvld _ => advKvld s c
  | .kvalloc _ => advKvalloc s c
  | .kvfree _ => advKvfree s c
  | .bfq _ => advBfq s c
  | .bfwait _ => advBfwait s c
  | _ => none

/-! ### Performing an access -/

/-- A fault of a command, with the queue entry it had reserved given back. -/
def faultCommand (s : State) (c : Command) (code : BitVec 8) (detail : Nat) : State :=
  let s := match c.op with
    | .bfq _ => if c.phase = 0 then s else dropBf s c.count
    | _ => s
  cmdFault s c code detail
/-- The command goes on when it can; else it looks again. -/
def goOn (s : State) (c : Command) : State := (advance_ s c).getD (setCommand s { c with todo := [(0, .look)] })
/-- An access of a listed phase performs. -/
def listPerform (s : State) (c : Command) (id : Nat) : State :=
  match aget c.todo id with
  | none => s
  | some .look => if c.todo.length = 1 then goOn s { c with todo := [] } else s
  | some a =>
    let rest := c.todo.filter fun x => x.1 != id
    match doAcc s c.who a with
    | .wait s none => s
    | .wait s page => setCommand s { c with stalled := page }
    | .fault s code d => faultCommand s c code d
    | .ok s bs wts =>
      let s := raiseWts s c wts
      let c := c.count_ a wts
      let more := match c.op, copyOf c.rec_ with
        | .cpy _, some r => if id < 2 ^ 30 then copyWrites r id bs else []
        | _, _ => []
      let got := match c.op with | .cpy _ => c.got | _ => c.got ++ [(id, bs)]
      let c := { c with todo := rest ++ more, got := got }
      if c.todo.isEmpty then goOn s c else setCommand s c
/-- An access of a pattern performs; the last write of one without output ends it. A page that is not present stops the pattern at its stream
position: an access beyond it waits until every element before it is fetched or written (R121). -/
def patPerform (s : State) (c : Command) (id : Nat) : State :=
  if hasOutput c.op = false && c.delivered = c.elems then cmdEnd s { c with moved := c.movedBytes } 1 1
  else match c.patAcc (c.ahead s) id with
    | none => s
    | some a => match doAcc s c.who a with
      | .wait s none => s
      | .wait t page => if c.reachedInOrder id then setCommand t { c with stalled := page } else s
      | .fault s code d => faultCommand s c code d
      | .ok s bs wts =>
        let s := raiseWts s c wts
        let c := c.count_ a wts
        let c := { c with got := c.got ++ [(id, bs)] }
        if hasOutput c.op = false && c.delivered = c.elems then cmdEnd s { c with moved := c.movedBytes } 1 1
        else setCommand s c
/-- What access a number names now. -/
def Command.accNow (c : Command) (s : State) (id : Nat) : Option Acc := if isPattern c.op then c.patAcc (c.ahead s) id else aget c.todo id
/-- The request that an access makes at a crossbar, when it is one of scratch. -/
def Command.barAsk (c : Command) (s : State) (id : Nat) : Option BarAsk :=
  match c.accNow s id with
  | some (.srd a n) => some ⟨c.eng.elem, c.id, id, c.eng.ctx, a % 2 ^ 20, n, false⟩
  | some (.swr a bs) => some ⟨c.eng.elem, c.id, id, c.eng.ctx, a % 2 ^ 20, bs.length, true⟩
  | _ => none
/-- An access at a crossbar: in its turn it performs; held, it stands there until it is served (R107, R108). -/
def barPerform (s : State) (c : Command) (id : Nat) (perform : State → State) : State :=
  match c.barAsk s id with
  | none => perform s
  | some a =>
    let sce := sceOf a.addr
    if !a.stands s c.eng.stand then perform s
    else if !streamerTurn s c.eng.stand c.eng.elem sce then askBar s c.eng.stand sce a
    else
      let t := perform s
      if (barAt t c.eng.stand sce).used.length != (barAt s c.eng.stand sce).used.length then servedBar t c.eng.stand sce c.eng.elem c.id id
      else if (serveRange s c.eng.stand (physAddr s c.eng.stand c.eng.ctx a.addr a.size false) a.size c.eng.ctx
          (portOf c.eng.elem sce) c.who.asker).isNone then askBar t c.eng.stand sce a
      else t
/-- PERFORM of an engine's access, by its command's node and the access's number. -/
def performEngine (s : State) (node id : Nat) : State :=
  match s.eng.commands.find? fun c => c.node == node with
  | none => s
  | some c =>
    if c.ended || c.stalled.isSome || !mayRun s c then s
    else barPerform s c id fun s => if isPattern c.op then patPerform s c id else listPerform s c id

/-! ### Acceptance (R286, R287) -/

/-- What the check of a command comes to. -/
inductive Check where
  | wait
  | fail
  | ok (rec_ : List Byte) (aux : List Nat)
deriving DecidableEq, Repr

/-- The record lies in the table Trelgen placed for one of a launch's nodes (R286): bytes of scratch that no region need hold. -/
def inRecordTable (s : State) (k : EKey) (pa : Nat) : Bool :=
  s.la.launches.any fun l => l.state.onElements && l.ctx == k.ctx && ((l.place.map (·.tables)).getD []).any fun (n, a) =>
    (l.whereIs n).any (fun (x : EKey) => x.stand == k.stand)
      && (l.nodeRec n).any fun r => decide (a ≤ pa) && decide (pa + 64 ≤ a + 64 * r.pats)
def recordAt (s : State) (k : EKey) (pa : Nat) (good : List Byte → Bool) : Check :=
  if pa % 64 != 0 then .fail
  else match regionOf s k.stand k.ctx pa 64 with
    | none =>
      let bs := scratchRead s k.stand pa 64
      if inRecordTable s k pa && good bs then .ok bs [] else .fail
    | some (_, r) =>
      if r.mode = 2 && !(stashReady s k.stand k.ctx pa 64) then .wait
      else
        let bs := loadScratch s k.stand pa r 64
        if good bs then .ok bs [] else .fail
/-- The checks of a pattern record against its streamer (R288 to R292). -/
def patternOk (s : State) (i : Instr) (k : EKey) (lk : LKey) (r : List Byte) : Bool :=
  let cfg := strmCfg s k
  let ft := strmFmt cfg
  let outOk := !hasOutput i || (outEdgeOf s k lk).isSome
  match i with
  | .strmWin _ => match tmapOf r with
    | none => false
    | some m => outOk && (match ft with | .e4 | .e5 | .i8 => m.esize == 1 | .b16 => m.esize == 2 | _ => false)
        && ((syncOf r).isNone || decide (64 * m.rows * m.esize < 2 ^ 24))
  | _ => match patOf i r with
    | none => false
    | some p =>
      let bytes := p.total * p.esize
      let idxN := 4 * getAt p.counts (p.counts.length - 1) 1
      outOk && (!hasOutput i || p.esize % fmtElemBytes ft == 0)
        && (!usesIndex i || idxN == 0 || (regionOf s k.stand k.ctx p.idx idxN).isSome)
        && (!writesMem i || bytes == 0 || (regionOf s k.stand k.ctx p.src bytes).isSome)
        && ((syncOf r).isNone || decide (bytes < 2 ^ 24))
def areaCheck (s : State) (k : EKey) (pa : Nat) (good : Area → Bool) : Check :=
  match areaAt s k.stand k.ctx pa with
  | .wait => .wait
  | .perm => .fail
  | .ok a => if good a then .ok [] a.fields else .fail
/-- The check an engine makes of a command before it accepts it. -/
def checkCommand (s : State) (i : Instr) (n : MNode) (a b : Word) : Check :=
  let k := n.key
  let eng := engineOf k i
  let pa := enginePa i
  let l := (field a 32 8).toNat
  let entry := fun (x : Area) => field a 40 24 == 0 && x.holds (kvS a) (kvP a) && decide (l < x.nlayer)
  let pages := fun (x : Area) =>
    let m := (field a 32 16).toNat
    field a 48 16 == 0 && decide (kvS a < x.nseq) && decide (1 ≤ m) && decide (m ≤ 4096) && decide (kvP a + m ≤ x.rowLen) && x.pool != 0
  let layers := fun (x : Area) => field a 32 32 == 0 && x.holds (kvS a) (kvP a)
    && decide ((field b 0 8).toNat ≤ (field b 8 8).toNat) && decide ((field b 8 8).toNat < x.nlayer)
  match i with
  | .strmStop _ | .strmPos _ | .tilee _ | .mxclr _ => .ok [] []
  | .cpy _ => recordAt s k pa fun r => (copyOf r).isSome
  | .plane _ => recordAt s k pa fun r => match planeOf r with
    | some p => (slotOf s k p.slot).isSome && p.planes == (mxCfg s ⟨k.stand, 0x28, k.ctx⟩).planes
    | none => false
  | .tilef _ | .mxrd _ => if imageOk s eng pa then .ok [] [] else .fail
  | .xrslot _ | .xred _ | .xrwait _ => recordAt s k pa fun r => (swOf r).isSome
  | .rnsum _ | .rnmax _ =>
    if pa % 64 != 0 then .fail
    else match regionOf s k.stand k.ctx pa 64 with
      | some (_, r) => if r.mode = 0 then .ok [] [] else .fail
      | none => .fail
  | .kvst _ | .kvstFin _ | .kvld _ => areaCheck s k pa entry
  | .kvalloc _ | .kvfree _ => areaCheck s k pa pages
  | .bfq _ => areaCheck s k pa layers
  | .bfwait _ => areaCheck s k pa fun x => layers x && field b 16 16 == 0
  | _ => recordAt s k pa (patternOk s i eng n.launch)

/-- The targets a command sends at acceptance, and the execution's release from a command that sends no other (R286). -/
def acceptTargets (s : State) (n : MNode) (i : Instr) (v0 v1 : Lanes) : State :=
  match execOf s (n.pos / 1024), binfo i with
  | some x, some f =>
    let later := (!acceptT0 i && decide (f.t0 ≠ .nowhere)) || (!acceptT1 i && decide (f.t1 ≠ .nowhere))
    let x := if later then x else { x with waits := x.waits.filter fun w => !(w.idx == n.pos % 1024) }
    let (x, ok0) := if acceptT0 i then deliver1 x f.t0 f.n0 v0 none else (x, true)
    let (x, ok1) := if acceptT1 i then deliver1 x f.t1 f.n1 v1 none else (x, true)
    if ok0 && ok1 then setExec s x else abortExec s x pILL x.block
  | _, _ => s
/-- The position record of a pattern in a replayable launch (R318, R330); a launch whose streamer has eight of them already cannot be
replayed until the frontier passes the pattern's epoch. -/
def notePosition (s : State) (c : Command) : State :=
  match launchOf s c.launch with
  | none => s
  | some l =>
    if !(isPattern c.op && l.replayable) then s
    else if 8 ≤ (s.host.positions.filter fun p => p.eng == c.eng).length then
      setLaunch s { l with logFull := some (tagLevel l.widths c.tag 0) }
    else { s with host := { s.host with positions := s.host.positions ++ [⟨c.eng, enginePa c.op, c.tag, c.id, c⟩] } }
/-- A command the engine accepts; at a sealed streamer it is stopped at once, as those it held were (R324; DEDUCED, log entry 123). -/
def acceptCommand (s : State) (n : MNode) (i : Instr) (a b : Word) (r : List Byte) (aux : List Nat) (got : List (Nat × List Byte)) : State :=
  let k := engineOf n.key i
  let (id, s) := fresh s
  let uid := match n.src with | .thread u => u | _ => 0
  let hold := ((threadOf s uid).map (·.hold)).getD 0
  let tag := nodeTag s n
  let c : Command := ⟨id, k, n.launch, n.id, n.src, nodeOf s n.launch n.key, hold, i, r, a, b, tag, 0, [(0, .look)], got, 0, 0, 0,
    none, false, none, aux⟩
  let n := { n with op := .engine i r a b }
  let s := setNode s { n with at_ := .issued, parts := classParts s n }
  match i with
  | .strmStop _ =>
    let (s, v) := stopPattern s k
    acceptTargets (setNode s { n with at_ := .performed, value := BitVec.ofNat 64 v, sq := 1 }) n i (BitVec.ofNat 512 v) 1
  | .strmPos _ =>
    let (v, st) := match runningPattern s k with
      | some p => (p.delivered, if p.stalled.isSome then 2 else 1)
      | none => (0, 0)
    acceptTargets (setNode s { n with at_ := .performed, value := BitVec.ofNat 64 v, sq := BitVec.ofNat 16 st }) n i
      (BitVec.ofNat 512 v) (BitVec.ofNat 512 st)
  | _ =>
    let s := notePosition (setCommands s (s.eng.commands ++ [c])) c
    let s := changeSet s k.stand n.launch (c.holdDelta 1)
    let s := if sealedAt s k && namesSync i then stopCommand s c else s
    acceptTargets s n i 1 1
/-- A command whose record or descriptor its engine reads in scratch (R286). -/
def readsRecord : Instr → Bool
  | .strmStop _ | .strmPos _ | .tilee _ | .mxclr _ | .tilef _ | .mxrd _ | .rnsum _ | .rnmax _ => false
  | _ => true
/-- What an engine reads at its bank as it takes a command: the row that RNSUM or RNMAX contributes (R301), else the row of its record or
descriptor, in a clock that serves its port (R107, R108). -/
def readAtAccept (s : State) (n : MNode) (i : Instr) : AccOut :=
  let k := engineOf n.key i
  let w : Who := ⟨k, n.launch, nodeTag s n⟩
  let read := readScratch s w (enginePa i) 64
  match i with
  | .rnsum _ => read
  | .rnmax _ => read
  | _ =>
    if !readsRecord i then .ok s [] 0
    else match serveBank s k.stand (physAddr s k.stand k.ctx (enginePa i) 64 false) 64 k.ctx (portOf k.elem (sceOf (enginePa i))) w.asker with
      | some s => .ok s [] 0
      | none => .wait (holdBar s k.stand (sceOf (enginePa i))) none
/-- An earlier command of the same source waits for the same engine. -/
def engineTurn (s : State) (n : MNode) (k : EKey) : Bool :=
  (earlier s n).all fun e => match e.op with
    | .engine j _ _ _ => e.at_ != .queued || engineOf e.key j != k
    | _ => true
/-- ENGINE_ACCEPT: the engine reads and checks a command's record, and takes it or aborts its execution. -/
def execEngineAccept (s : State) : Out :=
  match s.ctl.focus with
  | .subject (.num id) =>
    match nodeById s id with
    | none => stay s
    | some n =>
      match n.op with
      | .engine i _ a b =>
        let k := engineOf n.key i
        let full := decide (Config.engineQueue ≤ (s.eng.commands.filter fun c => c.eng == k).length)
        if n.at_ != .queued || !released s n || !engineTurn s n k || full then stay s
        else match checkCommand s i n a b with
          | .wait => stay s
          | .fail => match execOf s (n.pos / 1024) with
            | some x => roomed s (abortExec (dropNode s n.id) x pPERM (enginePa i))
            | none => .next (dropNode s n.id)
          | .ok r aux => match readAtAccept s n i with
            | .ok s0 got _ => roomed s (acceptCommand s0 n i a b r aux (if got.isEmpty then [] else [(0, got)]))
            | .wait s _ => .next s
            | .fault s _ _ => .next s
      | _ => stay s
  | _ => stay s

/-- Raises that waited on the fill of a word's row go first, as they reached the bank (R194). -/
def raiseTurn (s : State) (c : Command) (a : Nat) : Bool :=
  s.eng.commands.all fun d => d.id == c.id || d.eng.stand != c.eng.stand || (d.sync.map (· / 64)) != some (a / 64)
    || match d.reached, c.reached with
      | none, _ => true
      | some _, none => false
      | some x, some y => decide (y < x)
/-- The number of a command's raise, which no access has. -/
def raiseId : Nat := 2 ^ 64
/-- A sync word's raise by a command whose every access is made (R194, R286): one action at its bank, as its port comes to it (R107, R108); the
node is then performed. A raise that needs a fill has reached the bank and waits for it. -/
def execSyncWordRaise (s : State) : Out :=
  match s.ctl.focus with
  | .subject (.num id) =>
    match commandOf s id with
    | none => stay s
    | some c =>
      match c.sync, nodeById s c.node with
      | some a, some n =>
        if !c.ended || n.at_ = .performed then stay s
        else match raiseSync s c.eng.stand c.eng.ctx a c.moved c.counted (c.who.mark s) with
          | none => if c.reached.isSome then stay s
            else .next (setCommand { s with ord := { s.ord with arrivals := s.ord.arrivals + 1 } } { c with reached := some s.ord.arrivals })
          | some _ =>
            match if raiseTurn s c a && streamerTurn s c.eng.stand c.eng.elem (sceOf a) then
                serveBank s c.eng.stand a 8 c.eng.ctx (portOf c.eng.elem (sceOf a)) c.who.asker else none with
            | none => stay s
            | some s =>
              let s := servedBar s c.eng.stand (sceOf a) c.eng.elem c.id raiseId
              let s := (raiseSync s c.eng.stand c.eng.ctx a c.moved c.counted (c.who.mark s)).getD s
              .next (setNode (leaveEngine s c) { n with at_ := .performed })
      | _, _ => stay s
  | _ => stay s
/-- A switch slot's deadline passes (R305, R347). -/
def execXrslotDeadline (s : State) : Out :=
  match s.ctl.focus with
  | .subject (.num h) =>
    match s.eng.slots.find? fun x => x.handle == h with
    | some x => if x.closed.isNone && decide (x.deadline ≤ s.ctl.clock) then .next (setSlot s { x with closed := some x.deadline }) else stay s
    | none => stay s
  | _ => stay s
/-- A closed slot whose contributors have not all collected in time is freed (R347). -/
def execXrslotFreeTimeout (s : State) : Out :=
  match s.ctl.focus with
  | .subject (.num h) =>
    match s.eng.slots.find? fun x => x.handle == h with
    | some x => match x.closed with
      | some t => if t + Config.slotCollectUs * Config.cyclesPerUs s.host.hot ≤ s.ctl.clock then
          .next (setSlots s (s.eng.slots.filter fun y => y.handle != h)) else stay s
      | none => stay s
    | none => stay s
  | _ => stay s

end Sys2Proof.Machine
end

