-- ==== Sys2Proof/Machine/Matrix.lean ====
section
/-! DEFINITION. The matrix island at work (R48 to R51, R297 to R299, R361): A rows, passes, swizzle checks, drains, END. -/

namespace Sys2Proof.Machine

/-- An A row at the front of the island's buffer, with the tokens its pass takes and the HEAD bound afterwards. -/
structure ARow where
  tag : Tag
  els : List Num
  scale : Scale
  swz : BitVec 4
  pad : Bool
  takes : List Buffered
  bound : Option BoundHead
deriving DecidableEq, Repr
/-- What stands at the front of an island's buffers. -/
inductive AFront where
  | nothing
  | row (r : ARow)
  | bad (code : BitVec 8) (tag : Tag) (takes : List Buffered)    -- a malformed row or HEAD (R38, R39)
  | lone (b : Buffered)          -- a HEAD that no DATA follows: it binds nothing
  | poison (b : Buffered)
  | endOf (b : Buffered)
deriving DecidableEq, Repr

def mxEdge (loc : Nat) (l : Launch) : EdgeKey := lkEdge l.key (loc - 2048)
def mxBound (s : State) (k : EKey) : Option BoundHead := s.q.heads.find? fun h => decide (h.vpe = k)
def setMxBound (s : State) (k : EKey) (h : Option BoundHead) : State :=
  { s with q := { s.q with heads := (s.q.heads.filter fun x => !decide (x.vpe = k)) ++ h.toList } }
/-- Element j of a row held in tokens, zero in an invalid lane (R34, R35). -/
def rowElem (afmt : Nat) (toks : List Token) (j : Nat) : Num :=
  let (w, per) := if afmt = 4 then (16, 32) else (8, 64)
  match toks[j / per]? with
  | none => numOfInt 0
  | some t =>
    if !(bitAt t.valid (j % per * w / 32)) then numOfInt 0
    else
      let x : Lane := (t.payload >>> (w * (j % per))).setWidth 32 &&& BitVec.ofNat 32 (2 ^ w - 1)
      match afmt with
      | 0 => Ffmt.e4m3.decode x
      | 1 => Ffmt.e5m2.decode x
      | 2 => numOfInt (i8Val x)
      | _ => Ffmt.bf16.decode x
/-- The DATA tokens in a row at the front of a list. -/
def dataRun (bs : List Buffered) : List Buffered := bs.takeWhile fun b => b.tok.kind = .data

/-- The front of the A buffer (R297, R361, R22, R39). An O4 block stays in the buffer until its last row has passed. A well-formed HEAD that
another HEAD, an END or a POISON follows binds nothing (DEDUCED, log entry 98); a malformed HEAD is FMT by itself, and each DATA row behind
it is FMT again, as one without a HEAD (DESIGN CHOICE, log entry 134). -/
def frontA (s : State) (k : EKey) (l : Launch) : AFront :=
  let cfg := mxCfg s k
  let ek := mxEdge cfg.locA l
  let toks := s.q.buffers.filter fun b => decide (b.edge = ek)
  let (hd, rest) : List Buffered × List Buffered := match toks with
    | b :: r => if b.tok.kind = Kind.head then ([b], r) else ([], toks)
    | [] => ([], [])
  let burst := edgeBurst s ek
  let bh : Option BoundHead := match hd with
    | b :: _ => some ⟨k, 0, k, b.tok, 0⟩
    | [] => mxBound s k
  let headed := cfg.afmt != 4
  match hd.find? fun b => !headOk b.tok with
  | some b => .bad pFMT b.tok.tag [b]
  | none => match rest with
    | [] => .nothing
    | b :: _ =>
      let scale := fun (h : BoundHead) => (scaleOf (laneOf h.head.payload 0), field h.head.payload 24 4)
      match b.tok.kind with
      | .poison => match hd with | h :: _ => .lone h | [] => .poison b
      | .endOf => match hd with | h :: _ => .lone h | [] => .endOf b
      | .head => match hd with | h :: _ => .lone h | [] => .nothing
      | .data =>
        let run := dataRun rest
        let closed := (rest.drop run.length).any fun x => x.tok.kind = .endOf
        if !headed then
          let pair := run.take 2
          if pair.length < 2 && !closed then .nothing
          else
            let ts := pair.map (·.tok)
            .row ⟨b.tok.tag, (List.range 64).map (rowElem 4 ts), Scale.one, 0, ts.all fun t => t.valid == 0, hd ++ pair, none⟩
        else match bh with
          | none => .bad pFMT b.tok.tag [b]
          | some h =>
            if cfg.afmt = 3 then
              let blk := run.take burst
              if blk.length < burst && !closed then .nothing
              else
                let slots := (List.range burst).flatMap fun i => match blk[i]? with
                  | some x => nibbles x.tok.payload
                  | none => List.replicate 128 0
                let ok := fun i => match blk[i / 128]? with
                  | some x => bitAt x.tok.valid (i % 128 / 8)
                  | none => false
                match o4Decode slots ok burst with
                | .tail => .bad pO4TAIL b.tok.tag (hd ++ blk)
                | .dense => .bad pO4DENSE b.tok.tag (hd ++ blk)
                | .ok es =>
                  let last := decide (2 * blk.length ≤ h.seen + 1)
                  let pad := match blk[h.seen / 2]? with | some x => x.tok.valid == 0 | none => true
                  .row ⟨b.tok.tag, (es.drop (64 * h.seen)).take 64, (scale h).1, (scale h).2, pad, hd ++ if last then blk else [],
                    if last then none else some { h with seen := h.seen + 1 }⟩
            else
              let nxt := if burst ≤ h.seen + 1 then none else some { h with seen := h.seen + 1 }
              .row ⟨b.tok.tag, (List.range 64).map (rowElem cfg.afmt [b.tok]), (scale h).1, (scale h).2, b.tok.valid == 0, hd ++ [b], nxt⟩
      | _ => .bad pFMT b.tok.tag (hd ++ [b])
/-- The front of the island: a POISON on B goes first. -/
def frontOf (s : State) (k : EKey) (l : Launch) : AFront :=
  match (oldest s (mxEdge (mxCfg s k).locB l)).filter fun b => b.tok.kind = .poison with
  | some b => .poison b
  | none => frontA s k l

/-! ### The B region's slots (R297) -/

/-- The slots the island walks: the region whose node feeds the B location. -/
def bSlots (s : State) (k : EKey) (l : Launch) : List ScratchKey :=
  match l.place, (l.edgeRec ((mxCfg s k).locB - 2048)).bind fun e => (l.nodeRec e.prod).bind (·.region) with
  | some pl, some r => match pl.regions.find? fun x => x.region == r with
    | some x => match regionOf s x.stand k.ctx x.addr 64 with
      | some (_, g) => (List.range (g.size / 192)).map fun i => ⟨x.stand, x.addr + 12288 * i⟩
      | none => []
    | none => []
  | _, _ => []
def curSlot (s : State) (k : EKey) (l : Launch) : Option ScratchKey := (bSlots s k l)[(islandOf s k).cur]?
def slotState (s : State) (k : ScratchKey) : Option PlaneSlot := s.mem.planes.find? fun p => decide (p.key = k)
/-- FULL cleared; the walk moves on, wrapping at the region's end. -/
def releaseSlot (s : State) (k : EKey) (l : Launch) : State :=
  let i := islandOf s k
  let s := match curSlot s k l with
    | some c => setMem s { s.mem with planes := s.mem.planes.filter fun p => !decide (p.key = c) }
    | none => s
  setIsland s k { i with cur := (i.cur + 1) % max 1 (bSlots s k l).length }
/-- Weight (r, n) of a block held in P planes (R48, R113). -/
def blockWeight (p : Nat) (bytes : List Byte) (r n : Nat) : Int :=
  let bit := fun (pl : Nat) => bitAt (getAt bytes (pl * (12288 / p) + r * (planeCols p / 8) + n / 8) 0) (n % 8)
  (List.range p).foldl (fun a pl => a + if bit pl then (if pl + 1 = p then -(2 ^ pl : Nat) else (2 ^ pl : Nat) : Int) else 0) 0

/-! ### A pass (R49 to R51) -/

/-- One pass sum added to an element; with whether the pass sum is NaN. An invalid pass sum raises NV though the element is a NaN
already (R44, R50). -/
def passInto (es : List (Num × Num)) (sa sb : Scale) (d : Lane) : Val × Bool :=
  let p := scaledDot es sa sb 0 rneCtx
  let nan := isNan32 p.bits
  match firstNan [d] with
  | some v => (⟨v.bits, v.fl ||| (p.fl &&& fNV)⟩, nan)
  | none => (scaledDot es sa sb d rneCtx, nan)
/-- The leading four significant bits of a finite BF16 element, and the rest (R51). -/
def highPart : Num → Num
  | .fin neg m e => .fin neg (m / 16 * 16) e
  | x => x
def lowPart : Num → Num
  | .fin neg m e => .fin neg (m % 16) e
  | _ => numOfInt 0
/-- A row's pass into one D element: the new element, flags, NaN and overflow counts. -/
def passElem (afmt : Nat) (els : List Num) (w : Nat → Num) (sa sb : Scale) (d : Lane) : Lane × FlagSet × Nat × Nat :=
  let with_ := fun (f : Num → Num) => els.zipIdx.map fun (x, i) => (f x, w i)
  let ov := fun (v : Val) => if v.fl &&& fOF != 0 then 1 else 0
  let b2n := fun (b : Bool) => if b then 1 else 0
  if afmt = 4 then
    let (v, n) := passInto (with_ highPart) sa sb d
    let (v', n') := passInto (with_ lowPart) sa sb v.bits
    (v'.bits, v.fl ||| v'.fl, b2n n + b2n n', max (ov v) (ov v'))
  else
    let (v, n) := passInto (with_ id) sa sb d
    (v.bits, v.fl, b2n n, ov v)

/-- The island takes a token; a loop's body token gives its slot back (R195). -/
def mxTake (s : State) (b : Buffered) : State :=
  let s := takeBuffered s b
  if b.tok.slotted then slotsBack s (ekLaunch b.edge) b.edge.edge 1 else s
/-- The tile that accumulates emptied, the slot released, POISON sent on the D edge (R298, R322); a finished tile that still drains is not
emptied. -/
def mxKill (s : State) (k : EKey) (l : Launch) (tag : Tag) (p : PoisonInfo) (takes : List Buffered)
    (bound : Option BoundHead) : State :=
  let s := takes.foldl mxTake s
  let i := islandOf s k
  let d := i.tile i.acc
  let ds := (takes.flatMap fun b => usedDelta b.edge.edge b.tok) ++ if d.draining then [] else tileHold s k d (-1)
  let s := if d.draining then s else setIsland s k { (i.setTile i.acc (DTile.free (islandCols s k))) with n := 0 }
  let s := releaseSlot (setMxBound s k bound) k l
  let s := (outEdgeOf s k l.key).toList.foldl (fun s e => slotsBack s l.key e (-1)) s
  sendPoison s k l.key (nodeOf s l.key k) (outEdgeOf s k l.key).toList tag p ds
/-- A pass of a row through the current slot (R297). None: its flags or counts find no shadow. -/
def mxPass (s : State) (k : EKey) (l : Launch) (r : ARow) (slot : PlaneSlot) : Option State :=
  let cfg := mxCfg s k
  let i := islandOf s k
  let d := i.tile i.acc
  let cols := islandCols s k
  let d := if d.held then d else { d with bound := true, held := true, tag := r.tag }
  let fresh_ := !(i.tile i.acc).held
  let j := i.n % 32
  let p := max 1 cfg.planes
  let sb := scaleOf (slot.scale.setWidth 32 ||| (slot.refine.setWidth 32 <<< 8) ||| if slot.rv then 0x10000#32 else 0)
  let bytes := scratchRead s slot.key.stand slot.key.addr 12288
  let outs := if r.pad then [] else (List.range cols).map fun n =>
    passElem cfg.afmt r.els (fun x => numOfInt (blockWeight p bytes x n)) r.scale sb (getAt d.acc (j * cols + n) 0)
  let acc := if r.pad then d.acc else d.acc.take (j * cols) ++ outs.map (·.1) ++ d.acc.drop ((j + 1) * cols)
  let fl := outs.foldl (fun f o => f ||| o.2.1) 0
  let nans := outs.foldl (fun f o => f + o.2.2.1) 0
  let overs := outs.foldl (fun f o => f + o.2.2.2) 0
  let epoch := tagLevel l.widths d.tag 0
  if (fl != 0 || nans + overs != 0) && !shadowRoom s k.stand k.ctx epoch then none
  else
    let s := r.takes.foldl mxTake s
    let s := changeSet s k.stand l.key ((r.takes.flatMap fun b => usedDelta b.edge.edge b.tok)
      ++ if fresh_ then [⟨mxHold s k, r.tag, 1⟩] else [])
    let s := raiseCounts (raiseFlags s k.stand k.ctx epoch fl) k epoch nans overs
    let s := bumpPerf (setMxBound s k r.bound) k.stand 3 1
    let d := { d with acc := acc, rows := if r.pad then d.rows else setAt d.rows j true }
    let s := setIsland s k { (i.setTile i.acc d) with n := i.n + 1 }
    let s := if (i.n + 1) % 32 = 0 then releaseSlot s k l else s
    let i' := islandOf s k
    let full := decide (i'.n = 32 * cfg.kpass) || (!d.enders.isEmpty && i'.n % 32 == 0)
    some (if full then setIsland s k (i'.drain i'.acc) else s)
/-- What the island does with its front, when it can (R297, R298, R322, R38). -/
def mxStep (s : State) (k : EKey) : Option State :=
  match launchAt s k with
  | none => none
  | some l =>
    if sealedAt s k then none
    else match frontOf s k l with
      | .nothing => none
      | .endOf _ => none
      | .lone b => some (setMxBound (takeBuffered s b) k none)
      | .poison b =>
        if poisonSeen s k b.tok.tag (poisonOf b.tok) then
          some (changeSet (mxTake s b) k.stand l.key (usedDelta b.edge.edge b.tok))
        else some (mxKill (notePoison s k b.tok.tag (poisonOf b.tok)) k l b.tok.tag (poisonOf b.tok) [b] (mxBound s k))
      | .bad code tag takes => some (mxKill s k l tag (ownPoison k code (mxCfg s k).locA) takes none)
      | .row r =>
        let i := islandOf s k
        match (curSlot s k l).bind (slotState s) with
        | none => none
        | some slot =>
          if (i.tile i.acc).draining then none
          else
            let cfg := mxCfg s k
            let swz := fun (want got : BitVec 4) (b : Nat) => ownPoison k pSWZ (want.toNat + 16 * got.toNat + 256 * b)
            if r.swz != cfg.swzA then some (mxKill s k l r.tag (swz cfg.swzA r.swz 0) r.takes r.bound)
            else if slot.swz != cfg.swzB then some (mxKill s k l r.tag (swz cfg.swzB slot.swz 1) r.takes r.bound)
            else mxPass s k l r slot
/-- MATRIX_PASS, on a granted clock. -/
def execMatrixPass (s : State) : Out :=
  match s.ctl.focus with
  | .subject (.elem k) =>
    if !isMatrix k.elem then stay s
    else match grant s k fun k => (mxStep s k).isSome with
      | some t => roomed s ((mxStep t k).getD t)
      | none => stay s
  | _ => stay s

/-! ### Draining (R299, R361) -/

/-- The token of a draining tile that leaves next; TILE_DRAIN. -/
def execTileDrain (s : State) : Out :=
  match s.ctl.focus with
  | .subject (.elem k) =>
    match launchAt s k with
    | none => stay s
    | some l =>
      let i := islandOf s k
      match i.draining with
      | none => stay s
      | some t =>
        let d := i.tile t
        let cols := islandCols s k
        let per := (cols + 15) / 16
        let j := i.drained / per
        let c := i.drained % per * 16
        let v : Half := if getAt d.rows j false then maskFrom fun x => decide (c + x < cols) else 0
        let tok : Token := ⟨d.tag, 0, .data, .f32, v, lanesFrom fun x => if c + x < cols then getAt d.acc (j * cols + c + x) 0 else 0⟩
        let last := decide (i.drained + 1 = 32 * per)
        let i' := if last then { (i.setTile t (DTile.free cols)) with drained := 0 } else { i with drained := i.drained + 1 }
        let held := if last then tileHold s k d (-1) else []
        match outEdgeOf s k l.key with
        | none => roomed s (changeSet (setIsland s k i') k.stand l.key held)
        | some e =>
          let ek := lkEdge l.key e
          let start := i.drained % edgeBurst s ek == 0
          if owedBefore s.q.owed ek k 0 || (credited s ek && credits s ek == 0) || (start && !mayStart s ek) then stay s
          else
            let t := changeSet (setIsland s k i') k.stand l.key (tokDelta e tok 1 ++ held)
            roomed s (launchTok (slotsBack (if start then useRequest t ek else t) l.key e (-1)) ek k tok)
  | _ => stay s
/-- Every bound tile begins to drain, the one that accumulates first (R361). -/
def Island.drainAll (i : Island) : Island :=
  let go := fun (i : Island) (t : Nat) => if (i.tile t).bound && !(i.tile t).draining then i.drain t else i
  go (go i i.acc) (1 - i.acc)
/-- MATRIX_END (R361): what is bound begins to drain; once no tile drains, the END is taken and sent on. -/
def execMatrixEnd (s : State) : Out :=
  match s.ctl.focus with
  | .subject (.elem k) =>
    match launchAt s k with
    | none => stay s
    | some l =>
      let i := islandOf s k
      match frontA s k l with
      | .endOf b =>
        if sealedAt s k then stay s
        else if !i.ending then
          .next (setIsland s k { i.drainAll with ending := true })
        else if i.draining.isSome then stay s
        else
          let s0 := s
          let s := setIsland (setMxBound (takeBuffered s b) k none) k { i with ending := false }
          let used := usedDelta b.edge.edge b.tok
          match outEdgeOf s k l.key with
          | none => roomed s0 (changeSet s k.stand l.key used)
          | some e =>
            let t := endToken b.tok.tag .f32 (laneOf b.tok.payload 0)
            roomed s0 (mustSend (changeSet s k.stand l.key (used ++ tokDelta e t 1)) (lkEdge l.key e) k t)
      | _ => stay s
  | _ => stay s

end Sys2Proof.Machine
end

