-- ==== Sys2Proof/Machine/Automata.lean ====
section
/-! DEFINITION. Automaton tables and their steps (R187, R188). -/

namespace Sys2Proof.Machine

/-- The header of an automaton table. -/
structure Nfa where
  states : Nat
  nw : Nat
  search : Bool
  classOff : Nat
  initOff : Nat
  accOff : Nat
  lenOff : Nat
  mbase : Word
  followOff : Word
  vmaskOff : Word
  vrow : Nat
deriving DecidableEq, Repr
def nfaOf (r : List Byte) : Option Nfa :=
  let g := recNat r
  let w := fun lo => BitVec.ofNat 64 (g lo 8)
  let a : Nfa := ⟨g 0 2, g 2 1, g 3 1 == 1, g 4 4, g 8 4, g 12 4, g 16 4, w 24, w 32, w 40, g 48 4⟩
  if decide (1 ≤ a.states) && decide (a.states ≤ 2048) && a.nw == (a.states + 511) / 512 && decide (g 3 1 ≤ 1)
      && recZero r 20 4 && recZero r 52 12 && a.vrow % 64 == 0 then some a
  else none
/-- Bytes of a state set, and the states it holds. -/
def Nfa.setBytes (a : Nfa) : Nat := 64 * a.nw
def statesOf (set_ : List Byte) : List Nat :=
  (List.range (8 * set_.length)).filter fun i => bitAt (getAt set_ (i / 8) 0) (i % 8)
def Nfa.states_ (a : Nfa) (set_ : List Byte) : List Nat := (statesOf set_).filter fun i => decide (i < a.states)
def orBytes (x y : List Byte) : List Byte := List.zipWith (· ||| ·) x y
def andBytes (x y : List Byte) : List Byte := List.zipWith (· &&& ·) x y
def zeroBytes (n : Nat) : List Byte := List.replicate n 0
/-- Addresses of row i of the follow table, and of a 512-id chunk of row i of the mask table. -/
def Nfa.followVa (a : Nfa) (i : Nat) : Word := a.mbase + a.followOff + BitVec.ofNat 64 (i * a.setBytes)
def Nfa.maskVa (a : Nfa) (i m : Nat) : Word := a.mbase + a.vmaskOff + BitVec.ofNat 64 (i * a.vrow + 64 * m)
/-- One step, from the follow sets of the current states (R187). -/
def Nfa.next (a : Nfa) (follows : List (List Byte)) (cls init : List Byte) : List Byte :=
  let u := andBytes (follows.foldl orBytes (zeroBytes a.setBytes)) cls
  if a.search then orBytes u init else u
def anyBit (xs : List Byte) : Bool := xs.any (· != 0)

end Sys2Proof.Machine
end

