-- ==== Sys2Proof/Machine/StageMem.lean ====
section
/-! DEFINITION. Stage operations on scratch, rings, exchange banks and automata (R237 to R241), and the sampling, grammar and
early-exit stages (R307 to R311). A stage that needs memory issues its nodes, holds its firing until they are acknowledged, and
then commits. -/

namespace Sys2Proof.Machine

/-! ### The nodes of a stage -/

/-- One access a stage issues. -/
structure SNode where
  path : Path
  op : MemOp
  ord : Ord
  scope : Scope
deriving DecidableEq, Repr
def SEnv.epoch (e : SEnv) : Nat := tagLevel e.widths e.f.tag 0
/-- The nodes enter their queues in order, behind `from_` earlier ones of the firing, under the stage's source thread (R126). -/
def issueNodesFrom (s : State) (e : SEnv) (from_ : Nat) (xs : List SNode) : State × List Nat :=
  (xs.zipIdx from_).foldl (fun (acc : State × List Nat) (x, i) =>
    let (s, id) := addNode acc.1 (.stage e.f.vpe e.k e.f.tag) e.f.vpe e.f.launch x.path (e.f.id * 4096 + i) x.op x.ord x.scope e.epoch
    (s, acc.2 ++ [id])) (s, [])
def issueNodes (s : State) (e : SEnv) (xs : List SNode) : State × List Nat := issueNodesFrom s e 0 xs
/-- A firing that holds in its stage for its nodes. -/
def holdFiring (s : State) (e : SEnv) (ids : List Nat) : State := setFiring s { e.f with issued := true, nodes := ids }
def dropNodes (s : State) (ids : List Nat) : State := ids.foldl dropNode s
/-- A stage's outcome, once its flags find a shadow. -/
def finishStage (s : State) (e : SEnv) (o : SOut) : Out :=
  if flagsWait s e.f.vpe.stand e.f.vpe.ctx e.epoch o.fl then stay s else .next (stageCommit s e o)
/-- The nodes a firing waits for, in order: none while one is unacknowledged. -/
def ackedNodes (s : State) (f : Firing) : Option (List MNode) :=
  let ns := f.nodes.filterMap (nodeById s)
  if ns.all fun n => n.at_ = .acked then some ns else none
/-- A stage with memory: `issue` checks and lists its accesses, or answers at once; `finish` forms the result from the nodes'
values. With `posts` the firing does not wait. -/
def runStageMem (i : Instr) (w : SWord) (s : State) (posts : Bool) (issue : SEnv → Except SOut (List SNode))
    (finish : SEnv → List MNode → SOut) : Out :=
  match stageEnv s i w with
  | none => stay s
  | some e =>
    if !e.f.issued then
      match issue e with
      | .error o => finishStage s e o
      | .ok [] => finishStage s e (finish e [])
      | .ok xs =>
        let (s, ids) := issueNodes s e xs
        if posts then finishStage s e (finish e []) else .next (holdFiring s e ids)
    else match ackedNodes s e.f with
      | none => stay s
      | some ns =>
        match ns.findSome? (·.poison) with
        | some p => .next (poisonFiring (dropNodes s e.f.nodes) e.f p.code p.detail)
        | none => finishStage (dropNodes s e.f.nodes) e (finish e ns)

/-! ### SLD, SST, SAMO (R237, R241) -/

/-- Active lanes with their stand scratch addresses. -/
def SEnv.laneAddrs (e : SEnv) (bits : Nat) : List (Nat × Nat) :=
  ((List.range 16).filter e.act).map fun l =>
    (l, ((e.a l).setWidth 64 + (BitVec.ofNat bits e.w.imm.toNat).signExtend 64 : Word).toNat % 2 ^ 20)
/-- The checks a VPE makes before issue: alignment, adjacency, the region's bounds (R237). -/
def laneOk (s : State) (e : SEnv) (a : Nat) : Bool :=
  a % 4 == 0 && adjacent e.f.vpe.elem (sceOf a) && (regionOf s e.f.vpe.stand e.f.vpe.ctx a 4).isSome
def laneNodes (s : State) (e : SEnv) (bits : Nat) (ord : Ord) (op : Nat → Nat → MemOp) : Except SOut (List SNode) :=
  let xs := e.laneAddrs bits
  match xs.find? fun x => !laneOk s e x.2 with
  | some x => .error (SOut.bad pPERM (BitVec.ofNat 32 x.2))
  | none => .ok (xs.map fun (l, a) => ⟨.sa, op l a, ord, .stand⟩)
/-- The lane result of values returned lane by lane. -/
def SEnv.returned (e : SEnv) (ns : List MNode) (val : MNode → Lane) : SOut :=
  let ls := (List.range 16).filter e.act
  e.plain fun l => match (ls.zip ns).find? fun x => x.1 == l with
    | some x => val x.2
    | none => 0
def execSld (w : SWord) (s : State) : Out :=
  runStageMem (.sld w) w s false
    (fun e => laneNodes s e 16 (if bitAt w.imm 16 then .so else .plain) fun _ a => .sload a 4)
    fun e ns => e.returned ns fun n => BitVec.ofNat 32 (leNat n.bytes)
def execSst (w : SWord) (s : State) : Out :=
  runStageMem (.sst w) w s (!bitAt w.imm 16)
    (fun e => laneNodes s e 16 (if bitAt w.imm 16 then .so else .plain) fun l a => .sstore a (leBytes 4 (e.b l).toNat))
    fun e _ => e.plain fun _ => 0
def execSamo (w : SWord) (s : State) : Out :=
  runStageMem (.samo w) w s false
    (fun e => laneNodes s e 15 (if bitAt w.imm 15 then .so else .plain) fun l a =>
      .samo a 4 (field w.imm 16 4).toNat ((e.b l).setWidth 64))
    fun e ns => e.returned ns fun n => n.value.setWidth 32

/-! ### Rings (R238, R239, R197) -/

/-- The handle a ring stage names: its SCE's key, number and image. -/
def SEnv.handle (e : SEnv) (s : State) (side : Nat) : Option (EKey × Handle) :=
  (sceBeside e.f.vpe.elem side).map fun c =>
    let k : EKey := ⟨e.f.vpe.stand, 0x10 + c, e.f.vpe.ctx⟩
    (k, handleOf s k (field e.w.imm 0 4).toNat)
def ringSide (w : SWord) : Nat := (field w.imm 16 2).toNat
/-- Stand scratch address of a slot of a ring, and of the handle itself. -/
def slotAddr (k : EKey) (h : Handle) (slot : Nat) : Nat := (k.elem - 0x10) * 65536 + (h.base + slot) * 64
def syncBad (k : EKey) (h : Handle) : SOut := SOut.bad pSYNC (BitVec.ofNat 32 (slotAddr k h 0))
def execLdh (w : SWord) (s : State) : Out :=
  let k := (field w.imm 4 10).toNat
  runStageMem (.ldh w) w s false
    (fun e => match e.handle s (ringSide w) with
      | none => .error (SOut.bad pILL e.slotDetail)
      | some (sk, h) =>
        if h.fill ≤ k then .error (syncBad sk h)
        else
          let a := slotAddr sk h (offOf (advance h.size h.head k))
          if (regionOf s sk.stand sk.ctx a 64).isNone then .error (SOut.bad pPERM (BitVec.ofNat 32 a))
          else .ok [⟨.sa, .sload a 64, .plain, .stand⟩])
    fun e ns => e.plain fun l => laneOf (leLanes ((ns.head?.map MNode.bytes).getD [])) l
/-- STH holds its firing until its stores are acknowledged, so that a later ADVH publishes them (log entry 26). -/
def execSth (w : SWord) (s : State) : Out :=
  let k := (field w.imm 4 10).toNat
  runStageMem (.sth w) w s false
    (fun e => match e.handle s (ringSide w) with
      | none => .error (SOut.bad pILL e.slotDetail)
      | some (sk, h) =>
        if h.free ≤ k then .error (syncBad sk h)
        else
          let a := slotAddr sk h (offOf (advance h.size h.tail k))
          if (regionOf s sk.stand sk.ctx a 64).isNone then .error (SOut.bad pPERM (BitVec.ofNat 32 a))
          else .ok (((List.range 16).filter e.act).map fun l =>
            ⟨.sa, .sstore (a + 4 * l) (leBytes 4 (e.b l).toNat), .plain, .stand⟩))
    fun e _ => e.plain fun _ => 0
def ringCount (w : SWord) : Nat := (field w.imm 5 11).toNat
def execAdvh (w : SWord) (s : State) : Out :=
  match stageEnv s (.advh w) w with
  | none => stay s
  | some e =>
    match e.handle s (ringSide w) with
    | none => finishStage s e (SOut.bad pILL e.slotDetail)
    | some (sk, h) =>
      let tail := bitAt w.imm 4
      let k := ringCount w
      if (if tail then h.free else h.fill) < k then finishStage s e (syncBad sk h)
      else
        let h' := if tail then { h with tail := advance h.size h.tail k } else { h with head := advance h.size h.head k }
        match moveHandle s sk (field w.imm 0 4).toNat (portOf e.f.vpe.elem (sk.elem - 0x10)) with
        | some s => finishStage (setHandle s sk (field w.imm 0 4).toNat h') e (e.plain fun _ => 0)
        | none => stay s
def execWaith (w : SWord) (s : State) : Out :=
  match stageEnv s (.waith w) w with
  | none => stay s
  | some e =>
    match e.handle s (ringSide w) with
    | none => finishStage s e (SOut.bad pILL e.slotDetail)
    | some (sk, h) =>
      let n := ringCount w
      if h.size = 0 && n != 0 then finishStage s e (syncBad sk h)
      else if (if bitAt w.imm 4 then h.free else h.fill) < n || !handleFree s sk then stay s
      else finishStage s e (e.plain fun _ => 0)
def execPeekh (w : SWord) (s : State) : Out :=
  match stageEnv s (.peekh w) w with
  | none => stay s
  | some e =>
    match e.handle s (ringSide w) with
    | none => finishStage s e (SOut.bad pILL e.slotDetail)
    | some (sk, h) => if !handleFree s sk then stay s else finishStage s e (e.plain fun l => match l with
        | 0 => h.image.setWidth 32
        | 1 => (h.image >>> 32).setWidth 32
        | 2 => BitVec.ofNat 32 h.fill
        | 3 => BitVec.ofNat 32 h.free
        | _ => 0)
/-- R240. -/
def execWaitx (w : SWord) (s : State) : Out :=
  match stageEnv s (.waitx w) w with
  | none => stay s
  | some e =>
    match launchOf s e.f.launch with
    | none => stay s
    | some l =>
      if l.ex.gen = field (e.a 0) 0 16 then stay s else finishStage s e (e.plain fun _ => l.ex.gen.setWidth 32)

/-! ### Sampling (R307, R308) -/

def execGnoiseKey (w : SWord) (s : State) : Out :=
  runStage (.gnoiseKey w) w s fun e => e.plain fun l => kmix (e.a l ^^^ e.b l)
def execGnoiseNoise (w : SWord) (s : State) : Out :=
  runStage (.gnoiseNoise w) w s fun e =>
    e.lanewise fun l =>
      let g := gumbel (kmix (e.a l ^^^ e.b l))
      let v := fAdd (e.c l) g.bits (e.rc l 0 false)
      ⟨v.bits, g.fl ||| v.fl⟩
def execSmaxi (w : SWord) (s : State) : Out :=
  runStage (.smaxi w) w s fun e =>
    match w.d with
    | .l n =>
      let v0 := e.regs.l.get n.val
      let i0 := e.regs.l.get (n.val + 1)
      let take := fun l => e.act l && (e.qual 0 || pairWins (e.a l) (e.b l) (laneOf v0 l) (laneOf i0 l))
      let v1 := lanesFrom fun l => if take l then e.a l else laneOf v0 l
      let i1 := lanesFrom fun l => if take l then e.b l else laneOf i0 l
      let best := ((List.range 16).filter e.act).foldl (fun (b : Lane × Lane) l =>
        if pairWins (laneOf v1 l) (laneOf i1 l) b.1 b.2 then (laneOf v1 l, laneOf i1 l) else b) (canonNan, 0xFFFFFFFF#32)
      let out := if e.qual 1 then lanesFrom fun l => match l with | 0 => best.1 | 1 => best.2 | _ => 0
        else lanesFrom fun l => if e.act l then laneOf v1 l else 0
      { lanes := out, v := e.vMask, lset := [(n.val, v1), (n.val + 1, i1)] }
    | _ => SOut.bad pILL e.slotDetail

/-! ### Grammar (R309, R310) -/

/-- A scratch range a stage may read: in an adjacent SCE, within a region (R107, R109). -/
def stageReach (s : State) (e : SEnv) (addr n : Nat) : Bool :=
  adjacent e.f.vpe.elem (sceOf (addr % 2 ^ 20)) && (regionOf s e.f.vpe.stand e.f.vpe.ctx (addr % 2 ^ 20) n).isSome
def scratchNode (addr n : Nat) : SNode := ⟨.sa, .sload (addr % 2 ^ 20) n, .plain, .stand⟩
def loadNode (va : Word) (n : Nat) : SNode := ⟨.st, .load va n true, .plain, .pkg⟩
/-- A header's node, or PERM: it is 64-byte aligned and in reach. -/
def headerNode (s : State) (e : SEnv) (hd : Nat) : Except SOut (List SNode) :=
  if hd % 64 = 0 && stageReach s e hd 64 then .ok [scratchNode hd 64] else .error (SOut.bad pPERM (BitVec.ofNat 32 hd))
/-- Ranges read next, or PERM at the first out of reach. -/
def rangeNodes (s : State) (e : SEnv) (xs : List (Nat × Nat)) : Except SOut (List SNode) :=
  match xs.find? fun x => !stageReach s e x.1 x.2 with
  | some x => .error (SOut.bad pPERM (BitVec.ofNat 32 (x.1 % 2 ^ 20)))
  | none => .ok (xs.map fun x => scratchNode x.1 x.2)
/-- What a stage of several rounds does once the nodes it has issued are acknowledged: issue more behind them, or finish. -/
inductive Round where
  | more (xs : List SNode)
  | done (o : SOut)
/-- A stage that issues nodes round by round (R309, R310): `next` says, from the bytes of the nodes so far, what comes. The nodes stay until the
stage is done. -/
def runRounds (i : Instr) (w : SWord) (s : State) (next : SEnv → List (List Byte) → Round) : Out :=
  match stageEnv s i w with
  | none => stay s
  | some e =>
    match if e.f.issued then ackedNodes s e.f else some [] with
    | none => stay s
    | some ns =>
      match ns.findSome? (·.poison) with
      | some p => .next (poisonFiring (dropNodes s e.f.nodes) e.f p.code p.detail)
      | none => match next e (ns.map MNode.bytes) with
        | .done o => finishStage (dropNodes s e.f.nodes) e o
        | .more xs =>
          let (s', ids) := issueNodesFrom s e e.f.nodes.length xs
          .next (holdFiring s' e (e.f.nodes ++ ids))
def Round.of : Except SOut (List SNode) → Round
  | .ok xs => .more xs
  | .error o => .done o
/-- The four ranges NFASTEP reads behind its header: the byte's class, the initial set, the accept set, the state set. -/
def nfaRanges (e : SEnv) (a : Nfa) : List (Nat × Nat) :=
  let hd := (e.a 0).toNat % 2 ^ 20
  [(hd + a.classOff + (field (e.b 0) 0 8).toNat * a.setBytes, a.setBytes), (hd + a.initOff, a.setBytes), (hd + a.accOff, a.setBytes),
    ((e.c 0).toNat % 2 ^ 20, a.setBytes)]
/-- The follow rows of the current states. -/
def followNodes (e : SEnv) (a : Nfa) (init cur : List Byte) : List SNode :=
  (a.states_ (if e.qual 0 then init else cur)).map fun i => loadNode (a.followVa i) a.setBytes
/-- NFASTEP's result from the next set and the accept set. -/
def nfaResult (e : SEnv) (acc next : List Byte) : SOut :=
  e.plain fun l => match l with
    | 0 => if anyBit (andBytes next acc) then 1 else 0
    | 1 => BitVec.ofNat 32 (statesOf next).length
    | 2 => if anyBit next then 0 else 1
    | _ => 0
/-- NFASTEP's rounds: the header; the byte's class, the initial, accept and state sets; the follow rows of the current states; the store of
the next set; the result. The first three are SA nodes at their banks, the follow rows go on ST (R127). -/
def nfastepNext (s : State) (e : SEnv) (got : List (List Byte)) : Round :=
  let store := fun (next : List Byte) => Round.more [⟨.sa, .sstore ((e.c 0).toNat % 2 ^ 20) next, .plain, .stand⟩]
  match got with
  | [] => .of (headerNode s e ((e.a 0).toNat % 2 ^ 20))
  | h :: rest => match nfaOf h with
    | none => .done (SOut.bad pPERM (BitVec.ofNat 32 ((e.a 0).toNat % 2 ^ 20)))
    | some a => match rest with
      | cls :: init :: acc :: cur :: rows =>
        let follows := followNodes e a init cur
        if rows.isEmpty && !follows.isEmpty then .more follows
        else
          let next := a.next (rows.take follows.length) cls init
          if rows.length ≤ follows.length then store next else .done (nfaResult e acc next)
      | _ => .of (rangeNodes s e (nfaRanges e a))
def execNfastep (w : SWord) (s : State) : Out := runRounds (.nfastep w) w s (nfastepNext s)
/-- NFAMSK's result from the mask rows. -/
def maskResult (e : SEnv) (rows : List (List Byte)) : SOut :=
  let u := leLanes (rows.foldl orBytes (zeroBytes 64))
  e.plain fun l => e.a l ||| laneOf u l
/-- NFAMSK's rounds: the header and the state set at their banks, then the mask rows on ST (R127). -/
def nfamskNext (s : State) (e : SEnv) (got : List (List Byte)) : Round :=
  let hd := (e.b 0).toNat % 2 ^ 20
  let m := e.w.imm.toNat
  match got with
  | [] => .of (headerNode s e hd)
  | h :: rest => match nfaOf h with
    | none => .done (SOut.bad pPERM (BitVec.ofNat 32 hd))
    | some a =>
      if a.vrow < 64 * (m + 1) then .done (SOut.bad pPERM (BitVec.ofNat 32 hd))
      else match rest with
        | [] => .of (rangeNodes s e [((e.c 0).toNat % 2 ^ 20, a.setBytes)])
        | cur :: rows =>
          let masks := (a.states_ cur).map fun i => loadNode (a.maskVa i m) 64
          if rows.isEmpty && !masks.isEmpty then .more masks else .done (maskResult e rows)
def execNfamsk (w : SWord) (s : State) : Out := runRounds (.nfamsk w) w s (nfamskNext s)

/-! ### EXITQ (R311) -/

/-- The control word: the area it names, the first layer, the deadline. -/
def SEnv.control (e : SEnv) : Lane := laneOf (e.regs.l.get 3) 0
/-- Lanes whose confidence reaches the threshold. -/
def SEnv.confident (e : SEnv) : List Nat :=
  let thr : Lane := e.w.imm.setWidth 32 <<< 12
  (List.range 16).filter fun l => e.v l && e.f.seg == 0 && !isNan32 (e.b l) && !isNan32 thr && !fLt (e.b l) thr
def SEnv.entryOf (e : SEnv) (l : Nat) : Nat × Nat := ((field (e.c l) 0 16).toNat, (field (e.c l) 16 16).toNat)
/-- Entries reserved lane by lane while the queue has room; a lane that finds it full stays on OUT0 (counter 10). -/
def exitReserve (s : State) (e : SEnv) (a : Area) (lfirst : Nat) (dstep : Option Nat) : State × List (Nat × Nat) :=
  e.confident.foldl (fun (acc : State × List (Nat × Nat)) l =>
    if bfRoom acc.1 (dieOf e.f.vpe.stand) then
      let (sq, pos) := e.entryOf l
      let (s, id) := reserveBf acc.1 e.f.vpe.stand e.f.launch (nodeOf s e.f.launch e.f.vpe) a sq pos lfirst (a.nlayer - 1) e.f.tag dstep
      (s, acc.2 ++ [(l, id)])
    else (bumpPerf acc.1 e.f.vpe.stand 10 1, acc.2)) (s, [])
/-- The outcome of EXITQ, with the lanes that pass. -/
def exitOut (e : SEnv) (pass : List Nat) : SOut :=
  let m := maskFrom fun l => pass.contains l
  let other := e.vMask &&& ~~~m
  let av := fun (k : Half) => lanesFrom fun l => if bitAt k l then e.a l else 0
  { lanes := lanesFrom fun l => if pass.contains l then 0xFFFFFFFF#32 else 0
    v := e.vMask
    ports := false
    out := validTokens e false e.f.tag 1 (av m) m ++ validTokens e false e.f.tag 0 (av other) other }
def execExitq (w : SWord) (s : State) : Out :=
  match stageEnv s (.exitq w) w with
  | none => stay s
  | some e =>
    let k := e.f.vpe
    let ctl := e.control
    let addr := (field ctl 0 20).toNat
    let lfirst := (field ctl 20 8).toNat
    let d := (field ctl 28 4).toNat
    if !e.f.issued then
      match [0, 1].find? fun p => outBurst e.cfg p != 1 with
      | some p => finishStage s e (SOut.bad pFMT (BitVec.ofNat 32 (getAt e.cfg.outloc p 0)))
      | none =>
        match if adjacent k.elem (sceOf addr) then areaAt s k.stand k.ctx addr else .perm with
        | .wait => stay s
        | .perm => finishStage s e (SOut.bad pPERM (BitVec.ofNat 32 addr))
        | .ok a =>
          if e.confident.any fun l => !a.holds (e.entryOf l).1 (e.entryOf l).2 then
            finishStage s e (SOut.bad pPERM (BitVec.ofNat 32 addr))
          else if a.nlayer ≤ lfirst || e.confident.isEmpty then finishStage s e (exitOut e e.confident)
          else
            let (s, bfs) := exitReserve s e a lfirst (if d = 15 then none else some (e.epoch + d))
            let xs := bfs.flatMap fun (l, _) =>
              (a.words (e.entryOf l).1 (e.entryOf l).2 lfirst (a.nlayer - 1)).map fun (va, fs) =>
                (⟨.bf, .kvmap va fs .exit, .plain, .pkg⟩ : SNode)
            let (s, ids) := issueNodes s e xs
            .next (setFiring s { e.f with issued := true, nodes := ids, bfs := bfs })
    else match ackedNodes s e.f with
      | none => stay s
      | some ns =>
        let s0 := s
        let s := dropNodes s e.f.nodes
        match ns.findSome? (·.poison) with
        | some p =>
          let mine := s.eng.backfill.filter fun x => e.f.bfs.any fun b => b.2 == x.id
          roomed s0 (poisonFiring (mine.foldl cancelBf s) { e.f with bfs := [] } p.code p.detail)
        | none =>
          let s := e.f.bfs.foldl (fun s b => appendBf s k.stand b.2) s
          if !unitsFit s then stay s0
          else finishStage s { e with f := { e.f with bfs := [] } } (exitOut e (e.f.bfs.map (·.1)))

end Sys2Proof.Machine
end

