-- ==== Sys2Proof/Machine/Configure.lean ====
section
/-! DEFINITION. Configuration commands (R58 to R64): the effective fields of each element, the check of a stage word in its place
(R62), quiescence (R63), refusals (R64), and slot tables that take effect (R63, R181). -/

namespace Sys2Proof.Machine

/-! ### A stage word in its place (R62, R66 to R68) -/

/-- Operands of an operation that must be whole-burst inputs, and those that must be directions (R223, R224, R226 to R228, R232). -/
def wholeArgs : Instr → SWord → List Src
  | .dfrom _, w | .qblk _, w | .qo4 _, w | .packt _, w => [w.a]
  | .odot4 _, w => [w.a, w.b]
  | _, _ => []
def dirArgs : Instr → SWord → List Src
  | .dto _, w | .dneg _, w | .dscl _, w | .dnrm _, w => [w.a]
  | .ddot _, w | .dadd _, w | .dsub _, w | .dlerp _, w => [w.a, w.b]
  | _, _ => []
/-- Operations whose result is a direction (R205). -/
def dirResult : Instr → Bool
  | .dfrom _ | .dadd _ | .dsub _ | .dneg _ | .dscl _ | .dlerp _ | .dnrm _ => true
  | _ => false
/-- The side an operation names (R229, R238, R239). -/
def sideArg : Instr → SWord → Option Nat
  | .perm _, w => some (field w.imm 0 2).toNat
  | .ldh _, w | .sth _, w | .advh _, w | .waith _, w | .peekh _, w => some (ringSide w)
  | _, _ => none
def slotWord (c : VpeCfg) (k : Nat) : Word := getAt c.slots k nopWord
/-- A source may stand in stage k (R67). -/
def srcOk (c : VpeCfg) (k : Nat) : Src → Bool
  | .inp n => bitAt c.matched n.val
  | .prev => k != 0
  | .s j => decide (j.val < k)
  | _ => true
def isWhole (c : VpeCfg) : Src → Bool
  | .inp n => bitAt c.whole n.val
  | _ => false
/-- The stage a source names as the result of an earlier one. -/
def srcStage (k : Nat) : Src → Option Nat
  | .prev => if k = 0 then none else some (k - 1)
  | .s j => if j.val < k then some j.val else none
  | _ => none
def dirOk (c : VpeCfg) (k : Nat) (x : Src) : Bool :=
  isWhole c x || match (srcStage k x).bind fun j => slotInstr (slotWord c j) with
    | some (i, _) => dirResult i
    | none => false
/-- The word of slot k passes its check on VPE v. -/
def stageOk (c : VpeCfg) (v k : Nat) : Bool :=
  match slotInstr (slotWord c k) with
  | none => false
  | some (i, w) =>
    [w.a, w.b, w.c].all (srcOk c k) && (wholeArgs i w).all (isWhole c) && (dirArgs i w).all (dirOk c k)
      && match sideArg i w with | some d => (sceBeside v d).isSome | none => true
/-- Ports the stages in use name, by stage. -/
def namedPorts (c : VpeCfg) (n : Nat) : List Nat :=
  (c.slots.take n).flatMap fun x => match slotInstr x with | some (_, w) => portsOf w.d | none => []
/-- Burst lengths of the whole-burst inputs, in all. -/
def burstSum (c : VpeCfg) : Nat :=
  ((List.range 4).map fun i => if bitAt c.whole i then (field c.inburst (4 * i) 4).toNat + 1 else 0).foldl (· + ·) 0
/-- A VPE's words hold no combination that fails the check (log entry 30). Of the slots from STAGES on, which no firing runs, none counts
among those that name a port; a word written there is checked against the stages in use alone (DESIGN CHOICE, log entry 127). -/
def vpeOk (c : VpeCfg) (v : Nat) : Bool :=
  (List.range 6).all (stageOk c v) && decide (namedPorts c c.stages).Nodup && decide (burstSum c ≤ 8)

/-! ### Fields (R61) -/

/-- What a command comes to: a refusal by its reason (R64), or the state. -/
inductive Put where
  | bad (reason : Nat)
  | wait (s : State)
  | ok (s : State)
deriving DecidableEq, Repr

def rNOSEL : Nat := 1
def rADDR : Nat := 2
def rFIELD : Nat := 3
def rVALUE : Nat := 4
def rLIVE : Nat := 5
def rCHECK : Nat := 6
def rPART : Nat := 7

def setPad {α : Type} (xs : List α) (i : Nat) (v d : α) : List α := setAt (xs ++ List.replicate (i + 1 - xs.length) d) i v
def putIf (c : Bool) (s : State) : Put := if c then .ok s else .bad rVALUE
/-- Bits lo and above are 0. -/
def below (v : Half) (lo : Nat) : Bool := decide (v.toNat < 2 ^ lo)

/-- A half-word gathered for a slot: the one last written, else the reset word's. A last half that comes without the others takes effect
with these (DESIGN CHOICE, log entry 85). -/
def gathered (c : VpeCfg) (i : Nat) : Half := getAt c.gather i ((nopWord >>> (16 * (i % 4))).setWidth 16)
def gatherWord (c : VpeCfg) (k : Nat) (top : Half) : Word :=
  (List.range 4).foldl (fun w j =>
    w ||| ((if j = 3 then top else gathered c (4 * k + j)).setWidth 64 <<< (16 * j))) 0
def gatherAll (c : VpeCfg) : List Half := (List.range 24).map (gathered c)

/-- A VPE's fields. DESIGN CHOICE: a MATCH that leaves a nonzero INBURST nibble on an input it no longer marks whole-burst is taken (log
entry 101). -/
def putVpe (s : State) (k : EKey) (f : Nat) (v : Half) : Put :=
  let c := vpeCfg s k
  let put := fun (ok : Bool) (c' : VpeCfg) => putIf (ok && vpeOk c' k.elem) (setVpeCfg s k c')
  if f < 24 then
    let g := { c with gather := setAt (gatherAll c) f v }
    if f % 4 != 3 then .ok (setVpeCfg s k g)
    else
      let c' := { g with slots := setAt c.slots (f / 4) (gatherWord c (f / 4) v) }
      put (f / 4 < c.stages || (portsOf (match slotInstr (slotWord c' (f / 4)) with | some (_, w) => w.d | none => .nowhere)).all
        fun p => !(namedPorts c c.stages).contains p) c'
  else match f with
    | 24 => put (decide (1 ≤ v.toNat) && decide (v.toNat ≤ 6)) { c with stages := v.toNat }
    | 25 => put (below v 8) { c with matched := field v 0 4, whole := field v 4 4 }
    | 26 | 27 | 28 | 29 => put (below v 12) { c with inloc := setPad c.inloc (f - 26) v.toNat 0 }
    | 30 | 31 => put (below v 12) { c with outloc := setPad c.outloc (f - 30) v.toNat 0 }
    | 32 => put (!bitAt v 3 && !bitAt v 7) { c with outfmt := v }
    | 33 | 34 => put true { c with dscale := setPad c.dscale (f - 33) v 0 }
    | 35 => put (below v 8) { c with swzout := field v 0 8 }
    | 36 => put ((List.range 4).all fun i => bitAt c.whole i || field v (4 * i) 4 == 0) { c with inburst := v }
    | _ => .bad rFIELD

/-- Two extents of a SCE that do not overlap. -/
def apart (r q : Region) : Bool :=
  r.size == 0 || q.size == 0 || decide (r.base + r.size ≤ q.base) || decide (q.base + q.size ≤ r.base)
/-- Regions that may stand together, beside those of other contexts in `others` (R61, R109). -/
def regionsOk (rs others : List Region) : Bool :=
  rs.all (fun r => r.size == 0 || (decide (r.base + r.size ≤ 1024) && (r.mode != 3 || r.size % 2 == 0) && (r.mode != 4 || r.size % 192 == 0)))
    && (rs.zipIdx.all fun (r, i) => rs.zipIdx.all fun (q, j) => i == j || apart r q)
    && rs.all fun r => others.all (apart r)
/-- A launch holds a context of a stand. -/
def ctxHeld (s : State) (stand ctx : Nat) : Bool :=
  s.la.launches.any fun l => l.state.onElements && l.ctx == ctx && l.placed.any fun p => p.at_.stand == stand
/-- The regions of a SCE that its other contexts hold. -/
def otherRegions (s : State) (k : EKey) : List Region :=
  (s.cfg.sce.filter fun x => x.1.stand == k.stand && x.1.elem == k.elem && x.1.ctx != k.ctx && ctxHeld s k.stand x.1.ctx).flatMap fun x => x.2.regions
/-- Sectors and plane slots of an extent of a SCE, and its exchange bit, as after a context load. -/
def clearExtent (s : State) (k : EKey) (r : Region) : State :=
  let lo := (k.elem - 0x10) * 65536 + r.base * 64
  let mine := fun (x : ScratchKey) => x.stand == k.stand && decide (lo ≤ x.addr) && decide (x.addr < lo + 64 * r.size)
  setMem s { s.mem with sectors := s.mem.sectors.filter fun x => !mine x.key, visY := s.mem.visY.filter fun x => !mine x,
                        planes := s.mem.planes.filter fun x => !mine x.key }
/-- The fault record of a lost write-back: type CONTAIN, code SAVE (R332). -/
def saveRecord (s : State) (k : EKey) (va : Word) (addr : Nat) : State :=
  let (part, launch) := whoAt s k.stand k.ctx
  record s { simpleRec s part 3 pSAVE.toNat k.stand k.elem k.ctx launch 0 addr with addr := va.toNat }
/-- One sector written back for good. -/
def backOne (s : State) (k : EKey) (key : ScratchKey) : Except State State :=
  match stashWriteBack s k.ctx key with
  | .done s => .ok s
  | .notPresent s va =>
    let (part, launch) := whoAt s k.stand k.ctx
    let s := noteNotPresent s (dieOf k.stand) k.stand k.elem k.ctx part launch 0 va.toNat
    .error ((sectorOf s key).elim s fun x => setSector s { x with due := true })
  | .permission s va => .ok (saveRecord s k va key.addr)
/-- A stash region's dirty sectors written back before it changes (R111, R332). An error: a page is not present; its fault is noted, and
the sector's write-back waits (R121). -/
def flushExtent (s : State) (k : EKey) (r : Region) : Except State State :=
  if r.mode != 2 || r.size = 0 then .ok s
  else
    let lo := (k.elem - 0x10) * 65536 + r.base * 64
    let keys := (s.mem.sectors.filter fun x => x.key.stand == k.stand && decide (lo ≤ x.key.addr) && decide (x.key.addr < lo + 64 * r.size)
      && x.dirty != (0 : BitVec 64)).map (·.key)
    keys.foldl (fun acc key => match acc with
      | .error s => match backOne s k key with | .ok s => .error s | .error s => .error s
      | .ok s => backOne s k key) (.ok s)
def putRegion (s : State) (k : EKey) (i : Nat) (ok : Bool) (r' : Region) : Put :=
  let c := sceCfg s k
  let r := getAt c.regions i Region.unused
  let rs := setAt c.regions i r'
  if !ok || !regionsOk rs (otherRegions s k) then .bad rVALUE
  else match flushExtent s k r with
    | .error s => .wait s
    | .ok s => .ok (setSceCfg (clearExtent (clearExtent s k r) k r') k { sceCfg s k with regions := rs })
def putSce (s : State) (k : EKey) (f : Nat) (v : Half) : Put :=
  let c := sceCfg s k
  let n := v.toNat
  if f < 32 then
    let r := getAt c.regions (f / 4) Region.unused
    match f % 4 with
    | 0 => putRegion s k (f / 4) (decide (n < 1024)) { r with base := n }
    | 1 => putRegion s k (f / 4) (decide (n ≤ 1024)) { r with size := n }
    | 2 => putRegion s k (f / 4) (decide (n ≤ 4)) { r with mode := field v 0 3 }
    | _ => .bad rFIELD
  else if f < 64 then
    let h := (f - 32) / 2
    let o := handleOf s k h
    if f % 2 = 0 then putIf (decide (n < 1024) && decide (n + o.size ≤ 1024)) (setHandle s k h { o with base := n })
    else putIf (decide (n ≤ 1024) && decide (o.base + n ≤ 1024)) (setHandle s k h { o with size := n, head := 0, tail := 0 })
  else if f < 96 then
    let i := (f - 64) / 4
    let j := f % 4
    let r := getAt c.regions i Region.unused
    let g := (r.gbase &&& ~~~(0xFFFF#64 <<< (16 * j))) ||| (v.setWidth 64 <<< (16 * j))
    putRegion s k i (j != 0 || n % 128 == 0) { r with gbase := g }
  else .bad rFIELD
def putTile (s : State) (k : EKey) (f : Nat) (v : Half) : Put :=
  let c := tileCfg s k
  match f with
  | 0 => putIf (below v 13) (setTileCfg s k { c with iaddr := v.toNat, ihalf := 0 })
  | 1 =>
    let g := (if c.ihalf = 0 then 0 else c.gather) ||| (v.setWidth 64 <<< (16 * c.ihalf))
    if c.ihalf < 3 then .ok (setTileCfg s k { c with gather := g, ihalf := c.ihalf + 1 })
    else
      -- a block is at most 128 words, so a written word may belong to any that starts within 127 words before it (R70, R75)
      let un := c.unload.filter fun b => !(decide (b.1 ≤ c.iaddr) && decide (c.iaddr < b.1 + 128))
      .ok (setTileCfg s k { c with imem := aset c.imem c.iaddr g, gather := 0, ihalf := 0, iaddr := (c.iaddr + 1) % 8192, unload := un })
  | 2 => putIf (decide (1 ≤ v.toNat) && decide (v.toNat ≤ 8)) (setTileCfg s k { c with galloc := v.toNat })
  | 3 => putIf (below v 13) (setTileCfg s k { c with entry := v.toNat })
  | _ => .bad rFIELD
def putMatrix (s : State) (k : EKey) (f : Nat) (v : Half) : Put :=
  let c := mxCfg s k
  let p := (field v 0 4).toNat
  let a := (field v 4 3).toNat
  match f with
  | 0 => putIf (v != 0) (setMxCfg s k { c with kpass := v.toNat })
  | 1 =>
    let s' := { s with eng := { s.eng with islands := adel s.eng.islands k } }
    putIf (below v 7 && decide (1 ≤ p) && decide (p ≤ 8) && decide (a ≤ 4)) (setMxCfg s' k { c with planes := p, afmt := a })
  | 2 => putIf (below v 8) (setMxCfg s k { c with swzA := field v 0 4, swzB := field v 4 4 })
  | 3 => putIf (below v 12) (setMxCfg s k { c with locA := v.toNat })
  | 4 => putIf (below v 12) (setMxCfg s k { c with locB := v.toNat })
  | 5 => putIf (below v 12) (setMxCfg s k { c with locD := v.toNat })
  | _ => .bad rFIELD
def putStreamer (s : State) (k : EKey) (f : Nat) (v : Half) : Put :=
  let c := strmCfg s k
  match f with
  | 0 => putIf (decide (1 ≤ v.toNat) && decide (v.toNat ≤ 32)) (setStrmCfg s k { c with runahead := v.toNat })
  | 1 => putIf (below v 12) (setStrmCfg s k { c with outloc := v.toNat })
  | 2 => putIf (v &&& 0xF0F8#16 == 0) (setStrmCfg s k { c with outfmt := v })
  | _ => .bad rFIELD
/-- FLUSHINT and FLUSHCNT of a stand (R61); before its stream, Trelgen's 64 and 16 (log entry 4). -/
def flushCfg (s : State) (stand : Nat) : Nat × Nat :=
  ((s.cfg.frontier.find? fun x => x.1 == stand).map (·.2)).getD (64, 16)
def setFlush (s : State) (stand : Nat) (v : Nat × Nat) : State :=
  { s with cfg := { s.cfg with frontier := (s.cfg.frontier.filter fun x => x.1 != stand) ++ [(stand, v.1, v.2)] } }
def putFrontier (s : State) (stand f : Nat) (v : Half) : Put :=
  let c := flushCfg s stand
  match f with
  | 0 => putIf (v != 0) (setFlush s stand (v.toNat, c.2))
  | 1 => putIf (decide (1 ≤ v.toNat) && decide (v.toNat ≤ 16)) (setFlush s stand (c.1, v.toNat))
  | _ => .bad rFIELD
def putSwitch (s : State) (stand point f : Nat) (v : Half) : Put :=
  if 4 ≤ f then .bad rFIELD
  else
    let rest := s.cfg.switchPts.filter fun x => !(x.1 == stand && x.2.1 == point && x.2.2.1 == f)
    putIf (v &&& 0x7E00#16 == 0) { s with cfg := { s.cfg with switchPts := rest ++ [(stand, point, f, v)] } }
/-- Slot-table halves join the table that waits for the slot pointer's next return to 0 (R63). -/
def putTable (s : State) (stand f : Nat) (v : Half) : Put :=
  if 78 ≤ f then .bad rFIELD
  else
    let t := (slotTable s stand (f / 2)).at_ s.ctl.clock
    let p := (t.pending.map (·.2)).getD t.slots
    let p := (List.range 8).foldl (fun p j => setAt p (8 * (f % 2) + j) (field v (2 * j) 2)) p
    .ok (setSlotTable s stand (f / 2) { t with pending := some ((s.ctl.clock / 16 + 1) * 16, p) })
/-- A write of an effective field of an element of a stand and context. -/
def putField (s : State) (k : EKey) (f : Nat) (v : Half) : Put :=
  let e := k.elem
  if isVpe e then putVpe s k f v
  else if isSce e then putSce s k f v
  else if isTile e then putTile s k f v
  else if isMatrix e then putMatrix s k f v
  else if isStreamer e then putStreamer s k f v
  else if e = 0x38 then putFrontier s k.stand f v
  else if 0x40 ≤ e && e < 0x80 then putSwitch s k.stand (e - 0x40) f v
  else if e = 0xF0 then putTable s k.stand f v
  else .bad rADDR

/-! ### Live elements (R63) -/

def liveOn (s : State) (k : EKey) : Bool :=
  s.la.launches.any fun l => l.state = .running && l.ctx == k.ctx
    && l.placed.any fun p => p.at_.stand == k.stand && (isSce k.elem || decide (p.at_ = k))
/-- No token in an element's buffers, matching store or pipeline, and no pass or pattern in flight. -/
def settled (s : State) (k : EKey) : Bool :=
  !(s.q.store.any fun x => decide (x.vpe = k)) && !(s.q.heads.any fun x => decide (x.vpe = k)) && !(s.q.held.any fun x => decide (x.vpe = k)) && !(s.q.ends.any fun x => decide (x.vpe = k))
    && !(s.firings.any fun f => decide (f.vpe = k)) && !(s.q.owed.any fun o => decide (o.src = k))
    && !(s.tiles.threads.any fun t => decide (t.tile = k)) && !(s.tiles.execs.any fun x => decide (x.tile = k))
    && !(s.q.buffers.any fun b => match consumerOf s b.edge with
        | .tile c _ => decide (c = k)
        | .matrix c _ => decide (c = k)
        | _ => false)
    && !(s.eng.commands.any fun c => decide (c.eng = k))
    && (!isMatrix k.elem || (islandOf s k).tiles.all fun t => t.empty && t.enders.isEmpty)
    && !(isSce k.elem && s.ord.nodes.any fun n => n.at_ != .acked && match scratchRange n.key n.op with
        | some (st, a, _) => st == k.stand && n.key.ctx == k.ctx && 0x10 + sceOf a == k.elem
        | none => false)
/-- A pass that consumes a burst of a VPE's output edge is in flight. -/
def passInFlight (s : State) (loc : Nat) (k : EKey) : Bool :=
  s.eng.islands.any fun (m, i) => m.ctx == k.ctx && (mxCfg s m).locA == loc && (i.n % 32 != 0 || (mxBound s m).isSome)
    && (match launchAt s m, launchAt s k with | some a, some b => decide (a.key = b.key) | _, _ => false)
/-- A command that a live element does not take now. -/
def blocked (s : State) (k : EKey) (f : Nat) : Bool :=
  (k.elem != 0xF0 && liveOn s k && !settled s k)
    || (isVpe k.elem && (f == 33 || f == 34) && passInFlight s (2048 + getAt (vpeCfg s k).outloc (f - 33) 0) k)

/-! ### Refusals (R64) -/

/-- A launch has a stream of commands while it loads or stands on its elements (R27, R63). -/
def hasStream (s : State) (lk : LKey) : Bool := (launchOf s lk).any fun l => l.state.onElements
/-- The record of a refused command; a launch that loads remembers it (log entry 31 for EXTRA's layout). With nothing selected, the record's
stand and context are 0, and after a SEL refused with PART those selected before it (DESIGN CHOICE, log entry 100). -/
def refuse (s : State) (reason elem f : Nat) (v : Half) : State :=
  let (stand, ctx) := s.cfg.stream.sel.getD (0, 0)
  let lk := s.cfg.stream.launch
  let s := { s with la := { s.la with
    launches := updIf s.la.launches (fun l => decide (l.key = lk) && l.state = .loading) fun l => { l with cfgBad := true } } }
  record s { simpleRec s lk.part 1 reason stand 0xF0 ctx lk.launch 0 0 with
    extra := leBytes 8 elem ++ leBytes 8 f ++ leBytes 8 v.toNat }
def setStream (s : State) (x : Stream) : State := { s with cfg := { s.cfg with stream := x } }
/-- A command met before any SEL, or after a SEL refused with PART: refused, or discarded (R60). -/
def unselected (s : State) (elem f : Nat) (v : Half) : Option State :=
  if s.cfg.stream.discard then some s
  else if s.cfg.stream.sel.isNone then some (refuse s rNOSEL elem f v)
  else none
/-- One more command since the last SEL. -/
def counted1 (s : State) : State := setStream s { s.cfg.stream with count := s.cfg.stream.count + 1 }
def streamKey (s : State) (elem : Nat) : EKey :=
  let (stand, ctx) := s.cfg.stream.sel.getD (0, 0)
  ⟨stand, elem, ctx⟩
/-- One command applied, or refused. None: it waits for a write-back (R111). -/
def applyOne (s : State) (elem f : Nat) (v : Half) : Option State :=
  match putField s (streamKey s elem) f v with
  | .bad r => some (refuse s r elem f v)
  | .wait _ => none
  | .ok s => some s
/-- What a command that waits for write-backs has done about them: those it can make are made, the others' faults are noted. -/
def noteWait (s : State) (elem f : Nat) (v : Half) : State :=
  match putField s (streamKey s elem) f v with
  | .wait s => s
  | _ => s
/-- Room for a record, where a refusal would need one (R326). -/
def cfgRoom (s : State) : Bool := faultRoom s (dieOf (s.cfg.stream.sel.getD (0, 0)).1)

/-- A command to an element (R58, R61). A selection word whose field or value is reserved stands here too (R60):
a SEL with a reserved bit is no SEL, so before the first SEL it is refused NOSEL, and after a PART refusal it is discarded (DESIGN CHOICE,
log entry 126). Where a command is both to
a live element and bad in its field or value, LIVE is its reason (DESIGN CHOICE, log entry 102). -/
def putCommand (e : Nat) (fld : BitVec 8) (value : Half) (s : State) : Option State :=
  let f := if e = 0xFF then fld.toNat else 256 * s.cfg.stream.page + fld.toNat
  match unselected s e f value with
  | some s => some s
  | none =>
    if e = 0xFF then some (refuse (counted1 s) (if f ≤ 3 then rVALUE else rFIELD) e f value)
    else if s.cfg.stream.hold then
      some (setStream s { s.cfg.stream with count := s.cfg.stream.count + 1, staged := s.cfg.stream.staged ++ [(e, f, value)] })
    else if blocked s (streamKey s e) f then some (refuse (counted1 s) rLIVE e f value)
    else (applyOne s e f value).map counted1
/-- SEL (R60). One that arrives while HOLD is 1 and nothing is staged discards no group, and no record is written (DESIGN CHOICE, log entry
126). -/
def selCommand (ctx : BitVec 2) (stand : BitVec 9) (s : State) : State :=
  let v : Half := (ctx.setWidth 16 <<< 14) ||| stand.setWidth 16
  let x := s.cfg.stream
  let s := if x.hold && !x.staged.isEmpty then refuse s rCHECK 0xFF 0 v else s
  if hasStream s x.launch && partOfStand s stand.toNat == some x.launch.part then
    setStream s ⟨x.launch, some (stand.toNat, ctx.toNat), false, 0, false, 0, []⟩
  else setStream (refuse s rPART 0xFF 0 v) { x with discard := true, hold := false, staged := [] }
/-- PAGE (R60). -/
def pageCommand (p : BitVec 4) (s : State) : State :=
  match unselected s 0xFF 1 (p.setWidth 16) with
  | some s => s
  | none => setStream s { s.cfg.stream with page := p.toNat, count := s.cfg.stream.count + 1 }
/-- FLAGS (R60, R63): HOLD cleared applies the staged commands as one group, or refuses it whole. -/
def flagsCommand (hold : BitVec 1) (s : State) : Option State :=
  match unselected s 0xFF 2 (hold.setWidth 16) with
  | some s => some s
  | none =>
    let x := s.cfg.stream
    let s1 := counted1 s
    if hold = 1 then some (setStream s1 { s1.cfg.stream with hold := true })
    else
      let s2 := setStream s1 { s1.cfg.stream with hold := false, staged := [] }
      match x.staged.find? fun c => blocked s (streamKey s c.1) c.2.1 with
      | some (e, f, v) => some (refuse s2 rLIVE e f v)
      | none => x.staged.foldl (fun acc c => acc.bind fun s => applyOne s c.1 c.2.1 c.2.2) (some s2)
/-- END (R60). -/
def endCommand (count : Half) (s : State) : State :=
  match unselected s 0xFF 3 count with
  | some s => s
  | none =>
    if s.cfg.stream.count % 2 ^ 16 = count.toNat then s
    else setStream (refuse s rCHECK 0xFF 3 count) { s.cfg.stream with staged := [] }
/-- What a command makes of the state; none: it waits, for room for a record (R326) or for a write-back (R111). -/
def runCommand (i : Instr) (s : State) : Option State :=
  if !cfgRoom s then none
  else match i with
    | .configCommand e f v => putCommand e.toNat f v s
    | .sel c st => some (selCommand c st s)
    | .page p => some (pageCommand p s)
    | .flags h => flagsCommand h s
    | .end_ n => some (endCommand n s)
    | _ => none
/-- A command that waits (R111, R121, R332). -/
def waitNote (i : Instr) (s : State) : State :=
  if !cfgRoom s then s
  else match i with
    | .configCommand e f v => noteWait s e.toNat (256 * s.cfg.stream.page + f.toNat) v
    | .flags _ => s.cfg.stream.staged.foldl (fun s c => noteWait s c.1 c.2.1 c.2.2) s
    | _ => s
/-- The state a command comes to, or the one in which it waits. -/
def orWait (i : Instr) (s : State) : Out := .next ((runCommand i s).getD (waitNote i s))

/-- CONFIG_COMMAND (R58, R61). -/
def execConfigCommand (elem fld : BitVec 8) (value : BitVec 16) (s : State) : Out := orWait (.configCommand elem fld value) s
/-- SEL (R60). -/
def execSel (ctx : BitVec 2) (stand : BitVec 9) (s : State) : Out := orWait (.sel ctx stand) s
/-- PAGE (R60). -/
def execPage (p : BitVec 4) (s : State) : Out := orWait (.page p) s
/-- FLAGS (R60, R63). -/
def execFlags (hold : BitVec 1) (s : State) : Out := orWait (.flags hold) s
/-- END (R60). -/
def execEnd (count : BitVec 16) (s : State) : Out := orWait (.end_ count) s

/-- SLOT_TABLE_TAKES_EFFECT: a table written before the slot pointer returned to 0 is the element's table (R63, R181). The arbiter has used
it since that clock (`SlotTable.at_`). -/
def execSlotTableTakesEffect (s : State) : Out :=
  match s.ctl.focus with
  | .subject (.pair stand idx) =>
    let t := slotTable s stand idx
    match t.pending with
    | some p => if p.1 ≤ s.ctl.clock then .next (setSlotTable s stand idx (t.at_ s.ctl.clock)) else stay s
    | none => stay s
  | _ => stay s

end Sys2Proof.Machine
end

