-- ==== Sys2Proof/Machine/Sha3.lean ====
section
/-! DEFINITION. SHA3-512, which R24, R82, R333 and R345 name. PRESUMED: the spec names the function and does not print it; this is the one
of FIPS 202, the Keccak sponge with a rate of 72 bytes (log entry 39). -/

namespace Sys2Proof.Machine

/-- Constants of the 24 rounds. -/
def keccakConstants : List Word :=
  [0x0000000000000001#64, 0x0000000000008082#64, 0x800000000000808A#64, 0x8000000080008000#64, 0x000000000000808B#64, 0x0000000080000001#64,
   0x8000000080008081#64, 0x8000000000008009#64, 0x000000000000008A#64, 0x0000000000000088#64, 0x0000000080008009#64, 0x000000008000000A#64]
  ++ [0x000000008000808B#64, 0x800000000000008B#64, 0x8000000000008089#64, 0x8000000000008003#64, 0x8000000000008002#64, 0x8000000000000080#64,
      0x000000000000800A#64, 0x800000008000000A#64, 0x8000000080008081#64, 0x8000000000008080#64, 0x0000000080000001#64, 0x8000000080008008#64]
/-- Rotation of lane x + 5y. -/
def keccakTurns : List Nat := [0, 1, 62, 28, 27, 36, 44, 6, 55, 20, 3, 10, 43, 25, 39, 41, 45, 15, 21, 8, 18, 2, 61, 56, 14]
/-- One round on 25 lanes, lane x + 5y at row y and column x. -/
def keccakRound (a : List Word) (rc : Word) : List Word :=
  let at_ := fun (v : List Word) (x y : Nat) => getAt v (x % 5 + 5 * (y % 5)) 0
  let c := (List.range 5).map fun x => at_ a x 0 ^^^ at_ a x 1 ^^^ at_ a x 2 ^^^ at_ a x 3 ^^^ at_ a x 4
  let d := (List.range 5).map fun x => getAt c ((x + 4) % 5) 0 ^^^ (getAt c ((x + 1) % 5) 0).rotateLeft 1
  let a := a.zipIdx.map fun (v, i) => v ^^^ getAt d (i % 5) 0
  let b := (List.range 25).map fun i =>
    let x := (i % 5 + 3 * (i / 5)) % 5
    let y := i % 5
    (at_ a x y).rotateLeft (getAt keccakTurns (x + 5 * y) 0)
  let a := (List.range 25).map fun i => at_ b i (i / 5) ^^^ (~~~(at_ b (i + 1) (i / 5)) &&& at_ b (i + 2) (i / 5))
  a.zipIdx.map fun (v, i) => if i = 0 then v ^^^ rc else v
def keccak (a : List Word) : List Word := keccakConstants.foldl keccakRound a
/-- The rate of SHA3-512 in bytes. -/
def sha3Rate : Nat := 72
/-- The message padded to whole blocks. -/
def sha3Pad (bs : List Byte) : List Byte :=
  let k := sha3Rate - bs.length % sha3Rate
  bs ++ (List.range k).map fun i => (if i = 0 then 0x06#8 else 0) ||| (if i + 1 = k then 0x80#8 else 0)
/-- A block absorbed. -/
def sha3Absorb (a : List Word) (block : List Byte) : List Word :=
  keccak (a.zipIdx.map fun (v, i) => if i < 9 then v ^^^ leWord ((block.drop (8 * i)).take 8) else v)
def sha3Blocks : Nat → List Byte → List Word → List Word
  | 0, _, a => a
  | n + 1, bs, a => sha3Blocks n (bs.drop sha3Rate) (sha3Absorb a (bs.take sha3Rate))
/-- The digest; its first byte is the lowest. -/
def sha3 (bs : List Byte) : BitVec 512 :=
  let m := sha3Pad bs
  let a := sha3Blocks (m.length / sha3Rate) m (List.replicate 25 0)
  BitVec.ofNat 512 (((a.take 8).zipIdx.map fun (v, i) => v.toNat * 2 ^ (64 * i)).foldl (· + ·) 0)

end Sys2Proof.Machine
end

