-- ==== Sys2Proof/Machine/Modules.lean ====
section
/-! DEFINITION. What Trelgen works out at mapping: a Halom graph module read from its bytes (R82 to R84), path summaries
(R165 to R168), and whether a launch is replayable (R328). -/

namespace Sys2Proof.Machine

/-! ### The module (R82, R83) -/

/-- Records of a section: (count, offset, record size). -/
def sectionOf (bs : List Byte) (i : Nat) : Nat × Nat := (recNat bs (0x20 + 8 * i) 4, recNat bs (0x24 + 8 * i) 4)
def sectionSizes : List Nat := [32, 16, 16, 8, 64, 1, 16]
/-- Sections lie inside the module at 8-byte-aligned offsets behind the header and do not overlap; of an empty section nothing is asked
(DESIGN CHOICE, log entry 121). -/
def sectionsOk (bs : List Byte) : Bool :=
  let xs := (List.range 7).map fun i => let (n, o) := sectionOf bs i; (n * getAt sectionSizes i 1, o)
  xs.all (fun (n, o) => n = 0 || (o % 8 == 0 && decide (128 ≤ o) && decide (o + n ≤ bs.length)))
    && xs.zipIdx.all fun ((n, o), i) => xs.zipIdx.all fun ((m, q), j) =>
      i == j || n == 0 || m == 0 || decide (o + n ≤ q) || decide (q + m ≤ o)
/-- The bytes of record j of a section. -/
def recordOf (bs : List Byte) (i j : Nat) : List Byte :=
  let z := getAt sectionSizes i 1
  (bs.drop ((sectionOf bs i).2 + j * z)).take z
def records (bs : List Byte) (i : Nat) : List (List Byte) := (List.range (sectionOf bs i).1).map (recordOf bs i)

def kindOfCode : Nat → Option NodeKind
  | 0 => some .stage | 1 => some .block | 2 => some .matrix | 3 => some .stream | 4 => some .region | 5 => some .ingress
  | 6 => some .egress | _ => none
/-- A record read, or none where it breaks R80 to R83. -/
def nodeRecOf (code : List Word) (npat : Nat) (r : List Byte) : Option NodeRec :=
  let g := recNat r
  let cw := (code.drop (g 8 4)).take (g 12 4)
  (kindOfCode (g 2 1)).bind fun k =>
    let prm := (r.drop 24).map BitVec.toNat
    let kp : Bool := match k with
      | .stage => decide (1 ≤ g 24 1) && decide (g 24 1 ≤ 6) && recZero r 26 6 && cw.length == g 24 1
      | .block => recZero r 28 4 && decide (g 24 4 < cw.length)
      | .matrix => recZero r 29 3 && decide (1 ≤ g 24 2) && decide (1 ≤ g 26 1) && decide (g 26 1 ≤ 8) && decide (g 27 1 ≤ 4)
      | _ => recZero r 24 8
    if g 3 1 == 0 && g 7 1 == 0 && g 22 2 == 0 && decide (1 ≤ g 6 1) && decide (g 6 1 ≤ 16) && kp
        && decide (g 8 4 + g 12 4 ≤ code.length) && decide (g 16 2 + g 18 2 ≤ npat) then
      some ⟨g 0 2, k, g 4 1, g 5 1, g 6 1, cw, g 16 2, g 18 2, if g 20 2 = 0xFFFF then none else some (g 20 2), prm⟩
    else none
def edgeRecOf (r : List Byte) : Option EdgeRec :=
  let g := recNat r
  let permits := g 12 2
  if decide (g 0 2 < 2048) && decide (g 8 1 ≤ 1) && decide (1 ≤ g 9 1) && decide (g 9 1 ≤ 16) && decide (g 10 1 ≤ 7)
      && g 11 1 / 2 % 8 == 0 && decide (permits ≤ 4096) && (permits == 0 || g 8 1 == 1)
      && (g 10 1 != 7 || [1, 2, 4, 8].contains (g 9 1)) then
    some ⟨g 0 2, g 2 2, g 4 1, g 5 1, g 6 2, g 8 1 == 1, g 9 1, Fmt.ofCode (g 10 1), g 11 1 % 2 == 1, g 11 1 / 16, permits, g 14 1, g 15 1⟩
  else none
def loopRecOf (r : List Byte) : Option LoopRec :=
  let g := recNat r
  if decide (g 2 2 ≤ 4096) && decide (1 ≤ g 4 1) && decide (g 4 1 ≤ 7) && g 5 1 == 0 && recZero r 12 4 then
    some ⟨g 0 2, if g 2 2 = 0 then none else some (g 2 2), g 4 1, g 6 2, g 8 2, g 10 2⟩
  else none
def regionRecOf (data : List Byte) (r : List Byte) : Option RegionRec :=
  let g := recNat r
  let off := g 8 4
  let len := g 12 4
  if decide (g 2 1 ≤ 4) && decide (g 3 1 ≤ 1)
      && (if off = 0xFFFFFFFF then len == 0 else decide (off + len ≤ data.length)) && decide (len ≤ g 4 4) then
    some ⟨g 0 2, g 2 1, g 3 1 == 1, g 4 4, if off = 0xFFFFFFFF then [] else (data.drop off).take len⟩
  else none
/-- A word has an instruction's opcode; whether its fields are right is checked where it is loaded (R62, R75; log entry 111). -/
def namesInstr : Except DecodeError Instr → Bool
  | .error .unassignedOpcode => false
  | .error .blockHeader => false
  | _ => true
/-- The offset of a block node's entry, in its code (R83). -/
def NodeRec.entry (n : NodeRec) : Nat := (n.params.take 4).reverse.foldl (fun a b => 256 * a + b) 0
/-- An instruction of a block names no slot before or at its own (R81). -/
def pointsForward (j : Nat) (w : Word) : Bool :=
  match decodeBlock w with
  | .ok i => (sendsTo i).all fun t => match targetSlot t with | some (n, _) => decide (j < n) | none => true
  | .error _ => true
/-- The offsets of the blocks that a block node's code is made of, each a header within R70's ranges and behind it as many words as it
counts, all with an instruction's opcode and none with a target that points backward (R70, R81, R83); none where it is no such code. -/
def blockOffsets : Nat → Nat → List Word → Option (List Nat)
  | _, _, [] => some []
  | 0, _, _ => none
  | fuel + 1, off, ws =>
    (parseHead fun i => ws.getD i 0).bind fun h =>
      let body := (ws.drop 4).take h.icount
      if body.length == h.icount && body.all (fun w => namesInstr (decodeBlock w))
          && body.zipIdx.all (fun (w, j) => pointsForward j w) then
        (blockOffsets fuel (off + 4 + h.icount) (ws.drop (4 + h.icount))).map (off :: ·)
      else none
/-- The code words of a node are stage words, or blocks, one of which begins at the entry's offset (R83). -/
def codeOk (n : NodeRec) : Bool :=
  match n.kind with
  | .stage => n.code.all fun w => namesInstr (decodeStage w)
  | .block => ((blockOffsets n.code.length 0 n.code).getD []).contains n.entry
  | _ => true
/-- All records of a section, when none is refused. -/
def allSome {α : Type} (xs : List (Option α)) : Option (List α) := if xs.all Option.isSome then some (xs.filterMap id) else none
/-- The ports of a node are connected, each once, and no edge names another (R81). -/
def portsOk (m : Module) (n : NodeRec) : Bool :=
  let ins := (m.edges.filter fun e => e.cons == n.num).map (·.cport)
  let outs := (m.edges.filter fun e => e.prod == n.num).map (·.pport)
  ins.all (fun p => decide (p < n.inputs)) && outs.all (fun p => decide (p < n.outputs))
    && (List.range n.inputs).all ins.contains && (List.range n.outputs).all outs.contains
/-- What names what: edges name nodes and loops name nodes and edges that the module holds; numbers are given once; a port feeds
or is fed by one edge; code words are what their node's kind has; only an edge out of a stage node has a swizzle (R80, R81, R83). -/
def moduleOk (m : Module) : Bool :=
  let nn := m.nodes.map (·.num)
  decide nn.Nodup && decide (m.edges.map (·.num)).Nodup && decide (m.loops.map (·.num)).Nodup
    && decide (m.regions.map (·.num)).Nodup
    && decide (m.edges.map fun e => (e.prod, e.pport)).Nodup && decide (m.edges.map fun e => (e.cons, e.cport)).Nodup
    && m.edges.all (fun e => nn.contains e.prod && nn.contains e.cons)
    && m.loops.all (fun l => nn.contains l.enter && nn.contains l.leave && m.edges.any fun e => e.num == l.back)
    && m.nodes.all (portsOk m) && m.nodes.all codeOk
    && m.edges.all (fun e => e.swz == 0 || m.nodes.any fun n => n.num == e.prod && n.kind = .stage)
    && m.nodes.all (fun n => match n.region with | some r => m.regions.any (fun x => x.num == r) | none => true)
/-- The module of a byte string; none: Trelgen refuses it (R82 to R84). -/
def moduleOf (bs : List Byte) : Option Module :=
  let g := recNat bs
  let n := g 0x10 1
  let ws := (List.range n).map fun i => g (0x11 + i) 1
  let code := (records bs 3).map leWord
  let pats := records bs 4
  let data := (records bs 5).flatten
  if decide (128 ≤ bs.length) && g 0 4 == 0x314D4748 && g 4 2 == 1 && decide (g 6 2 ≤ 3) && g 8 4 == bs.length && g 0xE 2 == 0
      && decide (1 ≤ n) && decide (n ≤ 8) && ws.all (fun w => decide (1 ≤ w)) && decide (ws.foldl (· + ·) 0 ≤ 60)
      && (List.range 8).all (fun i => decide (i < n) || g (0x11 + i) 1 == 0) && recZero bs 0x19 7 && recZero bs 0x60 32
      && (g 6 2 % 2 == 1) == (g 0xC 2 != 0) && sectionsOk bs
      && decide (1 ≤ g 0x58 1) && decide (g 0x58 1 ≤ g 0x59 1) && decide (g 0x59 1 ≤ 8) && decide (1 ≤ g 0x5A 1)
      && decide (g 0x5A 1 ≤ 8) && decide (g 0x5B 1 ≤ 7) then
    match allSome ((records bs 0).map (nodeRecOf code pats.length)), allSome ((records bs 1).map edgeRecOf),
        allSome ((records bs 2).map loopRecOf), allSome ((records bs 6).map (regionRecOf data)) with
    | some nodes, some edges, some loops, some regions =>
      let m : Module := ⟨sha3 bs, ws, if g 0xC 2 = 0 then none else some (g 0xC 2), nodes, edges, loops, pats, data, regions,
        g 0x58 1, g 0x59 1, g 0x5A 1, g 0x5B 1, g 0x5C 4⟩
      if moduleOk m && (g 6 2 / 2 == 1) == (regions.any fun r => r.nofault) then some m else none
    | _, _, _, _ => none
  else none

/-! ### A node's code -/

def NodeRec.stageWords (n : NodeRec) : List (Instr × SWord) := n.code.filterMap slotInstr
/-- The blocks of a block node: address (the offset in its code) and instructions. -/
def codeBlocks : Nat → Nat → List Word → List (Nat × List Instr)
  | 0, _, _ => []
  | fuel + 1, at_, ws =>
    match ws with
    | [] => []
    | h :: _ =>
      let n := (field h 49 7).toNat
      let is := ((ws.drop 4).take n).filterMap fun w => match decodeBlock w with | .ok i => some i | .error _ => none
      (at_, is) :: codeBlocks fuel (at_ + 4 + n) (ws.drop (4 + n))
def NodeRec.blocks (n : NodeRec) : List (Nat × List Instr) := codeBlocks n.code.length 0 n.code
def NodeRec.allInstrs (n : NodeRec) : List Instr :=
  match n.kind with
  | .stage => n.stageWords.map (·.1)
  | .block => n.blocks.flatMap (·.2)
  | _ => []
def Module.instrs (m : Module) : List Instr := m.nodes.flatMap NodeRec.allInstrs
/-- The inputs of a stage node that Trelgen marks whole-burst (R145). -/
def wholePorts (n : NodeRec) : List Nat :=
  (n.stageWords.flatMap fun (i, w) => (wholeArgs i w ++ dirArgs i w).filterMap fun x => match x with
    | .inp p => some p.val
    | _ => none).dedup
def Module.inOf (m : Module) (node : Nat) : List EdgeRec := m.edges.filter fun e => e.cons == node
def Module.outOf (m : Module) (node : Nat) : List EdgeRec := m.edges.filter fun e => e.prod == node
def Module.portEdge (m : Module) (node port : Nat) : Option EdgeRec := m.edges.find? fun e => e.prod == node && e.pport == port
def Module.portIn (m : Module) (node port : Nat) : Option EdgeRec := m.edges.find? fun e => e.cons == node && e.cport == port
def Module.ofKind (m : Module) (k : NodeKind) : List NodeRec := m.nodes.filter fun n => n.kind = k

/-- The whole-burst inputs of every stage node have burst lengths of at most 8 in all; else Trelgen refuses the graph (R145). -/
def burstsFit (m : Module) : Bool :=
  (m.ofKind .stage).all fun n =>
    decide ((((wholePorts n).filterMap fun p => (m.portIn n.num p).map (·.burst)).foldl (· + ·) 0) ≤ 8)

/-! ### Hidden edges (R162, R174): numbered after the declared ones, a block node each in declaration order, then the
deadline's -/

def Module.firstHidden (m : Module) : Nat := (m.edges.map fun e => e.num + 1).foldl max 0
def Module.hiddenEdges (m : Module) : List (Nat × Nat) := ((m.ofKind .block).map (·.num)).zipIdx.map fun (n, i) => (n, m.firstHidden + i)
def queuesBackfill : Instr → Bool
  | .exitq _ => true | .bfq _ => true | _ => false
def Module.deadlineEdge (m : Module) : Option Nat :=
  if m.instrs.any queuesBackfill then some (m.firstHidden + (m.ofKind .block).length) else none

/-! ### Tag sources of block nodes (R168) -/

/-- The input location of a block node's port. -/
def portLoc (m : Module) (node port : Nat) : List Nat := ((m.portIn node port).map fun e => inLoc e.num).toList
/-- A RECV with TAG that every execution of its block fires: no source held before it is held after the block. -/
def retags : Instr → Bool
  | .recv w => bitAt w.imm 18 && w.pr == .always
  | _ => false
/-- The set of tag sources that leaves a block which `cur` enters: `cur`, where it may still be held, with the sources the block's
RECVs with TAG or START create (log entry 32). -/
def leavingSources (m : Module) (node : Nat) (cur : List Nat) (is : List Instr) : List Nat :=
  (if is.any retags then [] else cur) ++ is.flatMap fun i => match i with
    | .recv w => if bitAt w.imm 18 then portLoc m node (field w.imm 0 4).toNat else []
    | .recvStart w => portLoc m node (field w.imm 0 4).toNat
    | _ => []
/-- The blocks an instruction may lead to, with the tag sources carried there; the block ends at `fall`. -/
def instrFlow (m : Module) (node : Nat) (blocks : List (Nat × List Instr)) (fall : Nat) (cur out : List Nat) (i : Instr) : List (Nat × List Nat) :=
  let carry := fun (x : List Nat) (ts : List Nat) => ts.map fun t => (t, x)
  let every := blocks.map (·.1)
  match i with
  | .bri w | .yield w | .call w => carry out [immTarget w]
  | .loop w => carry out [immTarget w, fall]
  | .lend imm w => carry out (fall :: if imm then [immTarget w] else every)
  | .ret _ => carry out (blocks.filterMap fun (a, js) =>
      if js.any (fun j => match j with | .call _ => true | _ => false) then some (a + 4 + js.length) else none)
  | .br _ => carry out every
  | .fork w => carry cur [immTarget w]
  | .spawnp w => carry (cur ++ out) (immTarget w :: if bitAt w.imm 23 then every else [])
  | .recvStart w => carry (portLoc m node (field w.imm 0 4).toNat) [(field w.imm 4 13).toNat]
  | _ => []
def addSources (st : List (Nat × List Nat)) (b : Nat) (xs : List Nat) : List (Nat × List Nat) :=
  if st.any fun x => x.1 == b then updIf st (fun x => x.1 == b) fun x => (x.1, (x.2 ++ xs).dedup) else st ++ [(b, xs.dedup)]
/-- The sets of tag sources that may enter each block, to a fixed point. -/
def flowSources (m : Module) (n : NodeRec) : Nat → List (Nat × List Nat) → List (Nat × List Nat)
  | 0, st => st
  | fuel + 1, st =>
    let st' := n.blocks.foldl (fun acc (a, is) =>
      match aget acc a with
      | none => acc
      | some cur =>
        let out := leavingSources m n.num cur is
        (is.flatMap (instrFlow m n.num n.blocks (a + 4 + is.length) cur out)).foldl (fun acc (b, xs) => addSources acc b xs) acc) st
    if st' = st then st else flowSources m n fuel st'
def isEmit : Instr → Bool
  | .strmLd _ | .strmGth _ | .strmWin _ => true | _ => false
/-- The stream node whose streamer an engine word of a block node means: the node it was marked with (R360), else the one placed on the
streamer of its ENG beside the block. -/
def engineNode (r : MapResult) (n : NodeRec) (place : Nat) (i : Instr) : Option Nat :=
  match r.marks.find? fun x => x.1 == n.num && x.2.1 == place with
  | some x => some x.2.2
  | none => (eform i).bind fun (_, w) => (r.nodes.find? fun p => p.node == n.num).bind fun b =>
      (r.nodes.find? fun p => p.at_.stand == b.at_.stand && p.at_.elem == 0x30 + w.eng.toNat).map (·.node)
/-- Pairs of tag source and edge that a block node's SENDs give, and the patterns it starts, for their streamer's output edge (log
entry 32). -/
def blockPairs (m : Module) (r : MapResult) (n : NodeRec) : List (Nat × Nat) :=
  let hid := inLoc (agetD m.hiddenEdges n.num 0)
  let st := flowSources m n (n.blocks.length * (m.edges.length + 2) + 1) [(n.entry, [hid])]
  (n.blocks.flatMap fun (a, is) =>
    let src := agetD st a []
    is.zipIdx.flatMap fun (i, j) => match i with
      | .send w => ((m.portEdge n.num (field w.imm 0 4).toNat).map fun e => src.map fun x => (x, e.num)).getD []
      | i => if isEmit i then (((engineNode r n (a + 4 + j) i).map m.outOf).getD []).flatMap fun e => src.map fun x => (x, e.num) else []).dedup

/-! ### Steps of a tag along a graph -/

inductive TagStep where
  | same | enter | step | leave
  | fromDeadline (push : Nat)
deriving DecidableEq, Repr
structure Arc where
  src : Nat
  tgt : Nat
  kind : TagStep
deriving DecidableEq, Repr

def stageTagStep : Instr → TagStep
  | .tenter _ => .enter | .tstep _ => .step | .tleave _ => .leave | _ => .same
/-- The arcs of a graph apart from the deadline's. -/
def Module.arcs (m : Module) (r : MapResult) : List Arc :=
  let all := m.edges.map (·.num) ++ m.hiddenEdges.map (·.2) ++ m.deadlineEdge.toList
  (all.map fun e => ⟨e, inLoc e, .same⟩) ++ m.nodes.flatMap fun n => match n.kind with
    | .stage => (m.inOf n.num).flatMap fun e => n.stageWords.flatMap fun (i, w) =>
        (portsOf w.d).filterMap fun p => (m.portEdge n.num p).map fun o => (⟨inLoc e.num, o.num, stageTagStep i⟩ : Arc)
    | .matrix => (m.inOf n.num).flatMap fun e => (m.outOf n.num).map fun o => (⟨inLoc e.num, o.num, .same⟩ : Arc)
    | .block => (blockPairs m r n).map fun (a, b) => (⟨a, b, .same⟩ : Arc)
    | _ => []
/-- Depths reached from the roots; none: two depths at one location, or an operation that no depth admits (R166). -/
def stepDepth (n d : Nat) : TagStep → Option Nat
  | .same => some d
  | .step => some d
  | .enter => if n ≤ d then none else some (d + 1)
  | .leave => if d ≤ 1 then none else some (d - 1)
  | .fromDeadline p => some (d + p)
def flowDepths (n : Nat) (arcs : List Arc) : Nat → List (Nat × Nat) → Option (List (Nat × Nat))
  | 0, ds => some ds
  | fuel + 1, ds =>
    let go := arcs.foldl (fun (acc : Option (List (Nat × Nat) × Bool)) a => acc.bind fun (ds, new) =>
      match aget ds a.src with
      | none => some (ds, new)
      | some d => match stepDepth n d a.kind, aget ds a.tgt with
        | none, _ => none
        | some e, none => some (ds ++ [(a.tgt, e)], true)
        | some e, some f => if e = f then some (ds, new) else none) (some (ds, false))
    match go with
    | none => none
    | some (ds, false) => some ds
    | some (ds, true) => flowDepths n arcs fuel ds
/-- Depths of every location with a tag: ports and hidden edges start at depth 1. -/
def Module.depths (m : Module) (r : MapResult) : Option (List (Nat × Nat)) :=
  let roots := ((m.ofKind .ingress).flatMap fun n => (m.outOf n.num).map (·.num)) ++ m.hiddenEdges.map (·.2) ++ m.deadlineEdge.toList
  flowDepths m.widths.length (m.arcs r) (2 * m.edges.length + 64) (roots.dedup.map fun e => (e, 1))
/-- Nodes that issue KVLD. -/
def NodeRec.readsKv (n : NodeRec) : Bool := n.allInstrs.any fun i => match i with | .kvld _ => true | _ => false
/-- The deadline location's arcs to the locations of the nodes that issue KVLD, and to what they send (R174): a push to the location's
depth. -/
def Module.deadlineArcs (m : Module) (depths : List (Nat × Nat)) : List Arc :=
  match m.deadlineEdge with
  | none => []
  | some d => (m.nodes.filter NodeRec.readsKv).flatMap fun n =>
      ((m.inOf n.num).map (fun e => inLoc e.num) ++ ((aget m.hiddenEdges n.num).map inLoc).toList ++ (m.outOf n.num).map (·.num)).filterMap
        fun loc => (aget depths loc).map fun k => ⟨inLoc d, loc, .fromDeadline (k - 1)⟩

/-! ### Summaries (R165, R166) -/

/-- A summary's shape and values; `vals` has the kept levels first. -/
structure TagPath where
  pop : Nat
  push : Nat
  vals : List Nat
deriving DecidableEq, Repr
def TagPath.kept (p : TagPath) : Nat := p.vals.length - p.push
def TagPath.after (p : TagPath) : TagStep → TagPath
  | .same => p
  | .enter => { p with push := p.push + 1, vals := p.vals ++ [0] }
  | .step => { p with vals := setAt p.vals (p.vals.length - 1) (getAt p.vals (p.vals.length - 1) 0 + 1) }
  | .leave => if p.push = 0 then { p with pop := p.pop + 1, vals := p.vals.dropLast } else { p with push := p.push - 1, vals := p.vals.dropLast }
  | .fromDeadline k => { p with push := p.push + k, vals := p.vals ++ List.replicate k 0 }
/-- Increments within their fields. -/
def TagPath.fits (ws : List Nat) (p : TagPath) : Bool := ((p.vals.take p.kept).zip ws).all fun (v, w) => decide (v < 2 ^ w)
/-- Up to four shapes; else one that lies at or below them all. -/
def collapse (ps : List TagPath) : List TagPath :=
  if ps.length ≤ 4 then ps
  else
    let j := (ps.map (·.pop)).foldl max 0
    let len := ((ps.head?.map fun p => p.vals.length).getD 0)
    let kept := ((ps.filter fun p => p.pop == j).map TagPath.kept).foldl min len
    let least := fun i => (ps.map fun p => if i < p.kept then getAt p.vals i 0 else 0).foldl min (2 ^ 60)
    [⟨j, len - kept, (List.range len).map fun i => if i < kept then least i else 0⟩]
def addPath (ws : List Nat) (ps : List TagPath) (p : TagPath) : List TagPath :=
  if !p.fits ws then ps
  else if ps.any fun q => q.pop == p.pop && q.push == p.push then
    updIf ps (fun q => q.pop == p.pop && q.push == p.push) fun q => { q with vals := List.zipWith min q.vals p.vals }
  else ps ++ [p]
/-- Paths from one source to every location, to a fixed point. `start` is where they begin. -/
def flowPaths (ws : List Nat) (arcs : List Arc) : Nat → List (Nat × List TagPath) → List (Nat × List TagPath)
  | 0, st => st
  | fuel + 1, st =>
    let st' := arcs.foldl (fun acc a => match aget acc a.src with
      | none => acc
      | some ps => aset acc a.tgt (ps.foldl (fun qs p => addPath ws qs (p.after a.kind)) (agetD acc a.tgt []))) st
    if st' = st then st else flowPaths ws arcs fuel st'
def pathFuel (arcs : List Arc) : Nat := 8 * arcs.length + 8
def pathsFrom (ws : List Nat) (arcs : List Arc) (src depth : Nat) : List (Nat × List TagPath) :=
  flowPaths ws arcs (pathFuel arcs) [(src, [⟨0, 0, List.replicate depth 0⟩])]
/-- Paths around a cycle through a location: from its successors back to it. -/
def cyclesAt (ws : List Nat) (arcs : List Arc) (src depth : Nat) : List TagPath :=
  let first := (arcs.filter fun a => a.src == src).foldl (fun acc a =>
    aset acc a.tgt (addPath ws (agetD acc a.tgt []) ((⟨0, 0, List.replicate depth 0⟩ : TagPath).after a.kind))) []
  agetD (flowPaths ws (arcs.filter fun a => a.src != src) (pathFuel arcs) first) src []

/-- Tag sources that RECVs with TAG make and from which no SEND of their node is reached. -/
def silentSources (m : Module) (r : MapResult) (n : NodeRec) : List Nat :=
  let pairs := blockPairs m r n
  ((n.allInstrs.flatMap fun i => match i with
    | .recv w => if bitAt w.imm 18 then portLoc m n.num (field w.imm 0 4).toNat else []
    | _ => []).dedup).filter fun x => !(pairs.any fun p => p.1 == x)
/-- The identity arcs from such a source to the edges that its node's SENDs feed, of those with its depth, unless they would close a cycle
without a step: R168 gives none, and R379 and R381 have the count of an open epoch stand in the record of a location beyond such a node
(DEDUCED, log entry 32). -/
def Module.silentArcs (m : Module) (r : MapResult) (depths : List (Nat × Nat)) : List Arc :=
  let arcs := m.arcs r
  (m.ofKind .block).flatMap fun n =>
    let outs := ((blockPairs m r n).map (·.2)).dedup
    (silentSources m r n).flatMap fun x => outs.filterMap fun e =>
      match aget depths x, aget depths e with
      | some d, some f =>
        let back := (agetD (pathsFrom m.widths arcs e f) x []).any fun p => p.vals.all (· == 0)
        if d = f && !back then some ⟨x, e, .same⟩ else none
      | _, _ => none

/-- Notification requests a graph makes: node, location, NOTE edge. -/
def Module.notes (m : Module) : List (Nat × Nat × Nat) :=
  (m.ofKind .stage).flatMap fun n => n.stageWords.flatMap fun (i, w) => match i with
    | .notify _ => (portsOf w.d).filterMap fun p => (m.portEdge n.num p).map fun e => (n.num, (field w.imm 0 12).toNat, e.num)
    | _ => []
/-- Target locations: notification locations, ingress edges, and the deadline location (R166, R174). -/
def Module.targets (m : Module) : List Nat :=
  ((m.notes.map fun x => x.2.1) ++ ((m.ofKind .ingress).flatMap fun n => (m.outOf n.num).map (·.num))
    ++ (m.deadlineEdge.map inLoc).toList).dedup
/-- Locations whose frontier something else asks for: egress ports (R154), streamers' outputs (R176). -/
def Module.asked (m : Module) : List Nat :=
  (m.targets ++ ((m.ofKind .egress).flatMap fun n => (m.inOf n.num).map fun e => inLoc e.num)
    ++ (m.ofKind .stream).flatMap fun n => (m.outOf n.num).map (·.num)).dedup
/-- The summary table of a graph, or none where Trelgen refuses it. -/
def summariesOf (m : Module) (r : MapResult) : Option (List Summary) :=
  (m.depths r).bind fun ds =>
    let arcs := m.arcs r ++ m.silentArcs r ds ++ m.deadlineArcs ds
    let ws := m.widths
    match flowDepths ws.length arcs (2 * m.edges.length + 64) ds with
    | none => none
    | some ds =>
      let badCycle := ds.any fun (loc, d) => (cyclesAt ws arcs loc d).any fun p => p.vals.all (· == 0)
      let all := ds.map fun (loc, d) => (loc, pathsFrom ws arcs loc d)
      let backNote := m.notes.any fun (_, loc, e) => match aget all e with
        | some st => (agetD st loc []).any fun p => p.pop == p.push && (p.vals.take p.kept).all (· == 0)
        | none => false
      if badCycle || backNote || decide (256 < (m.notes.map fun x => x.2.1).dedup.length)
          || decide (2048 < m.firstHidden + (m.ofKind .block).length + m.deadlineEdge.toList.length) then none
      else some (all.flatMap fun (src, st) => m.asked.flatMap fun tgt =>
        (collapse (agetD st tgt [])).map fun p => ⟨src, tgt, p.pop, p.push, p.vals⟩)

/-- A summary record (R167): VAL in the fields of the tag layout at the target depth. -/
def Summary.bytes (ws : List Nat) (x : Summary) : List Byte :=
  leBytes 8 (x.src + x.tgt * 2 ^ 28 + x.pop * 2 ^ 40 + x.push * 2 ^ 48)
    ++ leBytes 8 ((x.vals.zipIdx.map fun (v, i) => v * 2 ^ levelStart ws i).foldl (· + ·) 0)
/-- A record read back; `depth` is that of its target. -/
def Summary.read (ws : List Nat) (depth : Nat) (r : List Byte) : Summary :=
  let w := recNat r 0 8
  let v : Tag := BitVec.ofNat 64 (recNat r 8 8)
  ⟨w % 2 ^ 12, w / 2 ^ 28 % 2 ^ 12, w / 2 ^ 40 % 8, w / 2 ^ 48 % 8, (List.range depth).map (tagLevel ws v)⟩

/-! ### Replayable launches (R328) -/

def barsReplay : Instr → Bool
  | .amo _ | .famo _ | .cas _ | .samo _ | .samoBlock _ | .xst _ | .barx _ | .waitx _ | .spawnp _ | .ecall _ | .trap _ | .sysw _
  | .invt _ | .kvalloc _ | .kvfree _ | .xrslot _ | .xred _ | .xrwait _ | .rnsum _ | .rnmax _ | .recv _ | .recvStart _ | .send _
  | .sendBrk _ => true
  | _ => false
/-- A stage reads an L or M register that no earlier stage of the node has written. -/
def readsUnwritten : List Nat → List (Instr × SWord) → Bool
  | _, [] => false
  | done, (i, w) :: rest => (regReads i w).any (fun r => !done.contains r) || readsUnwritten (done ++ regWrites i w) rest
def Module.replayable (m : Module) : Bool :=
  !(m.instrs.any barsReplay) && !(m.regions.any fun r => r.mode == 3)
    && (m.ofKind .stage).all fun n => !(readsUnwritten [] n.stageWords)

end Sys2Proof.Machine
end

