-- ==== Sys2Proof/Machine/Launches.lean ====
section
/-! DEFINITION. The life of a launch (R24 to R27, R340 to R342): its records, states and status block, mapping, loading, ending,
and the teardown of what its contexts hold. -/

namespace Sys2Proof.Machine

def setLaunches (s : State) (ls : List Launch) : State := { s with la := { s.la with launches := ls } }
def setFront (s : State) (f : Front) : State := { s with fr := f }
def setHostSide (s : State) (h : HostSide) : State := { s with host := h }
def setEng (s : State) (e : Engines) : State := { s with eng := e }

/-! ### States and the status block (R27, R342) -/

def LState.code : LState → Nat
  | .waiting => 1 | .mapping => 2 | .loading => 3 | .running => 4 | .draining => 5 | .saved => 6 | .ended => 7 | .failed => 8
def statusBytes (l : Launch) : List Byte :=
  [BitVec.ofNat 8 l.state.code, BitVec.ofNat 8 l.preemptCode] ++ leBytes 2 l.key.launch ++ leBytes 4 l.statusSq ++ List.replicate 56 0
/-- A launch enters a state: its status block is written to host memory and vector 65 is raised. One that loads opens its stream. -/
def enterState (s : State) (l : Launch) (st : LState) : State :=
  let l := { l with state := st, statusSq := l.statusSq + 1 }
  let s := setLaunch (if st = .loading then openStream s l.key else s) l
  raiseVector (withHost s (Memory.writeN s.mem.host l.status (statusBytes l))) l.key.part 65
/-- The die that runs a partition's landing and its launch control (R164, R382). -/
def landingDie (s : State) (part : Nat) : Nat := lowDie (((partOf s part).map (·.dies)).getD 0)
/-- Launch control may act: none of its records waits for room (R326). -/
def controlFree (s : State) (part : Nat) : Bool := !reporting s (64 * landingDie s part) 0xFD
/-- A record of type ESCALATE from launch control or the landing, both on stand 0 of their die (R319, R382). -/
def escalateBy (elem : Nat) (s : State) (lk : LKey) : State :=
  record s (simpleRec s lk.part 6 0 (64 * landingDie s lk.part) elem 0 lk.launch 0 0)
def escalate (s : State) (lk : LKey) : State := escalateBy 0xFD s lk

/-! ### Ports of a launch (R340) -/

def Launch.portCount (l : Launch) (k : NodeKind) : Nat := ((l.module.map fun m => (m.ofKind k).length)).getD 0
def Launch.ingressPorts (l : Launch) : List Nat := (List.range (l.portCount .ingress)).map fun i => l.iport + i
def Launch.egressPorts (l : Launch) : List Nat := (List.range (l.portCount .egress)).map fun i => l.eport + i
/-- The live launch an ingress port, or an egress port, is bound to. -/
def ingressLaunch (s : State) (k : PortKey) : Option Launch :=
  s.la.launches.find? fun l => l.state.live && l.key.part == k.part && l.ingressPorts.contains k.port
def egressLaunch (s : State) (k : PortKey) : Option Launch :=
  s.la.launches.find? fun l => l.state.live && l.key.part == k.part && l.egressPorts.contains k.port
def Ingress.reset (k : PortKey) : Ingress := ⟨k, 0, 0, false, [], false, [], [], none⟩
def ingressAt (s : State) (k : PortKey) : Ingress := (s.host.ingress.find? fun p => decide (p.key = k)).getD (Ingress.reset k)
def setIngress (s : State) (p : Ingress) : State :=
  setHostSide s { s.host with ingress := (s.host.ingress.filter fun x => !decide (x.key = p.key)) ++ [p] }
def Egress.reset (k : PortKey) : Egress := ⟨k, 0, 0, 0, 0, 0, false, 0, 0, [], false, [], [], [], [], none, none, [], []⟩
def egressAt (s : State) (k : PortKey) : Egress := (s.host.egress.find? fun p => decide (p.key = k)).getD (Egress.reset k)
def setEgress (s : State) (p : Egress) : State :=
  setHostSide s { s.host with egress := (s.host.egress.filter fun x => !decide (x.key = p.key)) ++ [p] }
/-- The node of a launch's i-th ingress or egress port. -/
def Launch.portNode (l : Launch) (k : NodeKind) (port : Nat) : Option Nat :=
  let first := if k = .ingress then l.iport else l.eport
  l.module.bind fun m => ((m.ofKind k)[port - first]?).map (·.num)
/-- The element that stands for a port: where Trelgen placed its node, else the partition's lowest stand (R382). -/
def portKey (s : State) (l : Launch) (node elem : Nat) : EKey := (l.whereIs node).getD ⟨64 * landingDie s l.key.part, elem, l.ctx⟩
/-- The edge of an ingress port, and the edges of an egress port. -/
def Launch.ingressEdge (l : Launch) (port : Nat) : Option EdgeRec := (l.portNode .ingress port).bind fun n => (l.outEdges n).head?
def Launch.egressEdges (l : Launch) (port : Nat) : List EdgeRec :=
  match l.portNode .egress port, l.module with
  | some n, some m => m.inOf n
  | _, _ => []

/-! ### Records on system port 0 (R340) -/

structure LaunchRec where
  bytes : List Byte
deriving DecidableEq, Repr
def lanesBytes (x : Lanes) : List Byte := leBytes 64 x.toNat
def LaunchRec.kind (r : LaunchRec) : Nat := recNat r.bytes 14 1
def LaunchRec.number (r : LaunchRec) : Nat := recNat r.bytes 12 2
/-- The oldest whole record of a partition's port 0. -/
def systemRecord (s : State) (part : Nat) : Option LaunchRec :=
  match (ingressAt s ⟨part, 0⟩).record with
  | a :: b :: c :: _ => some ⟨lanesBytes a ++ lanesBytes b ++ lanesBytes c⟩
  | _ => none
def dropRecord (s : State) (part : Nat) : State :=
  let p := ingressAt s ⟨part, 0⟩
  setIngress s { p with record := p.record.drop 3 }
/-- A PREEMPT, RESUME or KILL record is 0 beside KIND and LAUNCH. -/
def LaunchRec.bare (r : LaunchRec) : Bool := recZero r.bytes 0 12 && recZero r.bytes 15 177

/-- Trelgen's reads and writes of partition memory, from a die's service cores; they leave no trace in the caches (log entry 10). -/
def peekVa (s : State) (part : Nat) (va n : Nat) : Option (List Byte) :=
  let go := (pieces 65536 (n / 65536 + 2) va 0 n).map fun (o, k) =>
    match (translate s (64 * landingDie s part) part (BitVec.ofNat 64 (va + o)) true false).2 with
    | .ok x => some ((List.range k).map fun i => peekByte s x.key (x.dpa + i))
    | _ => none
  (allSome go).map List.flatten
/-- A write at the lines' homes, marked as no launch's (R329); bytes whose page does not translate are not written. -/
def pokeVa (s : State) (part : Nat) (va : Nat) (bs : List Byte) : State :=
  (pieces 64 (bs.length / 32 + 2) va 0 bs.length).foldl (fun s (o, k) =>
    match translate s (64 * landingDie s part) part (BitVec.ofNat 64 (va + o)) false true with
    | (s, .ok x) => (homeWrite s part x.key x.dpa 0 ((bs.drop o).take k) ⟨0xFF, 0⟩).1
    | (s, _) => s) s

/-- Ports of a range overlap a live launch's. -/
def portClash (s : State) (part : Nat) (ins outs : List Nat) : Bool :=
  s.la.launches.any fun l => l.state.live && l.key.part == part
    && (ins.any (fun p => l.ingressPorts.contains p) || outs.any fun p => l.egressPorts.contains p)
def newLaunch (s : State) (part : Nat) (r : LaunchRec) (m : Option Module) : Launch :=
  let g := recNat r.bytes
  ⟨⟨part, r.number⟩, .waiting, s.ctl.nextId, g 15 1, g 16 1, if g 17 1 = 0xFF then none else some (g 17 1), g 0 8, g 8 4, g 24 8, g 20 4,
    g 32 8, (List.range 16).map fun i => BitVec.ofNat 64 (g (64 + 8 * i) 8), 0, 0, m, none, [], none, [], none, none, false, 0, false,
    (m.map Module.replayable).getD false, none, ⟨0, 0, [], []⟩, false, false, false, none, [], 0, false, false, false⟩
/-- The automaton of a port's stop store: the header, then class sets, initial set, accept set and lengths. -/
def Egress.nfa (p : Egress) : Option Nfa := nfaOf (p.store.take 64)
def storePart (p : Egress) (a : Nfa) (i n : Nat) : List Byte := (p.store.drop (64 + i * a.setBytes)).take n
def stopClass (p : Egress) (a : Nfa) (b : Byte) : List Byte := storePart p a b.toNat a.setBytes
def stopInit (p : Egress) (a : Nfa) : List Byte := storePart p a 256 a.setBytes
def stopAccept (p : Egress) (a : Nfa) : List Byte := storePart p a 257 a.setBytes
def stopLen (p : Egress) (a : Nfa) (i : Nat) : Nat := recNat (storePart p a 258 (2 * a.states)) (2 * i) 2
/-- A new launch's ingress ports return to their reset values (R153); an egress port keeps what the host set up, and begins with the initial
set of its stop table (R179, R189, R339). -/
def bindPorts (s : State) (l : Launch) : State :=
  let s := l.ingressPorts.foldl (fun s p => setIngress s (Ingress.reset ⟨l.key.part, p⟩)) s
  l.egressPorts.foldl (fun s p =>
    let e := egressAt s ⟨l.key.part, p⟩
    let set_ := match e.nfa with | some a => a.states_ (stopInit e a) | none => []
    setEgress s { e with set_ := set_, held := [], stopped := [], epochSlots := [], again := [] }) s
/-- LAUNCH (R340): a launch is created, or the record is refused. Records of the other kinds wait for their own events. -/
def execLaunch (s : State) : Out :=
  match s.ctl.focus with
  | .subject (.num part) =>
    match systemRecord s part, partOf s part with
    | some r, some p =>
      if [2, 3, 4].contains r.kind || p.tdi != .run || p.stopping || !controlFree s part then stay s
      else
        let g := recNat r.bytes
        let lk : LKey := ⟨part, r.number⟩
        let s := dropRecord s part
        let m := (peekVa s part (g 0 8) (g 8 4)).bind moduleOf
        let l := newLaunch s part r m
        let ins := l.ingressPorts
        let outs := l.egressPorts
        let bad := r.kind != 1 || !(recZero r.bytes 18 2) || !(recZero r.bytes 40 24) || decide (0xFE < r.number)
          || (launchOf s lk).any (fun x => x.state.live)
          || l.iport == 0 || decide (63 < l.iport) || decide (63 < l.eport)
          || ins.any (fun p => decide (63 < p)) || outs.any (fun p => decide (63 < p))
          || portClash s part ins outs
          || (match l.bfport with | some p => m.isSome && !ins.contains p | none => false)
        if bad then .next (escalate s lk)
        else
          let (_, s) := fresh s
          let s := setLaunches s ((s.la.launches.filter fun x => !decide (x.key = lk)) ++ [l])
          let s := { s with tiles := { s.tiles with sites := s.tiles.sites.filter fun x => x.1 != lk } }
          .next (enterState (bindPorts s l) l .waiting)
    | _, _ => stay s
  | _ => stay s

/-! ### Teardown -/

/-- Where a launch's context stands: the stands of its elements. -/
def Launch.stands (l : Launch) : List Nat := (l.placed.map fun p => p.at_.stand).dedup
def Launch.holds (l : Launch) (k : EKey) : Bool := l.placed.any fun p => decide (p.at_ = k)
def ofLaunch (lk : LKey) (ek : EdgeKey) : Bool := decide (ekLaunch ek = lk)
def srcOf (lk : LKey) (n : MNode) : Bool := decide (n.launch = lk) && match n.src with | .host _ _ => false | _ => true
/-- A sector's write-back waits for its page, apart from the sector, which the next launch of its context may fill anew (R121, R332). -/
def leaveDue (s : State) (k : ScratchKey) (part : Nat) (va : Word) : State :=
  match sectorOf s k with
  | none => s
  | some x =>
    let d : DueWrite := ⟨k, part, va, scratchRead s k.stand k.addr 64, x.dirty, rowMark s k⟩
    let s := clearMark (setSector s { x with dirty := 0, full := x.full &&& ~~~x.dirty, due := false }) k
    setMem s { s.mem with dues := s.mem.dues ++ [d] }
/-- Dirty stash sectors of a stand and context written back for good (R111, R332): one whose page is not present waits for it (R121),
and a lease step writes it back when the page is there. -/
def flushStand (s : State) (stand ctx : Nat) : State :=
  (dirtySectors s stand ctx).foldl (fun s k =>
    let elem := 0x10 + sceOf k.addr
    let (part, launch) := whoAt s stand ctx
    match stashWriteBack s ctx k with
    | .done s => s
    | .permission s va => saveRecord s ⟨stand, elem, ctx⟩ va k.addr
    | .notPresent s va => leaveDue (noteNotPresent s (dieOf stand) stand elem ctx part launch 0 va.toNat) k part va) s
/-- Everything a launch's contexts hold is gone: its elements are free. -/
def clearLaunch (s : State) (l : Launch) : State :=
  let lk := l.key
  let ours := l.holds
  let q := s.q
  let ek := ofLaunch lk
  let mine := fun (st c : Nat) => l.stands.contains st && c == l.ctx
  let piled := ((q.store.filter fun x => ours x.vpe && x.inPile).map fun x => vpeWide x.vpe).dedup
  piled.foldl clearFilter { s with
    q := { q with
      flights := q.flights.filter fun f => !ek f.edge
      buffers := q.buffers.filter fun b => !ek b.edge
      store := q.store.filter fun x => !ours x.vpe
      counts := q.counts.filter fun c => !ours c.vpe
      heads := q.heads.filter fun h => !ours h.vpe
      held := q.held.filter fun h => !ours h.vpe
      ends := q.ends.filter fun e => !ours e.vpe
      bursts := q.bursts.filter fun b => !ek b.edge
      owed := q.owed.filter fun o => !ek o.edge
      reqs := q.reqs.filter fun r => !ek r.1
      slots := q.slots.filter fun x => x.1 != lk
      brakes := q.brakes.filter fun b => b.launch != lk
      arriving := q.arriving.filter fun t => !ek t.1 }
    regs := s.regs.filter fun r => !ours r.1
    firings := s.firings.filter fun f => f.launch != lk
    tiles := { s.tiles with
      threads := s.tiles.threads.filter fun t => t.launch != lk
      execs := s.tiles.execs.filter fun x => !ours x.tile
      sched := s.tiles.sched.filter fun x => !ours x.1
      dregs := s.tiles.dregs.filter fun x => !ours x.1
      handles := s.tiles.handles.filter fun h => h.launch != lk
      handleGen := s.tiles.handleGen.filter fun x => x.1.1 != lk
      ecalls := s.tiles.ecalls.filter fun x => !ours x.1 }
    ord := { s.ord with nodes := s.ord.nodes.filter fun n => !(srcOf lk n && (n.at_ = .queued || isEngineOp n.op)) }
    fr := { s.fr with
      units := s.fr.units.filter fun u => u.launch != lk
      batches := s.fr.batches.filter fun b => b.launch != lk
      hubs := s.fr.hubs.filter fun h => h.launch != lk
      merges := s.fr.merges.filter fun b => b.launch != lk
      landings := s.fr.landings.filter fun x => x.launch != lk
      shadows := s.fr.shadows.filter fun h => !mine h.stand h.ctx
      justMerged := s.fr.justMerged.filter fun x => !mine x.1 x.2.1 }
    eng := { s.eng with
      commands := s.eng.commands.filter fun c => c.launch != lk
      islands := updIf s.eng.islands (fun x => ours x.1) fun x =>
        (x.1, ⟨[DTile.free (islandCols s x.1), DTile.free (islandCols s x.1)], x.2.acc, 0, 0, 0, false⟩)
      spokes := s.eng.spokes.filter fun c => c.launch != lk
      backfill := s.eng.backfill.filter fun e => e.launch != lk }
    host := { s.host with
      poisons := s.host.poisons.filter fun p => !mine p.elem.1 p.ctx
      rests := s.host.rests.filter fun r => r.launch != lk
      seals := s.host.seals.filter fun k => !ours k
      positions := s.host.positions.filter fun p => !ours p.eng } }
/-- The ports of a launch are bound no more (R153). -/
def unbindPorts (s : State) (l : Launch) : State :=
  l.ingressPorts.foldl (fun s p =>
    let e := (ingressAt s ⟨l.key.part, p⟩).err
    setIngress s { Ingress.reset ⟨l.key.part, p⟩ with err := e }) s
def dropImage (s : State) (lk : LKey) : State := { s with la := { s.la with images := s.la.images.filter fun i => i.launch != lk } }
/-- A launch leaves its elements for good and enters ENDED or FAILED. -/
def finishLaunch (s : State) (lk : LKey) (st : LState) : State :=
  match launchOf s lk with
  | none => s
  | some l =>
    let here := if l.state.onElements then l else { l with place := none }
    let s := here.stands.foldl (fun s st => flushStand s st l.ctx) s
    enterState (dropImage (unbindPorts (clearLaunch s here) l) lk) l st
/-- The fate of an escalated fault (R319): launch control reports it, or the element that a code of R382 names. -/
def failBy (elem : Nat) (s : State) (lk : LKey) : State := escalateBy elem (finishLaunch s lk .failed) lk
def failLaunch (s : State) (lk : LKey) : State := failBy 0xFD s lk

/-! ### Dies and mapping (R24, R25) -/

/-- Launches that wait for dies: new ones, saved ones that a RESUME asks for, and those saved for a reshape alone (R25, R28, R341). -/
def Launch.waitsDies (l : Launch) : Bool := l.state = .waiting || (l.state = .saved && (l.resumed || (l.reshape && l.atStep && !l.byPreempt)))
def bitCount (x : BitVec 8) : Nat := ((List.range 8).filter fun i => bitAt x i).length

/-! ### Slots granted at loading (R182) -/

/-- The first free position at or after a place, wrapping at 16. -/
def freePosition (free taken : List Nat) (at_ : Nat) : Option Nat :=
  ((List.range 16).map fun k => (at_ + k) % 16).find? fun p => free.contains p && !taken.contains p
/-- The positions a context of weight w receives: min(w, free) of them, the i-th at or after ⌊16i / w⌋. -/
def grantedPositions (free : List Nat) (w : Nat) : List Nat :=
  (List.range (min w free.length)).foldl (fun taken i => taken ++ (freePosition free taken (16 * i / w)).toList) []
/-- A context is loaded on an element of a stand, by the element's number in R61: a running launch has a node there, or a region of its in
that SCE. -/
def loadedAt (s : State) (stand idx ctx : Nat) : Bool :=
  s.la.launches.any fun l => (l.state = .running || l.state = .draining) && l.ctx == ctx
    && ((l.placed.any fun p => p.at_.stand == stand && tableIndex p.at_.elem == idx)
      || (l.place.any fun r => r.regions.any fun x => x.stand == stand && 16 + sceOf x.addr == idx))
/-- Positions whose owner is not loaded. -/
def freeSlots (slots : List (BitVec 2)) (loaded : Nat → Bool) : List Nat :=
  (List.range 16).filter fun j => !loaded (getAt slots j 0).toNat
/-- The table Trelgen writes: the context's slots, those of loaded contexts as they are, and the others to the lowest context that is not
loaded (as they are where every other is loaded: log entry 107). -/
def grantTable (slots : List (BitVec 2)) (loaded : Nat → Bool) (ctx w : Nat) : List (BitVec 2) :=
  let mine := grantedPositions (freeSlots slots loaded) w
  let spare := (List.range 4).find? fun c => c != ctx && !loaded c
  (List.range 16).map fun j =>
    let o := getAt slots j 0
    if mine.contains j then BitVec.ofNat 2 ctx else if loaded o.toNat then o else (spare.map (BitVec.ofNat 2)).getD o
/-- The slot tables a placement needs: stand, element number of R61, weight. A region node asks on the SCE that holds its region; where two
nodes ask on one element, the larger weight is asked (DESIGN CHOICE, log entry 107). -/
def tableNeeds (m : Module) (r : MapResult) : List (Nat × Nat × Nat) :=
  let weight := fun (n : Nat) => ((m.nodes.find? fun x => x.num == n).map (·.weight)).getD 0
  let asks := (r.nodes.filter fun p => decide (p.at_.elem < 0xF0)).map (fun p => (p.at_.stand, tableIndex p.at_.elem, weight p.node))
    ++ (m.ofKind .region).filterMap fun n => (n.region.bind fun g => r.regions.find? fun x => x.region == g).map fun x =>
      (x.stand, 16 + sceOf x.addr, n.weight)
  ((asks.map fun a => (a.1, a.2.1)).dedup).map fun k =>
    (k.1, k.2, ((asks.filter fun a => a.1 == k.1 && a.2.1 == k.2).map (·.2.2)).foldl max 0)
/-- Half f of a table as a command's VALUE. -/
def tableHalf (t : List (BitVec 2)) (f : Nat) : Nat := ((List.range 8).map fun j => (getAt t (8 * f + j) 0).toNat * 4 ^ j).foldl (· + ·) 0
def commandWord (elem fld value : Nat) : BitVec 32 := BitVec.ofNat 32 (elem * 2 ^ 24 + fld * 2 ^ 16 + value)
/-- The commands that write the slot tables of a launch (R182, R191). -/
def slotStream (s : State) (m : Module) (r : MapResult) : List (BitVec 32) :=
  let needs := tableNeeds m r
  ((needs.map (·.1)).dedup).flatMap fun st =>
    let ws := (needs.filter fun x => x.1 == st).flatMap fun x =>
      let i := x.2.1
      let g := grantTable (slotTable s st i).written (loadedAt s st i) r.ctx x.2.2
      [commandWord 0xF0 (2 * i) (tableHalf g 0), commandWord 0xF0 (2 * i + 1) (tableHalf g 1)]
    commandWord 0xFF 0 (r.ctx * 2 ^ 14 + st) :: ws ++ [commandWord 0xFF 3 ws.length]
/-- The configuration of the contexts a launch will load, before its stream: as after reset (log entry 4). -/
def clearConfig (s : State) (r : MapResult) : State :=
  let mine := fun (k : EKey) => r.nodes.any fun p => decide (p.at_ = k)
  let stand := fun (k : EKey) => k.ctx == r.ctx && (r.nodes.any (fun p => p.at_.stand == k.stand) || r.regions.any fun x => x.stand == k.stand)
  { s with cfg := { s.cfg with
    vpe := s.cfg.vpe.filter fun x => !mine x.1
    sce := s.cfg.sce.filter fun x => !stand x.1
    tile := s.cfg.tile.filter fun x => !mine x.1
    mx := s.cfg.mx.filter fun x => !mine x.1
    strm := s.cfg.strm.filter fun x => !mine x.1 } }
/-- A launch begins to load (R24, R27): the stream of its mapping, then the slots Trelgen grants it, are to be sent. -/
def beginLoad (s : State) (l : Launch) (m : Module) (r : MapResult) : State :=
  enterState (clearConfig s r) { l with place := some r, cfgBad := false, checked := false, todo := r.stream ++ slotStream s m r } .loading

/-! ### Placements -/

/-- An element can carry a node of a kind; ports stand at their code of R382. -/
def elemFits (k : NodeKind) (e : Nat) : Bool :=
  match k with
  | .stage => isVpe e | .block => isTile e | .matrix => isMatrix e | .stream => isStreamer e
  | .region => isSce e | .ingress => e == 0xF8 | .egress => e == 0xF9
def needsPlace : NodeKind → Bool
  | .stage => true | .block => true | .matrix => true | .stream => true | _ => false
/-- The combine trees are those the stream fixes, one for each reduction a launch uses, over the stands that issue it (R12, R301). -/
def treesOk (l : Launch) (m : Module) (r : MapResult) : Bool :=
  let l := { l with place := some r }
  let reds := (m.instrs.filterMap fun i => match i with
    | .rnsum w => some w.eq.toNat
    | .rnmax w => some w.eq.toNat
    | _ => none).dedup
  reds.isEmpty || (decide (r.trees = Config.spokeTrees r.stream) && reds.all fun n => match r.trees.filter fun t => t.red == n with
    | [t] => spokeOk t (redMembers l n)
    | _ => false)
/-- Each die that a stage node stands on has a slash pile of 128 MiB, apart from the others (R147). -/
def pilesOk (r : MapResult) : Bool :=
  (r.nodes.all fun p => !isVpe p.at_.elem || r.piles.any fun x => x.1 == dieOf p.at_.stand)
    && decide ((r.piles.map (·.1)).Nodup)
    && r.piles.all fun a => r.piles.all fun b => a.1 == b.1 || decide (a.2 + Config.pileBytes ≤ b.2) || decide (b.2 + Config.pileBytes ≤ a.2)
/-- A launch's memory requirement in bytes (R147): its data, the ranges of its stash regions and its slash piles. -/
def memoryNeed (m : Module) (r : MapResult) : Nat :=
  m.data.length + ((m.regions.filter fun g => g.mode == 2).map (·.size)).foldl (· + ·) 0 + Config.pileBytes * r.piles.length
/-- The stand of a placed node. -/
def standAt (r : MapResult) (node : Nat) : Option Nat := (r.nodes.find? fun p => p.node == node).map fun p => p.at_.stand
/-- A node whose code holds SPAWNP. -/
def NodeRec.spawns (n : NodeRec) : Bool := n.allInstrs.any fun i => match i with | .spawnp _ => true | _ => false
/-- Stage nodes that a segment's tokens may reach: fed by a local edge of a block node with SPAWNP, directly or through others (R15). -/
def segStages (m : Module) (r : MapResult) : List Nat :=
  let stage := fun (n : Nat) => m.nodes.any fun x => x.num == n && x.kind = .stage
  let local_ := m.edges.filter fun e => stage e.cons && (standAt r e.cons).isSome && standAt r e.cons == standAt r e.prod
  let first := (local_.filter fun e => m.nodes.any fun n => n.num == e.prod && n.kind = .block && n.spawns).map (·.cons)
  reachedFrom (local_.filter fun e => stage e.prod) first.dedup
/-- A segment's tokens never leave their stand (R15): what such a stage feeds stands beside it (log entry 108). -/
def segsStay (m : Module) (r : MapResult) : Bool :=
  let ns := segStages m r
  m.edges.all fun e => !ns.contains e.prod || ((standAt r e.cons).isSome && standAt r e.cons == standAt r e.prod)
/-- A placement is one: every element node once, on an element of its kind of a granted die, in one context that no other launch on
its elements uses there; every element with a slot free (R182). -/
def placementOk (s : State) (l : Launch) (m : Module) (r : MapResult) : Bool :=
  decide (r.ctx < 4)
    && (m.nodes.all fun n => let c := (r.nodes.filter fun p => p.node == n.num).length
          if needsPlace n.kind then c == 1 else decide (c ≤ 1))
    && r.nodes.all (fun p => p.at_.ctx == r.ctx && bitAt l.dies (dieOf p.at_.stand)
        && (m.nodes.any fun n => n.num == p.node && elemFits n.kind p.at_.elem))
    && decide (((r.nodes.filter fun p => decide (p.at_.elem < 0xF8)).map fun p => p.at_).Nodup)
    && r.regions.all (fun x => bitAt l.dies (dieOf x.stand) && m.regions.any fun g => g.num == x.region)
    && (s.la.launches.all fun o => decide (o.key = l.key) || !o.state.onElements || o.ctx != r.ctx
        || r.nodes.all fun p => !(o.stands.contains p.at_.stand))
    && (tableNeeds m r).all (fun x => !(freeSlots (slotTable s x.1 x.2.1).written (loadedAt s x.1 x.2.1)).isEmpty)
    && treesOk l m r && pilesOk r && segsStay m r

/-! ### The stream of a mapping (R24, R61, R84, R145) -/

/-- A node's stage words fail the check of the VPE they are loaded into: one of them is refused there (R62, R75). -/
def wordsFail (n : NodeRec) (c : VpeCfg) (elem : Nat) : Bool :=
  !vpeOk { c with slots := n.code.take 6 ++ c.slots.drop n.code.length } elem
/-- The configuration of a stage node's VPE is what the module says: its stage words, MATCH with the inputs that Trelgen marks whole-burst,
burst lengths, locations, formats, scales and swizzles. A slot whose word is refused keeps what it held. -/
def stageBuilt (m : Module) (n : NodeRec) (c : VpeCfg) (elem : Nat) : Bool :=
  let whole := wholePorts n
  (wordsFail n c elem || n.code.zipIdx.all fun (w, i) => getAt c.slots i 0 == w) && c.stages == getAt n.params 0 0 && c.matched.toNat == getAt n.params 1 0 % 16
    && (List.range 4).all (fun p => bitAt c.whole p == whole.contains p)
    && (m.inOf n.num).all (fun e => getAt c.inloc e.cport 0 == inLoc e.num && (!whole.contains e.cport || (field c.inburst (4 * e.cport) 4).toNat + 1 == e.burst))
    && (m.outOf n.num).all fun e => getAt c.outloc e.pport 0 == e.num && (field c.outfmt (4 * e.pport) 3).toNat == e.ft.code
        && (field c.outfmt (8 + 4 * e.pport) 4).toNat + 1 == e.burst && (field c.swzout (4 * e.pport) 4).toNat == e.swz
        && (!e.scaled || (getAt c.dscale e.pport 0).toNat == e.scale + 256 * e.refine)
/-- A word of a block node as Trelgen writes it: an E word that names a record has the scratch address of the node's record table, or of the
region it names, added to its PA, and one marked with a stream node has the ENG of that node's streamer (R286, R360); every other word is
the module's. -/
def wordBuilt (r : MapResult) (n : NodeRec) (i : Nat) (w got : Word) : Bool :=
  match decodeBlock w with
  | .ok ins => match eform ins with
    | some (f, x) =>
      let bases := if f.paZero then [0] else (r.tables.filter fun t => t.1 == n.num).map (·.2) ++ r.regions.map (·.addr)
      let eng := match r.marks.find? fun k => k.1 == n.num && k.2.1 == i with
        | some k => ((r.nodes.find? fun p => p.node == k.2.2).map fun p => p.at_.elem - 0x30).getD 0
        | none => x.eng.toNat
      bases.any fun b => got == (w &&& 0xFFFFFFFF0FF00000#64) ||| BitVec.ofNat 64 (eng * 2 ^ 28 + (x.pa.toNat + b) % 2 ^ 20)
    | none => got == w
  | .error _ => got == w
/-- The words marked with a stream node are E words of a block node with ENG 0, and the node's streamer stands beside the block. -/
def marksOk (m : Module) (r : MapResult) : Bool :=
  r.marks.all fun (n, i, sn) =>
    (m.nodes.any fun x => x.num == n && x.kind = .block && match (x.code[i]?).map decodeBlock with
      | some (.ok ins) => (eform ins).any fun (f, w) => w.eng == 0 && f.engs.contains 0
      | _ => false)
    && (m.nodes.any fun x => x.num == sn && x.kind = .stream)
    && r.nodes.any fun p => p.node == n && r.nodes.any fun q => q.node == sn && q.at_.stand == p.at_.stand
/-- That of a block node's tile: its code from word 0, its entry, the launch's allocation. -/
def blockBuilt (m : Module) (r : MapResult) (n : NodeRec) (c : TileCfg) : Bool :=
  n.code.zipIdx.all (fun (w, i) => wordBuilt r n i w (agetD c.imem i 0)) && c.entry == n.entry && c.galloc == m.galloc
def locOf (f : Nat → Nat) (e : Option EdgeRec) (loc : Nat) : Bool := match e with | some e => loc == f e.num | none => true
def matrixBuilt (m : Module) (n : NodeRec) (c : MxCfg) : Bool :=
  c.kpass == getAt n.params 0 0 + 256 * getAt n.params 1 0 && c.planes == getAt n.params 2 0 && c.afmt == getAt n.params 3 0
    && c.swzA.toNat == getAt n.params 4 0 % 16 && c.swzB.toNat == getAt n.params 4 0 / 16
    && locOf inLoc (m.portIn n.num 0) c.locA && locOf inLoc (m.portIn n.num 1) c.locB && locOf id (m.portEdge n.num 0) c.locD
def streamBuilt (m : Module) (n : NodeRec) (c : StrmCfg) : Bool :=
  match m.portEdge n.num 0 with
  | some e => c.outloc == e.num && (field c.outfmt 0 3).toNat == e.ft.code && (field c.outfmt 8 4).toNat + 1 == e.burst
  | none => true
/-- A region as its SCE has it. -/
def regionBuilt (r : MapResult) (x : PlacedRegion) (g : RegionRec) (c : SceCfg) : Bool :=
  c.regions.any fun q => 64 * q.base == x.addr % 65536 && q.size == (g.size + 63) / 64 && q.mode.toNat == g.mode
    && (g.mode != 2 || some q.gbase.toNat == aget r.stashBase g.num)
/-- The state after a launch's stream, command by command. -/
def runStream (s : State) (ws : List (BitVec 32)) : State := ws.foldl (fun s w => (runCommand (decodeConfig w) s).getD s) s
/-- Members of the exchange group: stands whose block code contains BARX (R190). -/
def exchangeMembers (m : Module) (r : MapResult) : Nat :=
  ((r.nodes.filter fun p => match m.nodes.find? fun n => n.num == p.node with
    | some n => n.allInstrs.any fun i => match i with | .barx _ => true | _ => false
    | none => false).map fun p => p.at_.stand).dedup.length
/-- The bytes of a part at most: its header, its body, filled up to a multiple of 64 (R333). -/
def partBytes (body : Nat) : Nat := (16 + body + 63) / 64 * 64
/-- The bodies of an image's parts, each at the largest size the mapping allows (R333); `t` is the state in which the stream has been sent.
How many thread tokens a block node's part is counted for is the mapping's choice, from 1 to the tile's frames (log entry 122). -/
def boundBodies (t : State) (l : Launch) (m : Module) (r : MapResult) : List Nat :=
  let if_ := fun (b : Bool) (n : Nat) => if b then [n] else []
  let notes := (m.notes.map fun x => x.2.1).dedup.length
  let pulls := (m.edges.filter (·.pull)).length
  let stands := (r.nodes.map fun p => p.at_.stand).dedup
  let kinds := fun (k : NodeKind) => r.nodes.filter fun p => m.nodes.any fun n => n.num == p.node && n.kind = k
  let frames := fun (n : Nat) => min Config.framesPerTile (max 1 (agetD r.threads n 1))
  [16 * r.landingCap] ++ if_ (notes != 0) (80 * notes) ++ if_ (notes != 0) (16 * Config.noteEntries * notes)
    ++ (if m.instrs.any (fun i => match i with | .spawnp _ => true | _ => false) then (diesOf l.dies).map fun _ => 512 else [])
    ++ (kinds .stage).map (fun _ => 272)
    ++ (kinds .matrix).map (fun p => 8 + 2 * (128 * islandCols t p.at_ + 8))
    ++ (kinds .stream).map (fun _ => 8 + 64 * Config.engineQueue)
    ++ (kinds .block).map (fun p => frames p.node * (28 + 128 * m.galloc))
    ++ (kinds .block).map (fun _ => 16 * 128)
    ++ (stands.flatMap fun st => (List.range 16).filterMap fun i =>
        let hs := (sceCfg t ⟨st, 0x10 + i, r.ctx⟩).handles
        if hs.any fun h => h.size != 0 then some (128 + 64 * ((hs.map (·.size)).foldl (· + ·) 0)) else none)
    ++ stands.map (fun st => 144 + 8 * ((kinds .matrix).filter fun p => p.at_.stand == st).length)
    ++ if_ (pulls != 0) (8 * pulls) ++ if_ (exchangeMembers m r != 0) 8
    ++ ((m.ofKind .egress).map fun _ => 8 + 2 * Config.stopStates + Config.stopHold)
    ++ [8 * (m.ofKind .ingress).length]
/-- The save-area bound in KiB: header, directory and parts (R24, R333). -/
def boundKB (t : State) (l : Launch) (m : Module) (r : MapResult) : Nat :=
  let bs := boundBodies t l m r
  let first := (0x100 + 16 * bs.length + 4095) / 4096 * 4096
  (first + (bs.map partBytes).foldl (· + ·) 0 + 1023) / 1024
/-- A mapping's stream builds the graph where it is placed, and none of its commands but a damaged stage word is refused (R61, R64,
R75, R84). -/
def streamBuilds (s : State) (l : Launch) (m : Module) (r : MapResult) : Bool :=
  let t := runStream (tune (enterState (clearConfig s r) { l with place := some r, cfgBad := false } .loading) l.key) r.stream
  let damaged := r.nodes.any fun p => m.nodes.any fun n => n.num == p.node && n.kind = .stage && wordsFail n (vpeCfg t p.at_) p.at_.elem
  (launchOf t l.key).any (fun x => !x.cfgBad || damaged) && marksOk m r && r.boundKB == boundKB t l m r
    && r.nodes.all (fun p => match m.nodes.find? fun n => n.num == p.node with
        | none => false
        | some n => match n.kind with
          | .stage => stageBuilt m n (vpeCfg t p.at_) p.at_.elem
          | .block => blockBuilt m r n (tileCfg t p.at_)
          | .matrix => matrixBuilt m n (mxCfg t p.at_)
          | .stream => streamBuilt m n (strmCfg t p.at_)
          | _ => true)
    && m.regions.all fun g => match r.regions.find? fun x => x.region == g.num with
        | none => false
        | some x => regionBuilt r x g (sceCfg t ⟨x.stand, 0x10 + sceOf x.addr, r.ctx⟩)

/-! ### Grants of dies (R25, R26, R28) -/

/-- DIE_GRANT (R25): dies for the launch of the partition that has waited longest; or, for a running launch that marks steps, the
reshape becomes pending (R26). A saved launch goes onto the dies of its reshape; another keeps its die count, unless it was saved at a
step boundary of `.step`. Which dies are free is the scheduler's to say. -/
def execDieGrant (dies : BitVec 8) (s : State) : Out :=
  match s.ctl.focus with
  | .subject (.launch lk) =>
    match launchOf s lk, partOf s lk.part with
    | some l, some p =>
      let m := ((l.module.map (·.minDies)).getD 1)
      let mx := ((l.module.map (·.maxDies)).getD 8)
      let ok := dies &&& ~~~p.dies == 0 && decide (m ≤ bitCount dies) && decide (bitCount dies ≤ mx)
      let first := s.la.launches.all fun x => !(x.waitsDies && x.key.part == lk.part && decide (x.order < l.order))
      if !ok then stay s
      else if l.waitsDies && first then
        let moves := l.reshape && l.atStep
        if l.state = .saved && (if moves then dies != l.grid else !l.atStep && bitCount dies != bitCount l.dies) then stay s
        else
          let l' := { l with dies := dies, reshape := l.reshape && !moves, resumed := false }
          if l.state = .saved && l.dies == dies then
            match l.module, l.place with
            | some m, some r => if placementOk s l m r then .next (beginLoad s l' m r) else stay s
            | _, _ => stay s
          else .next (enterState s l' .mapping)
      else if l.state = .running && (l.module.bind (·.step)).isSome then .next (setLaunch s { l with reshape := true, grid := dies })
      else stay s
    | _, _ => stay s
  | _ => stay s

/-! ### The mapping cache (R186) -/

/-- The grid descriptor (R186). -/
def gridDescriptor (dies : BitVec 8) : List Byte := [dies, 8, 8, 0] ++ leBytes 4 Config.trelgenVersion.toNat ++ List.replicate 8 0
def mappingKey (m : Module) (dies : BitVec 8) : BitVec 512 := sha3 (leBytes 64 m.digest.toNat ++ gridDescriptor dies)
/-- A cache entry's 128 bytes (R186). -/
def entryBytes (key : BitVec 512) (r : MapResult) (nsum : Nat) : List Byte :=
  leBytes 64 key.toNat ++ leBytes 8 r.streamAt ++ leBytes 4 r.stream.length ++ leBytes 4 nsum ++ leBytes 8 r.sumsAt
    ++ leBytes 4 r.boundKB ++ leBytes 4 r.landingCap ++ List.replicate 32 0
def MapEntry.holds (e : MapEntry) (part : Nat) (key : BitVec 512) : Bool := e.part == part && recNat e.bytes 0 64 == key.toNat
/-- The records of a byte string, n bytes each. -/
def recordsOf (n k : Nat) (bs : List Byte) : List (List Byte) := (List.range k).map fun i => (bs.drop (n * i)).take n
/-- The mapping found in the cache: an entry with the whole key, its stream and its summary table read from partition memory; an entry whose
tables cannot be read is no hit (log entry 12). -/
def cachedMap (s : State) (part : Nat) (key : BitVec 512) (m : Module) : Option (MapResult × List Summary) :=
  (s.la.cache.find? fun e => e.holds part key).bind fun e =>
    let g := recNat e.bytes
    match peekVa s part (g 64 8) (4 * g 72 4), peekVa s part (g 80 8) (16 * g 76 4), m.depths e.result with
    | some ws, some rs, some ds =>
      let depth := fun (r : List Byte) => agetD ds (recNat r 0 8 / 2 ^ 28 % 2 ^ 12) 1
      some ({ e.result with stream := (recordsOf 4 (g 72 4) ws).map fun w => BitVec.ofNat 32 (leNat w), boundKB := g 88 4, landingCap := g 92 4 },
        (recordsOf 16 (g 76 4) rs).map fun r => Summary.read m.widths (depth r) r)
    | _, _, _ => none
/-- A mapping's tables stand in partition memory, and its entry in the cache, replaced least recently used (R24, R186). -/
def keepMap (s : State) (part : Nat) (key : BitVec 512) (m : Module) (r : MapResult) (sums : List Summary) : State :=
  let s := pokeVa s part r.streamAt (r.stream.flatMap fun w => leBytes 4 w.toNat)
  let s := pokeVa s part r.sumsAt (sums.flatMap (Summary.bytes m.widths))
  let (stamp, s) := fresh s
  let rest := s.la.cache.filter fun e => !e.holds part key
  let mine := rest.filter fun e => e.part == part
  let rest := if mine.length < Config.mapCacheEntries then rest
    else match minBy (·.used) mine with | some e => rest.erase e | none => rest
  { s with la := { s.la with cache := rest ++ [⟨part, entryBytes key r sums.length, r, stamp⟩] } }
/-- A hit makes the entry the one last used. -/
def touchMap (s : State) (part : Nat) (key : BitVec 512) : State :=
  let (stamp, s) := fresh s
  { s with la := { s.la with cache := updIf s.la.cache (fun e => e.holds part key) fun e => { e with used := stamp } } }
/-- MAPPING (R24): the cached stream, or what place and route gives, which is stored under the key; a graph that cannot be placed or mapped,
or a save area below the bound, fails the launch. DESIGN CHOICE: a cached placement whose contexts another launch holds now is not used,
and the graph is placed anew (log entry 106). -/
def execMapping (result : Option MapResult) (s : State) : Out :=
  match s.ctl.focus with
  | .subject (.launch lk) =>
    match launchOf s lk with
    | none => stay s
    | some l =>
      if l.state != .mapping then stay s
      else match l.module with
        | none => .next (failLaunch s lk)
        | some m =>
          let key := mappingKey m l.dies
          let found := (cachedMap s lk.part key m).filter fun x => placementOk s l m x.1
          let made := if burstsFit m then result.bind fun r => (summariesOf m r).map fun sums => (r, sums) else none
          match (match found with | some x => some x | none => made) with
          | some (r, sums) =>
            if found.isNone && !(placementOk s l m r && streamBuilds s l m r) then stay s
            else
              let s := if found.isSome then touchMap s lk.part key else keepMap s lk.part key m r sums
              if l.saveKB < r.boundKB || (m.deadlineEdge.isSome && l.bfport.isNone) then .next (failLaunch s lk)
              else
                let old := (s.fr.landings.find? fun x => decide (x.launch = lk))
                let land : Landing := (old.getD ⟨lk, [], [], [], [], []⟩)
                let land := { land with
                  summaries := sums
                  records := (m.targets.map fun t => (land.records.find? fun x => x.loc == t).getD ⟨t, [], true, false⟩) }
                let s := setFront s { s.fr with landings := (s.fr.landings.filter fun x => x.launch != lk) ++ [land] }
                .next (beginLoad s { l with hidden := m.hiddenEdges, deadline := m.deadlineEdge,
                                            ex := { l.ex with expect := exchangeMembers m r } } m r)
          | none => .next (failLaunch s lk)
  | _ => stay s

/-! ### Loading (R27, R85, R105, R256) -/

/-- The initial bytes of a region, padded with zeros. -/
def RegionRec.bytes (g : RegionRec) : List Byte := (g.init ++ List.replicate (g.size - g.init.length) 0).take g.size
/-- The rows of an extent of scratch that no write has marked since the context load (R329). -/
def clearMarks (s : State) (stand addr n : Nat) : State :=
  let mine := fun (k : ScratchKey) => k.stand == stand && decide (addr ≤ k.addr) && decide (k.addr < addr + n)
  setMem s { s.mem with
    marks := s.mem.marks.filter fun x => !mine x.1
    syncs := s.mem.syncs.filter fun x => !mine x.key
    sectors := s.mem.sectors.filter fun x => !mine x.key
    visY := s.mem.visY.filter fun x => !mine x
    planes := s.mem.planes.filter fun x => !mine x.key }
/-- A region declared `nofault` is non-faulting where it stands (R80, R121). -/
def markNofault (s : State) (k : EKey) (addr : Nat) (nofault : Bool) : State :=
  let c := sceCfg s k
  setSceCfg s k { c with regions := updIf c.regions (fun q => q.size != 0 && 64 * q.base == addr % 65536) fun q => { q with nofault := nofault } }
/-- One region as after a context load: its initial data stand in scratch, byte for byte; a stash region's stand at its global
range and every sector is invalid (R105, R109, R111). At a restore a stash region's memory is kept. -/
def loadRegion (s : State) (l : Launch) (r : MapResult) (g : RegionRec) (restore : Bool) : State :=
  match r.regions.find? fun x => x.region == g.num with
  | none => s
  | some x =>
    let n := (g.size + 63) / 64 * 64
    let s := markNofault (clearMarks s x.stand x.addr n) ⟨x.stand, 0x10 + sceOf x.addr, l.ctx⟩ x.addr g.nofault
    if g.mode = 2 then
      if restore then s
      else match aget r.stashBase g.num with
        | some va => pokeVa s l.key.part va g.bytes
        | none => s
    else scratchWrite s x.stand x.addr (g.bytes ++ List.replicate (n - g.bytes.length) 0)
/-- The record table of a node, where Trelgen places it (R83, R286). -/
def loadTable (s : State) (l : Launch) (m : Module) (n addr : Nat) : State :=
  match l.whereIs n, m.nodes.find? fun x => x.num == n with
  | some k, some x => scratchWrite s k.stand addr ((m.patterns.drop x.firstPat).take x.pats).flatten
  | _, _ => s
/-- System registers of a stand's context: 0 (R85). -/
def clearSystem (s : State) (stands : List Nat) (ctx : Nat) : State :=
  let mine := fun (st c : Nat) => stands.contains st && c == ctx
  { s with
    fr := { s.fr with
      fpm := s.fr.fpm.filter fun x => !mine x.1 x.2.1
      fpf := s.fr.fpf.filter fun x => !mine x.1 x.2.1
      mxCounts := s.fr.mxCounts.filter fun x => !mine x.1.stand x.1.ctx
      shadows := s.fr.shadows.filter fun h => !mine h.stand h.ctx }
    ord := { s.ord with lclk := s.ord.lclk.filter fun x => !mine x.1 x.2.1 } }
/-- The context load of a launch's elements. -/
def loadContexts (s : State) (l : Launch) (m : Module) (r : MapResult) (restore : Bool) : State :=
  let s := { s with
    regs := s.regs.filter fun x => !l.holds x.1
    tiles := { s.tiles with dregs := s.tiles.dregs.filter fun x => !l.holds x.1 }
    eng := { s.eng with islands := s.eng.islands.filter fun x => !l.holds x.1 }
    host := { s.host with seals := s.host.seals.filter fun k => !l.holds k } }
  let s := clearSystem s l.stands l.ctx
  let s := m.regions.foldl (fun s g => loadRegion s l r g restore) s
  let s := r.tables.foldl (fun s (n, a) => loadTable s l m n a) s
  if restore then s else pokeVa s l.key.part r.dataBase m.data
/-- The entry of a node's tile, and the launch-entry thread token of each block node (R256), with the changes of its hold (R162). -/
def entryThreads (s : State) (l : Launch) (m : Module) : State :=
  (m.ofKind .block).foldl (fun s n =>
    match l.whereIs n.num with
    | none => s
    | some k =>
      let hold := inLoc (agetD l.hidden n.num 0)
      let tag := epochTag m.widths 0
      let regs := l.entry.zipIdx.map fun (w, i) => (i, w)
      newThread s k l.key (tileCfg s k).entry tag hold regs (freeFrames s k).head?) s
/-- The counts set at launch, applied before RUNNING: entry thread tokens and the open epoch of each ingress port (R162, R170). -/
def launchCounts (l : Launch) (m : Module) : List Delta :=
  ((m.ofKind .block).map fun n => (⟨inLoc (agetD l.hidden n.num 0), epochTag m.widths 0, 1⟩ : Delta))
    ++ (m.ofKind .ingress).flatMap fun n => (m.outOf n.num).map fun e => ⟨e.num, epochTag m.widths 0, 1⟩
/-- What a landing makes of a table: the frontier of each target (R169), in Frontier.lean; here the table itself. -/
def setLanding (s : State) (x : Landing) : State :=
  setFront s { s.fr with landings := updIf s.fr.landings (fun y => y.launch = x.launch) fun _ => x }
def landingOf (s : State) (lk : LKey) : Option Landing := s.fr.landings.find? fun x => decide (x.launch = lk)

end Sys2Proof.Machine
end

