-- ==== Sys2Proof/Machine/Frontier.lean ====
section
/-! DEFINITION. The frontier engine at work: batches, merges, the landing's table and records, notes delivered, flag shadows merged
(R163 to R171, R200), and the loading and the end of a launch that its counts decide (R27, R176). -/

namespace Sys2Proof.Machine

/-! ### Tags carried along summaries (R165, R169) -/

/-- The coordinates of a tag. -/
def coords (ws : List Nat) (t : Tag) : List Nat := (List.range (tagDepth t)).map (tagLevel ws t)
/-- apply(s, t): coordinates unbounded, for comparison only. -/
def Summary.apply (x : Summary) (cs : List Nat) : List Nat :=
  let d := cs.length - x.pop
  (List.zipWith (· + ·) (cs.take d) (x.vals.take d)) ++ (x.vals.drop d).take x.push
def coordsLe (a b : List Nat) : Bool := a.length == b.length && (a.zip b).all fun (x, y) => decide (x ≤ y)
/-- Everything a positive count could still result in at a location. -/
def reachable (ws : List Nat) (x : Landing) (loc : Nat) : List (List Nat) :=
  (x.counts.filter fun c => decide (0 < c.d)).flatMap fun c =>
    let cs := coords ws c.tag
    (if c.loc = loc then [cs] else []) ++ (x.summaries.filter fun s => s.src == c.loc && s.tgt == loc).map fun s => s.apply cs
def minimal (xs : List (List Nat)) : List (List Nat) :=
  let ys := xs.dedup
  ys.filter fun a => ys.all fun b => !(coordsLe b a) || b == a
/-- A tag from coordinates; none where one is beyond its field. -/
def tagFrom (ws : List Nat) (cs : List Nat) : Option Tag :=
  if (cs.zipIdx.all fun (c, i) => decide (c < 2 ^ levelWidth ws i)) then
    some (cs.zipIdx.foldl (fun t (c, i) => setLevel ws t i c) (setDepth 0 cs.length))
  else none
def pointwiseMin (xs : List (List Nat)) : List Nat :=
  match xs with
  | [] => []
  | y :: ys => ys.foldl (List.zipWith min) y
/-- The frontier record of a location (R169). -/
def frontierAt (ws : List Nat) (x : Landing) (loc : Nat) : FRecord :=
  let ms := minimal (reachable ws x loc)
  if ms.length ≤ 8 then ⟨loc, ms.filterMap (tagFrom ws), ms.isEmpty, false⟩
  else ⟨loc, (tagFrom ws (pointwiseMin ms)).toList, false, true⟩
/-- The frontier at a location has passed an epoch. -/
def passedIn (ws : List Nat) (x : Landing) (loc e : Nat) : Bool := (reachable ws x loc).all fun cs => decide (e < getAt cs 0 0)
def passed (s : State) (l : Launch) (loc e : Nat) : Bool :=
  match landingOf s l.key with
  | some x => passedIn l.widths x loc e
  | none => true
/-- No count of the launch stands at or before an epoch: the frontier at every location has passed it. -/
def passedEverywhere (s : State) (l : Launch) (e : Nat) : Bool :=
  match landingOf s l.key with
  | some x => x.counts.all fun c => !(decide (0 < c.d)) || decide (e < tagLevel l.widths c.tag 0)
  | none => true
/-- A request is deliverable (R170): by its record, and by the counts themselves. -/
def deliverable (ws : List Nat) (x : Landing) (r : Request) : Bool :=
  let rec_ := (x.records.find? fun y => y.loc == r.loc).getD (frontierAt ws x r.loc)
  (rec_.empty || rec_.tags.all fun f => !(coordsLe (coords ws f) (coords ws r.tag)))
    && (reachable ws x r.loc).all fun cs => !(coordsLe cs (coords ws r.tag))
/-- The records of every target recomputed; requests that become deliverable are stamped with the update (R157, R169). -/
def recompute (ws : List Nat) (x : Landing) (update : Nat) : Landing :=
  let x := { x with records := x.records.map fun (r : FRecord) => frontierAt ws x r.loc }
  { x with requests := x.requests.map fun (r : Request) =>
      if r.due.isNone && !r.delivered && deliverable ws x r then { r with due := some update } else r }

/-! ### Batches, merges (R163, R164) -/

def draining (s : State) (lk : LKey) : Bool := match launchOf s lk with | some l => l.state = .draining | none => false
def hubMine (die : Nat) (lk : LKey) (h : Hub) : Bool := h.die == die && decide (h.launch = lk)
def hubOf (s : State) (die : Nat) (lk : LKey) : Hub := (s.fr.hubs.find? (hubMine die lk)).getD ⟨die, lk, [], [], 0, 0, 0⟩
/-- Entries a die's merge buffer holds of other launches: it has one buffer for all of them (R159). -/
def hubOthers (s : State) (die : Nat) (lk : LKey) : Nat :=
  (s.fr.hubs.filter fun h => h.die == die && !decide (h.launch = lk)).foldl (fun n h => n + h.buf.length) 0
/-- A batch fits the die's merge buffer, with what its own merge has gathered and what stands there of other launches; into an empty buffer
any batch goes. -/
def hubTakes (s : State) (h : Hub) (b : Batch) : Bool :=
  (h.merged = 0 && hubOthers s h.die h.launch == 0)
    || decide (hubOthers s h.die h.launch + (netAll h.buf b.entries).length ≤ Config.hubEntries)
/-- A die hub accepts batches unless one waits there that its buffer does not fit (R163, R164; log entry 114). -/
def hubAccepts (s : State) (die : Nat) : Bool :=
  s.fr.batches.all fun b => dieOf b.from_ != die || hubTakes s (hubOf s die b.launch) b
/-- The 16 bytes before a batch's or a merge's entries (R163, R164). -/
def Batch.header (b : Batch) : List Byte :=
  leBytes 2 b.from_ ++ leBytes 2 0 ++ leBytes 4 b.sq ++ leBytes 4 b.entries.length ++ leBytes 4 b.merged
/-- BATCH_FLUSH: a unit's whole table leaves as one batch. An empty table sends none; a hub that does not accept batches holds it. -/
def execBatchFlush (s : State) : Out :=
  match s.ctl.focus with
  | .subject (.launchAt lk stand) =>
    if !(s.fr.units.any (unitMine stand lk)) then stay s
    else
      let u := unitOf s stand lk
      let (int_, cnt) := flushCfg s stand
      if u.entries.isEmpty || !hubAccepts s (dieOf stand)
          || !(decide (u.flushed + int_ ≤ s.ctl.clock) || decide (cnt ≤ u.changed.length) || draining s lk) then stay s
      else
        let s := setUnit s { u with table := [], spill := [], changed := [], flushed := s.ctl.clock, sq := (u.sq + 1) % 2 ^ 32 }
        let s := bumpPerf s stand 7 1
        .next (setFront s { s.fr with batches := s.fr.batches ++ [⟨lk, stand, u.sq, u.entries, 0⟩] })
  | _ => stay s
def setHub (s : State) (h : Hub) : State :=
  setFront s { s.fr with hubs := (s.fr.hubs.filter fun x => !hubMine h.die h.launch x) ++ [h] }
/-- A hub's gathered batches leave for the landing as one. -/
def forwardMerge (s : State) (h : Hub) : State :=
  let s := setHub s { h with buf := [], sq := (h.sq + 1) % 2 ^ 32, forwarded := s.ctl.clock, merged := 0 }
  setFront s { s.fr with merges := s.fr.merges ++ [⟨h.launch, 0xFE00 + h.die, h.sq, h.buf, h.merged⟩] }
/-- HUB_MERGE_FORWARD: the hub takes the next batch of a stand (a number below 512) into its buffer, in sequence order and whole; or
(0xFE00 + die) it forwards its buffer as one merge. A batch that is larger than the buffer is a merge of its own (log entry 114). -/
def execHubMergeForward (s : State) : Out :=
  match s.ctl.focus with
  | .subject (.launchAt lk n) =>
    if n < 512 then
      let h := hubOf s (dieOf n) lk
      let want := agetD h.expect n 0
      match s.fr.batches.find? fun b => decide (b.launch = lk) && b.from_ == n && b.sq == want with
      | none => stay s
      | some b =>
        let buf := netAll h.buf b.entries
        let h := { h with expect := aset h.expect n ((want + 1) % 2 ^ 32) }
        if !hubTakes s h b then stay s
        else
          let s := setFront s { s.fr with batches := s.fr.batches.erase b }
          if Config.hubEntries < buf.length then .next (forwardMerge s { h with buf := buf, merged := 1 })
          else .next (setHub s { h with buf := buf, merged := h.merged + 1 })
    else
      let h := hubOf s (n - 0xFE00) lk
      if h.merged = 0 || !(decide (h.forwarded + Config.mergeCycles ≤ s.ctl.clock) || decide (Config.hubEntries ≤ hubOthers s h.die lk + h.buf.length)
          || draining s lk) then stay s
      else .next (forwardMerge s h)
  | _ => stay s
/-- The marks of delivered requests go once no count stands at or before their epochs: no replay runs their NOTIFY again (R171, R330). -/
def freeMarks (s : State) (l : Launch) : State :=
  match landingOf s l.key with
  | none => s
  | some x => setLanding s { x with requests := x.requests.filter fun q => !(q.delivered && passedEverywhere s l (tagLevel l.widths q.tag 0)) }
/-- The frontier at a location has passed a tag. -/
def passedTag (s : State) (l : Launch) (loc : Nat) (t : Tag) : Bool :=
  match landingOf s l.key with
  | some x => (reachable l.widths x loc).all fun cs => !(coordsLe cs (coords l.widths t))
  | none => true
/-- Position records are freed once the frontier at their streamers' outputs has passed their tags; a pattern without an output looks where its
hold stands (R176, R330). -/
def freePositions (s : State) (l : Launch) : State :=
  setHostSide s { s.host with positions := s.host.positions.filter fun p =>
    !(decide (p.cmd.launch = l.key) && passedTag s l (if hasOutput p.cmd.op then (strmCfg s p.eng).outloc else p.cmd.hold) p.tag) }
/-- BATCH_APPLY: the next merge of a hub applied whole, then every target's frontier. A table past its size fails the launch; the landing
reports it (R164, R382). -/
def execBatchApply (s : State) : Out :=
  match s.ctl.focus with
  | .subject (.launchAt lk die) =>
    match landingOf s lk, launchOf s lk with
    | some x, some l =>
      let want := agetD x.expect die 0
      match s.fr.merges.find? fun b => decide (b.launch = lk) && b.from_ == 0xFE00 + die && b.sq == want with
      | none => stay s
      | some b =>
        let counts := netAll x.counts b.entries
        if ((l.place.map (·.landingCap)).getD 0) < counts.length then .next (failBy 0xFE s lk)
        else
          let n := s.fr.updates + 1
          let s := setFront s { s.fr with merges := s.fr.merges.erase b, updates := n }
          let s := setLanding s (recompute l.widths { x with counts := counts, expect := aset x.expect die ((want + 1) % 2 ^ 32) } n)
          .next (freeMarks (freePositions s l) l)
    | _, _ => stay s
  | _ => stay s

/-! ### Notes (R157, R171) -/

/-- A NOTE (R171). -/
def noteToken (tag : Tag) (loc : Nat) : Token := ⟨tag, 0, .note, .i32, 0x0001#16, BitVec.ofNat 512 loc⟩
/-- What is put on a request's NOTE edge: the NOTE, or poison FMT where the port's format is not I32 (R235). -/
def noteSent (s : State) (lk : LKey) (r : Request) : Token :=
  let c := vpeCfg s r.vpe
  let ft : Option Fmt := match [0, 1].find? fun p => getAt c.outloc p 0 == r.edge with
    | some p => some (outFmt c p)
    | none => (edgeRec s (lkEdge lk r.edge)).map (·.ft)
  if ft.any (fun f => f != .i32) then poisonToken r.tag (ownPoison r.vpe pFMT r.edge) else noteToken r.tag r.loc
/-- NOTE_DELIVERY: one request that is due, after every one registered before it that became due with it; it stays, marked delivered. -/
def execNoteDelivery (s : State) : Out :=
  match s.ctl.focus with
  | .subject (.num id) =>
    match s.fr.landings.find? fun x => x.requests.any fun r => r.id == id with
    | none => stay s
    | some x =>
      match x.requests.find? fun r => r.id == id, launchOf s x.launch with
      | some r, some l =>
        let first := x.requests.all fun q => q.delivered || !(decide (q.id < r.id) && q.due == r.due)
        if r.delivered || r.due.isNone || !first || !(deliverable l.widths x r) || sealedAt s r.vpe || !(l.state = .running || l.state = .draining) then stay s
        else
          let t := noteSent s x.launch r
          let s := setLanding s { x with requests := updIf x.requests (fun q => q.id == id) fun q => { q with delivered := true } }
          .next (bumpPerf (mustSend s (lkEdge x.launch r.edge) r.vpe t) r.vpe.stand 14 (if t.kind = .note then 1 else 0))
      | _, _ => stay s
  | _ => stay s

/-! ### Flag shadows (R199, R200) -/

def fpfOf (s : State) (stand ctx : Nat) : Lane :=
  ((s.fr.fpf.find? fun (a, b, _) => a == stand && b == ctx).map fun (_, _, v) => v).getD 0
def setFpf (s : State) (stand ctx : Nat) (v : Lane) : State :=
  setFront s { s.fr with fpf := (s.fr.fpf.filter fun (a, b, _) => !(a == stand && b == ctx)) ++ [(stand, ctx, v)] }
def fpmOf (s : State) (stand ctx : Nat) : Lane :=
  ((s.fr.fpm.find? fun (a, b, _) => a == stand && b == ctx).map fun (_, _, v) => v).getD 0
def setFpm (s : State) (stand ctx : Nat) (v : Lane) : State :=
  setFront s { s.fr with fpm := (s.fr.fpm.filter fun (a, b, _) => !(a == stand && b == ctx)) ++ [(stand, ctx, v)] }
def mxCountsOf (s : State) (k : EKey) : Nat × Nat := ((s.fr.mxCounts.find? fun x => decide (x.1 = k)).map (·.2)).getD (0, 0)
def addMxCounts (s : State) (k : EKey) (n o : Nat) : State :=
  let (a, b) := mxCountsOf s k
  setFront s { s.fr with mxCounts := (s.fr.mxCounts.filter fun x => !decide (x.1 = k)) ++ [(k, satAdd32 a n, satAdd32 b o)] }
/-- A launch's shadows of epochs that the frontier has passed: their merges are still to be made. -/
def mergesDue (s : State) (l : Launch) : Bool :=
  s.fr.shadows.any fun h => l.stands.contains h.stand && h.ctx == l.ctx && passedEverywhere s l h.epoch
/-- The launch whose context a stand's context number is. -/
def launchOn (s : State) (stand ctx : Nat) : Option Launch :=
  s.la.launches.find? fun l => l.state.onElements && l.ctx == ctx && l.stands.contains stand
/-- FLAG_SHADOW_MERGE: one shadow of a stand's context, once the frontier at every location has passed its epoch. What it adds to
SY.FPF is kept with the clock, since a SYSW of the same clock comes before it (R200). -/
def execFlagShadowMerge (s : State) : Out :=
  match s.ctl.focus with
  | .subject (.elemAt k epoch) =>
    match s.fr.shadows.find? (shadowMine k.stand k.ctx epoch), launchOn s k.stand k.ctx with
    | some h, some l =>
      if !(passedEverywhere s l epoch) then stay s
      else
        let fl : Lane := h.fl.setWidth 32
        let now := s.ctl.clock
        let before := match s.fr.justMerged.find? fun x => x.1 == k.stand && x.2.1 == k.ctx && x.2.2.1 == now with
          | some (_, _, _, v) => v
          | none => 0
        let s := setShadows s (s.fr.shadows.filter fun x => !shadowMine k.stand k.ctx epoch x)
        let s := setFpf s k.stand k.ctx (fpfOf s k.stand k.ctx ||| fl)
        let s := ((h.nans.map (·.1) ++ h.overs.map (·.1)).dedup).foldl (fun s e =>
          addMxCounts s ⟨k.stand, e, k.ctx⟩ (agetD h.nans e 0) (agetD h.overs e 0)) s
        let rest := s.fr.justMerged.filter fun x => !(x.1 == k.stand && x.2.1 == k.ctx)
        .next (setFront s { s.fr with justMerged := rest ++ [(k.stand, k.ctx, now, before ||| fl)] })
    | _, _ => stay s
  | _ => stay s

/-! ### Loading done (R27, R64, R85, R256) -/

def imageOf (s : State) (lk : LKey) : Option Image := s.la.images.find? fun i => decide (i.launch = lk)
/-- LOADING_DONE: a launch whose stream had a refusal runs and fails (R64); any other has its contexts loaded, its launch-entry
thread tokens queued and its first counts applied. A saved launch is loaded by RESTORE. -/
def execLoadingDone (s : State) : Out :=
  match s.ctl.focus with
  | .subject (.launch lk) =>
    match launchOf s lk with
    | some l =>
      match l.module, l.place, landingOf s lk with
      | some m, some r, some x =>
        if l.state != .loading || (imageOf s lk).isSome || !l.todo.isEmpty || !(streamOf s lk).staged.isEmpty then stay s
        else if l.cfgBad then .next (failLaunch (enterState s l .running) lk)
        else
          let s := entryThreads (loadContexts s l m r false) l m
          let s := setLanding s (recompute l.widths { x with counts := netAll x.counts (launchCounts l m) } s.fr.updates)
          .next (enterState s { l with preempt := l.preempt.map fun _ => s.ctl.clock } .running)
      | _, _, _ => stay s
    | none => stay s
  | _ => stay s

/-! ### Quiescence (R176) -/

/-- Counts still on their way to the landing. -/
def countsMoving (s : State) (lk : LKey) : Bool :=
  s.fr.units.any (fun u => decide (u.launch = lk) && !u.entries.isEmpty) || s.fr.batches.any (fun b => decide (b.launch = lk))
    || s.fr.hubs.any (fun h => decide (h.launch = lk) && h.merged != 0) || s.fr.merges.any fun b => decide (b.launch = lk)
/-- A launch that drains still has layers the skidder has claimed: it finishes them before the drain ends (R156; log entry 112). -/
def claimsOpen (s : State) (l : Launch) : Bool :=
  l.state = .draining && s.eng.backfill.any fun e => decide (e.launch = l.key) && e.claim.isSome
/-- An element of the backfill graph, which the claims reach from the launch's backfill port. -/
def servesClaims (l : Launch) (k : EKey) : Bool :=
  match (l.bfport.bind (l.portNode .ingress)), l.nodeAt k, l.module with
  | some n, some x, some m => (reachedFrom m.edges [n]).contains x
  | _, _, _ => false
/-- Tokens of a launch in flight, buffers, stores or waiting to be sent; a segment's are not counted. -/
def tokensHeld (s : State) (l : Launch) : Bool :=
  let ek := ofLaunch l.key
  s.q.flights.any (fun f => ek f.edge) || s.q.buffers.any (fun b => ek b.edge) || s.q.store.any (fun x => l.holds x.vpe)
    || s.q.held.any (fun h => l.holds h.vpe) || s.q.owed.any (fun o => ek o.edge)
/-- Firings, executions and passes of a launch in flight, and engine commands that still act. -/
def workInFlight (s : State) (l : Launch) : Bool :=
  s.firings.any (fun f => decide (f.launch = l.key)) || s.tiles.execs.any (fun x => l.holds x.tile)
    || s.eng.islands.any (fun (k, i) => l.holds k && i.tiles.any fun t => t.draining || !t.enders.isEmpty)
    || s.ord.nodes.any (fun n => srcOf l.key n && n.at_ != .acked)
    || s.host.rests.any fun r => decide (r.launch = l.key)
def Launch.allEnded (l : Launch) (s : State) : Bool := l.ingressPorts.all fun p => (ingressAt s ⟨l.key.part, p⟩).ended
/-- Every count is zero but the epoch holds of ports that have not ended, and nothing moves. -/
def quiescent (s : State) (l : Launch) : Bool :=
  match landingOf s l.key with
  | none => false
  | some x =>
    let holds := l.ingressPorts.filterMap fun p =>
      let q := ingressAt s ⟨l.key.part, p⟩
      if q.ended then none else (l.ingressEdge p).map fun e => (⟨e.num, epochTag l.widths q.epoch, -1⟩ : Delta)
    (netAll x.counts holds).isEmpty && !(countsMoving s l.key) && !(tokensHeld s l) && !(workInFlight s l)
      && !(s.eng.commands.any fun c => decide (c.launch = l.key))

end Sys2Proof.Machine
end

