-- ==== Sys2Proof/Machine/Contain.lean ====
section
/-! DEFINITION. What cancels work where it stands: draft regions and brakes (R151, R152, R371, R372), loop slots that come back
(R195), containment and SEAL (R323, R324). -/

namespace Sys2Proof.Machine

/-! ### Draft regions (R372) -/

/-- A draft region: its nodes, its edges, the edges by which it returns to the acceptance node (R372). -/
structure DraftRegion where
  nodes : List Nat
  edges : List Nat
  returns : List Nat
deriving DecidableEq, Repr
/-- The simple paths from an edge back to a node: their edges. -/
def pathsBack (edges : List EdgeRec) (home : Nat) : Nat → List Nat → List EdgeRec → EdgeRec → List (List EdgeRec)
  | 0, _, _, _ => []
  | fuel + 1, seen, path, e =>
    if e.cons = home then [path ++ [e]]
    else if seen.contains e.cons then []
    else (edges.filter fun x => x.prod == e.cons).flatMap fun x => pathsBack edges home fuel (e.cons :: seen) (path ++ [e]) x
/-- The draft region of an acceptance node's brake port, by the port's edge. -/
def draftRegion (edges : List EdgeRec) (first : Nat) : DraftRegion :=
  match edges.find? fun e => e.num == first with
  | none => ⟨[], [first], []⟩
  | some e =>
    let es := ((pathsBack edges e.prod (edges.length + 1) [] [] e).flatten).dedup
    ⟨((es.map (·.cons)).filter fun n => n != e.prod).dedup, es.map (·.num), (es.filter fun x => x.cons == e.prod).map (·.num)⟩

/-! ### Cancelling what an element holds (R151, R324) -/

/-- A token that an element absorbs as it arrives (R151, R324). -/
def absorbTok (s : State) (stand : Nat) (ek : EdgeKey) (t : Token) (last : Bool) : State :=
  forgetTok (changeSet s stand (ekLaunch ek) (usedDelta ek.edge t)) ek t last
/-- Arrival numbers after entries go: those of a tag that remain matched keep theirs (R145). -/
def lowerCounts (s : State) (gone : List Stored) : State :=
  let low := fun (c : ArrivalCount) => gone.foldl (fun m (x : Stored) =>
    if x.vpe = c.vpe && x.inp == c.inp && x.tok.tag == c.tag && x.tok.seg == c.seg then min m (x.num - 1) else m) c.count
  { s with q := { s.q with counts := s.q.counts.map fun c => { c with count := low c } } }
def Firing.usesBursts (f : Firing) (s : State) : Bool := f.inputs.any fun x => bitAt (vpeCfg s f.vpe).whole x.inp
/-- Firings stop: their inputs count −1, slots they took come back, backfill entries they queued go. -/
def dropFirings (s : State) (fs : List Firing) : State :=
  fs.foldl (fun s f =>
    let s := { s with firings := s.firings.filter fun g => !(g.id == f.id) }
    firingSlotsBack ((s.eng.backfill.filter fun b => f.bfs.any fun x => x.2 == b.id).foldl cancelBf s) f) s
/-- Tokens of an element's node that a predicate on tags picks, in its edge buffers, matching store, pile, input ports and burst
buffer, with the patterns it picks: all cancelled in one change set. -/
def cancelAt (s : State) (l : Launch) (k : EKey) (node : Nat) (cov : Tag → Bool) (pipe : Bool) : State :=
  let hit := fun (t : Token) => cov t.tag && t.kind != .brake && t.kind != .req
  let ours := fun (ek : EdgeKey) => ofLaunch l.key ek && (l.edgeRec ek.edge).any fun e => e.cons == node
  let bs := s.q.buffers.filter fun b => ours b.edge && hit b.tok
  let st := s.q.store.filter fun x => x.vpe = k && hit x.tok
  let hs := s.q.held.filter fun x => x.vpe = k && hit x.tok
  let es := s.q.ends.filter fun x => x.vpe = k && cov x.tag
  let fs := s.firings.filter fun f => f.vpe = k && cov f.tag && (pipe || f.usesBursts s)
  let ps := s.eng.commands.filter fun c => c.eng = k && decide (c.launch = l.key) && isPattern c.op && cov c.tag && !c.ended
  let ds := (bs.flatMap fun b => usedDelta b.edge.edge b.tok)
    ++ (st.flatMap fun x => usedDelta (inputEdge s k x.inp) x.tok) ++ (hs.flatMap fun x => usedDelta (inputEdge s k x.inp) x.tok)
    ++ (es.filter fun x => x.seg == 0).map (fun x => (⟨inputEdge s k x.inp, x.tag, -1⟩ : Delta))
    ++ fs.flatMap fun f => (f.tokens s).flatMap fun x => usedDelta x.1 x.2
  let q := s.q
  let s := { s with q := { q with
    buffers := q.buffers.filter fun b => !(ours b.edge && hit b.tok)
    store := q.store.filter fun x => !(x.vpe = k && hit x.tok)
    held := q.held.filter fun x => !(x.vpe = k && hit x.tok)
    ends := q.ends.filter fun x => !(x.vpe = k && cov x.tag)
    heads := q.heads.filter fun x => !(x.vpe = k && cov x.head.tag) } }
  let s := clearFilter (lowerCounts s st) k
  let s := bs.foldl (fun s b => forgetTok s b.edge b.tok b.last) s
  let s := ((st.map fun x => (x.inp, x.tok, x.last)) ++ hs.map fun x => (x.inp, x.tok, x.last)).foldl (fun s x =>
    forgetTok s (lkEdge l.key (inputEdge s k x.1)) x.2.1 x.2.2) s
  let s := es.foldl (fun s x => permitBack s (lkEdge l.key (inputEdge s k x.inp)) x.tag x.short) s
  ps.foldl cancelPattern (dropFirings (changeSet s k.stand l.key ds) fs)

/-! ### Brakes -/

def setBrakes (s : State) (bs : List BrakeMark) : State := { s with q := { s.q with brakes := bs } }
/-- Draft-region inputs of a node, but for loops' back edges and return edges. -/
def frontInputs (s : State) (lk : LKey) (r : DraftRegion) (node : Nat) : List Nat :=
  let backs := (launchLoops s lk).map (·.back)
  ((moduleEdges s lk).filter fun e => e.cons == node && r.edges.contains e.num && !backs.contains e.num && !r.returns.contains e.num).map (·.num)
/-- Covered tokens that arrive are cancelled (R152, R372): at the acceptance node on a return edge, until the brake has come back on
it; at a region node that has seen the brake and not forwarded it, on draft inputs it has not reached; at one that has forwarded
it, on back edges. -/
def braked (s : State) (ek : EdgeKey) (t : Token) : Bool :=
  t.kind != .brake && t.kind != .req && s.q.brakes.any fun b =>
    decide (b.launch = ekLaunch ek) && !b.seen.contains ek.edge
      && covered ((launchOf s b.launch).map Launch.widths |>.getD []) b.tag b.pos t.tag
      && match edgeRec s ek with
        | some e => e.cons == b.node
            && (draftRegion (moduleEdges s b.launch) b.accept).edges.contains ek.edge
            && (!b.forwarded || !((frontInputs s b.launch (draftRegion (moduleEdges s b.launch) b.accept) b.node).contains ek.edge))
        | none => false
/-- What a brake cancels of a region element's work beside tokens: covered segments, backfill entries of covered tokens, and running
patterns, which end without END or raise (R151, R156, R293). -/
def brakeWork (s : State) (l : Launch) (node : Nat) (cov : Tag → Bool) : State :=
  let s := squashWhere s fun t => decide (t.launch = l.key) && nodeOf s l.key t.tile == node && cov t.tag
  let s := (s.eng.backfill.filter fun b => decide (b.launch = l.key) && b.node == node && cov b.tag).foldl cancelBf s
  (s.eng.commands.filter fun c => decide (c.launch = l.key) && c.blockNode == node && isPattern c.op && cov c.tag && !c.ended).foldl cancelPattern s
/-- A brake sent by an acceptance node at a commit: covered tokens in its own edge buffers go, and its return edges are watched; the
brake leaves behind every token sent before (R151, R372). -/
def sendBrake (s : State) (l : Launch) (k : EKey) (node e : Nat) (t : Token) : State :=
  let r := draftRegion (moduleEdges s l.key) e
  let s := cancelAt s l k node (covered l.widths t.tag (brakePos t)) false
  let m : BrakeMark := ⟨l.key, e, t.tag, brakePos t, node, (moduleEdges s l.key).filterMap fun x =>
    if x.cons == node && !r.returns.contains x.num then some x.num else none, true⟩
  let s := if r.returns.isEmpty then s else setBrakes s (s.q.brakes ++ [m])
  launchTok s (lkEdge l.key e) k t
/-- A mark whose watched edges have all seen the brake is done. -/
def tidyBrakes (s : State) (lk : LKey) : State :=
  let ins := fun (b : BrakeMark) => (moduleEdges s lk).filterMap fun e =>
    if e.cons == b.node && (draftRegion (moduleEdges s lk) b.accept).edges.contains e.num then some e.num else none
  setBrakes s (s.q.brakes.filter fun b => b.launch != lk || !b.forwarded || (ins b).any fun e => !b.seen.contains e)
/-- Draft regions that hold an edge, by their acceptance nodes' port edges: every port of a block node from which the edge is on a
path back. A brake in flight belongs to one where its tag and position stand marked, or else starts at its own edge. -/
def brakeAccepts (s : State) (ek : EdgeKey) (t : Token) : List Nat :=
  ((s.q.brakes.filter fun b => decide (b.launch = ekLaunch ek) && b.tag == t.tag && b.pos == brakePos t
    && (draftRegion (moduleEdges s b.launch) b.accept).edges.contains ek.edge).map (·.accept)).dedup
/-- The first element of a list that a test picks, changed. -/
def updFirst {α : Type} (p : α → Bool) (f : α → α) : List α → List α
  | [] => []
  | x :: xs => if p x then f x :: xs else x :: updFirst p f xs
/-- A brake that has come to a node on all its front inputs goes on along the node's draft edges, behind what the covered firings still in
the node's pipeline send (log entry 113); backfill entries they queued go. -/
def forwardBrake (s : State) (b : BrakeMark) : State :=
  match launchOf s b.launch with
  | none => s
  | some l => match l.whereIs b.node with
    | none => s
    | some k =>
      let r := draftRegion (moduleEdges s b.launch) b.accept
      let cov := covered l.widths b.tag b.pos
      if b.forwarded || (frontInputs s b.launch r b.node).any (fun x => !b.seen.contains x)
          || s.firings.any (fun f => f.vpe = k && decide (f.launch = b.launch) && cov f.tag) then s
      else
        let outs := ((moduleEdges s b.launch).filter fun x => x.prod == b.node && r.edges.contains x.num).map (·.num)
        let s := (s.eng.backfill.filter fun x => decide (x.launch = b.launch) && x.node == b.node && cov x.tag).foldl cancelBf s
        let s := setBrakes s (updFirst (fun x => decide (x = b)) (fun x => { x with forwarded := true }) s.q.brakes)
        tidyBrakes (outs.foldl (fun s o => launchTok s (lkEdge b.launch o) k (brakeToken b.tag b.pos)) s) b.launch
/-- Every brake that may goes on: this happens of itself. -/
def forwardBrakes (s : State) : State := s.q.brakes.foldl forwardBrake s
/-- A brake reaches a region element on an input: at its first input the covered work goes. Of several alike, which arrive on an edge in
their order, it is the oldest that has not come by that edge. -/
def brakeAt (s : State) (l : Launch) (e : EdgeRec) (t : Token) (accept : Nat) : State :=
  let r := draftRegion (moduleEdges s l.key) accept
  let mine := fun (b : BrakeMark) => decide (b.launch = l.key) && b.accept == accept && b.tag == t.tag && b.pos == brakePos t && b.node == e.cons
    && !b.seen.contains e.num
  let see := fun (s : State) => setBrakes s (updFirst mine (fun b => { b with seen := e.num :: b.seen }) s.q.brakes)
  let backs := (launchLoops s l.key).map (·.back)
  if r.returns.contains e.num || backs.contains e.num then tidyBrakes (see s) l.key
  else
    match l.whereIs e.cons with
    | none => s
    | some k =>
      let cov := covered l.widths t.tag (brakePos t)
      let s := if s.q.brakes.any mine then s
        else
          let s := brakeWork (cancelAt s l k e.cons cov false) l e.cons cov
          setBrakes s (s.q.brakes ++ [⟨l.key, accept, t.tag, brakePos t, e.cons, [], false⟩])
      forwardBrakes (see s)

/-! ### Arrival order (R9) -/

def flightOf (s : State) (id : Nat) : Option Flight := s.q.flights.find? fun f => f.id == id
/-- The token is the next of its producer on its edge. -/
def nextOnEdge (s : State) (f : Flight) : Bool :=
  match s.q.flights.find? fun g => g.edge = f.edge && g.src = f.src with
  | some g => g.id == f.id
  | none => false
def landFlight (s : State) (f : Flight) : State := setFlights s (s.q.flights.filter fun g => !(g.id == f.id))

/-- BRAKE_ARRIVAL: a brake in flight reaches the element at the end of its edge. -/
def execBrakeArrival (s : State) : Out :=
  match s.ctl.focus with
  | .subject (.num id) =>
    match flightOf s id with
    | none => stay s
    | some f =>
      if f.tok.kind != .brake || !(nextOnEdge s f) then stay s
      else
        let s0 := s
        let s := landFlight s f
        match launchOf s (ekLaunch f.edge), edgeRec s f.edge with
        | some l, some e =>
          if (l.whereIs e.cons).any (sealedAt s) then .next s
          else roomed s0 ((brakeAccepts s f.edge f.tok).foldl (fun s a => brakeAt s l e f.tok a) s)
        | _, _ => .next s
  | _ => stay s

/-! ### Containment (R323, R324) -/

/-- Member egress ports write one END slot each: the slots' bytes (R154, R324). -/
def endSlot (tag : Tag) (code : BitVec 8) : Token := ⟨tag, 0, .endOf, .i32, 0x0001#16, code.setWidth 512⟩
def Kind.byte (k : Kind) : Byte := BitVec.ofNat 8 k.code
def slotBytes (t : Token) : List Byte :=
  leBytes 64 t.payload.toNat ++ leBytes 8 t.tag.toNat ++ leBytes 2 t.valid.toNat ++ [t.kind.byte, BitVec.ofNat 8 (Fmt.code t.ft)]
    ++ List.replicate 52 0
def Egress.free (p : Egress) : Bool := decide ((p.wr + 2 ^ 32 - p.rd) % 2 ^ 32 < p.slots)
/-- Bytes written into a port's next slot (R154); those of an epoch that a replay runs again go where they went before (R330). -/
def writeSlot (s : State) (p : Egress) (epoch : Nat) (bs : List Byte) : State × Egress :=
  let old := agetD p.epochSlots epoch []
  let redo := (aget p.again epoch).filter fun j => decide (j < old.length)
  let i := match redo with
    | some j => getAt old j p.wr
    | none => p.wr
  (withHost s (Memory.writeN s.mem.host (p.bufbase.toNat + 128 * (i % max 1 p.slots)) bs), match redo with
    | some j => { p with again := aset p.again epoch (j + 1) }
    | none => { p with wr := (p.wr + 1) % 2 ^ 32, epochSlots := aset p.epochSlots epoch (old ++ [p.wr]) })
/-- Slots that are due are written while the host's buffer has room. -/
def drainDue : Nat → State → Egress → State
  | 0, s, p => setEgress s p
  | n + 1, s, p =>
    match p.due with
    | [] => setEgress s p
    | (e, bs) :: rest =>
      if p.free then
        let (s, p) := writeSlot s { p with due := rest } e bs
        drainDue n s p
      else setEgress s p
/-- Slots of an epoch join those that are due. -/
def emitSlots (s : State) (p : Egress) (epoch : Nat) (slots : List (List Byte)) : State :=
  let p := { p with due := p.due ++ slots.map fun b => (epoch, b) }
  drainDue p.due.length s p

/-- Thread tokens and executions of a block node's tile context are gone: their holds, with the tokens their RECVs took. -/
def sealThreads (s : State) (l : Launch) (k : EKey) : State :=
  let s := squashWhere s fun t => t.tile = k && decide (t.launch = l.key)
  let ts := s.tiles.threads.filter fun t => t.tile = k && decide (t.launch = l.key)
  let xs := s.tiles.execs.filter fun x => x.tile = k
  let live := ts.filter fun t => !decide (t.at_ = .ended)
  let ds := (live.flatMap fun t => holdDelta t (-1)) ++ xs.flatMap takenDeltas
    ++ ts.filterMap fun t => t.guarded.map fun (loc, tag) => (⟨loc, tag, -1⟩ : Delta)
  let s := xs.foldl dropUnissued s
  let s := { s with tiles := { s.tiles with
    threads := s.tiles.threads.filter fun t => !(t.tile = k && decide (t.launch = l.key))
    execs := s.tiles.execs.filter fun x => !(x.tile = k)
    sched := s.tiles.sched.filter fun x => !(x.1 = k)
    ecalls := s.tiles.ecalls.filter fun x => !(x.1 = k) } }
  giveFrames (changeSet s k.stand l.key ds) k
/-- Bound tiles whose tags a predicate picks are emptied to +0 without draining (R324, R330): the tile that accumulates begins again, and one
that drains sends nothing more. -/
def emptyTiles (s : State) (l : Launch) (k : EKey) (cov : Tag → Bool) : State :=
  let i := islandOf s k
  let hit := fun (d : DTile) => (d.bound || d.draining) && cov d.tag
  let ds := (i.tiles.filter hit).flatMap fun d => tileHold s k d (-1)
  let cols := islandCols s k
  let acc := hit (i.tile i.acc)
  let out := i.draining.any fun t => hit (i.tile t)
  let s := setIsland s k { i with
    tiles := i.tiles.map fun d => if hit d then DTile.free cols else d
    n := if acc then 0 else i.n, drained := if out then 0 else i.drained, ending := i.ending && i.tiles.any fun d => d.draining && !hit d }
  changeSet s k.stand l.key ds
/-- Commands of a sealed element stop. -/
def sealCommands (s : State) (l : Launch) (k : EKey) : State :=
  (s.eng.commands.filter fun c => c.eng = k && decide (c.launch = l.key) && namesSync c.op).foldl stopCommand s
/-- Tokens that an element still had to send; slots of a loop's body tokens among them come back (R195). -/
def sealOwed (s : State) (l : Launch) (k : EKey) : State :=
  let os := s.q.owed.filter fun o => o.src = k && ofLaunch l.key o.edge
  let s := setOwed s (s.q.owed.filter fun o => !(o.src = k && ofLaunch l.key o.edge))
  let s := setBursts s (s.q.bursts.filter fun b => !(b.src = k && ofLaunch l.key b.edge))
  let s := os.foldl (fun s o => if o.tok.slotted then slotsBack s l.key o.edge.edge 1 else s) s
  changeSet s k.stand l.key (os.flatMap fun o => tokDelta o.edge.edge o.tok (-1))
/-- Seal bits are set on an element of a member node. -/
def sealElement (s : State) (l : Launch) (k : EKey) (node : Nat) : State :=
  if sealedAt s k then s
  else
    let s := sealOwed (cancelAt (sealCommands s l k) l k node (fun _ => true) true) l k
    let s := if isTile k.elem then sealThreads s l k else s
    let s := if isMatrix k.elem then emptyTiles s l k fun _ => true else s
    setHostSide s { s.host with seals := s.host.seals ++ [k] }
/-- Requests at member locations, and those of member elements, are discarded with the count that stood for their NOTE. -/
def sealRequests (s : State) (l : Launch) (members : List Nat) : State :=
  match landingOf s l.key with
  | none => s
  | some x =>
    let cons := fun (e : Nat) => (l.edgeRec e).any (fun r => members.contains r.cons) || l.hidden.any fun h => h.2 == e && members.contains h.1
    let hit := fun (r : Request) => cons (r.loc % 2048) || (l.nodeAt r.vpe).any fun n => members.contains n
    let s := (x.requests.filter fun r => hit r && !r.delivered).foldl (fun s r => changeSet s r.vpe.stand l.key [⟨r.edge, r.tag, -1⟩]) s
    setLanding s { x with requests := x.requests.filter fun r => !hit r }
/-- Tokens of sealed ingress ports, not yet on their edges, are discarded. -/
def sealIngress (s : State) (l : Launch) (members : List Nat) : State :=
  l.ingressPorts.foldl (fun s p =>
    match l.portNode .ingress p, l.ingressEdge p with
    | some n, some e =>
      if members.contains n then
        let q := ingressAt s ⟨l.key.part, p⟩
        setIngress (changeSet s (portKey s l n 0xF8).stand l.key (q.buf.flatMap (usedDelta e.num))) { q with buf := [] }
      else s
    | _, _ => s) s
/-- Every element of the nodes sealed, in one step; with `slots` each egress port among them writes its END slot. -/
def sealNodes (s : State) (l : Launch) (members : List Nat) (tag : Tag) (code : BitVec 8) (slots : Bool) : State :=
  let new := members.filter fun n => !l.sealed.contains n
  let s := l.placed.foldl (fun s p => if new.contains p.node then sealElement s l p.at_ p.node else s) s
  let s := sealIngress (sealRequests s l new) l new
  let s := (s.eng.backfill.filter fun b => decide (b.launch = l.key) && new.contains b.node).foldl cancelBf s
  let s := l.egressPorts.foldl (fun s p =>
    match l.portNode .egress p with
    | some n =>
      if new.contains n then
        let k := portKey s l n 0xF9
        let bs := s.q.buffers.filter fun b => consumerOf s b.edge == .egress ⟨l.key.part, p⟩
        let ds := bs.flatMap fun b => usedDelta b.edge.edge b.tok
        let s := bs.foldl takeBuffered s
        let s := changeSet s k.stand l.key ds
        if slots then emitSlots s { egressAt s ⟨l.key.part, p⟩ with held := [] } (tagLevel l.widths tag 0) [slotBytes (endSlot tag code)] else s
      else s
    | none => s) s
  match launchOf s l.key with
  | some l => setLaunch s { l with sealed := (l.sealed ++ new).dedup }
  | none => s
/-- The record of a containment, written by the origin's element, with the full virtual address that the element kept (R324, R325; log
entry 124). -/
def containRec (s : State) (l : Launch) (r : RestMark) : FaultRec :=
  let k := (l.whereIs r.node).getD ⟨r.info.stand, r.info.elem.toNat, l.ctx⟩
  { simpleRec s l.key.part 3 r.info.code.toNat k.stand k.elem l.ctx l.key.launch r.tag r.info.detail.toNat with
    addr := if r.info.code = pPERM || r.info.code = pPAGE then faultVa s l.key.part r.info.detail.toNat else 0 }
/-- The nodes a poison at rest seals, when it has not already been absorbed by a seal or a launch's end. -/
def RestMark.members (r : RestMark) (s : State) : Option (Launch × List Nat) :=
  match launchOf s r.launch with
  | none => none
  | some l =>
    if !l.state.onElements || l.sealed.contains r.node then none else some (l, reachedFrom (moduleEdges s r.launch) [r.node])
/-- SEAL: the oldest poison at rest is contained; one inside a sealed subgraph, or of a launch that is no more, is absorbed. A
replay's containment waits until it reopens, which here is one step (R330). -/
def execSeal (s : State) : Out :=
  match s.host.rests with
  | [] => stay s
  | r :: rest =>
    let s' := setHostSide s { s.host with rests := rest }
    match r.members s with
    | none => .next s'
    | some (l, ms) => roomed s (record (sealNodes s' l ms r.tag r.info.code true) (containRec s l r))

end Sys2Proof.Machine
end

