-- ==== Sys2Proof/Machine/Firing.lean ====
section
/-! DEFINITION. Tokens arriving (R143 to R148, R151, R322), the matching of a VPE and its firings (R14, R195, R196, R204 to R208). -/

namespace Sys2Proof.Machine

/-! ### Matching (R145) -/

def VpeCfg.matchedInputs (c : VpeCfg) : List Nat := (List.range 4).filter fun i => bitAt c.matched i
def VpeCfg.burstOf (c : VpeCfg) (i : Nat) : Nat := (field c.inburst (4 * i) 4).toNat + 1
def countMine (k : EKey) (i : Nat) (tag : Tag) (seg : BitVec 12) (c : ArrivalCount) : Bool :=
  c.vpe = k && c.inp == i && c.tag == tag && c.seg == seg
/-- Complete arrivals on an input for a tag and segment. -/
def countOf (s : State) (k : EKey) (i : Nat) (tag : Tag) (seg : BitVec 12) : Nat :=
  ((s.q.counts.find? (countMine k i tag seg)).map (·.count)).getD 0
def setCount (s : State) (k : EKey) (i : Nat) (tag : Tag) (seg : BitVec 12) (n : Nat) : State :=
  { s with q := { s.q with counts := (s.q.counts.filter fun c => !countMine k i tag seg c) ++ [⟨k, i, tag, seg, n⟩] } }
/-- Entries of an input for a tag and segment. -/
def entriesOf (s : State) (k : EKey) (i : Nat) (tag : Tag) (seg : BitVec 12) : List Stored :=
  s.q.store.filter fun x => x.vpe = k && x.inp == i && x.tok.tag == tag && x.tok.seg == seg
/-- The least arrival number that every matched input holds complete. -/
def readyMatch (s : State) (k : EKey) (tag : Tag) (seg : BitVec 12) : Option Nat :=
  let c := vpeCfg s k
  match c.matchedInputs with
  | [] => none
  | i :: is =>
    minBy id (((entriesOf s k i tag seg).map (·.num)).dedup.filter fun n =>
      (i :: is).all fun j => decide (n ≤ countOf s k j tag seg) && (entriesOf s k j tag seg).any fun x => x.num == n)
/-- Tags and segments with a ready match at a VPE's context. -/
def readyKeys (s : State) (k : EKey) : List (Tag × BitVec 12) :=
  (((s.q.store.filter fun x => x.vpe = k).map fun x => (x.tok.tag, x.tok.seg)).dedup).filter fun x => (readyMatch s k x.1 x.2).isSome
/-- The entries of a match, and the place in arrival order of its last token. -/
def matchEntries (s : State) (k : EKey) (tag : Tag) (seg : BitVec 12) (n : Nat) : List Stored :=
  s.q.store.filter fun x => x.vpe = k && x.tok.tag == tag && x.tok.seg == seg && x.num == n
def lastOrder (xs : List Stored) : Nat := xs.foldl (fun m x => max m x.order) 0

/-! ### A firing starts (R43, R66, R143, R195) -/

/-- Loops a VPE's node enters. -/
def loopsEntered (s : State) (lk : LKey) (node : Nat) : List LoopRec := (launchLoops s lk).filter fun l => l.enter == node && l.bound.isSome

def isDirOp : Instr → Bool
  | .dfrom _ => true | .dadd _ => true | .dsub _ => true | .dneg _ => true | .dscl _ => true | .dlerp _ => true | .dnrm _ => true
  | _ => false
/-- Credits a stage may need on one of its ports. -/
def portNeed (c : VpeCfg) (i : Instr) (w : SWord) (p : Nat) : Nat :=
  let h := if fmtHeaded (outFmt c p) then 1 else 0
  match i with
  | .eos _ => 1
  | .packt _ => match w.a with | .inp n => c.burstOf n.val * (1 + h) | _ => 1
  | .qblk _ => outBurst c p + 1
  | .qo4 _ => outBurst c p + 1
  | .dto _ => outBurst c p + h
  | i => if isDirOp i then outBurst c p + 1 else 1 + h
/-- Credits a firing reserves, by credited output edge. -/
def firingNeeds (s : State) (k : EKey) (lk : LKey) : List (EdgeKey × Nat) :=
  let c := vpeCfg s k
  ((c.slots.take c.stages).flatMap fun x => match slotInstr x with
    | some (i, w) => (portsOf w.d).map fun p => (lkEdge lk (getAt c.outloc p 0), portNeed c i w p)
    | none => []).filter fun x => credited s x.1
/-- The poison with which a firing starts: an IN source of another format than its stage's FT (R66), or an input some token of which has
a malformed or missing HEAD (R39). -/
def firingFault (c : VpeCfg) (k : EKey) (ins : List FInput) (bads : List Nat) : Option PoisonInfo :=
  let bad := fun (i : Nat) => some (⟨pFMT, k.stand, BitVec.ofNat 8 k.elem, BitVec.ofNat 32 (getAt c.inloc i 0)⟩ : PoisonInfo)
  let ft := fun (i : Nat) => (ins.find? fun x => x.inp == i).map fun x => x.first.ft
  match (c.slots.take c.stages).findSome? fun x => match slotInstr x with
    | some (_, w) => (w.ft).bind fun f => (insOf w).find? fun i => (ft i).any fun g => g != f
    | none => none with
  | some i => bad i
  | none => (ins.find? fun x => bads.contains x.inp).bind fun x => bad x.inp
/-- The VPE's burst buffer holds the whole-burst inputs of a firing in flight (R142). -/
def burstBufferUsed (s : State) (k : EKey) : Bool :=
  s.firings.any fun f => vpeWide f.vpe = vpeWide k && f.inputs.any fun x => bitAt (vpeCfg s f.vpe).whole x.inp
/-- Firings in flight that will use a request of an edge. -/
def pending (s : State) (k : EKey) : Nat := (s.firings.filter fun f => f.vpe = k).length
/-- A firing enters stage 0 in this clock (R101). -/
def enterStage0 (s : State) (k : EKey) (id : Nat) : State :=
  { s with tiles := { s.tiles with
      stage0 := (s.tiles.stage0.filter fun e => e.2.2.2 == s.ctl.clock) ++ [(k.stand, k.ctx, id, s.ctl.clock)] } }
/-- A brake that covers a tag has come to the node and waits to go on: no firing of the tag starts before it (log entry 113). -/
def brakeWaits (s : State) (l : Launch) (k : EKey) (node : Nat) (tag : Tag) : Bool :=
  s.q.brakes.any fun b => decide (b.launch = l.key) && b.node == node && l.whereIs node == some k && !b.forwarded
    && covered l.widths b.tag b.pos tag
/-- A ready match starts its firing; none: it may not yet. -/
def startFiring (s : State) (k : EKey) (tag : Tag) (seg : BitVec 12) : Option State :=
  match launchAt s k, readyMatch s k tag seg with
  | some l, some n =>
    let lk := l.key
    let node := nodeOf s lk k
    let c := vpeCfg s k
    let es := matchEntries s k tag seg n
    let needs := firingNeeds s k lk
    let loops := loopsEntered s lk node
    let outs := (namedPorts c c.stages).map fun p => lkEdge lk (getAt c.outloc p 0)
    let first := fun (_ : Unit) => (readyKeys s k).all fun x =>
      match readyMatch s k x.1 x.2 with
      | some m => decide (lastOrder es ≤ lastOrder (matchEntries s k x.1 x.2 m))
      | none => true
    if sealedAt s k || brakeWaits s l k node tag || s.firings.any (fun f => vpeWide f.vpe = vpeWide k && f.stage == 0)
        || needs.any (fun x => decide (credits s x.1 < x.2))
        || outs.any (fun e => isPull s e && decide (reqCount s e ≤ pending s k))
        || (c.matchedInputs.any (fun i => bitAt c.whole i) && burstBufferUsed s k)
        || loops.any (fun x => decide (slotCount s lk x ≤ 0)) || (!loops.isEmpty && !first ()) then none
    else
      let ins := c.matchedInputs.map fun i =>
        let mine := es.filter fun x => x.inp == i
        (⟨i, mine.map (·.tok), (mine.head?).bind (·.head)⟩ : FInput)
      let (id, s) := fresh s
      let drm := field (fpmOf s k.stand k.ctx) 0 3
      let p := firingFault c k ins ((es.filter (·.bad)).map (·.inp))
      let f : Firing := ⟨id, k, lk, tag, seg, if p.isSome then c.stages else 0, drm, ins, [], [], [], p, false, [], needs,
        loops.map fun x => (lk, x.num), [], s.ctl.clock⟩
      let s := if p.isSome then s else enterStage0 s k id
      let s := { s with
        firings := s.firings ++ [f]
        q := { s.q with store := s.q.store.filter fun x => !(es.contains x) } }
      let s := clearFilter s k
      let s := es.foldl (fun s x => permitBack s (lkEdge lk (inputEdge s k x.inp)) x.tok.tag x.last) s
      some (bumpPerf (loops.foldl (fun s x => addSlots s lk x (-1)) s) k.stand 1 1)
  | _, _ => none
/-! ### Placing a token (R146, R147) -/

def storeUsed (s : State) (k : EKey) : Nat := (s.q.store.filter fun x => vpeWide x.vpe = vpeWide k && !x.inPile && !x.passing).length
def pileUsed (s : State) (k : EKey) (lk : LKey) : Nat :=
  (s.q.store.filter fun x => x.inPile && dieOf x.vpe.stand == dieOf k.stand && (launchAt s x.vpe).any fun l => decide (l.key = lk)).length
/-- The filter bit of a token. -/
def filterBit (k : EKey) (t : Token) : Nat :=
  (kmix (field t.tag 0 32 ^^^ field t.tag 32 32 ^^^ (t.seg.setWidth 32 <<< 20) ^^^ (BitVec.ofNat 32 k.ctx <<< 30))).toNat % 1024
/-- An entry joins its input's arrivals: its number, and the count once an arrival is complete. -/
def enterArrival (s : State) (k : EKey) (i : Nat) (t : Token) (head : Option Token) (bad last inPile passing : Bool) : State :=
  let c := vpeCfg s k
  let (ord, s) := fresh s
  let n := countOf s k i t.tag t.seg + 1
  let have_ := ((entriesOf s k i t.tag t.seg).filter fun x => x.num == n).length + 1
  let full := !bitAt c.whole i || decide (c.burstOf i ≤ have_)
  let s := { s with q := { s.q with store := s.q.store ++ [⟨k, i, t, head, n, ord, inPile, bad, passing, last⟩] } }
  if full then setCount s k i t.tag t.seg n else s
/-- Arrival n of a tag stands complete on every matched input. -/
def matchDone (s : State) (k : EKey) (tag : Tag) (seg : BitVec 12) (n : Nat) : Bool :=
  !(vpeCfg s k).matchedInputs.isEmpty && (vpeCfg s k).matchedInputs.all fun j => decide (n ≤ countOf s k j tag seg) && (entriesOf s k j tag seg).any fun x => x.num == n
/-- A token passes through a VPE: it completed a match whose firing may start, and has not started yet. -/
def passes (s : State) (k : EKey) : Bool := s.q.store.any fun x => vpeWide x.vpe = vpeWide k && x.passing
/-- A token placed (R146): the one that completes a match whose firing may start at once takes no entry, unless another of the VPE does so
already (log entry 67); else the store, then the pile; none: the pile is full. -/
def placeToken (s : State) (k : EKey) (lk : LKey) (i : Nat) (t : Token) (head : Option Token) (bad last : Bool) : Option State :=
  let bit := filterBit k t
  let s := if s.q.filter.contains (vpeWide k, bit) then bumpPerf s k.stand 5 1 else s
  let n := countOf s k i t.tag t.seg + 1
  let s' := enterArrival s k i t head bad last false true
  if matchDone s' k t.tag t.seg n && !passes s k && (startFiring s' k t.tag t.seg).isSome then some s'
  else if storeUsed s k < Config.matchEntries then some (enterArrival s k i t head bad last false false)
  else if pileUsed s k lk < Config.pileTokens then
    let s := enterArrival s k i t head bad last true false
    let f := s.q.filter
    some (bumpPerf { s with q := { s.q with filter := if f.contains (vpeWide k, bit) then f else f ++ [(vpeWide k, bit)] } } k.stand 4 1)
  else none

/-! ### END at a VPE (R22, R208) -/

/-- An END closes a burst of its tag that stands open on a whole-burst input. -/
def closeShort (s : State) (k : EKey) (i : Nat) (t : Token) : State :=
  let n := countOf s k i t.tag t.seg + 1
  if bitAt (vpeCfg s k).whole i && (entriesOf s k i t.tag t.seg).any fun x => x.num == n then setCount s k i t.tag t.seg n else s
/-- The output edges a VPE's stages name, by port. -/
def vpeOut (s : State) (k : EKey) (port : Nat) : Nat := getAt (vpeCfg s k).outloc port 0
def vpePorts (s : State) (k : EKey) : List Nat := let c := vpeCfg s k; namedPorts c c.stages
/-- VPE_END: ENDs of a tag stand on every matched input and no firing of the tag is left: one END leaves on every named port. Those of
a segment make the segment's END (R15). -/
def vpeEnd (s : State) (k : EKey) (lk : LKey) (tag : Tag) (seg : BitVec 12) : State :=
  let c := vpeCfg s k
  let marks := c.matchedInputs.map fun i => s.q.ends.find? fun x => x.vpe = k && x.inp == i && x.tag == tag && x.seg == seg
  if marks.isEmpty || marks.any Option.isNone || s.firings.any (fun f => f.vpe = k && f.tag == tag && f.seg == seg)
      || (readyKeys s k).contains (tag, seg) then s
  else
    let ms := marks.filterMap id
    let code := ((ms.map (·.code)).find? fun x => x != 0).getD 0
    let ports := vpePorts s k
    let toks := ports.map fun p => (vpeOut s k p, { endToken tag (outFmt c p) code with seg := seg })
    let ds := (if seg = 0 then ms.map fun x => (⟨inputEdge s k x.inp, x.tag, -1⟩ : Delta) else []) ++ toks.flatMap fun x => tokDelta x.1 x.2 1
    let s := { s with q := { s.q with ends := ms.foldl (fun es x => es.erase x) s.q.ends } }
    let s := ms.foldl (fun s x => permitBack s (lkEdge lk (inputEdge s k x.inp)) x.tag x.short) s
    toks.foldl (fun s x => mustSend s (lkEdge lk x.1) k x.2) (changeSet s k.stand lk ds)
/-- Every tag with END marks looked at once. -/
def vpeEnds (s : State) (k : EKey) (lk : LKey) : State :=
  (((s.q.ends.filter fun x => x.vpe = k).map fun x => (x.tag, x.seg)).dedup).foldl (fun s x => vpeEnd s k lk x.1 x.2) s

/-! ### Arrivals at a VPE -/

/-- The HEAD bound to the DATA that follow it on an input from a producer. -/
def boundOf (s : State) (k : EKey) (i : Nat) (src : EKey) : Option BoundHead := s.q.heads.find? fun h => h.vpe = k && h.inp == i && h.src = src
def headOf (s : State) (k : EKey) (i : Nat) (src : EKey) : Option Token := (boundOf s k i src).map (·.head)
def bindHead (s : State) (k : EKey) (i : Nat) (src : EKey) (t : Token) : State :=
  { s with q := { s.q with heads := (s.q.heads.filter fun h => !(h.vpe = k && h.inp == i && h.src = src)) ++ [⟨k, i, src, t, 0⟩] } }
/-- The burst has come to its end: its HEAD binds nothing more (R22, R39). -/
def unbindHead (s : State) (k : EKey) (i : Nat) (src : EKey) : State :=
  { s with q := { s.q with heads := s.q.heads.filter fun h => !(h.vpe = k && h.inp == i && h.src = src) } }
/-- A DATA follows its HEAD. -/
def countHead (s : State) (k : EKey) (i : Nat) (src : EKey) : State :=
  { s with q := { s.q with heads := updIf s.q.heads (fun h => h.vpe = k && h.inp == i && h.src = src) fun h => { h with seen := h.seen + 1 } } }
/-- A malformed HEAD that a HEAD or END follows, with no DATA between, is poison FMT by itself (R39): every HEAD taken is checked. -/
def loneHead (s : State) (k : EKey) (i : Nat) (f : Flight) : Option Token :=
  match f.tok.kind, boundOf s k i f.src with
  | .head, some h => if h.seen = 0 && !headOk h.head then some h.head else none
  | .endOf, some h => if h.seen = 0 && !headOk h.head then some h.head else none
  | _, _ => none
def headPoison (s : State) (k : EKey) (lk : LKey) (i : Nat) (h : Token) : State :=
  let outs := (vpePorts s k).map (vpeOut s k)
  let s := outs.foldl (fun s o => slotsBack s lk o (-1)) s
  sendPoison s k lk (nodeOf s lk k) outs h.tag (ownPoison k pFMT (getAt (vpeCfg s k).inloc i 0)) []
/-- POISON at a VPE: taken at once and forwarded on every named port (R322); loop slots follow the tokens (R195). -/
def vpePoison (s : State) (k : EKey) (lk : LKey) (e : EdgeKey) (t : Token) : State :=
  let seen := poisonSeen s k t.tag (poisonOf t)
  let outs := (vpePorts s k).map (vpeOut s k)
  let s := slotsBack s lk e.edge 1
  let s := if seen then s else outs.foldl (fun s o => slotsBack s lk o (-1)) s
  forwardPoison s k lk (nodeOf s lk k) outs t.tag (poisonOf t) (usedDelta e.edge t)
/-- What an arriving token does at a VPE's input, with the HEAD bound to it; none: it is held at a full pile. -/
def vpeArrive (s : State) (k : EKey) (i : Nat) (f : Flight) (head : Option Token) (bad last : Bool) : Option State :=
  let lk := ekLaunch f.edge
  match f.tok.kind with
  | .head => some (bindHead s k i f.src f.tok)
  | .poison => some (vpePoison s k lk f.edge f.tok)
  | .endOf =>
    let s := closeShort s k i f.tok
    some (vpeEnds { s with q := { s.q with ends := s.q.ends ++ [⟨k, i, f.tok.tag, f.tok.seg, laneOf f.tok.payload 0, last⟩] } } k lk)
  | _ => placeToken s k lk i f.tok head bad last
/-- A token held at a full pile keeps its input port shut. -/
def portShut (s : State) (k : EKey) (i : Nat) : Bool := s.q.held.any fun h => h.vpe = k && h.inp == i
/-- TOKEN_ARRIVAL. -/
def execTokenArrival (s : State) : Out :=
  match s.ctl.focus with
  | .subject (.num id) =>
    match flightOf s id with
    | none => stay s
    | some f =>
      match consumerOf s f.edge with
      | .vpe k i =>
        if f.tok.kind = .brake || f.tok.kind = .req || !(nextOnEdge s f) || portShut s k i then stay s
        else
          let s0 := s
          let (s, last, bad) := burstArrival (landFlight s f) f.edge f.tok
          let head := if fmtHeaded f.tok.ft then headOf s k i f.src else none
          let bad := f.tok.kind = .data && (bad || (headOf s k i f.src).any fun h => !headOk h)
          let lone := loneHead s k i f
          let s := if f.tok.kind = .data then countHead s k i f.src else s
          let s := if (arrivingOn s f.edge).1 = 0 && !(arrivingOn s f.edge).2.1 then unbindHead s k i f.src else s
          if sealedAt s k || braked s f.edge f.tok then roomed s0 (absorbTok s k.stand f.edge f.tok last)
          else match vpeArrive (match lone with | some h => headPoison s k (ekLaunch f.edge) i h | none => s) k i f head bad last with
            | some s => roomed s0 s
            | none => .next { s with q := { s.q with held := s.q.held ++ [⟨k, i, f.tok, head, bad, last⟩] } }
      | _ => stay s
  | _ => stay s
/-- PILE_HELD_TOKEN_ENTRY: the token a VPE's input port has held longest enters. -/
def execPileHeldTokenEntry (s : State) : Out :=
  match s.ctl.focus with
  | .subject (.elem k) =>
    match s.q.held.find? fun h => vpeWide h.vpe = vpeWide k with
    | none => stay s
    | some h =>
      match launchAt s h.vpe with
      | none => stay s
      | some l => match placeToken { s with q := { s.q with held := s.q.held.erase h } } h.vpe l.key h.inp h.tok h.head h.bad h.last with
        | some s => .next s
        | none => stay s
  | _ => stay s

/-! ### Arrivals at edge buffers, and requests (R143, R144, R196) -/

/-- The stand whose frontier unit takes the changes of an edge's consumer. -/
def consumerStand (s : State) (ek : EdgeKey) : Nat :=
  match consumerOf s ek, launchOf s (ekLaunch ek) with
  | .tile k _, _ => k.stand
  | .matrix k _, _ => k.stand
  | .vpe k _, _ => k.stand
  | .egress p, some l => ((l.portNode .egress p.port).map fun n => (portKey s l n 0xF9).stand).getD 0
  | _, _ => 0
def sealedConsumer (s : State) (ek : EdgeKey) : Bool :=
  (launchOf s (ekLaunch ek)).any fun l => (l.edgeRec ek.edge).any fun e => l.sealed.contains e.cons
/-- EDGE_BUFFER_ARRIVAL. A sealed consumer absorbs the token (R324), a brake may cancel it (R152). -/
def execEdgeBufferArrival (s : State) : Out :=
  match s.ctl.focus with
  | .subject (.num id) =>
    match flightOf s id with
    | none => stay s
    | some f =>
      if f.tok.kind = .brake || f.tok.kind = .req || !(nextOnEdge s f) then stay s
      else match consumerOf s f.edge with
        | .vpe _ _ => stay s
        | .nobody => roomed s (absorbTok (landFlight s f) f.src.stand f.edge f.tok false)
        | _ =>
          let s0 := s
          let (s, last, bad) := burstArrival (landFlight s f) f.edge f.tok
          if sealedConsumer s f.edge || braked s f.edge f.tok then
            roomed s0 (absorbTok s (consumerStand s f.edge) f.edge f.tok last)
          else .next (setBuffers s (s.q.buffers ++ [⟨f.edge, f.tok, last, bad⟩]))
  | _ => stay s
/-- REQ_ARRIVAL: a permit returned, or, on a plain pull edge, a request its consumer sends (log entry 36). -/
def execReqArrival (s : State) : Out :=
  match s.ctl.focus with
  | .subject (.num id) =>
    match flightOf s id with
    | none => stay s
    | some f =>
      if f.tok.kind != .req || !(nextOnEdge s f) then stay s
      else
        let s0 := s
        let s := landFlight s f
        match edgeRec s f.edge, launchOf s (ekLaunch f.edge) with
        | some e, some l =>
          let n := reqCount s f.edge
          if n < (if e.permits = 0 then 4096 else e.permits) then .next (setReqs s f.edge (n + 1))
          else
            let k := portKey s l e.prod 0xF8
            if !faultRoom s (dieOf k.stand) then stay s0 else .next (record s (simpleRec s l.key.part 9 0 k.stand k.elem l.ctx l.key.launch f.tok.tag 0))
        | _, _ => .next s
  | .subject (.edge ek) =>
    match edgeRec s ek, launchOf s (ekLaunch ek) with
    | some e, some l =>
      if e.pull && e.permits == 0 && decide (reqCount s ek < 4096) && l.state = .running && !l.sealed.contains e.cons then
        .next (setReqs s ek (reqCount s ek + 1))
      else stay s
    | _, _ => stay s
  | _ => stay s

/-! ### FIRING_START, the event (R14, R180) -/

def mayFire (s : State) (k : EKey) : Bool := (readyKeys s k).any fun x => (startFiring s k x.1 x.2).isSome
/-- FIRING_START, on a granted clock (R180): one ready match of the context. Which of several is not specified (R14). -/
def execFiringStart (s : State) : Out :=
  match s.ctl.focus with
  | .subject (.ready k tag seg) =>
    if (startFiring s k tag seg).isNone then stay s
    else match grant s k (mayFire s) with
      | some s => .next ((startFiring s k tag seg).getD s)
      | none => stay s
  | _ => stay s

/-! ### FIRING_COMPLETE (R161, R195, R205, R206) -/

/-- The changes of loop slots a firing makes: a leaving firing returns one for each token it takes, an entering one that sent nothing
on its TENTER port returns its own, a body firing adds what it takes and does not send. -/
def firingSlots (s : State) (f : Firing) (sent : List (Nat × Token)) : State :=
  let node := nodeOf s f.launch f.vpe
  let taken := (f.tokens s).filter fun x => x.2.slotted
  let out := sent.filter fun x => x.2.slotted
  (launchLoops s f.launch).foldl (fun s l =>
    if l.bound.isNone then s
    else
      let body := bodyEdges (moduleEdges s f.launch) l
      let i := (taken.filter fun x => body.contains x.1).length
      let o := (out.filter fun x => body.contains x.1).length
      if l.leave = node then addSlots s f.launch l i
      else if l.enter = node then
        addSlots s f.launch l (if f.entered.contains (f.launch, l.num) && o == 0 then 1 else 0)
      else addSlots s f.launch l ((i : Int) - o)) s
/-- The edges' requests that a firing's bursts use: one at each burst's first DATA. -/
def firingRequests (s : State) (c : VpeCfg) (lk : LKey) (out : List (Nat × Token)) : State :=
  [0, 1].foldl (fun s p =>
    let n := (out.filter fun x => x.1 == p && x.2.kind = .data).length
    (List.range ((n + outBurst c p - 1) / outBurst c p)).foldl (fun s _ => useRequest s (lkEdge lk (getAt c.outloc p 0))) s) s
/-- A delivered request that a replay's NOTIFY names again. -/
def Request.isAgain (q : Request) (f : Firing) (n : NoteReq) : Bool :=
  q.delivered && q.again && q.loc == n.loc && q.edge == n.edge && decide (q.tag = f.tag)
/-- A firing's requests but for those already delivered before a replay (R30, R171). -/
def freshNotes (s : State) (f : Firing) : List NoteReq :=
  let qs := ((landingOf s f.launch).map (·.requests)).getD []
  (f.notes.zipIdx.filter fun (n, i) =>
    decide ((qs.filter fun q => q.isAgain f n).length ≤ ((f.notes.take i).filter fun m => decide (m = n)).length)).map (·.1)
/-- NOTIFY's requests join their queues at the landing, each with +1 at its NOTE edge (R157, R171); one delivered before a replay keeps its
mark. -/
def registerNotes (s : State) (f : Firing) : State :=
  f.notes.foldl (fun s n =>
    match landingOf s f.launch with
    | none => s
    | some x =>
      match x.requests.find? fun q => q.isAgain f n with
      | some q => setLanding s { x with requests := updIf x.requests (fun y => y.id == q.id) fun y => { y with again := false } }
      | none =>
        let (id, s) := fresh s
        setLanding s { x with requests := x.requests ++ [⟨id, n.loc, f.tag, n.edge, f.vpe, none, false, false⟩] }) s
/-- A firing leaves the pipeline with one change set. -/
def completeFiring (s : State) (f : Firing) : State :=
  let c := vpeCfg s f.vpe
  let lk := f.launch
  let s := { s with firings := s.firings.filter fun g => !(g.id == f.id) }
  let used := (f.tokens s).flatMap fun x => usedDelta x.1 x.2
  let s := match f.poison with
    | some p =>
      let outs := (namedPorts c c.stages).map fun q => getAt c.outloc q 0
      let s := firingSlots s f (outs.map fun e => (e, poisonToken f.tag p))
      sendPoison s f.vpe lk (nodeOf s lk f.vpe) outs f.tag p used
    | none =>
      let sent := f.out.map fun x => (getAt c.outloc x.1 0, x.2)
      let s := firingRequests (firingSlots s f sent) c lk f.out
      let ds := used ++ (sent.flatMap fun x => tokDelta x.1 x.2 1) ++ (freshNotes s f).map fun n => (⟨n.edge, f.tag, 1⟩ : Delta)
      let s := registerNotes s f
      sent.foldl (fun s x => launchTok s (lkEdge lk x.1) f.vpe x.2) (changeSet s f.vpe.stand lk ds)
  vpeEnds s f.vpe lk
/-- FIRING_COMPLETE: the oldest firing of its VPE has passed its last stage. -/
def execFiringComplete (s : State) : Out :=
  match s.ctl.focus with
  | .subject (.num id) =>
    match firingOf s id with
    | none => stay s
    | some f =>
      let c := vpeCfg s f.vpe
      let older := s.firings.any fun g => vpeWide g.vpe = vpeWide f.vpe && decide (g.id < f.id)
      let owed := (namedPorts c c.stages).any fun p => owedBefore s.q.owed (lkEdge f.launch (getAt c.outloc p 0)) f.vpe 0
      if f.stage < c.stages || older || owed then stay s else roomed s (completeFiring s f)
  | _ => stay s

end Sys2Proof.Machine
end

