-- ==== Sys2Proof/Machine/Executions.lean ====
section
/-! DEFINITION. The block scheduler (R17, R149, R183), executions starting and committing (R43, R92, R242 to R247, R254, R255), the
segments that idle tiles take (R150, R278), and the reply of an ECALL (R343). -/

namespace Sys2Proof.Machine

/-! ### The scheduler (R17, R149, R183) -/

def Sched.initial : Sched := ⟨none, 0, [], [], []⟩
def schedOf (s : State) (k : EKey) : Sched := agetD s.tiles.sched k Sched.initial
def setSched (s : State) (k : EKey) (c : Sched) : State := { s with tiles := { s.tiles with sched := aset s.tiles.sched k c } }
/-- A thread token waits at its block's entry. -/
def Thread.order? (t : Thread) : Option Nat := match t.at_ with | .queued o => some o | _ => none
/-- Thread tokens of a tile context that wait at block entries; segments do not (R150). -/
def queuedOn (s : State) (k : EKey) : List Thread := s.tiles.threads.filter fun t => t.tile = k && t.order?.isSome && !t.speculative
def queueOf (s : State) (k : EKey) (block : Nat) : List Thread := (queuedOn s k).filter fun t => t.block == block
def oldestQueued (s : State) (k : EKey) (block : Nat) : Option Thread := minBy (fun t => (t.order?).getD 0) (queueOf s k block)
/-- Wait counters follow the queues: one begins when its queue fills, and one whose queue is empty is cleared and leaves the overdue
list. Every step begins with this. -/
def noteWaits (s : State) : State :=
  ((s.tiles.threads.map (·.tile)) ++ s.tiles.sched.map (·.1)).dedup.foldl (fun s k =>
    let c := schedOf s k
    let bs := ((queuedOn s k).map (·.block)).dedup
    let old := c.waits.filter fun w => bs.contains w.1
    let new := (bs.filter fun b => !(old.any fun w => w.1 == b)).map fun b => (b, s.ctl.clock)
    let c' := { c with waits := old ++ new, overdue := c.overdue.filter fun b => bs.contains b }
    if c' = c then s else setSched s k c') s
/-- Blocks past the limit that have not joined the overdue list. -/
def lateBlocks (s : State) (k : EKey) : List (Nat × Nat) :=
  let c := schedOf s k
  c.waits.filter fun w => decide (Config.overdueCycles < s.ctl.clock - w.2) && !c.overdue.contains w.1
/-- BLOCK_OVERDUE: the block that passed the limit first joins the list, of several in one clock the lowest address. -/
def execBlockOverdue (s : State) : Out :=
  match s.ctl.focus with
  | .subject (.elemAt k block) =>
    let late := lateBlocks s k
    match late.find? fun w => w.1 == block with
    | none => stay s
    | some w =>
      if late.all fun v => decide (w.2 < v.2) || (w.2 == v.2 && decide (w.1 ≤ v.1)) then
        let c := schedOf s k
        .next (setSched s k { c with overdue := c.overdue ++ [block] })
      else stay s
  | _ => stay s

/-- The tile may choose and start: its launch runs, and its sources are not gated (R285), or claimed layers are to be finished (R156). -/
def tileOpen (s : State) (k : EKey) : Bool :=
  match launchAt s k with
  | some l => (l.state = .running && l.gated.isNone) || (claimsOpen s l && servesClaims l k)
  | none => false
/-- A choice is due (R149): nothing chosen, its queue empty, or 64 executions in a row. -/
def choiceDue (s : State) (k : EKey) : Bool :=
  let c := schedOf s k
  match c.chosen with
  | none => true
  | some b => (queueOf s k b).isEmpty || decide (Config.runLimit ≤ c.run)
/-- The block with the most queued thread tokens, ties to the lowest address. -/
def fullestBlock (s : State) (k : EKey) : Option Nat :=
  let bs := ((queuedOn s k).map (·.block)).dedup
  let most := bs.foldl (fun m b => max m (queueOf s k b).length) 0
  minBy id (bs.filter fun b => (queueOf s k b).length == most)
/-- The loop buffer: the last-chosen blocks that fit in 256 instruction words (R183). -/
def keepResident (s : State) (k : EKey) (bs : List Nat) : List Nat :=
  let size := fun (b : Nat) => ((headerOf s k b).map (·.icount)).getD 0
  (bs.foldl (fun (acc : List Nat × Nat) b => if acc.2 + size b ≤ 256 then (acc.1 ++ [b], acc.2 + size b) else (acc.1, 257)) ([], 0)).1
/-- Why a block is refused: it is marked, or it fails its load checks (R75). -/
def blockRefusal (s : State) (k : EKey) (block : Nat) : Option (BitVec 8) :=
  match aget (tileCfg s k).unload block, loadBlock s k block with
  | some c, _ => some (BitVec.ofNat 8 c)
  | none, .error c => some c
  | none, .ok _ => none
/-- A block found unloadable stays so for its context until it is written again (R75). -/
def markUnloadable (s : State) (k : EKey) (block : Nat) (code : BitVec 8) : State :=
  let c := tileCfg s k
  setTileCfg s k { c with unload := aset c.unload block code.toNat }
/-- A refused block: it stays unloadable, and the thread token that asked for it becomes POISON, once the frontier unit has room. `s` is
the state that stands until then. -/
def refuseBlock (s t : State) (k : EKey) (th : Thread) (code : BitVec 8) : Out :=
  if poisonRoom s th 0 then .next (poisonThread (markUnloadable t k th.block code) th th.tag (ownPoison k code th.block) [] false)
  else stay s
/-- BLOCK_CHOICE. -/
def execBlockChoice (s : State) : Out :=
  match s.ctl.focus with
  | .subject (.elem k) =>
    let c := schedOf s k
    let pick := match c.overdue with
      | b :: _ => some b
      | [] => fullestBlock s k
    match pick with
    | none => stay s
    | some b =>
      if !tileOpen s k || !tileActs s k || !choiceDue s k || !(lateBlocks s k).isEmpty then stay s
      else match blockRefusal s k b, oldestQueued s k b with
        | some code, some t =>
          let c' : Sched := ⟨none, 0, aset c.waits b s.ctl.clock, c.overdue.filter fun x => x != b, c.resident⟩
          refuseBlock s (setSched s k c') k t code
        | none, some _ =>
          .next (setSched s k ⟨some b, 0, aset c.waits b s.ctl.clock, c.overdue.filter fun x => x != b,
            keepResident s k (b :: c.resident.filter fun x => x != b)⟩)
        | _, none => stay s
  | _ => stay s

/-! ### EXECUTION_START (R43, R92, R95, R101, R242) -/

/-- A register group of a frame as one value (R91). -/
def groupValue (g : List Word) (base n : Nat) : Lanes :=
  (List.range n).foldl (fun v j => v ||| ((getAt g (base + j) 0).setWidth 512 <<< (64 * j))) 0
def xwcOf (s : State) (stand sce : Nat) : Lane :=
  ((s.host.xwc.find? fun (a, b, _) => a == stand && b == sce).map fun (_, _, v) => v).getD 0
def setXwc (s : State) (stand sce : Nat) (v : Lane) : State :=
  { s with host := { s.host with xwc := (s.host.xwc.filter fun (a, b, _) => !(a == stand && b == sce)) ++ [(stand, sce, v)] } }
/-- What an execution reads at its start: DRM, the D registers with a segment's own buffered writes, the system registers. -/
def newExec (s : State) (id : Nat) (t : Thread) : Exec :=
  let k := t.tile
  let d := match t.seg with
    | some g => if t.speculative then g.dbuf.foldl (fun d (i, v) => setAt d i v) (dregsOf s k) else dregsOf s k
    | none => dregsOf s k
  let fpm := fpmOf s k.stand k.ctx
  let sys := [fpm.setWidth 64, (fpfOf s k.stand k.ctx).setWidth 64, BitVec.ofNat 64 (lclkOf s k.stand k.ctx)]
    ++ (List.range 16).map fun i => (xwcOf s k.stand (0x10 + i)).setWidth 64
  ⟨id, t.uid, k, t.block, t.tag, t.sid, field fpm 0 3, d, sys, [], [], [], [], [], [], [], [], [], [], [], none, [], [], false, none, none⟩
/-- The read entries deliver. -/
def readEntries (x : Exec) (b : Block) (g : List Word) : Exec × Bool :=
  b.head.reads.foldl (fun (acc : Exec × Bool) r =>
    let n := match targetSlot r.2 with | some sl => b.slotRegs sl | none => 1
    let (x, ok) := deliver1 acc.1 r.2 n (groupValue g r.1 n) none
    (x, acc.2 && ok)) (x, true)
/-- An execution of a thread token's block begins; one whose read entries fill a slot twice aborts, once the frontier unit has room. `s` is
the state that stands until then. -/
def beginExec (s s' : State) (t : Thread) (b : Block) : Out :=
  let (id, s') := fresh s'
  let s' := setThread s' { t with at_ := .running id }
  let (x, ok) := readEntries (newExec s' id t) b t.g
  let s' := setExecs s' (s'.tiles.execs ++ [x])
  if ok then .next s' else if abortRoom s' x then .next (abortExec s' x pILL t.block) else stay s
/-- EXECUTION_START: the chosen block begins for its oldest thread token. -/
def execExecutionStart (s : State) : Out :=
  match s.ctl.focus with
  | .subject (.elem k) =>
    let c := schedOf s k
    match c.chosen with
    | none => stay s
    | some b =>
      if !tileOpen s k || !tileActs s k || decide (Config.runLimit ≤ c.run) then stay s
      else match oldestQueued s k b with
        | none => stay s
        | some t =>
          match blockRefusal s k b, loadBlock s k b with
          | none, .ok blk => beginExec s (setSched s k { c with run := c.run + 1 }) t blk
          | some code, _ => refuseBlock s s k t code
          | none, .error code => refuseBlock s s k t code
  | _ => stay s

/-! ### SEGMENT_TAKE (R31, R150, R278) -/

/-- A block tile is idle: no thread token of any context waits at a block entry and no block runs on it. -/
def tileIdle (s : State) (k : EKey) : Bool :=
  let mine := fun (q : EKey) => q.stand == k.stand && q.elem == k.elem
  !(s.tiles.threads.any fun t => mine t.tile && t.order?.isSome && !t.speculative)
    && !(s.tiles.execs.any fun x => mine x.tile)
/-- Segments in deck order: by LKS, then by age. -/
def Thread.deckKey (t : Thread) : Nat := match t.seg with | some g => g.lks * 2 ^ 64 + g.order | none => 0
def deckFirst (s : State) (k : EKey) : Option Thread :=
  minBy Thread.deckKey (s.tiles.threads.filter fun t =>
    t.tile.stand == k.stand && t.tile.elem == k.elem && t.at_ = .deck && tileOpen s t.tile)
/-- SEGMENT_TAKE: an idle tile runs the first segment it may take. One whose block is refused meets poison and stops. -/
def execSegmentTake (s : State) : Out :=
  match s.ctl.focus with
  | .subject (.elem k) =>
    if !tileIdle s k || reporting s k.stand k.elem then stay s
    else match deckFirst s k with
      | none => stay s
      | some t =>
        match blockRefusal s t.tile t.block, loadBlock s t.tile t.block with
        | none, .ok b => beginExec s s t b
        | some code, _ =>
          let (id, s) := fresh s
          let x := { newExec s id t with abort := some (ownPoison t.tile code t.block) }
          let s := markUnloadable s t.tile t.block code
          let s := setThread s { t with at_ := .running id }
          .next (setExecs s (s.tiles.execs ++ [x]))
        | none, .error _ => stay s
  | _ => stay s

/-! ### EXECUTION_COMMIT (R245) -/

def Posted.pos : Posted → Nat
  | .mem _ _ _ _ i => i | .scratch _ _ _ i => i | .sync _ _ _ _ i => i | .remote _ _ _ _ _ i => i | .fence _ _ _ i => i
  | .resolve _ _ => 0 | .squash _ => 0
def Leaving.idx : Leaving → Nat
  | .send _ _ i => i | .fork _ _ _ _ _ i => i
/-- A list in increasing order of a key; equal keys keep their order. -/
def insertBy {α : Type} (key : α → Nat) (x : α) : List α → List α
  | [] => [x]
  | y :: ys => if key x ≤ key y then x :: y :: ys else y :: insertBy key x ys
def sortBy {α : Type} (key : α → Nat) : List α → List α
  | [] => []
  | x :: xs => insertBy key x (sortBy key xs)

/-- The frame after the commit's G writes (R91, R92). -/
def commitRegs (g : List Word) (b : Block) (ws : List (Nat × Nat × Lanes)) : List Word :=
  ws.foldl (fun g (e, n, v) =>
    (List.range n).foldl (fun g j => setAt g (getAt b.head.writes e 0 + j) (field v (64 * j) 64)) g) g
/-- The loop counters after the commit (R253). -/
def commitLc (lc : List Lane) (ws : List (Nat × Lane)) : List Lane := ws.foldl (fun lc (i, v) => setAt lc i v) lc
/-- A firing that entered stage 0 in this clock uses the SY.FPM committed in it (R101). -/
def newDrm (s : State) (stand ctx : Nat) : State :=
  let now := fun (f : Firing) => f.vpe.stand == stand && f.vpe.ctx == ctx && f.since == s.ctl.clock
  { s with firings := updIf s.firings now fun f => { f with drm := field (fpmOf s stand ctx) 0 3 } }
/-- A firing that entered stage 0 in this clock has already used the mode it entered with: it has gone on, or has left the pipeline. -/
def pastStage0 (s : State) (stand ctx : Nat) : Bool :=
  s.tiles.stage0.any fun e => e.1 == stand && e.2.1 == ctx && e.2.2.2 == s.ctl.clock
    && !(s.firings.any fun f => f.id == e.2.2.1 && f.stage == 0)
/-- A SYSW commits (R43, R45, R101, R200): flags that a merge of the same clock brought stay. -/
def commitSys (s : State) (stand ctx n : Nat) (v : Word) : State :=
  if n = 8 then
    let d := v.toNat % 8
    newDrm (setFpm s stand ctx (BitVec.ofNat 32 (if d ≤ 5 then d else 0))) stand ctx
  else if n = 9 then
    let merged := match s.fr.justMerged.find? fun x => x.1 == stand && x.2.1 == ctx && x.2.2.1 == s.ctl.clock with
      | some (_, _, _, f) => f
      | none => 0
    setFpf s stand ctx (BitVec.ofNat 32 (v.toNat % 128) ||| merged)
  else if 0x20 ≤ n && n ≤ 0x2F then setXwc s stand (0x10 + (n - 0x20)) (v.setWidth 32)
  else s

/-- The SYSWs of an execution commit: of those of one clock to one register, tile 1's value stands (R101); of two of one execution, the
value of the one that fired last (DESIGN CHOICE, log entry 120). -/
def commitSysws (s : State) (tile : EKey) (ws : List (Nat × Word)) : State :=
  ws.foldl (fun s (n, v) =>
    let key := (tile.stand, tile.ctx, n, s.ctl.clock)
    if tile.elem = 0x21 then
      let s := commitSys s tile.stand tile.ctx n v
      { s with tiles := { s.tiles with sysw1 := (s.tiles.sysw1.filter fun x => x.2.2.2 == s.ctl.clock) ++ [key] } }
    else if s.tiles.sysw1.contains key then s
    else commitSys s tile.stand tile.ctx n v) s
/-- What an execution's commit sends at once, and what a segment's buffer takes. -/
def Exec.now (x : Exec) (s : State) (t : Thread) : List Leaving :=
  (sortBy Leaving.idx x.leaving).filter fun l => !t.speculative || leavesNow s t l
def Exec.kept (x : Exec) (s : State) (t : Thread) : List Leaving :=
  (sortBy Leaving.idx x.leaving).filter fun l => t.speculative && !(leavesNow s t l)
/-- Every SEND holds its credit, taken in index order (R143, R272). -/
def sendsReady (s : State) (t : Thread) : List Leaving → Bool
  | [] => true
  | .fork .. :: ls => sendsReady s t ls
  | .send port tok _ :: ls => match tileOutEdge s t.launch t.tile port with
    | none => sendsReady s t ls
    | some e =>
      let ek := lkEdge t.launch e.num
      mayLeave s ek t.tile t.uid tok && sendsReady (if tok.kind = .brake then s else leaveTok s ek t.tile t.uid tok) t ls
/-- One send or fork of a commit: a brake goes as R372 says. -/
def commitLeaving (s : State) (t : Thread) (l : Leaving) : State :=
  match l with
  | .send port tok _ =>
    if tok.kind = .brake then
      match launchOf s t.launch, tileOutEdge s t.launch t.tile port with
      | some la, some e => sendBrake s la t.tile e.prod e.num tok
      | _, _ => s
    else leave1 s t l
  | .fork .. => leave1 s t l
/-- Thread tokens that RECV START creates, with their holds (R161, R273); a segment's wait in its buffer as its FORKs do. -/
def startTokens (x : Exec) : List (Nat × Option Nat × Token × EdgeKey) :=
  x.taken.filterMap fun t => t.start.map fun (e, f) => (e, f, t.tok, t.edge)
def payloadRegs (p : Lanes) : List (Nat × Word) := (List.range 8).map fun i => (i, field p (64 * i) 64)
/-- The segments of one SPAWNP at the commit of its execution (R274); `t` is the spawner after the commit. -/
def spawnSides (s : State) (t : Thread) (root : Nat) (r : SpawnReq) : State :=
  let (lks, chain) := match t.seg with
    | some g => (g.lks, g.chain)
    | none => (0, [])
  let sides := (true, r.tblk, lkpOf r.q) :: match r.fblk with
    | some b => [(false, b, if r.q = 0 then 0 else lkpOf (256 - r.q))]
    | none => []
  let s := (sides.zip (r.frames.zip r.sids)).foldl (fun s x =>
    let (side, block, lkp) := x.1
    let (uid, s) := fresh s
    let (ord, s) := fresh s
    let g : Segment := ⟨x.2.2, min (lks + lkp) 0xFFFF, lkp, chain ++ [⟨r.handle, side, lkp⟩], root, ord, [], [], [], false⟩
    setThreads s (s.tiles.threads ++ [⟨uid, t.tile, x.2.1, t.launch, block, t.tag, t.hold, t.g, t.lc, 0, none, .deck, some g⟩])) s
  let s := setHandleRecs s (s.tiles.handles ++ [⟨r.handle, t.launch, true, r.site, t.uid⟩])
  bumpPerf s t.tile.stand 12 sides.length
def SpawnReq.count (r : SpawnReq) : Nat := if r.fblk.isSome then 2 else 1

/-- The thread token after the commit, where its control transfer takes it (R246, R255, R273). -/
def Exec.after (x : Exec) (t : Thread) (b : Block) (ord : Nat) : Thread :=
  let t := { t with g := commitRegs t.g b x.writes, lc := commitLc t.lc x.lc }
  let t := match (x.taken.reverse).find? fun k => k.retag with
    | some k => { t with tag := k.tok.tag, hold := inLoc k.edge.edge }
    | none => t
  match x.control with
  | some (.goto target _) => { t with block := target, at_ := if t.speculative then .deck else .queued ord }
  | _ => t
def Exec.halts (x : Exec) : Bool := match x.control with | some .halt => true | some (.trap _ _) => true | _ => false
/-- The buffer of a segment after an execution of it (R278). -/
def segAfter (s : State) (x : Exec) (t : Thread) (g : Segment) : Segment :=
  let starts := (startTokens x).map fun (e, _, tok, ek) => Leaving.fork e (payloadRegs tok.payload) tok.tag none (some (inLoc ek.edge)) 0
  { g with
    stores := g.stores ++ x.recs ++ sortBy Posted.pos x.stores
    leaving := g.leaving ++ x.kept s t ++ starts
    dbuf := g.dbuf ++ x.dwrites
    halted := x.halts }
/-- The change set of a commit (R161, R162), but for the guards. -/
def commitDeltas (s : State) (x : Exec) (t t' : Thread) : List Delta :=
  let now := (x.now s t).filter fun l => match l with | .send _ tok _ => tok.kind != .brake | _ => true
  let starts := if t.speculative then [] else (startTokens x).map fun (_, _, tok, e) => (⟨inLoc e.edge, tok.tag, 1⟩ : Delta)
  let moved := if t.speculative then []
    else if x.halts then [⟨t.hold, t.tag, -1⟩]
    else if t'.hold = t.hold && t'.tag = t.tag then []
    else [⟨t.hold, t.tag, -1⟩, ⟨t'.hold, t'.tag, 1⟩]
  takenDeltas x ++ now.flatMap (leavingDelta s t) ++ starts ++ moved
/-- The commit of an execution that has ended, in one step. -/
def commitExec (s : State) (x : Exec) (t : Thread) (b : Block) : State :=
  let (ord, s) := fresh s
  let t' := x.after t b ord
  let ds := commitDeltas s x t t'
  let now := x.now s t
  let s := bumpPerf (dropExec s x.id) t.tile.stand 2 1
  let s := setThread s { t' with seg := t.seg.map fun g => if t.speculative then segAfter s x t g else g }
  let root := match t.seg with | some g => if t.speculative then g.root else t.uid | none => t.uid
  let (s, gd) := raiseGuard s root ((x.spawns.map SpawnReq.count).foldl (· + ·) 0)
  let s := changeSet s t.tile.stand t.launch (ds ++ gd)
  let s := if t.speculative then s else writeDregs s t.tile x.dwrites
  let s := commitSysws s t.tile x.sysw
  let s := if t.speculative then s else (sortBy Posted.pos x.stores).foldl (fun s p => postStore s t (epochOf s t.launch x.tag) p) s
  let s := now.foldl (fun s l => commitLeaving s t l) s
  let s := if t.speculative then s
    else (startTokens x).foldl (fun s (e, f, tok, ek) =>
      leave1 s t (.fork e (payloadRegs tok.payload) tok.tag f (some (inLoc ek.edge)) 0)) s
  let s := x.taken.foldl (fun s k => if k.tok.slotted then slotsBack s t.launch k.edge.edge 1 else s) s
  let s := match threadOf s t.uid with
    | some u => x.spawns.foldl (fun s r => spawnSides s u root r) s
    | none => s
  let s := match x.control with
    | some (.trap code a) => record s (callRec s 4 t.tile t.launch x.tag code a x.block)
    | some (.goto _ true) =>
      let c := schedOf s t.tile
      if c.chosen = some x.block then setSched s t.tile { c with chosen := none, run := 0 } else s
    | _ => s
  if !x.halts then s
  else
    let s := closeBursts s t
    match threadOf s t.uid with
    | none => s
    | some u => if u.speculative then setThread s { u with at_ := .ended } else endThread s { u with seg := none }
/-- What an execution still waits for at its end: a credit of a send, room in the frontier unit, room for a trap record; a SYSW of SY.FPM
also for the next clock, when a firing of this one has used the old mode. -/
def commitReady (s : State) (x : Exec) (t : Thread) (b : Block) : Bool :=
  sendsReady s t (x.now s t)
    && unitRoom s t.tile.stand ((commitDeltas s x t (x.after t b 0)).length + 1)
    && (match x.control with | some (.trap _ _) => faultRoom s (dieOf t.tile.stand) | _ => true)
    && !(x.sysw.any (·.1 == 8) && pastStage0 s t.tile.stand t.tile.ctx)
/-- Every instruction of an execution has fired or is dead (R246). -/
def allSettled (x : Exec) (b : Block) : Bool :=
  let dead := b.deadSet x
  x.abort.isNone && (List.range b.instrs.length).all fun i => x.fired.contains i || dead.contains i
/-- The end of an execution has come (R245): beside that, every value and acknowledgement has. -/
def execEnded (x : Exec) (b : Block) : Bool := allSettled x b && x.control.isSome && x.waits.isEmpty
def execOver (s : State) (x : Exec) : Bool :=
  match loadBlock s x.tile x.block with
  | .ok b => execEnded x b
  | .error _ => false
/-- The clock at which each execution came to its end is kept (R95). -/
def noteEnds (s : State) : State :=
  setExecs s (s.tiles.execs.map fun x => if x.ended.isNone && execOver s x then { x with ended := some s.ctl.clock } else x)
/-- The order of the commits of a tile: the clock of the end, then the frame number. -/
def Exec.endKey (x : Exec) (s : State) (c : Nat) : Nat := c * Config.framesPerTile + ((threadOf s x.thread).map (·.frame)).getD 0
/-- It is an execution's turn to commit (R95): the clock in which it ended is over, and none of its tile that ended before it, or in that
clock with a lower frame, is still to commit. -/
def commitTurn (s : State) (x : Exec) : Bool :=
  match x.ended with
  | none => false
  | some c => decide (c < s.ctl.clock) && s.tiles.execs.all fun y =>
      y.id == x.id || y.tile.stand != x.tile.stand || y.tile.elem != x.tile.elem
        || (match y.ended with | some d => decide (x.endKey s c < y.endKey s d) | none => true)
/-- EXECUTION_COMMIT: an execution all of whose instructions have fired or are dead, with no control instruction among those fired, aborts
with ILL (R246); one that has ended commits in its turn. -/
def execExecutionCommit (s : State) : Out :=
  match s.ctl.focus with
  | .subject (.num id) =>
    match execOf s id with
    | none => stay s
    | some x =>
      match threadOf s x.thread, loadBlock s x.tile x.block with
      | some t, .ok b =>
        if !allSettled x b then stay s
        else if x.control.isNone then abortOut s x pILL x.block
        else if execEnded x b && commitReady s x t b && commitTurn s x then roomed s (commitExec s x t b) else stay s
      | _, _ => stay s
  | _ => stay s

/-! ### ECALL_REPLY (R343) -/

def isEcall : Instr → Bool
  | .ecall _ => true | _ => false
/-- ECALL_REPLY: a host write to a context's reply word releases its waiting ECALL with the value; with none outstanding it is
discarded. -/
def execEcallReply (part : Nat) (tile : EKey) (value : Word) (s : State) : Out :=
  match aget s.tiles.ecalls tile, launchAt s tile with
  | some id, some l =>
    if l.key.part != part then stay s
    else
      let s0 := s
      let s := { s with tiles := { s.tiles with ecalls := adel s.tiles.ecalls tile } }
      match execOf s id with
      | none => .next s
      | some x =>
        match loadBlock s x.tile x.block with
        | .error _ => .next s
        | .ok b =>
          match x.waits.find? fun w => (b.instrs[w.idx]?).any isEcall with
          | none => .next s
          | some w =>
            let x := { x with waits := x.waits.filter fun v => !(v.idx == w.idx) }
            match (b.instrs[w.idx]?).bind binfo with
            | none => .next (setExec s x)
            | some f => match deliver x f (value.setWidth 512) (value.setWidth 512) none with
              | (x, true) => .next (setExec s x)
              | (x, false) => if abortRoom s x then .next (abortExec s x pILL x.block) else stay s0
  | _, _ => stay s

end Sys2Proof.Machine
end

