-- ==== Sys2Proof/Machine/OrderEvents.lean ====
section
/-! DEFINITION. The actions of the order machine (R128): issue, arrive, perform, acknowledge, a fence's completion, the swap of an
exchange group (R139, R190), lease steps (R111, R115), the reset of timestamps, and what ends a not-present fault (R121). -/

namespace Sys2Proof.Machine

/-! ### ISSUE -/

/-- A BARX arrives at its group's record; a second one of its stand waits for the next generation (R190). -/
def issueBarx (s : State) (n : MNode) : State :=
  match launchOf s n.launch with
  | none => s
  | some l =>
    let x := (n.key.stand, n.id)
    let ex := if l.ex.arrived.any fun y => y.1 == n.key.stand then { l.ex with waiting := l.ex.waiting ++ [x] }
      else { l.ex with arrived := l.ex.arrived ++ [x] }
    setLaunch (setNode s { n with at_ := .issued }) { l with ex := ex }
/-- ISSUE. A node that waits for a page that is not present issues only once FAULT_RESUME has let it go. -/
def execIssue (s : State) : Out :=
  match s.ctl.focus with
  | .subject (.num id) =>
    match nodeById s id with
    | none => stay s
    | some n =>
      if n.at_ != .queued || n.held.isSome || reporting s n.key.stand n.key.elem || !released s n then stay s
      else match n.op with
        | .barx => .next (issueBarx s n)
        | .fence _ _ => stay s
        | .engine .. => stay s
        | op => match memRange op, scratchRange n.key op with
          | some (va, size, rd, wr), _ => .next (issueMem s n va size rd wr)
          | none, some (stand, addr, size) => match issueScratch s n stand addr size with
            | some s => .next s
            | none => stay s
          | none, none => stay s
  | _ => stay s

/-! ### ARRIVE and PERFORM -/

def execArrive (s : State) : Out :=
  match s.ctl.focus with
  | .subject (.pair id i) =>
    match nodeById s id with
    | none => stay s
    | some n => match n.parts[i]? with
      | some p => if p.at_ = .transit && n.at_ = .issued && mayArrive s n i p then .next (arrivePart s n i) else stay s
      | none => stay s
  | _ => stay s
/-- A remote store's target is a stand of its launch (R271). -/
def targetOk (s : State) (n : MNode) : Bool :=
  match n.op with
  | .xst st _ _ => (launchOf s n.launch).any fun l => l.stands.contains st
  | _ => true
/-- PERFORM: the access at the head of its queue; for an engine command's node, one of the accesses it still has to make. -/
def execPerform (s : State) : Out :=
  match s.ctl.focus with
  | .subject (.pair id i) =>
    match nodeById s id with
    | none => stay s
    | some n =>
      if isEngineOp n.op then (if n.at_ = .issued then roomed s (performEngine s id i) else stay s)
      else match n.parts[i]? with
        | none => stay s
        | some p =>
          if n.at_ != .issued || !atHead s n p || !partTurn n i
              || flagsWait s n.key.stand n.key.ctx n.epoch (performFlags s n p) then stay s
          else match memRange n.op, p.xl, scratchRange n.key n.op with
            | some _, some x, _ => if timestampsFull s n.launch.part then stay s else .next (performMem s n i p x)
            | none, _, some (stand, addr, size) =>
              if !targetOk s n then .next (bankPerm s n stand addr)
              else match performScratch s n i p stand addr size with
                | some s => .next s
                | none => stay s
            | _, _, _ => stay s
  | _ => stay s
/-- ACKNOWLEDGE. -/
def execAcknowledge (s : State) : Out :=
  match s.ctl.focus with
  | .subject (.num id) =>
    match nodeById s id with
    | some n => if n.at_ = .performed then roomed s (ackNode (ackCommand s n) n) else stay s
    | none => stay s
  | _ => stay s

/-! ### FENCE_COMPLETE (R135, R332) -/

/-- The largest wts that the acknowledgements a fence waited for returned. -/
def fenceWts (s : State) (f : MNode) (src : BitVec 8) : Nat :=
  [Path.ls, .sa, .st, .cp, .mx, .co, .bf, .hi].foldl (fun m p => if bitAt src (pathBit p) then max m (ackOf s f.src p f.pos) else m) 0
/-- FENCE_COMPLETE. A fence whose write-back met a fault that leaves no page aborts its execution with that poison. -/
def execFenceComplete (s : State) : Out :=
  match s.ctl.focus with
  | .subject (.num id) =>
    match nodeById s id with
    | some f =>
      match f.op with
      | .fence src _ =>
        let lost := match f.poison with
          | some p => p.code == pPAGE && fenceClear s f src && f.at_ = .queued
          | none => false
        if fenceDone s f || lost then roomed s (ackNode s { f with wts := fenceWts s f src }) else stay s
      | _ => stay s
    | none => stay s
  | _ => stay s

/-! ### SWAP (R112, R139, R190) -/

/-- The exchange regions of a launch's contexts, by their base. -/
def exchangeRegions (s : State) (l : Launch) : List ScratchKey :=
  l.stands.flatMap fun st => (List.range 16).flatMap fun c =>
    ((sceCfg s ⟨st, 0x10 + c, l.ctx⟩).regions.filter fun r => r.mode == 3 && r.size != 0).map fun r => ⟨st, c * 65536 + r.base * 64⟩
/-- Waiting BARXs join the new generation, one of each stand. -/
def nextArrivals (waiting : List (Nat × Nat)) : List (Nat × Nat) × List (Nat × Nat) :=
  waiting.foldl (fun acc x => if acc.1.any fun y => y.1 == x.1 then (acc.1, acc.2 ++ [x]) else (acc.1 ++ [x], acc.2)) ([], [])
/-- SWAP: every member's BARX has arrived. -/
def execSwap (s : State) : Out :=
  match s.ctl.focus with
  | .subject (.launch lk) =>
    match launchOf s lk with
    | none => stay s
    | some l =>
      if l.ex.arrived.isEmpty || l.ex.arrived.length < l.ex.expect then stay s
      else
        let gen := l.ex.gen + 1
        let done := l.ex.arrived.map (·.2)
        let (now, later) := nextArrivals l.ex.waiting
        let s := setLaunch s { l with ex := ⟨gen, l.ex.expect, now, later⟩ }
        let s := setNodes s (updIf s.ord.nodes (fun (n : MNode) => done.contains n.id) fun n =>
          { n with at_ := .performed, value := gen.setWidth 64 })
        let rs := exchangeRegions s l
        let old := s.mem.visY
        .next (setMem s { s.mem with visY := (old.filter fun k => !rs.contains k) ++ rs.filter fun k => !old.contains k })
  | _ => stay s

/-! ### LEASE_STEP (R111, R115, R128) -/

/-- A range of scratch that some access of a context waits to read, and what becomes of it when the fill fails. -/
inductive Needer where
  | node (id : Nat)
  | command (id : Nat)
  | firing (id : Nat)
deriving DecidableEq, Repr
structure Need where
  who : Needer
  stand : Nat
  ctx : Nat
  addr : Nat
  len : Nat
deriving DecidableEq, Repr
def readsBank : MemOp → Bool
  | .sload .. => true | .samo .. => true | .swwait .. => true | _ => false
/-- Scratch that a command's next accesses may read: a listed phase's, its sync word's, a pattern's source and indices. -/
def Command.reads (c : Command) : List (Nat × Nat) :=
  let listed := c.todo.filterMap fun x => match x.2 with
    | .srd a n => some (a, n)
    | .take _ a _ | .push _ a _ | .free _ a _ _ _ => if a < 2 ^ 20 then some (a, 64) else none
    | _ => none
  let sync := if c.ended then (c.sync.map fun a => (a, 8)).toList else []
  let pat := if isPattern c.op && !c.ended then
      match patOf c.op c.rec_ with
      | some p => (if writesMem c.op then [(p.src, p.total * p.esize)] else [])
          ++ if usesIndex c.op then [(p.idx, 4 * getAt p.counts (p.counts.length - 1) 1)] else []
      | none => []
    else []
  listed ++ sync ++ pat
/-- A stage that reads scratch through a descriptor, without a node (R311). -/
def stageReadsStash : Instr → Bool
  | .exitq _ => true | _ => false
def needs (s : State) : List Need :=
  (s.ord.nodes.filterMap fun n =>
    match n.op, scratchRange n.key n.op with
    | .engine i _ _ _, _ => if n.at_ = .queued && released s n then some ⟨.node n.id, n.key.stand, n.key.ctx, enginePa i, 64⟩ else none
    | op, some (st, a, k) =>
      if readsBank op && ((n.at_ = .queued && released s n) || (isWait op && n.at_ = .issued)) then some ⟨.node n.id, st, n.key.ctx, a, k⟩ else none
    | _, none => none)
  ++ (s.eng.commands.flatMap fun c => c.reads.map fun x => ⟨.command c.id, c.eng.stand, c.eng.ctx, x.1, x.2⟩)
  ++ (s.firings.flatMap fun f =>
    match ((vpeCfg s f.vpe).slots[f.stage]?).bind slotInstr with
    | some (i, _) => if stageReadsStash i then
        ((List.range 16).filter (fun c => adjacent f.vpe.elem c)).map fun c => ⟨.firing f.id, f.vpe.stand, f.vpe.ctx, c * 65536, 65536⟩
      else []
    | none => [])
/-- The accesses that wait for a sector. -/
def needersOf (s : State) (k : ScratchKey) : List Need :=
  (needs s).filter fun n => n.stand == k.stand && decide (n.addr / 64 * 64 ≤ k.addr) && decide (k.addr < n.addr + n.len)
/-- What a fill that fails does to an access that waits for it. -/
def failNeed (s : State) (n : Need) (code : BitVec 8) (addr : Nat) : State :=
  match n.who with
  | .node id => match nodeById s id with
    | none => s
    | some m =>
      match m.op with
      | .engine i _ _ _ => match execOf s (m.pos / 1024) with
        | some x => abortExec (dropNode s id) x code (enginePa i)
        | none => dropNode s id
      | _ => poisonNode s m (ownPoison m.key code (addr % 2 ^ 32))
  | .command id => match commandOf s id with
    | some c => faultCommand s c code (addr % 2 ^ 32)
    | none => s
  | .firing id => match firingOf s id with
    | some f => poisonFiring s f code (BitVec.ofNat 32 addr)
    | none => s
/-- A stash fill that some waiting access calls for. -/
def stepFill (s : State) (k : ScratchKey) : Option State :=
  match (needersOf s k).filter fun n => !(sectorServes s n.ctx k (sectorMask k n.addr n.len)) with
  | [] => none
  | n :: ns =>
    let die := dieOf k.stand
    match regionOf s k.stand n.ctx k.addr 64 with
    | none => none
    | some (_, r) =>
      let va := stashVa k.stand k.addr r
      let (part, launch) := whoAt s k.stand n.ctx
      if r.mode != 2 || reporting s k.stand (0x10 + sceOf k.addr) || pageHeld s die part va.toNat || timestampsFull s part then none
      else match stashFill s n.ctx k with
        | .done s => serveBank s k.stand k.addr 64 n.ctx 8 (2 ^ 64 + 8)
        | .permission s va => some ((n :: ns).foldl (fun s x => failNeed s x pPERM va.toNat) (noteVa s part va.toNat))
        | .notPresent s va =>
          if r.nofault then some ((n :: ns).foldl (fun s x => failNeed s x pPAGE va.toNat) (noteVa s part va.toNat))
          else some (noteNotPresent s die k.stand (0x10 + sceOf k.addr) n.ctx part launch 0 va.toNat)
/-- The fences of a context that wait for nothing but its write-backs. -/
def dueFences (s : State) (stand ctx : Nat) : List MNode :=
  s.ord.nodes.filter fun f => f.key.stand == stand && f.key.ctx == ctx && f.at_ = .queued
    && match f.op with
      | .fence src _ => fenceWrites f src && fenceClear s f src
      | _ => false
def poisonFences (s : State) (stand ctx : Nat) (code : BitVec 8) (detail : Nat) : State :=
  (dueFences s stand ctx).foldl (fun s f => setNode s { f with poison := some (ownPoison f.key code (detail % 2 ^ 32)) }) s
/-- Contexts of a stand one of whose stash regions holds a sector. -/
def ctxHolding (s : State) (k : ScratchKey) : Option Nat :=
  (List.range 4).find? fun c => match regionOf s k.stand c k.addr 64 with | some (_, r) => r.mode == 2 | none => false
/-- A write-back that a fence calls for, or that a reconfiguration left to wait for its page (R332); a fill or write-back takes
its row at port 8 (R107). -/
def stepWriteBack (s : State) (k : ScratchKey) : Option State :=
  match ctxHolding s k with
  | none => none
  | some ctx =>
    let va := match regionOf s k.stand ctx k.addr 64 with | some (_, r) => stashVa k.stand k.addr r | none => 0
    let (part, launch) := whoAt s k.stand ctx
    if !(writeBackDue s k.stand ctx || (sectorOf s k).any fun x => x.due) || !(dirtySectors s k.stand ctx).contains k
        || reporting s k.stand (0x10 + sceOf k.addr) || pageHeld s (dieOf k.stand) part va.toNat || timestampsFull s part then none
    else match stashWriteBack s ctx k with
      | .done s => serveBank s k.stand k.addr 64 ctx 8 (2 ^ 64 + 8)
      | .notPresent s va => some (noteNotPresent s (dieOf k.stand) k.stand (0x10 + sceOf k.addr) ctx part launch 0 va.toNat)
      | .permission s va =>
        some (poisonFences (saveRecord s ⟨k.stand, 0x10 + sceOf k.addr, ctx⟩ va k.addr) k.stand ctx pSAVE k.addr)
/-- A write-back that a teardown left is made once its page is there; one that may not be written is lost, with its record (R332). -/
def stepDue (s : State) (d : DueWrite) : Option State :=
  let stand := d.key.stand
  let elem := 0x10 + sceOf d.key.addr
  if reporting s stand elem || pageHeld s (dieOf stand) d.part d.va.toNat || timestampsFull s d.part then none
  else
    let drop := fun (s : State) => setMem s { s.mem with dues := s.mem.dues.erase d }
    match translate s stand d.part d.va false true with
    | (s, .ok t) => some (drop (pushBytes s d.part t d.bytes d.dirty 0 d.mark).1)
    | (s, .permission) => some (record (drop s)
        { simpleRec s d.part 3 pSAVE.toNat stand elem 0 d.mark.launch.toNat 0 d.key.addr with addr := d.va.toNat })
    | (s, .notPresent) => some (noteNotPresent s (dieOf stand) stand elem 0 d.part d.mark.launch.toNat 0 d.va.toNat)
/-- A renewal of an expired copy that a released load waits to use. -/
def stepRenew (s : State) (stand line : Nat) : Option State :=
  let due := s.ord.nodes.findSome? fun n =>
    match n.op with
    | .load _ _ false =>
      if n.path = .ls && n.key.stand == stand && n.at_ = .queued && n.held.isNone && released s n then
        ((peekAll s n).findSome? fun w => match w.1 with
          | .ok x => if x.cache && x.dpa < 2 ^ 41 && x.dpa / 128 == line then some (n, x) else none
          | _ => none)
      else none
    | _ => none
  match due, due.bind fun y => l1Of s stand y.1.launch.part y.2.key line with
  | some (n, x), some c =>
    if timestampsFull s n.launch.part then none
    else if c.rts < lclkOf s stand n.key.ctx then
      some (homeLoad s n.launch.part x.key stand (line * 128) 128 (lclkOf s stand n.key.ctx)).1
    else none
  | _, _ => none
def execLeaseStep (act : LeaseAct) (s : State) : Out :=
  match match act with
    | .fill k => stepFill s k
    | .writeBack k => match s.mem.dues.find? fun d => decide (d.key = k) with
      | some d => stepDue s d
      | none => stepWriteBack s k
    | .renew stand line => stepRenew s stand line with
  | some t => roomed s t
  | none => stay s

/-! ### TIMESTAMP_RESET (R115) -/

def stampsZero (s : State) (part : Nat) : State :=
  let stands := standsOf (partDies s part)
  let mine := fun (n : MNode) => n.launch.part == part
  let s := setMem s { s.mem with
    l2 := updIf s.mem.l2 (fun l => l.part == part) fun l => { l with wts := 0, rts := 0 }
    l1 := s.mem.l1.filter fun c => c.part != part
    sectors := (s.mem.sectors.filter fun x => !(stands.contains x.key.stand && x.dirty == 0)).map fun x =>
      if stands.contains x.key.stand then { x with wts := 0, rts := 0 } else x }
  let srcs := (s.ord.nodes.filter mine).map (·.src)
  { s with ord := { s.ord with
    nodes := updIf s.ord.nodes mine fun n => { n with wts := 0 }
    acks := s.ord.acks.filter fun a => !(srcs.contains a.src || match a.src with
      | .thread uid => (threadOf s uid).any fun t => t.launch.part == part
      | .stage k _ _ => stands.contains k.stand
      | .host p _ => p == part)
    lclk := s.ord.lclk.filter fun x => !(stands.contains x.1) } }
def execTimestampReset (s : State) : Out :=
  match s.ctl.focus with
  | .subject (.num part) => if timestampsFull s part then .next (stampsZero s part) else stay s
  | _ => stay s

/-! ### Not-present faults (R121) -/

/-- Whether a waiter's page is open at its die. -/
def pageOpen (s : State) (stand part : Nat) (page : Option Nat) : Bool :=
  match page with
  | none => false
  | some p => s.mem.opens.any fun o => o.die == dieOf stand && o.part == part && o.page == pageOf p
/-- FAULT_RESUME: every waiter whose record is closed reissues its access from where it stopped. -/
def execFaultResume (s : State) : Out :=
  let go := fun (stand : Nat) (lk : LKey) (page : Option Nat) => page.isSome && !(pageOpen s stand lk.part page)
  let s' := setNodes s (updIf s.ord.nodes (fun (n : MNode) => go n.key.stand n.launch n.held) fun n => { n with held := none })
  .next (setCommands s' (updIf s.eng.commands (fun (c : Command) => go c.eng.stand c.launch c.stalled) fun c => { c with stalled := none }))
/-- Stash accesses of a die that wait for a page, with the home address of the sector that maps to it. -/
def stashWaiters (s : State) (o : OpenFault) : List (Need × Nat) :=
  (needs s).flatMap fun n =>
    if dieOf n.stand != o.die || (whoAt s n.stand n.ctx).1 != o.part then []
    else ((sectorKeys n.stand n.addr (min n.len 65536)).filter fun k =>
      match regionOf s k.stand n.ctx k.addr 64 with
      | some (_, r) => r.mode == 2 && !(sectorServes s n.ctx k (sectorMask k n.addr n.len)) && pageOf (stashVa k.stand k.addr r).toNat == o.page
      | none => false).map fun k => (n, match regionOf s k.stand n.ctx k.addr 64 with | some (_, r) => (stashVa k.stand k.addr r).toNat | none => k.addr)
/-- The clock of an open fault stops while a pattern that waits for the page belongs to a launch that drains (R331). -/
def heldByDrain (s : State) (o : OpenFault) : Bool :=
  s.eng.commands.any fun c => dieOf c.eng.stand == o.die && c.launch.part == o.part && c.stalled.map pageOf == some o.page && draining s c.launch
/-- FAULT_DEADLINE: an open fault's clock, from its record, has reached the partition's deadline; its die's waiters become poison
PAGE. -/
def execFaultDeadline (s : State) : Out :=
  match s.ctl.focus with
  | .subject (.num i) =>
    match s.mem.opens[i]? with
    | none => stay s
    | some o =>
      let limit := ((partOf s o.part).map (·.fdeadline)).getD 0
      if o.stopped.isSome || s.ctl.clock < o.since + limit || heldByDrain s o then stay s
      else
        let mine := fun (stand : Nat) (lk : LKey) (page : Option Nat) => dieOf stand == o.die && lk.part == o.part && page.map pageOf == some o.page
        let low := fun (held : Option Nat) => held.getD (o.page * 65536) % 2 ^ 32
        let note := fun (s : State) (va : Option Nat) => noteVa s o.part (va.getD (o.page * 65536))
        let ns := s.ord.nodes.filter fun n => mine n.key.stand n.launch n.held
        let cs := s.eng.commands.filter fun c => mine c.eng.stand c.launch c.stalled
        let ws := stashWaiters s o
        let fs := s.mem.sectors.filter fun (x : Sector) => (x.dirty != (0 : BitVec 64)) && dieOf x.key.stand == o.die && match ctxHolding s x.key with
          | some c => (whoAt s x.key.stand c).1 == o.part && match regionOf s x.key.stand c x.key.addr 64 with
            | some (_, r) => pageOf (stashVa x.key.stand x.key.addr r).toNat == o.page
            | none => false
          | none => false
        let s0 := s
        let s := setMem s { s.mem with
          opens := s.mem.opens.erase o
          dues := s.mem.dues.filter fun d => !(dieOf d.key.stand == o.die && d.part == o.part && pageOf d.va.toNat == o.page) }
        let s := ns.foldl (fun s n => poisonNode (note s n.held) { n with held := none } (ownPoison n.key pPAGE (low n.held))) s
        let s := cs.foldl (fun s c => faultCommand (note s c.stalled) c pPAGE (low c.stalled)) s
        let s := ws.foldl (fun s x => failNeed (note s (some x.2)) x.1 pPAGE x.2) s
        let s := (s.eng.backfill.filter fun e => e.die == o.die && e.launch.part == o.part && e.claim.isNone && e.visible
            && pageOf ((areaFrom e.fields).mapWord e.sq e.pos e.first).1.toNat == o.page).foldl (fun s e =>
          let va := some ((areaFrom e.fields).mapWord e.sq e.pos e.first).1.toNat
          restPoison (cancelBf (note s va) e) e.launch e.node e.tag (ownPoison ⟨64 * e.die, 0xFB, 0⟩ pPAGE (low va))) s
        let s := (fs.filter (·.due)).foldl (fun s x => setSector s { x with dirty := 0, full := x.full &&& ~~~x.dirty, due := false }) s
        roomed s0 (fs.foldl (fun s x => match ctxHolding s x.key with
          | some c => poisonFences s x.key.stand c pPAGE x.key.addr
          | none => s) s)
  | _ => stay s

/-! ### The host's accesses (R127, R130) and invalidations (R120) -/

/-- HOST_MEMORY_ACCESS: a read or write of device memory over the streaming mapping becomes a node of the HI path. For a TDI in RUN it
travels under the keys of the TDI's IDE stream; without them it does not pass (R345; DEDUCED, log entry 132). -/
def execHostMemoryAccess (part requester : Nat) (write : Bool) (va size : Nat) (data : Lanes) (s : State) : Out :=
  if (partOf s part).any fun p => p.tdi == .run && p.ideKey.isNone then stay s else
  let k : EKey := ⟨64 * lowDie (((partOf s part).map (·.dies)).getD 0), 0xFD, 0⟩
  let op : MemOp := if write then .store (BitVec.ofNat 64 va) (leBytes size data.toNat) else .load (BitVec.ofNat 64 va) size true
  .next (addNode s (.host part requester) k ⟨part, 0xFF⟩ .hi s.ctl.nextId op .so .sys 0).1
/-- HOST_INVALIDATION: every cached translation of the partition goes, on every die, and its not-present faults close. -/
def execHostInvalidation (s : State) : Out :=
  match s.ctl.focus with
  | .subject (.num part) =>
    let dies := partDies s part
    .next (closeOpens (dropTranslations s part 64 0 (standsOf dies) dies) part 64 0 dies)
  | _ => stay s

end Sys2Proof.Machine
end

