-- ==== Sys2Proof/Machine/Ports.lean ====
section
/-! DEFINITION. Ingress and egress ports (R153, R154, R161, R318, R331), stop checking (R187, R189, R339), the skidder's claims and the
backfill port (R155, R156, R312), and the end of a launch that its ports take part in (R27). -/

namespace Sys2Proof.Machine

/-! ### Ingress (R153) -/

/-- The name under which a port's own bursts stand open; no thread token has it. -/
def portOwner : Nat := 2 ^ 64
/-- The buffered tokens of a port enter its edge while they may (R142, R143, R144). -/
def admitLoop (ek : EdgeKey) (src : EKey) : Nat → State → List Token → State × List Token
  | 0, s, ts => (s, ts)
  | _, s, [] => (s, [])
  | n + 1, s, t :: ts =>
    if mayLeave s ek src portOwner t then admitLoop ek src n (leaveTok s ek src portOwner t) ts else (s, t :: ts)
def admitPort (s : State) (l : Launch) (p : Nat) : State :=
  let q := ingressAt s ⟨l.key.part, p⟩
  let admits := (l.state = .running && l.gated.isNone) || (l.bfport == some p && claimsOpen s l)
  if q.buf.isEmpty || !admits then s
  else match l.portNode .ingress p, l.ingressEdge p with
    | some n, some e =>
      let (s, rest) := admitLoop (lkEdge l.key e.num) (portKey s l n 0xF8) q.buf.length s q.buf
      setIngress s { ingressAt s ⟨l.key.part, p⟩ with buf := rest }
    | _, _ => s
/-- A port's STATUS as the host reads it (R153): EPOCH, ERR, ENDED and FILL; a port that no live launch is bound to has none of the first. -/
def portStatus (s : State) (k : PortKey) : Word :=
  let q := ingressAt s k
  let err := BitVec.ofNat 64 (q.err * 2 ^ 16)
  if (ingressLaunch s k).isNone then err
  else BitVec.ofNat 64 (q.epoch * 2 ^ 32) ||| err ||| (if q.ended then 0x200 else 0) ||| BitVec.ofNat 64 q.buf.length
/-- Every port admits what it can; a step begins with this. -/
def admitAll (s : State) : State := s.la.launches.foldl (fun s l => l.ingressPorts.foldl (fun s p => admitPort s l p) s) s
/-- A write discarded and counted, saturating. -/
def countErr (s : State) (k : PortKey) : State :=
  let q := ingressAt s k
  setIngress s { q with err := min 0xFFFF (q.err + 1) }
def partRuns (s : State) (part : Nat) : Bool := match partOf s part with | some p => p.tdi == .run | none => false
/-- A token of an epoch joins a port's buffer, with its place in the replay log (R318); a log that is full makes the launch one that
cannot be replayed until the epoch has passed (R330). -/
def pushPort (s : State) (l : Launch) (k : PortKey) (epoch : Nat) (t : Token) : State :=
  let q := ingressAt s k
  let full := decide (Config.replayLog ≤ q.log.length)
  let keep := l.replayable && !full
  let s := setIngress s { q with buf := q.buf ++ [t], log := if keep then q.log ++ [(epoch, t)] else q.log }
  let s := if l.replayable && full then setLaunch s { l with logFull := some epoch } else s
  match launchOf s l.key with
  | some l => admitPort s l k.port
  | none => s
/-- A token enters a port's buffer: its count, its place in the replay log, then its edge. -/
def enterPort (s : State) (l : Launch) (k : PortKey) (e : EdgeRec) (t : Token) : State :=
  let q := ingressAt s k
  let node := (l.portNode .ingress k.port).getD 0
  let src := portKey s l node 0xF8
  let s := changeSet s src.stand l.key (tokDelta e.num t 1)
  pushPort (setIngress s { q with last := some q.epoch }) l k q.epoch t
/-- What a host write to a port meets: it is discarded, held in the link's flow control, absorbed by a sealed port, or taken. -/
inductive Gate where
  | discard
  | held
  | absorb
  | open_ (l : Launch) (e : EdgeRec)
def portGate (s : State) (k : PortKey) : Gate :=
  if !partRuns s k.part then .discard
  else match ingressLaunch s k with
    | none => .discard
    | some l =>
      let q := ingressAt s k
      match l.portNode .ingress k.port, l.ingressEdge k.port with
      | some n, some e =>
        if q.ended || q.stopped || l.bfport == some k.port then .discard
        else if l.sealed.contains n then .absorb
        else if decide (Config.portSlots ≤ q.buf.length) || !unitRoom s (portKey s l n 0xF8).stand 4 then .held
        else .open_ l e
      | _, _ => .discard
/-- A host write of one token. -/
def hostToken (s : State) (k : PortKey) (ok : Bool) (mk : EdgeRec → Tag → Token) : Out :=
  match portGate s k with
  | .discard => .next (countErr s k)
  | .held => stay s
  | .absorb => .next (if ok then s else countErr s k)
  | .open_ l e => .next (if ok then enterPort s l k e (mk e (epochTag l.widths (ingressAt s k).epoch)) else countErr s k)
/-- A 64-byte write to system port 0 joins the record it belongs to (R340). -/
def systemToken (s : State) (part : Nat) (data : Lanes) : Out :=
  let q := ingressAt s ⟨part, 0⟩
  if !partRuns s part then .next (countErr s ⟨part, 0⟩)
  else if Config.portSlots ≤ q.record.length then stay s
  else .next (setIngress s { q with record := q.record ++ [data] })
/-- INGRESS_DATA_WRITE: 64 bytes at a 64-byte aligned offset below 0x800 are one DATA token. -/
def execIngressDataWrite (port : PortKey) (off size : Nat) (data : Lanes) (s : State) : Out :=
  let ok := size == 64 && off % 64 == 0 && decide (off < 0x800)
  if port.port = 0 then (if ok then systemToken s port.part data else .next (countErr s port))
  else hostToken s port ok fun e tag => ⟨tag, 0, .data, e.ft, 0xFFFF#16, data⟩
/-- INGRESS_HEAD_WRITE: 64 bytes at 0x800 are one HEAD token. -/
def execIngressHeadWrite (port : PortKey) (size : Nat) (data : Lanes) (s : State) : Out :=
  if port.port = 0 then .next (countErr s port)
  else hostToken s port (size == 64) fun e tag => ⟨tag, 0, .head, e.ft, if e.ft = .dir then 0x0003#16 else 0x0001#16, data⟩

/-! ### Stop checking at an egress port (R189) -/

/-- The automaton read from partition memory into the form of the store; none: it does not fit, or its header is out of range. -/
def stopTable (s : State) (part va : Nat) : Option (List Byte × List Nat) :=
  match peekVa s part va 64 with
  | none => none
  | some h =>
    match if va % 64 = 0 then nfaOf h else none with
    | none => none
    | some a =>
      let n := a.setBytes
      if 65536 < 64 + 258 * n + 2 * a.states then none
      else match peekVa s part (va + a.classOff) (256 * n), peekVa s part (va + a.initOff) n, peekVa s part (va + a.accOff) n,
          peekVa s part (va + a.lenOff) (2 * a.states) with
        | some c, some i, some x, some l => some (h ++ c ++ i ++ x ++ l, a.states_ i)
        | _, _, _, _ => none
/-- A STOPTAB value takes effect: the table is loaded, or stop checking is off, and REQV 0 where a table was refused (R339). -/
def loadStop (s : State) (p : Egress) (va : Word) : Egress :=
  if va = 0 then { p with stoptab := va, active := false, store := [], set_ := [], pendTab := none }
  else match stopTable s p.key.part va.toNat with
    | some (st, init) => { p with stoptab := va, active := true, store := st, set_ := init, pendTab := none }
    | none => { p with stoptab := va, active := false, store := [], set_ := [], pendTab := none, reqv := false }
def Egress.checks (p : Egress) : Bool := p.active && p.hold != 0
/-- A slot's token: DATA that carries output bytes, a retraction (0x80) or a stop event (0x81). -/
def outToken (tag : Tag) (ft : Fmt) (bs : List Byte) : Token :=
  ⟨tag, 0, .data, ft, 0xFFFF#16, leLanes (leBytes 4 bs.length ++ bs)⟩
def markSlot (kind : Byte) (tag : Tag) (ft : Fmt) (n : Nat) : List Byte :=
  let bs := slotBytes ⟨tag, 0, .data, ft, 0x0001#16, BitVec.ofNat 512 n⟩
  bs.take 74 ++ [kind] ++ bs.drop 75
/-- Released bytes as slots: each holds bytes of one tag, 60 at most. -/
def releaseSlots (ft : Fmt) : Nat → List (Byte × Tag) → List (List Byte)
  | 0, _ => []
  | _, [] => []
  | n + 1, (b, tag) :: rest =>
    let run := ((b, tag) :: rest).takeWhile fun x => x.2 == tag
    let now := run.take 60
    slotBytes (outToken tag ft (now.map (·.1))) :: releaseSlots ft n (((b, tag) :: rest).drop now.length)
/-- The automaton's step on a byte: follow rows stand in memory (R187). -/
def stopStep (s : State) (p : Egress) (a : Nfa) (cur : List Nat) (b : Byte) : List Byte :=
  let rows := cur.map fun i => (peekVa s p.key.part (a.followVa i).toNat a.setBytes).getD (zeroBytes a.setBytes)
  a.next rows (stopClass p a b) (stopInit p a)
/-- What the check of a token's bytes leaves: the port, bytes released so far, slots of a match. -/
structure StopRun where
  port : Egress
  out : List (Byte × Tag)
  slots : List (List Byte)
  ended : Bool
/-- One byte checked. -/
def checkByte (s : State) (a : Nfa) (epoch : Nat) (tag : Tag) (ft : Fmt) (r : StopRun) (b : Byte) : StopRun :=
  if r.ended then r
  else
    let p := r.port
    let next := stopStep s p a p.set_ b
    let hit := (a.states_ (andBytes next (stopAccept p a))).head?
    let all := p.held ++ [(b, tag)]
    match hit with
    | some i =>
      let m := stopLen p a i
      let x := m - all.length
      let rel := r.out ++ all.take (all.length - m)
      let slots := releaseSlots ft rel.length rel ++ (if 0 < x then [markSlot 0x80 tag ft x] else []) ++ [markSlot 0x81 tag ft i]
      ⟨{ p with held := [], set_ := a.states_ (stopInit p a), stopped := epoch :: p.stopped }, [], r.slots ++ slots, true⟩
    | none =>
      let init := a.states_ (stopInit p a)
      let cur := a.states_ next
      if cur.all fun i => init.contains i then ⟨{ p with held := [], set_ := cur }, r.out ++ all, r.slots, false⟩
      else
        let n := all.length - p.hold
        ⟨{ p with held := all.drop n, set_ := cur }, r.out ++ all.take n, r.slots, false⟩
/-- The slots that a DATA token comes to, and the port after it. -/
def stopData (s : State) (p : Egress) (a : Nfa) (epoch : Nat) (t : Token) : Egress × List (List Byte) :=
  if p.stopped.contains epoch then (p, [])
  else
    let n := (field t.payload 0 8).toNat
    if 60 < n then
      ({ p with held := [], set_ := a.states_ (stopInit p a) }, releaseSlots t.ft p.held.length p.held ++ [slotBytes t])
    else
      let bs := ((lanesBytes t.payload).drop 4).take n
      let r := bs.foldl (checkByte s a epoch t.tag t.ft) ⟨p, [], [], false⟩
      (r.port, r.slots ++ releaseSlots t.ft r.out.length r.out)
/-- The slots of a token the port takes. -/
def egressSlots (s : State) (p : Egress) (epoch : Nat) (t : Token) : Egress × List (List Byte) :=
  match p.nfa with
  | some a => if p.checks && t.kind = .data then stopData s p a epoch t else (p, [slotBytes t])
  | none => (p, [slotBytes t])
/-- What is held is released, the state set starts again, and writes of STOPTAB and HOLD that waited take effect. -/
def closeStop (s : State) (l : Launch) (port : Nat) : State :=
  let p := egressAt s ⟨l.key.part, port⟩
  if !(p.checks || !p.held.isEmpty || p.pendTab.isSome || p.pendHold.isSome) then s
  else
    let ft := ((l.egressEdges port).head?.map (·.ft)).getD .i32
    let epoch := match p.held.head? with | some x => tagLevel l.widths x.2 0 | none => 0
    let slots := releaseSlots ft p.held.length p.held
    let p := { p with held := [], set_ := match p.nfa with | some a => a.states_ (stopInit p a) | none => [] }
    let p := match p.pendTab with | some va => loadStop s p va | none => p
    let p := match p.pendHold with | some h => { p with hold := h, pendHold := none } | none => p
    emitSlots s p epoch slots

/-! ### EPOCH, CLOSE and the port's end -/

/-- An epoch of the launch has closed once every port that the host writes has closed it; then the egress ports close it. -/
def closedByAll (s : State) (l : Launch) (e : Nat) : Bool :=
  l.ingressPorts.all fun p => l.bfport == some p || (ingressAt s ⟨l.key.part, p⟩).ended || decide (e < (ingressAt s ⟨l.key.part, p⟩).epoch)
/-- The ingress log keeps what a replay can still need: tokens of epochs not passed everywhere (R318). -/
def trimLog (s : State) (l : Launch) (k : PortKey) : State :=
  let q := ingressAt s k
  setIngress s { q with log := q.log.filter fun x => !passedEverywhere s l x.1 }
/-- The open epoch e of a port closes: with `ends`, the port ends behind its tokens. An epoch past the field's width is poison TAGOVF
on the edge instead, and the port admits nothing further. -/
def closeEpoch (s : State) (l : Launch) (k : PortKey) (e : EdgeRec) (ends : Bool) : State :=
  let q := ingressAt s k
  let node := (l.portNode .ingress k.port).getD 0
  let src := portKey s l node 0xF8
  let here := epochTag l.widths q.epoch
  let sealed_ := l.sealed.contains node
  let s := if q.epoch + 1 ≥ 2 ^ levelWidth l.widths 0 then
      let s := setIngress s { q with stopped := true, ended := ends }
      if sealed_ then changeSet s src.stand l.key [⟨e.num, here, -1⟩]
      else
        let p : PoisonInfo := ⟨pTAGOVF, src.stand, 0xF8, 0⟩
        let s := changeSet s src.stand l.key [⟨e.num, here, -1⟩, ⟨e.num, here, 1⟩]
        pushPort s l k q.epoch (poisonToken here p)
    else
      let next := epochTag l.widths (q.epoch + 1)
      let t := endToken next e.ft 0
      if ends then
        let s := setIngress s { q with epoch := q.epoch + 1, ended := true }
        let s := changeSet s src.stand l.key (⟨e.num, here, -1⟩ :: if sealed_ then [] else tokDelta e.num t 1)
        if sealed_ then s else pushPort s l k (q.epoch + 1) t
      else
        changeSet (setIngress s { q with epoch := q.epoch + 1 }) src.stand l.key [⟨e.num, here, -1⟩, ⟨e.num, next, 1⟩]
  let s := trimLog s l k
  if closedByAll s l q.epoch then l.egressPorts.foldl (fun s p => closeStop s l p) s else s
/-- A write of EPOCH or CLOSE: held while the buffer is full; then discarded unless it names the open epoch. A CLOSE of a port stopped by an overflow ends it. -/
def hostClose (s : State) (k : PortKey) (size : Nat) (value : Word) (ends : Bool) : Out :=
  if k.port = 0 then .next s
  else
    let q := ingressAt s k
    match if partRuns s k.part then ingressLaunch s k else none with
    | none => .next (countErr s k)
    | some l =>
      match l.ingressEdge k.port with
      | none => .next (countErr s k)
      | some e =>
        if q.ended || l.bfport == some k.port then .next (countErr s k)
        else if !q.stopped && decide (Config.portSlots ≤ q.buf.length) then stay s
        else if size != 8 || value.toNat != q.epoch then .next (countErr s k)
        else if q.stopped then .next (if ends then setIngress s { q with ended := true } else countErr s k)
        else if !unitRoom s (portKey s l ((l.portNode .ingress k.port).getD 0) 0xF8).stand 4 then stay s
        else .next (closeEpoch s l k e ends)
def execEpoch (port : PortKey) (size : Nat) (value : Word) (s : State) : Out := hostClose s port size value false
def execClose (port : PortKey) (size : Nat) (value : Word) (s : State) : Out := hostClose s port size value true
/-- BACKFILL_PORT_END: every other ingress port has ended, and the skidder holds no entry or claim of the launch. -/
def execBackfillPortEnd (s : State) : Out :=
  match s.ctl.focus with
  | .subject (.port k) =>
    match ingressLaunch s k with
    | none => stay s
    | some l =>
      match l.ingressEdge k.port with
      | none => stay s
      | some e =>
        let q := ingressAt s k
        let others := l.ingressPorts.all fun p => p == k.port || (ingressAt s ⟨k.part, p⟩).ended
        if l.bfport != some k.port || q.ended || !others || l.state != .running || l.gated.isSome
            || decide (Config.portSlots ≤ q.buf.length) || s.eng.backfill.any (fun b => decide (b.launch = l.key)) then stay s
        else roomed s (closeEpoch s l k e true)
  | _ => stay s

/-! ### EGRESS_TAKE, EGRESS_VECTOR (R154) -/

/-- Slots of epochs that the frontier has passed are final; the port keeps those of open epochs, and which of these are stopped. -/
def trimSlots (s : State) (l : Launch) (p : Egress) : Egress :=
  let open_ := fun (x : Nat) => !passedEverywhere s l x
  { p with epochSlots := p.epochSlots.filter fun x => open_ x.1, again := p.again.filter fun x => open_ x.1,
           stopped := p.stopped.filter open_ }
/-- The token as the port takes it: a malformed HEAD, or DATA without its HEAD, is poison FMT there (R39). -/
def egressTok (here : EKey) (b : Buffered) : Token :=
  if b.bad then poisonToken b.tok.tag (ownPoison here pFMT (inLoc b.edge.edge)) else b.tok
/-- The port takes a token: −1, its slots, and a POISON comes to rest (R323). -/
def takeEgress (s : State) (l : Launch) (k : PortKey) (b : Buffered) : State :=
  let node := (l.portNode .egress k.port).getD 0
  let here := portKey s l node 0xF9
  let epoch := tagLevel l.widths b.tok.tag 0
  let s := changeSet (takeBuffered s b) here.stand l.key (usedDelta b.edge.edge b.tok)
  let tok := egressTok here b
  let (p, slots) := egressSlots s (trimSlots s l (egressAt s k)) epoch tok
  let s := emitSlots s p epoch slots
  if tok.kind = .poison then
    let info := poisonOf tok
    restPoison s l.key (originNode s l.key node info) b.tok.tag info
  else s
/-- EGRESS_TAKE: a port's edge gives its oldest token; or slots that are due are written. With no free slot the port takes nothing. -/
def execEgressTake (s : State) : Out :=
  match s.ctl.focus with
  | .subject (.port k) =>
    let p := egressAt s k
    if p.due.isEmpty || !p.free then stay s else .next (drainDue p.due.length s p)
  | .subject (.edge ek) =>
    match consumerOf s ek, launchOf s (ekLaunch ek), oldest s ek with
    | .egress k, some l, some b =>
      let p := egressAt s k
      let here := portKey s l ((l.portNode .egress k.port).getD 0) 0xF9
      if !p.free || !p.due.isEmpty || !unitRoom s here.stand 1 then stay s else .next (takeEgress s l k b)
    | _, _, _ => stay s
  | _ => stay s
/-- The frontier at an egress port has passed an epoch. -/
def portPassed (s : State) (l : Launch) (port e : Nat) : Bool := (l.egressEdges port).all fun x => passed s l (inLoc x.num) e
/-- EGRESS_VECTOR: an armed epoch has passed, and every slot of its tokens is written. -/
def execEgressVector (s : State) : Out :=
  match s.ctl.focus with
  | .subject (.port k) =>
    match egressLaunch s k with
    | none => stay s
    | some l =>
      let p := egressAt s k
      if !p.reqv || p.due.any (fun x => decide (x.1 ≤ p.reqEpoch)) || !portPassed s l k.port p.reqEpoch then stay s
      else .next (raiseVector (setEgress s { p with reqv := false }) k.part k.port)
  | _ => stay s

/-! ### The skidder (R155, R156, R174, R312) -/

/-- An entry whose first claim has been made. -/
def BfEntry.begun (e : BfEntry) : Bool := e.claim.isSome || e.delivered
/-- Place in the order of service: entries with a deadline first, by step, then by arrival. -/
def BfEntry.place (e : BfEntry) : Nat := match e.dstep with | some d => d * 2 ^ 64 + e.order | none => 2 ^ 128 + e.order
def bfServed (s : State) (e : BfEntry) : Bool :=
  match launchOf s e.launch with
  | some l => l.state = .running && l.gated.isNone && e.visible
  | none => false
/-- The skidder may make the next claim of an entry. -/
def mayClaim (s : State) (e : BfEntry) : Bool :=
  let mine := s.eng.backfill.filter fun x => x.die == e.die && bfServed s x
  let due := mine.any fun x => x.begun && x.claim.isNone
  bfServed s e && e.claim.isNone
    && !(s.eng.backfill.any fun x => decide (x.launch = e.launch) && x.claim.isSome && !x.delivered)
    && decide ((s.eng.backfill.filter fun x => x.die == e.die && x.claim.isSome).length < Config.claimLimit)
    && (e.begun || (!due && mine.all fun x => x.begun || decide (e.place ≤ x.place)))
/-- SKIDDER_CLAIM: the next layer of an entry turns FILLING; a layer that another write made VALID is dropped (R123). -/
def execSkidderClaim (s : State) : Out :=
  match s.ctl.focus with
  | .subject (.num id) =>
    match s.eng.backfill.find? fun e => e.id == id with
    | none => stay s
    | some e =>
      if !mayClaim s e then stay s
      else
        let a := areaFrom e.fields
        let (va, f) := a.mapWord e.sq e.pos e.first
        let ctx := ((launchOf s e.launch).map Launch.ctx).getD 0
        let k : EKey := ⟨64 * e.die, 0xFB, ctx⟩
        let s0 := s
        match mapAct s ⟨k, e.launch, e.tag⟩ va [f] .claim with
        | .wait s _ => .next s
        | .fault t code d => roomed s (restPoison (cancelBf t e) e.launch e.node e.tag (ownPoison k code d))
        | .ok s bs _ =>
          match kvField (leNat bs) f with
          | 2 => .next { (setBf s { e with claim := some e.first, delivered := false }) with
              eng := { (setBf s { e with claim := some e.first, delivered := false }).eng with claimOrder := s.eng.claimOrder ++ [id] } }
          | 3 => .next s
          | _ => roomed s0 (finishLayer s e e.first)
  | _ => stay s
/-- A claim as the queue entry it names (R155, R312). -/
def claimBytes (e : BfEntry) (l : Nat) : List Byte :=
  leBytes 8 e.kvd.toNat ++ leBytes 2 e.sq ++ leBytes 2 e.pos ++ leBytes 1 l ++ leBytes 1 e.last ++ leBytes 2 0 ++ leBytes 8 e.tag.toNat
    ++ leBytes 4 (e.dstep.getD 0xFFFFFFFF) ++ leBytes 2 e.node ++ leBytes 1 e.launch.launch ++ leBytes 1 0
/-- CLAIM_DELIVERY: the oldest claim of its launch not yet delivered enters the backfill port. -/
def execClaimDelivery (s : State) : Out :=
  match s.ctl.focus with
  | .subject (.num id) =>
    match s.eng.backfill.find? fun e => e.id == id with
    | none => stay s
    | some e =>
      match e.claim, launchOf s e.launch with
      | some layer, some l =>
        match l.bfport with
        | none => stay s
        | some port =>
          let k : PortKey := ⟨l.key.part, port⟩
          let q := ingressAt s k
          let first := s.eng.claimOrder.find? fun i => s.eng.backfill.any fun x => x.id == i && decide (x.launch = e.launch) && !x.delivered
          match l.portNode .ingress port, l.ingressEdge port with
          | some n, some ed =>
            if e.delivered || first != some id || decide (Config.portSlots ≤ q.buf.length)
                || !unitRoom s (portKey s l n 0xF8).stand 1 then stay s
            else
              let s := setBf s { e with delivered := true }
              if l.sealed.contains n then .next s
              else .next (enterPort s l k ed
                ⟨epochTag l.widths q.epoch, 0, .data, .i32, 0xFFFF#16, leLanes (claimBytes e layer)⟩)
          | _, _ => stay s
      | _, _ => stay s
  | _ => stay s

/-! ### LAUNCH_END (R27, R176) -/

/-- LAUNCH_END: the graph is quiescent and every ingress port has ended. Bytes that stop checks still hold are released first, and the
launch ends once every slot is written; slots are acknowledged as they are written (log entry 33). -/
def execLaunchEnd (s : State) : Out :=
  match s.ctl.focus with
  | .subject (.launch lk) =>
    match launchOf s lk with
    | some l =>
      let bufs := l.ingressPorts.any fun p => !(ingressAt s ⟨lk.part, p⟩).buf.isEmpty
      if !(l.state = .running && l.allEnded s && quiescent s l && !bufs && !mergesDue s l) then stay s
      else if l.egressPorts.any fun p => !(egressAt s ⟨lk.part, p⟩).held.isEmpty then
        .next (l.egressPorts.foldl (fun s p => closeStop s l p) s)
      else if l.egressPorts.any fun p => !(egressAt s ⟨lk.part, p⟩).due.isEmpty then stay s
      else .next (finishLaunch s lk .ended)
    | none => stay s
  | _ => stay s

end Sys2Proof.Machine
end

