-- ==== Sys2Proof/Machine/Drain.lean ====
section
/-! DEFINITION. Gating and the drain (R26, R28, R285, R331, R332, R334): when a launch's sources are gated, what happens to the
executions that then wait, when the drain has come to rest, and what a failed save leaves. -/

namespace Sys2Proof.Machine

/-! ### Step boundaries and deadlines -/

/-- Every k-th epoch is marked: the one numbered k − 1 is the first. -/
def marksStep (k e : Nat) : Bool := decide (1 ≤ k) && (e + 1) % k == 0
/-- The marked epochs that have passed at every ingress edge; epochs from `top` on are still open somewhere. -/
def lastMarked (s : State) (l : Launch) (k : Nat) : Option Nat :=
  let top := (l.ingressPorts.map fun p => (ingressAt s ⟨l.key.part, p⟩).epoch + 1).foldl max 0
  ((List.range (top / k)).map fun i => k * (i + 1) - 1).reverse.find? fun e =>
    l.ingressPorts.all fun p => match l.ingressEdge p with | some x => passed s l x.num e | none => true
/-- The step boundary at which a launch stands: its last marked epoch has passed at every ingress edge, and no token of a later epoch
has been admitted since (R26, R331). A marked epoch that passes while tokens of a later one are already admitted makes no boundary: a
request that waits gates at the next (DESIGN CHOICE between R176 and R331, log entry 125). -/
def stepBoundary (s : State) (l : Launch) (k : Nat) : Option Nat :=
  (lastMarked s l k).filter fun e => l.ingressPorts.all fun p => match (ingressAt s ⟨l.key.part, p⟩).last with
    | some x => decide (x ≤ e)
    | none => true
def pdeadlineClocks (s : State) (part : Nat) : Nat :=
  (((partOf s part).map (·.pdeadline)).getD 0) * Config.cyclesPerUs s.host.hot
/-- A request is to be served: a pre-emption's, or a reshape's unless its save has already failed at this boundary (R28). -/
def Launch.requested (l : Launch) (at_ : Option Nat) : Bool := l.preempt.isSome || (l.reshape && (l.tried.isNone || l.tried != at_))
/-- A launch may be gated: at once without `.step`, at a step boundary with it (R331). -/
def gateDue (s : State) (l : Launch) : Bool :=
  l.state = .running && l.gated.isNone && match l.module.bind (·.step) with
    | none => l.requested none
    | some k => match stepBoundary s l k with
      | some e => l.requested (some e)
      | none => false

/-! ### Executions abandoned at a drain (R285) -/

/-- Whether an instruction of an execution that has what it needs waits on RECV, QUIES or a frame. -/
def waitsAt (s : State) (x : Exec) (idx : Nat) (i : Instr) : Bool :=
  match readyEnv { s with ctl := { s.ctl with focus := .exec x.id idx } } i with
  | none => false
  | some e =>
    let recv := fun (w : BWord) (start : Bool) => match tileInEdge s e.th.launch e.x.tile (field w.imm 0 4).toNat with
      | none => false
      | some ed =>
        let ek := lkEdge e.th.launch ed.num
        !e.first s (some (ek, recvSid s e ek)) || match recvToken s e ek with
          | none => true
          | some b => start && b.tok.kind = .data && !(recvBad w.ft b) && e.frameless s
    match i with
    | .recv w => recv w false
    | .recvStart w => recv w true
    | .fork _ => e.frameless s
    | .quies _ => e.nodesOpen s || standBusy s x.tile.stand x.tile.ctx
    | _ => false
def isSwwait : Instr → Bool
  | .swwait _ => true | _ => false
/-- An atomic, SAMO, BARX, ECALL or E-layout command. -/
def isBinding (i : Instr) : Bool := isAtomic i || (eform i).isSome || match i with | .barx _ => true | .ecall _ => true | _ => false
/-- A node that still stands in its issue queue; a command has left it for its engine when all before it has (R286). -/
def unissued (s : State) (n : MNode) : Bool := n.at_ = .queued && !(isEngineOp n.op && released s n)
/-- An execution has issued an atomic, SAMO, BARX, ECALL or E-layout command (R285). -/
def hasIssued (s : State) (x : Exec) (b : Block) : Bool :=
  x.bound && x.fired.any fun idx => (b.instrs[idx]?).any isBinding
    && !(s.ord.nodes.any fun n => decide (n.src = .thread x.thread) && n.pos == posOf x.id idx false && unissued s n)
/-- An execution that a drain abandons: its tile stands still, it has issued no atomic, SAMO, BARX, ECALL or engine command, and waits on RECV, SWWAIT,
QUIES, a frame, or a credit at its commit. -/
def abandoned (s : State) (x : Exec) : Bool :=
  if x.abort.isSome || tileOpen s x.tile then false
  else match loadBlock s x.tile x.block, threadOf s x.thread with
    | .ok b, some t =>
      !(hasIssued s x b) && ((x.waits.any fun w => (b.instrs[w.idx]?).any isSwwait)
        || b.instrs.zipIdx.any (fun (i, idx) => waitsAt s x idx i)
        || (execEnded x b && !(sendsReady s t (x.now s t))))
    | _, _ => false
/-- A permit that a taken token gave back is taken back with the token's return: the REQ in flight, or the producer's request. -/
def unpermit (s : State) (ek : EdgeKey) (last : Bool) : State :=
  if !last then s
  else match s.q.flights.reverse.find? fun f => decide (f.edge = ek) && f.tok.kind = .req with
    | some f => setFlights s (s.q.flights.filter fun g => !(g.id == f.id))
    | none => setReqs s ek (reqCount s ek - 1)
/-- An execution is abandoned: nothing of it commits, and its thread token waits at the entry of its block again. -/
def abandonExec (s : State) (x : Exec) : State :=
  let s := dropExec s x.id
  let s := { s with ord := { s.ord with nodes := s.ord.nodes.filter fun n =>
    !(decide (n.src = .thread x.thread) && n.pos / 1024 == x.id && decide (n.pos % 1024 < 512)) } }
  let (ord, s) := fresh s
  match threadOf s x.thread with
  | some t => setThread s { t with at_ := .queued ord }
  | none => s
def Launch.execs (l : Launch) (s : State) : List Exec := s.tiles.execs.filter fun x => l.holds x.tile
/-- Tokens taken return to the heads of their queues, the one taken last first. -/
def returnTaken (s : State) (ts : List Taken) : State :=
  (sortBy Taken.order ts).reverse.foldl (fun s k => unpermit (setBuffers s (⟨k.edge, k.tok, k.last, k.bad⟩ :: s.q.buffers)) k.edge k.last) s
def abandonAll (s : State) (l : Launch) : State :=
  let xs := (l.execs s).filter (abandoned s)
  returnTaken (xs.foldl abandonExec s) (xs.flatMap (·.taken))

/-! ### GATE and the pre-emption deadline -/

/-- The sources of a launch are gated and it enters DRAINING: its segments are squashed, and waiting executions are abandoned; ports
and tiles look at the mark themselves. -/
def gateLaunch (s : State) (l : Launch) (atStep : Bool) : State :=
  let s := squashWhere s fun t => decide (t.launch = l.key)
  let s := enterState s { l with gated := some s.ctl.clock, atStep := atStep } .draining
  abandonAll s l
/-- GATE: a requested launch is gated. -/
def execGate (s : State) : Out :=
  match s.ctl.focus with
  | .subject (.launch lk) =>
    match launchOf s lk with
    | some l => if controlFree s lk.part && gateDue s l then roomed s (gateLaunch s l (l.module.bind (·.step)).isSome) else stay s
    | none => stay s
  | _ => stay s
/-- PREEMPTION_DEADLINE: a pre-empted launch with `.step` that met no step boundary in time is gated now. -/
def execPreemptionDeadline (s : State) : Out :=
  match s.ctl.focus with
  | .subject (.launch lk) =>
    match launchOf s lk with
    | some l =>
      let late := match l.preempt with | some t => decide (t + pdeadlineClocks s lk.part ≤ s.ctl.clock) | none => false
      if controlFree s lk.part && l.state = .running && l.gated.isNone && (l.module.bind (·.step)).isSome && late then roomed s (gateLaunch s l false)
      else stay s
    | none => stay s
  | _ => stay s

/-! ### When the drain has come to rest (R331) -/

/-- A pattern that stays stalled on a page, or waits behind one. -/
def parked (s : State) (c : Command) : Bool :=
  isPattern c.op && !c.ended && (c.stalled.isSome
    || (s.eng.commands.takeWhile fun d => d.id != c.id).any fun d => d.eng == c.eng && isPattern d.op && d.stalled.isSome)
def Launch.commands (l : Launch) (s : State) : List Command := s.eng.commands.filter fun c => decide (c.launch = l.key)
/-- No token in any buffer, store, pile or burst buffer; no firing, pass or execution in flight; every pattern run to its end but
those that are parked. -/
def atRest (s : State) (l : Launch) : Bool :=
  let keep := ((l.commands s).filter (parked s)).map (·.node)
  !tokensHeld s l && !(s.q.ends.any fun e => l.holds e.vpe)
    && !(s.firings.any fun f => decide (f.launch = l.key)) && (l.execs s).isEmpty
    && !(s.eng.islands.any fun (k, i) => l.holds k && (i.ending || i.tiles.any fun t => t.draining || !t.enders.isEmpty))
    && (l.commands s).all (parked s)
    && !(s.ord.nodes.any fun n => srcOf l.key n && n.at_ != .acked && !keep.contains n.id)
    && !(s.host.rests.any fun r => decide (r.launch = l.key)) && !claimsOpen s l
/-- The drain's steps 4 and 5 but for the stash: at rest, and every count applied at the landing. -/
def drained (s : State) (l : Launch) : Bool := l.state = .draining && atRest s l && !countsMoving s l.key

/-- The dirty stash sectors of a launch's stands, in its context. -/
def Launch.dirty (l : Launch) (s : State) : List ScratchKey := l.stands.flatMap fun st => dirtySectors s st l.ctx
/-- The pages of parked patterns: their dies, partitions, pages. -/
def parkedPages (s : State) (l : Launch) : List (Nat × Nat × Nat) :=
  (l.commands s).filterMap fun c => c.stalled.map fun p => (dieOf c.eng.stand, c.launch.part, pageOf p)
def openIn (ps : List (Nat × Nat × Nat)) (o : OpenFault) : Bool := ps.contains (o.die, o.part, o.page)
/-- The fault-deadline clocks of those pages stand at what they had run when the sources were gated. -/
def stopClocks (s : State) (l : Launch) : State :=
  let ps := parkedPages s l
  let g := l.gated.getD s.ctl.clock
  setMem s { s.mem with opens := updIf s.mem.opens (fun (o : OpenFault) => openIn ps o && o.stopped.isNone) fun o => { o with stopped := some (g - o.since) } }
/-- They run on from there. -/
def startClocks (s : State) (ps : List (Nat × Nat × Nat)) : State :=
  setMem s { s.mem with opens := updIf s.mem.opens (openIn ps) fun (o : OpenFault) => match o.stopped with
    | some n => { o with since := s.ctl.clock - n, stopped := none }
    | none => o }

/-! ### Which code reaches a region (R332) -/

/-- The scratch of the SCEs beside a VPE (R107). -/
def besideRanges (k : EKey) : List (Nat × Nat) := (List.range 4).filterMap fun d => (sceBeside k.elem d).map fun c => (65536 * c, 65536)
/-- The range of a lane access: its offset alone where its address is the zero source, else anything beside the VPE. -/
def laneRanges (k : EKey) (w : SWord) (bits : Nat) : List (Nat × Nat) :=
  match w.a with
  | .zero => [(((BitVec.ofNat bits w.imm.toNat).signExtend 64 : Word).toNat % 2 ^ 20, 4)]
  | _ => besideRanges k
/-- The slots of the ring that a stage names. -/
def ringRanges (s : State) (k : EKey) (w : SWord) : List (Nat × Nat) :=
  match sceBeside k.elem (ringSide w) with
  | some c =>
    let sk : EKey := ⟨k.stand, 0x10 + c, k.ctx⟩
    let h := handleOf s sk (field w.imm 0 4).toNat
    [(slotAddr sk h 0, 64 * h.size)]
  | none => []
/-- Scratch that a stage operation may reach, whatever its lanes hold. -/
def stageRanges (s : State) (k : EKey) (i : Instr) : List (Nat × Nat) :=
  match i with
  | .sld w | .sst w => laneRanges k w 16
  | .samo w => laneRanges k w 15
  | .ldh w | .sth w => ringRanges s k w
  | .nfastep _ | .nfamsk _ | .exitq _ => besideRanges k
  | _ => []
/-- The sync word a record names. -/
def syncRanges (r : List Byte) : List (Nat × Nat) := match syncOf r with | some a => [(a, 8)] | none => []
/-- Scratch that an engine command's record names beside its own row: a copy's ends, a plane's slot, a pattern's index list and data, sync
words. -/
def recordRanges (i : Instr) (r : List Byte) : List (Nat × Nat) :=
  match i with
  | .cpy _ => match copyOf r with
    | some c => (if c.srcScratch then [(c.src.toNat, c.bytes)] else []) ++ (if c.dstScratch then [(c.dst.toNat, c.bytes)] else []) ++ syncRanges r
    | none => []
  | .plane _ => match planeOf r with | some p => (p.slot, 12288) :: syncRanges r | none => []
  | i => if !isPattern i then [] else match patOf i r with
    | some p => (if usesIndex i then [(p.idx, 4 * getAt p.counts (p.counts.length - 1) 0)] else [])
        ++ (if writesMem i then [(p.src, p.total * p.esize)] else []) ++ syncRanges r
    | none => syncRanges r
/-- Scratch that a block instruction may reach. An address that comes from a register may be any of the stand's; a command's record is
read as it stands. -/
def blockRanges (s : State) (k : EKey) (i : Instr) : List (Nat × Nat) :=
  let pa := enginePa i
  match i with
  | .sldBlock _ | .sstBlock _ | .samoBlock _ | .swset _ | .swwait _ => [(0, 2 ^ 20)]
  | .kvst _ | .kvstFin _ | .kvld _ => [(0, 2 ^ 20)]
  | .tilef _ | .mxrd _ => (imageParts s ⟨k.stand, 0x28, k.ctx⟩ pa).map (·.2)
  | .tilee _ | .mxclr _ | .strmStop _ | .strmPos _ => []
  | i => if (eform i).isSome then (pa, 64) :: recordRanges i (scratchRead s k.stand pa 64) else []
/-- The instructions a tile context has loaded for a block node. -/
def loadedInstrs (s : State) (n : NodeRec) (k : EKey) : List Instr :=
  (codeBlocks n.code.length 0 ((List.range n.code.length).map (imemWord s k))).flatMap (·.2)
/-- Nodes of a launch on a stand whose code reaches the region that holds a scratch address (R332). The code says what it reaches, not the
values it meets: an address that a register or a lane gives may be any that the element can name (DEDUCED, log entry 133). -/
def reaches (s : State) (l : Launch) (k : ScratchKey) : List Nat :=
  match regionOf s k.stand l.ctx k.addr 64 with
  | none => []
  | some (_, r) =>
    let lo := (regionBase k.stand k.addr r).addr
    let meets := fun (x : Nat × Nat) => x.2 != 0 && decide (x.1 < lo + 64 * r.size) && decide (lo < x.1 + x.2)
    l.placed.filterMap fun p =>
      if p.at_.stand != k.stand then none
      else match l.nodeRec p.node with
        | none => none
        | some n =>
          let rs := match n.kind with
            | .stage => n.allInstrs.flatMap (stageRanges s p.at_)
            | .block => (loadedInstrs s n p.at_).flatMap (blockRanges s p.at_)
            | _ => []
          if rs.any meets then some p.node else none
/-- What writing back the dirty sectors of a draining launch came to: all done, or one that waits for a page (R332). -/
def drainStash (s : State) (l : Launch) : List ScratchKey → State × Bool
  | [] => (s, true)
  | k :: ks =>
    match stashWriteBack s l.ctx k with
    | .done s => drainStash s l ks
    | .notPresent s va =>
      (noteNotPresent s (dieOf k.stand) k.stand (0x10 + sceOf k.addr) l.ctx l.key.part l.key.launch 0 va.toNat, false)
    | .permission s va =>
      let s := saveRecord s ⟨k.stand, 0x10 + sceOf k.addr, l.ctx⟩ va k.addr
      let from_ := reaches s l k
      let p : PoisonInfo := ⟨pSAVE, k.stand, BitVec.ofNat 8 (0x10 + sceOf k.addr), BitVec.ofNat 32 k.addr⟩
      let s := match from_ with
        | [] => s
        | n :: _ => record (sealNodes s l (reachedFrom (moduleEdges s l.key) from_) 0 pSAVE true) (containRec s l ⟨l.key, n, 0, p⟩)
      drainStash s ((launchOf s l.key).getD l) ks

/-! ### A pre-emption that fails (R334) -/

/-- A PREEMPT record from launch control, with the save-area offset reached. -/
def preemptRec (s : State) (l : Launch) (code offset : Nat) : FaultRec :=
  { simpleRec s l.key.part 7 code (64 * landingDie s l.key.part) 0xFD l.ctx l.key.launch 0 0 with
    extra := leBytes 8 offset ++ List.replicate 16 0 }
/-- The launch returns to RUNNING, ungated, with every piece of state as it stands; one that a KILL waits for is FAILED instead. -/
def ungate (s : State) (l : Launch) (code offset : Nat) : State :=
  let s := record s (preemptRec s l code offset)
  if l.killed then finishLaunch s l.key .failed
  else
    let s := startClocks (stopClocks s l) (parkedPages s l)
    let at_ := (l.module.bind (·.step)).bind fun k => stepBoundary s l k
    enterState s { l with gated := none, preempt := none, preemptCode := code, tried := if l.reshape then at_ else none } .running
/-- DRAIN_DEADLINE: the drain has not come to rest within the pre-emption deadline. -/
def execDrainDeadline (s : State) : Out :=
  match s.ctl.focus with
  | .subject (.launch lk) =>
    match launchOf s lk with
    | some l =>
      let late := match l.gated with | some t => decide (t + pdeadlineClocks s lk.part ≤ s.ctl.clock) | none => false
      if controlFree s lk.part && l.state = .draining && late && !(drained s l && (l.dirty s).isEmpty) then .next (ungate s l 1 0) else stay s
    | none => stay s
  | _ => stay s

end Sys2Proof.Machine
end

