-- ==== Sys2Proof/Machine/EngineExec.lean ====
section
/-! DEFINITION. The engine commands as block instructions (R286): each issues one memory node on its path; ENGINE_ACCEPT takes it
from there. -/

namespace Sys2Proof.Machine

/-- An engine command issues: a node enters the issue queue of its path, and the execution waits for it. A segment waits
(R278, R286). -/
def engineFire (i : Instr) (s : State) : Out :=
  match blockEnv s i with
  | none => stay s
  | some e =>
    if e.th.speculative then stay s
    else
      let path := (pathOf i).getD .st
      let (s, id) := addNode s (.thread e.th.uid) e.x.tile e.th.launch path (posOf e.x.id e.idx false) (.engine i [] e.a64 e.b64)
        .plain .pkg e.epoch
      .next (setExec s { e.mark e.x with waits := e.x.waits ++ [⟨e.idx, [id]⟩], bound := true })

/-- R290. -/
def execStrmLd (w : EWord) (s : State) : Out := engineFire (.strmLd w) s
/-- R290. -/
def execStrmSt (w : EWord) (s : State) : Out := engineFire (.strmSt w) s
/-- R290. -/
def execStrmGth (w : EWord) (s : State) : Out := engineFire (.strmGth w) s
/-- R290. -/
def execStrmSct (w : EWord) (s : State) : Out := engineFire (.strmSct w) s
/-- R290, R292. -/
def execStrmWin (w : EWord) (s : State) : Out := engineFire (.strmWin w) s
/-- R294. -/
def execStrmStop (w : EWord) (s : State) : Out := engineFire (.strmStop w) s
/-- R294. -/
def execStrmPos (w : EWord) (s : State) : Out := engineFire (.strmPos w) s
/-- R295. -/
def execCpy (w : EWord) (s : State) : Out := engineFire (.cpy w) s
/-- R296. -/
def execPlane (w : EWord) (s : State) : Out := engineFire (.plane w) s
/-- R300. -/
def execTilef (w : EWord) (s : State) : Out := engineFire (.tilef w) s
/-- R300. -/
def execTilee (w : EWord) (s : State) : Out := engineFire (.tilee w) s
/-- R300. -/
def execMxrd (w : EWord) (s : State) : Out := engineFire (.mxrd w) s
/-- R300. -/
def execMxclr (w : EWord) (s : State) : Out := engineFire (.mxclr w) s
/-- R304. -/
def execXrslot (w : EWord) (s : State) : Out := engineFire (.xrslot w) s
/-- R305. -/
def execXred (w : EWord) (s : State) : Out := engineFire (.xred w) s
/-- R306. -/
def execXrwait (w : EWord) (s : State) : Out := engineFire (.xrwait w) s
/-- R301. -/
def execRnsum (w : EWord) (s : State) : Out := engineFire (.rnsum w) s
/-- R301. -/
def execRnmax (w : EWord) (s : State) : Out := engineFire (.rnmax w) s
/-- R312. -/
def execKvst (w : EWord) (s : State) : Out := engineFire (.kvst w) s
/-- R312. -/
def execKvstFin (w : EWord) (s : State) : Out := engineFire (.kvstFin w) s
/-- R313, R314. -/
def execKvld (w : EWord) (s : State) : Out := engineFire (.kvld w) s
/-- R315. -/
def execKvalloc (w : EWord) (s : State) : Out := engineFire (.kvalloc w) s
/-- R315. -/
def execKvfree (w : EWord) (s : State) : Out := engineFire (.kvfree w) s
/-- R316. -/
def execBfq (w : EWord) (s : State) : Out := engineFire (.bfq w) s
/-- R317. -/
def execBfwait (w : EWord) (s : State) : Out := engineFire (.bfwait w) s

end Sys2Proof.Machine
end

