-- ==== Sys2Proof/Machine/Save.lean ====
section
/-! DEFINITION. The save image (R333): its parts as bytes, the order in which it is written, what a restore puts back (R335). -/

namespace Sys2Proof.Machine

/-! ### Parts (R333) -/

/-- A part of an image before it has its place. -/
structure ImgPart where
  typ : Nat
  stand : Nat
  elem : Nat
  ctx : Nat
  entries : Nat
  body : List Byte
deriving DecidableEq, Repr
def padTo (n : Nat) (bs : List Byte) : List Byte := bs ++ List.replicate ((n - bs.length % n) % n) 0
/-- Header and body of a part. -/
def ImgPart.bytes (p : ImgPart) : List Byte :=
  leBytes 2 p.typ ++ leBytes 2 p.stand ++ leBytes 1 p.elem ++ leBytes 1 p.ctx ++ leBytes 2 0 ++ leBytes 4 p.body.length ++ leBytes 4 p.entries ++ p.body
def ImgPart.entry (p : ImgPart) (off : Nat) : List Byte :=
  leBytes 2 p.typ ++ leBytes 2 p.stand ++ leBytes 1 p.elem ++ leBytes 1 p.ctx ++ leBytes 2 0 ++ leBytes 4 (off / 64) ++ leBytes 4 p.bytes.length

/-- A saved count, in the layout of R160. -/
def deltaBytes (d : Delta) : List Byte :=
  leBytes 8 d.tag.toNat ++ leBytes 2 d.loc ++ leBytes 2 0 ++ leBytes 4 (BitVec.ofInt 32 d.d).toNat
/-- A frontier record, in the layout of R169. -/
def recordBytes (r : FRecord) : List Byte :=
  leBytes 8 (2 ^ r.tags.length - 1 + (if r.coll then 256 else 0) + (if r.empty then 512 else 0))
    ++ (List.range 8).flatMap fun i => leBytes 8 (getAt r.tags i 0).toNat
def leLane (x : Lane) : List Byte := leBytes 4 x.toNat
/-- R333, type 5. -/
def lanesBody (r : LaneRegs) (seal_ : Bool) : List Byte :=
  r.l.toList.flatMap lanesBytes ++ (r.m.toList.flatMap fun m => leBytes 2 m.toNat) ++ leBytes 8 (if seal_ then 1 else 0)
/-- R333, type 6. -/
def islandBody (i : Island) : List Byte :=
  leBytes 4 i.n ++ leBytes 1 i.acc ++ leBytes 1 i.cur ++ leBytes 2 0
    ++ (i.tiles.filter (·.bound)).flatMap fun d => d.acc.flatMap leLane ++ leBytes 8 d.tag.toNat
/-- R333, type 7: `cs` are a streamer context's patterns, the running one first. -/
def streamBody (cs : List Command) : List Byte :=
  let st := match cs.head? with | none => 0 | some c => if c.stalled.isSome then 2 else 1
  leBytes 4 ((cs.head?.map Command.delivered).getD 0) ++ leBytes 1 st ++ leBytes 3 0 ++ cs.flatMap fun c => (padTo 64 c.rec_).take 64
/-- R333, type 8. -/
def threadBytes (t : Thread) : List Byte :=
  let live := (List.range 3).foldl (fun n i => n + if getAt t.lc i 0 = 0 then 0 else 2 ^ i) 0
  leBytes 2 t.frame ++ leBytes 2 t.block ++ leBytes 4 live ++ leBytes 8 t.tag.toNat ++ t.lc.flatMap leLane ++ t.g.flatMap fun g => leBytes 8 g.toNat
/-- An island's merged counts, behind the shadows of its stand (R192; log entry 40). -/
def mxCountBytes (x : EKey × Nat × Nat) : List Byte := leBytes 4 x.2.1 ++ leBytes 4 x.2.2
/-- R333, type 11; a shadow as epoch, in-use mark and flags, and the sums of its counts (the layout of a shadow is log entry 40's). -/
def shadowBytes (h : Option Shadow) : List Byte :=
  match h with
  | none => List.replicate 16 0
  | some h => leBytes 4 h.epoch ++ leBytes 4 (2 ^ 31 + h.fl.toNat) ++ leBytes 4 ((h.nans.map (·.2)).foldl (· + ·) 0)
      ++ leBytes 4 ((h.overs.map (·.2)).foldl (· + ·) 0)
def exBytes (x : ExGroup) : List Byte := leBytes 8 (x.gen.toNat * 2 ^ 48 + x.expect * 2 ^ 32 + x.arrived.length * 2 ^ 16)

/-- The parts of an image, in type order; a part with nothing to hold is not written (R336). -/
def Image.parts (im : Image) (s : State) (l : Launch) : List ImgPart :=
  let hub := 64 * landingDie s l.key.part
  let c := l.ctx
  let one := fun (typ n : Nat) (body : List Byte) => if n = 0 then [] else [(⟨typ, hub, 0xFE, c, n, body⟩ : ImgPart)]
  let at_ := fun (typ : Nat) (k : EKey) (n : Nat) (body : List Byte) => (⟨typ, k.stand, k.elem, c, n, body⟩ : ImgPart)
  let standsOn := (im.fpm.map (·.1)).dedup
  one 1 im.counts.length (im.counts.flatMap deltaBytes)
    ++ one 2 im.records.length (im.records.flatMap fun r => leBytes 2 r.loc ++ leBytes 6 0 ++ recordBytes r)
    ++ one 3 (im.requests.filter fun r => !r.delivered).length ((im.requests.filter fun r => !r.delivered).flatMap fun r => leBytes 2 r.loc ++ leBytes 2 r.edge ++ leBytes 4 0 ++ leBytes 8 r.tag.toNat)
    ++ ((im.sites.map (·.1)).dedup.map fun d => (⟨4, 64 * d, 0xFE, c, 256, (List.range 256).flatMap fun i =>
        leBytes 2 (((im.sites.find? fun x => x.1 == d && x.2.1 == i).map (·.2.2)).getD 128)⟩ : ImgPart))
    ++ (im.lanes.map fun (k, r) => at_ 5 k 1 (lanesBody r (im.sealed.contains k)))
    ++ (im.islands.map fun (k, i) => at_ 6 k (i.tiles.filter (·.bound)).length (islandBody i))
    ++ ((im.streams.map (·.eng)).dedup.map fun k =>
        let cs := im.streams.filter fun x => x.eng == k
        at_ 7 k cs.length (streamBody cs))
    ++ ((im.threads.map (·.tile)).dedup.map fun k =>
        let ts := im.threads.filter fun t => t.tile = k
        at_ 8 k ts.length (ts.flatMap threadBytes))
    ++ (im.dregs.map fun (k, ds) => at_ 9 k 16 (ds.flatMap dirImage))
    ++ (im.handles.zipIdx.map fun ((k, hs), i) => at_ 10 k 16 ((hs.flatMap fun h => leBytes 8 h.image.toNat)
        ++ ((im.rings.filter fun x => x.1 / 16 == i).flatMap (·.2))))
    ++ (standsOn.map fun st =>
        let v := fun (xs : List (Nat × Nat × Lane)) => ((xs.find? fun x => x.1 == st).map (·.2.2)).getD 0
        let hs := im.shadows.filter fun h => h.stand == st
        at_ 11 ⟨st, 0, c⟩ 1 (leLane (v im.fpm) ++ leLane (v im.fpf)
          ++ leBytes 8 (((im.lclk.find? fun x => x.1 == st).map (·.2.2)).getD 0) ++ ((List.range 8).flatMap fun i => shadowBytes hs[i]?)
          ++ (im.mxCounts.filter fun x => x.1.stand == st).flatMap mxCountBytes))
    ++ one 12 im.reqs.length (im.reqs.flatMap fun (e, n) => leBytes 4 n ++ leBytes 4 e.edge)
    ++ (if im.ex.expect = 0 then [] else one 13 1 (exBytes im.ex))
    ++ (im.stops.flatMap fun (p, set_, held) => one 14 1 (leBytes 2 p ++ leBytes 2 held.length ++ leBytes 4 set_.length
          ++ set_.flatMap (leBytes 2) ++ held))
    ++ one 15 im.epochs.length (im.epochs.flatMap fun (_, e) => leBytes 4 e ++ leBytes 4 0)

/-! ### The image as bytes -/

def imageMagic : Nat := 0x5A4B5356
/-- Part directory entries and the parts at their offsets. -/
def layParts : Nat → List ImgPart → List Byte × List Byte
  | _, [] => ([], [])
  | off, p :: ps =>
    let bs := padTo 64 p.bytes
    let (d, b) := layParts (off + bs.length) ps
    (p.entry off ++ d, bs ++ b)
/-- The image from offset 0x050 on: what the digest covers begins at 0x080. -/
def Image.body (im : Image) (ps : List ImgPart) : List Byte :=
  let n := 0x100 + 16 * ps.length
  let first := (n + 4095) / 4096 * 4096
  let (dir, bodies) := layParts first ps
  List.replicate 48 0 ++ leBytes 64 im.digest.toNat ++ gridDescriptor im.dies ++ leBytes 4 ps.length ++ List.replicate 44 0
    ++ dir ++ List.replicate (first - n) 0 ++ bodies
def imageDigest (body : List Byte) : List Byte := leBytes 64 (sha3 (body.drop 48)).toNat
def commitWord (gen : Nat) : List Byte := leBytes 4 imageMagic ++ leBytes 4 gen
/-- The whole image. -/
def Image.bytes (im : Image) (s : State) (l : Launch) : List Byte :=
  let b := im.body (im.parts s l)
  commitWord im.gen ++ leBytes 8 (0x50 + b.length) ++ imageDigest b ++ b

/-- Bytes written at an offset of the save area, a sector at a time; writing stops at the first fault, with its code and offset: 3
past the area's end, 2 at a page that is not present or not writable (R334). -/
def writeArea (s : State) (l : Launch) (off : Nat) (bs : List Byte) : State × Option (Nat × Nat) :=
  (pieces 64 (bs.length / 32 + 2) (l.saveAddr + off) 0 bs.length).foldl (fun (acc : State × Option (Nat × Nat)) (o, k) =>
    match acc with
    | (s, some e) => (s, some e)
    | (s, none) =>
      if l.saveKB * 1024 < off + o + k then (s, some (3, off + o))
      else match translate s (64 * landingDie s l.key.part) l.key.part (BitVec.ofNat 64 (l.saveAddr + off + o)) false true with
        | (s, .ok x) => ((homeWrite s l.key.part x.key x.dpa 0 ((bs.drop o).take k) ⟨0xFF, 0⟩).1, none)
        | (s, _) => (s, some (2, off + o))) (s, none)
/-- Writes in order, each only when those before it succeeded. -/
def writeSteps (l : Launch) (s : State) : List (Nat × List Byte) → State × Option (Nat × Nat)
  | [] => (s, none)
  | (off, bs) :: rest =>
    match writeArea s l off bs with
    | (s, none) => writeSteps l s rest
    | x => x
/-- The generation that the save area holds; 0 without a valid image. -/
def areaGen (s : State) (l : Launch) : Nat :=
  match peekVa s l.key.part l.saveAddr 8 with
  | some bs => if recNat bs 0 4 = imageMagic then recNat bs 4 4 else 0
  | none => 0
/-- The image written in the order of R333: commit word 0, everything else, length and digest, the commit word. -/
def writeImage (s : State) (l : Launch) (bs : List Byte) : State × Option (Nat × Nat) :=
  writeSteps l s [(0, leBytes 8 0), (0x50, bs.drop 0x50), (8, (bs.drop 8).take 72), (0, bs.take 8)]

/-! ### What is saved, and what stands in a SAVED launch (R177, R333) -/

def isSpawn : Instr → Bool
  | .spawnp _ => true | _ => false
/-- The bytes of a ring's filled slots, from the head. -/
def ringBytes (s : State) (k : EKey) (h : Handle) : List Byte :=
  (List.range h.fill).flatMap fun i => scratchRead s k.stand (slotAddr k h (offOf (advance h.size h.head i))) 64
/-- A thread token's place in its queue. -/
def Thread.place (t : Thread) : Nat := match t.at_ with | .queued o => o | .noFrame o => o | _ => 0
/-- A pattern as it is saved: what it delivered stands, its run-ahead is fetched again. -/
def Command.saved (c : Command) : Command :=
  if hasOutput c.op then { c with got := [], todo := [] } else c
def imageNow (s : State) (l : Launch) (m : Module) (r : MapResult) : Image :=
  let x := (landingOf s l.key).getD ⟨l.key, [], [], [], [], []⟩
  let mine := fun (st c : Nat) => l.stands.contains st && c == l.ctx
  let sces := l.stands.flatMap fun st => ((List.range 16).map fun i => (⟨st, 0x10 + i, l.ctx⟩ : EKey)).filter fun k =>
    (sceCfg s k).handles.any fun h => h.size != 0
  let ports := l.ingressPorts.map fun p => (p, (ingressAt s ⟨l.key.part, p⟩).epoch)
  { launch := l.key, gen := areaGen s l + 1, place := r, digest := m.digest, dies := l.dies
    counts := x.counts, records := x.records, requests := x.requests
    sites := if m.instrs.any isSpawn then (diesOf l.dies).flatMap fun d => (List.range 256).map fun i => (d, i, siteCode s l.key d i) else []
    lanes := (l.placed.filter fun p => isVpe p.at_.elem).map fun p => (p.at_, laneRegs s p.at_)
    islands := s.eng.islands.filter fun (k, i) => l.holds k && (i.n != 0 || i.cur != 0 || i.acc != 0 || i.tiles.any (·.bound))
    streams := (l.commands s).map Command.saved
    threads := sortBy Thread.place (s.tiles.threads.filter fun t => t.launch = l.key)
    dregs := s.tiles.dregs.filter fun x => l.holds x.1
    handles := sces.map fun k => (k, (sceCfg s k).handles)
    rings := sces.zipIdx.flatMap fun (k, i) => (sceCfg s k).handles.zipIdx.map fun (h, j) => (16 * i + j, ringBytes s k h)
    fpm := l.stands.map fun st => (st, l.ctx, fpmOf s st l.ctx)
    fpf := l.stands.map fun st => (st, l.ctx, fpfOf s st l.ctx)
    lclk := l.stands.map fun st => (st, l.ctx, lclkOf s st l.ctx)
    shadows := s.fr.shadows.filter fun h => mine h.stand h.ctx
    mxCounts := s.fr.mxCounts.filter fun x => l.holds x.1
    reqs := s.q.reqs.filter fun x => ofLaunch l.key x.1
    sealed := (l.placed.filter fun p => isVpe p.at_.elem && sealedAt s p.at_).map (·.at_)
    stops := (l.egressPorts.filter fun p => (egressAt s ⟨l.key.part, p⟩).checks).map fun p =>
      (p, (egressAt s ⟨l.key.part, p⟩).set_, (egressAt s ⟨l.key.part, p⟩).held.map (·.1))
    ex := l.ex, epochs := ports, written := [] }
/-- A launch's elements are free once its image is committed. The skidder's queue stays in memory, as do the nodes of parked patterns,
which are acknowledged after the restore. -/
def parkLaunch (s : State) (l : Launch) : State :=
  let keep := (l.commands s).map (·.node)
  let nodes := s.ord.nodes.filter fun n => keep.contains n.id
  let bf := s.eng.backfill.filter fun e => decide (e.launch = l.key)
  let s := clearLaunch (withL1 s (s.mem.l1.filter fun c => !(l.stands.contains c.stand && c.part == l.key.part))) l
  { s with ord := { s.ord with nodes := s.ord.nodes ++ nodes }, eng := { s.eng with backfill := s.eng.backfill ++ bf } }
/-- The save of a drained launch (R333); a fault ends it (R334). -/
def saveLaunch (s : State) (l : Launch) : State :=
  match l.module, l.place with
  | some m, some r =>
    let im := imageNow s l m r
    let im := { im with written := im.bytes s l }
    match writeImage s l im.written with
    | (s, some (code, off)) => ungate s l code off
    | (s, none) =>
      let s := parkLaunch (stopClocks s l) l
      let s := { s with la := { s.la with images := (s.la.images.filter fun i => i.launch != l.key) ++ [im] } }
      enterState s { l with gated := none, preempt := none, preemptCode := 0, tried := none, resumed := false,
                            byPreempt := l.preempt.isSome } .saved
  | _, _ => s
/-- DRAIN_QUIESCENT: executions that have come to wait are abandoned (R285); once all is at rest, dirty stash sectors are written back and
the image is written. A launch that a KILL waits for is FAILED instead (R341). -/
def execDrainQuiescent (s : State) : Out :=
  match s.ctl.focus with
  | .subject (.launch lk) =>
    match launchOf s lk with
    | some l =>
      if l.state != .draining || !controlFree s lk.part then stay s
      else if (l.execs s).any (abandoned s) then .next (abandonAll s l)
      else if !drained s l then stay s
      else if l.killed then .next (finishLaunch s lk .failed)
      else
        let ks := l.dirty s
        let held := ks.any fun k => match regionOf s k.stand l.ctx k.addr 64 with
          | some (_, r) => pageHeld s (dieOf k.stand) lk.part (stashVa k.stand k.addr r).toNat
          | none => false
        if held then stay s
        else match drainStash s l ks with
          | (s, false) => .next s
          | (s, true) => match launchOf s lk with
            | some l => if drained s l then .next (saveLaunch s l) else .next s
            | none => .next s
    | none => stay s
  | _ => stay s

/-! ### An image read back (R333, R335) -/

/-- Records of n bytes. -/
def cut (n : Nat) (bs : List Byte) : List (List Byte) := (List.range (bs.length / n)).map fun i => (bs.drop (n * i)).take n
/-- The part that an entry of the part directory names. -/
def partAt (bs : List Byte) (i : Nat) : ImgPart :=
  let d := 0x100 + 16 * i
  let p := (bs.drop (64 * recNat bs (d + 8) 4)).take (recNat bs (d + 12) 4)
  ⟨recNat bs d 2, recNat bs (d + 2) 2, recNat bs (d + 4) 1, recNat bs (d + 5) 1, recNat p 12 4, (p.drop 16).take (recNat p 8 4)⟩
def partsIn (bs : List Byte) : List ImgPart := (List.range (min (recNat bs 0xD0 4) (bs.length / 16))).map (partAt bs)
def ImgPart.key (p : ImgPart) : EKey := ⟨p.stand, p.elem, p.ctx⟩
def readCount (r : List Byte) : Delta := ⟨recNat r 8 2, BitVec.ofNat 64 (recNat r 0 8), recInt r 12 4⟩
def readRecord (r : List Byte) : FRecord :=
  let f := recNat r 8 8
  let n := ((List.range 8).filter fun i => bitAt (BitVec.ofNat 64 f) i).length
  ⟨recNat r 0 2, (List.range n).map fun i => BitVec.ofNat 64 (recNat r (16 + 8 * i) 8), f / 512 % 2 = 1, f / 256 % 2 = 1⟩
/-- A request; its element is the one that carries the NOTE edge's producer. -/
def readRequest (m : Module) (r : MapResult) (id : Nat) (b : List Byte) : Request :=
  let e := recNat b 2 2
  let vpe := ((m.edges.find? fun x => x.num == e).bind fun x => r.nodes.find? fun p => p.node == x.prod).map (·.at_)
  ⟨id, recNat b 0 2, BitVec.ofNat 64 (recNat b 8 8), e, vpe.getD ⟨0, 0, 0⟩, none, false, false⟩
def readLanes (b : List Byte) : LaneRegs :=
  let l := fun i => leLanes ((b.drop (64 * i)).take 64)
  let m := fun i => BitVec.ofNat 16 (recNat b (256 + 2 * i) 2)
  ⟨⟨l 0, l 1, l 2, l 3⟩, ⟨m 0, m 1, m 2, m 3⟩⟩
/-- A matrix island: `old` says which tiles are bound, where one of the two is; else it is the accumulating one. -/
def readIsland (old : Island) (p : ImgPart) : Island :=
  let ts := cut ((p.body.length - 8) / max 1 p.entries) (p.body.drop 8)
  let acc := recNat p.body 4 1
  let was := (List.range 2).filter fun i => (getAt old.tiles i (DTile.free 0)).bound
  let bound := if was.length = ts.length then was else if ts.length = 1 then [acc] else List.range ts.length
  let free := DTile.free ((ts.head?.map fun t => (t.length - 8) / 128).getD 0)
  let tiles := (List.range 2).map fun i => match bound.idxOf? i with
    | some j =>
      let t := getAt ts j []
      let d := getAt old.tiles i free
      let n := t.length - 8
      { d with bound := true, draining := false, enders := [], tag := BitVec.ofNat 64 (recNat t n 8),
               rows := if d.bound then d.rows else List.replicate 32 true,
               acc := (cut 4 (t.take n)).map fun x => BitVec.ofNat 32 (leNat x) }
    | none => if (getAt old.tiles i free).bound then free else getAt old.tiles i free
  { old with tiles := tiles, n := recNat p.body 0 4, acc := acc, cur := recNat p.body 5 1 }
/-- A pattern goes on from its n-th element. -/
def Command.resumeAt (c : Command) (n : Nat) : Command :=
  if c.delivered = n then c
  else if hasOutput c.op then { c with count := n / c.perTok, got := [], todo := [] }
  else { c with got := (List.range n).flatMap fun i => (List.range 4).map fun k => (4 * i + k, []) }
/-- A streamer's patterns: what no record holds (which command each is, its tag, its node) is the launch's own. -/
def readStreams (old : List Command) (p : ImgPart) : List Command :=
  ((old.filter fun c => c.eng == p.key).zip (cut 64 (p.body.drop 8))).zipIdx.map fun ((c, r), i) =>
    let c := { c with rec_ := r ++ c.rec_.drop 64 }
    if i = 0 then c.resumeAt (recNat p.body 0 4) else c
/-- A tile's thread tokens; what no record holds is the launch's own. -/
def readThreads (old : List Thread) (p : ImgPart) : List Thread :=
  ((old.filter fun t => t.tile = p.key).zip (cut (p.body.length / max 1 p.entries) p.body)).map fun (t, b) =>
    { t with frame := recNat b 0 2, block := recNat b 2 2, tag := BitVec.ofNat 64 (recNat b 8 8)
             lc := (List.range 3).map fun i => if recNat b 4 4 / 2 ^ i % 2 = 1 then BitVec.ofNat 32 (recNat b (16 + 4 * i) 4) else 0
             g := (cut 8 (b.drop 28)).map fun x => BitVec.ofNat 64 (leNat x) }
def readDregs (p : ImgPart) : List Direction :=
  (cut (p.body.length / 16) p.body).map fun b =>
    let n := b.length - 64
    ⟨(cut 2 (b.take n)).map fun x => BitVec.ofNat 16 (leNat x), BitVec.ofNat 32 (recNat b n 4)⟩
def readHandle (b : List Byte) : Handle :=
  let w := leNat b
  ⟨w % 1024, w / 2 ^ 10 % 2 ^ 16, BitVec.ofNat 11 (w / 2 ^ 26), BitVec.ofNat 11 (w / 2 ^ 37)⟩
def readHandles (p : ImgPart) : List Handle := (cut 8 (p.body.take 128)).map readHandle
/-- The filled slots of each ring, which lie one behind another. -/
def readRings (base : Nat) (p : ImgPart) : List (Nat × List Byte) :=
  let hs := readHandles p
  hs.zipIdx.map fun (h, j) =>
    (base + j, (p.body.drop (128 + 64 * ((hs.take j).map Handle.fill).foldl (· + ·) 0)).take (64 * h.fill))
def readShadows (stand ctx : Nat) (b : List Byte) : List Shadow :=
  (cut 16 b).filterMap fun r =>
    let sums := fun (n : Nat) => if n = 0 then [] else [(0x28, n)]
    if recNat r 4 4 / 2 ^ 31 = 0 then none
    else some ⟨stand, ctx, recNat r 0 4, BitVec.ofNat 7 (recNat r 4 4), sums (recNat r 8 4), sums (recNat r 12 4)⟩
def readStop (b : List Byte) : Nat × List Nat × List Byte :=
  let n := recNat b 4 4
  (recNat b 0 2, (List.range n).map fun i => recNat b (8 + 2 * i) 2, (b.drop (8 + 2 * n)).take (recNat b 2 2))
/-- What the parts of an image say, over what its launch itself still holds; new requests are numbered from `id` on. -/
def Image.readFrom (im : Image) (l : Launch) (m : Module) (id : Nat) (bs : List Byte) : Image :=
  let of_ := fun (typ : Nat) => (partsIn bs).filter fun p => p.typ == typ
  let all := fun (typ n : Nat) => (of_ typ).flatMap fun p => cut n p.body
  let hs := (of_ 10).zipIdx
  let sys := fun {α : Type} (f : ImgPart → α) => (of_ 11).map f
  { im with
    counts := (all 1 16).map readCount
    records := (all 2 80).map readRecord
    requests := im.requests.filter (·.delivered) ++ (all 3 16).zipIdx.map fun (b, i) => readRequest m im.place (id + i) b
    sites := (of_ 4).flatMap fun p => (cut 2 p.body).zipIdx.map fun (b, i) => (p.stand / 64, i, leNat b)
    lanes := (of_ 5).map fun p => (p.key, readLanes p.body)
    sealed := ((of_ 5).filter fun p => recNat p.body 264 8 != 0).map ImgPart.key
    islands := (of_ 6).map fun p => (p.key, readIsland (agetD im.islands p.key ⟨[], 0, 0, 0, 0, false⟩) p)
    streams := (of_ 7).flatMap (readStreams im.streams)
    threads := (of_ 8).flatMap (readThreads im.threads)
    dregs := (of_ 9).map fun p => (p.key, readDregs p)
    handles := hs.map fun (p, _) => (p.key, readHandles p)
    rings := hs.flatMap fun (p, i) => readRings (16 * i) p
    fpm := sys fun p => (p.stand, p.ctx, BitVec.ofNat 32 (recNat p.body 0 4))
    fpf := sys fun p => (p.stand, p.ctx, BitVec.ofNat 32 (recNat p.body 4 4))
    lclk := sys fun p => (p.stand, p.ctx, recNat p.body 8 8)
    shadows := (of_ 11).flatMap fun p => readShadows p.stand p.ctx ((p.body.drop 16).take 128)
    mxCounts := (of_ 11).flatMap fun p => (cut 8 (p.body.drop 144)).map fun b => (⟨p.stand, 0x28, p.ctx⟩, recNat b 0 4, recNat b 4 4)
    reqs := (all 12 8).map fun b => (lkEdge im.launch (recNat b 4 4), recNat b 0 4)
    ex := match of_ 13 with
      | p :: _ => { im.ex with gen := BitVec.ofNat 16 (recNat p.body 0 8 / 2 ^ 48), expect := recNat p.body 0 8 / 2 ^ 32 % 2 ^ 16 }
      | [] => im.ex
    stops := (of_ 14).map fun p => readStop p.body
    epochs := l.ingressPorts.zip ((all 15 8).map fun b => recNat b 0 4)
    written := bs }

/-! ### RESTORE (R335) -/

/-- Where an element or a stand of the old grid stands on the new one: with the node that is placed on it. A SCE goes with the first
region it holds. -/
def moveKey (old new : MapResult) (k : EKey) : EKey :=
  if old.nodes = new.nodes && old.ctx = new.ctx && old.regions = new.regions then k
  else if isSce k.elem then
    match (old.regions.find? fun r => r.stand == k.stand && 0x10 + sceOf r.addr == k.elem).bind fun r =>
        new.regions.find? fun q => q.region == r.region with
    | some q => ⟨q.stand, 0x10 + sceOf q.addr, new.ctx⟩
    | none => { k with ctx := new.ctx }
  else match (old.nodes.find? fun p => p.at_.stand == k.stand && p.at_.elem == k.elem).bind fun p =>
      new.nodes.find? fun q => q.node == p.node with
    | some q => q.at_
    | none => { k with ctx := new.ctx }
def moveStand (old new : MapResult) (st : Nat) : Nat :=
  if old.nodes = new.nodes then st
  else match (old.nodes.find? fun p => p.at_.stand == st).bind fun p => new.nodes.find? fun q => q.node == p.node with
    | some q => q.at_.stand
    | none => st
/-- Head and tail of each ring, and its filled slots, at the handles the new stream configures. -/
def restoreRings (s : State) (im : Image) (mv : EKey → EKey) : State :=
  im.handles.zipIdx.foldl (fun s x =>
    let k := mv x.1.1
    x.1.2.zipIdx.foldl (fun s y =>
      let h := { handleOf s k y.2 with head := y.1.head, tail := y.1.tail }
      let s := setHandle s k y.2 h
      let bs := ((im.rings.find? fun z => z.1 == 16 * x.2 + y.2).map (·.2)).getD []
      (List.range h.fill).foldl (fun s i =>
        scratchWrite s k.stand (slotAddr k h (offOf (advance h.size h.head i))) ((bs.drop (64 * i)).take 64)) s) s) s
/-- The image's parts put back in type order on the launch's new grid, landing and frontier first. -/
def loadImage (s : State) (l : Launch) (m : Module) (r : MapResult) (im : Image) : State :=
  let mk := moveKey im.place r
  let ms := moveStand im.place r
  let c := l.ctx
  let land : Landing := ⟨l.key, im.counts, (summariesOf m r).getD [], im.records, im.requests.map fun (q : Request) => { q with vpe := mk q.vpe }, []⟩
  let s := setFront s { s.fr with landings := (s.fr.landings.filter fun x => x.launch != l.key) ++ [land] }
  let s := loadContexts s l m r true
  let count := (im.sites.map (·.1)).dedup
  let s := if m.instrs.any isSpawn then (diesOf l.dies).zipIdx.foldl (fun s (d, i) =>
      let from_ := getAt count (min i (count.length - 1)) 0
      (im.sites.filter fun x => x.1 == from_).foldl (fun s x => setSite s l.key d x.2.1 x.2.2) s) s else s
  let s := im.lanes.foldl (fun s (k, v) => setLaneRegs s (mk k) v) s
  let s := im.islands.foldl (fun s (k, i) => setIsland s (mk k) i) s
  let s := { s with
    eng := { s.eng with commands := s.eng.commands ++ im.streams.map fun (x : Command) => { x with eng := mk x.eng, stalled := none } }
    ord := { s.ord with nodes := updIf s.ord.nodes (fun n => im.streams.any fun x => x.node == n.id) fun n => { n with key := mk n.key } }
    tiles := { s.tiles with
      threads := s.tiles.threads ++ im.threads.map fun (t : Thread) => { t with tile := mk t.tile }
      dregs := s.tiles.dregs ++ im.dregs.map fun (k, v) => (mk k, v) } }
  let s := restoreRings s im mk
  let s := im.fpm.foldl (fun s (st, _, v) => setFpm s (ms st) c v) s
  let s := im.fpf.foldl (fun s (st, _, v) => setFpf s (ms st) c v) s
  let s := im.lclk.foldl (fun s (st, _, v) => setLclk s (ms st) c v) s
  let s := setShadows s (s.fr.shadows ++ im.shadows.map fun (h : Shadow) => { h with stand := ms h.stand, ctx := c })
  let s := setFront s { s.fr with mxCounts := s.fr.mxCounts ++ im.mxCounts.map fun x => (mk x.1, x.2) }
  let s := { s with q := { s.q with reqs := s.q.reqs ++ im.reqs } }
  let s := im.stops.foldl (fun s x =>
    let e := egressAt s ⟨l.key.part, x.1⟩
    setEgress s { e with set_ := x.2.1, held := x.2.2.zipIdx.map fun (b, i) => (b, ((e.held[i]?).map (·.2)).getD 0) }) s
  let s := im.epochs.foldl (fun s x => setIngress s { ingressAt s ⟨l.key.part, x.1⟩ with epoch := x.2 }) s
  let seals := (l.placed.filter fun p => l.sealed.contains p.node && !isVpe p.at_.elem).map (·.at_) ++ im.sealed.map mk
  setHostSide s { s.host with seals := (s.host.seals ++ seals).dedup }
/-- The pages of an image's patterns. -/
def Image.pages (im : Image) : List (Nat × Nat × Nat) := im.streams.filterMap fun c => c.stalled.map fun p => (dieOf c.eng.stand, c.launch.part, pageOf p)
/-- Bytes of the save area, a page at a time: what they are, or the offset at which a page is not present or not readable. -/
def readArea (s : State) (l : Launch) (n : Nat) : Except Nat (List Byte) :=
  (pieces 65536 (n / 65536 + 2) l.saveAddr 0 n).foldl (fun (acc : Except Nat (List Byte)) (o, k) =>
    match acc with
    | .error e => .error e
    | .ok bs => match peekVa s l.key.part (l.saveAddr + o) k with
      | some xs => .ok (bs ++ xs)
      | none => .error o) (.ok [])
/-- Whether bytes are a valid image of a module: commit word, length, module digest, SHA3-512 digest. -/
def imageValid (digest : BitVec 512) (bs : List Byte) : Bool :=
  recNat bs 0 4 == imageMagic && recNat bs 4 4 != 0 && recNat bs 8 8 == bs.length && decide (0x100 ≤ bs.length)
    && BitVec.ofNat 512 (recNat bs 0x80 64) == digest && BitVec.ofNat 512 (recNat bs 0x10 64) == sha3 (bs.drop 0x80)
/-- The image that a launch's save area holds: as long as its header says, within the area. -/
def readImage (s : State) (l : Launch) : Except Nat (List Byte) :=
  match readArea s l 16 with
  | .error o => .error o
  | .ok h => readArea s l (min (max 16 (recNat h 8 8)) (1024 * l.saveKB))
/-- Step 1 and 2 of R335, before anything of the stream is sent: a mismatch escalates, a fault while reading leaves the launch SAVED. -/
def checkImage (s : State) (l : Launch) (m : Module) (im : Image) : Out :=
  match readImage s l with
  | .error o => .next (record (enterState s { l with preemptCode := 2, resumed := false } .saved) (preemptRec s l 2 o))
  | .ok bs =>
    if !imageValid m.digest bs then .next (failLaunch s l.key)
    else
      let images := updIf s.la.images (fun i => decide (i.launch = l.key)) fun _ => { im with written := bs }
      .next (setLaunch { s with la := { s.la with images := images } } { l with checked := true })
/-- Steps 4 to 6, with the granted grid's stream loaded. -/
def restoreImage (s : State) (l : Launch) (m : Module) (r : MapResult) (im : Image) : State :=
  let read := im.readFrom l m s.ctl.nextId im.written
  let s := { s with ctl := { s.ctl with nextId := s.ctl.nextId + read.requests.length } }
  let s := dropImage (startClocks (loadImage s l m r read) im.pages) l.key
  enterState s { l with ex := { l.ex with gen := read.ex.gen }, preemptCode := 0, preempt := l.preempt.map fun _ => s.ctl.clock } .running
/-- RESTORE: the image is read whole and checked; then, once the stream for the granted grid is loaded, what its bytes hold is put back. -/
def execRestore (s : State) : Out :=
  match s.ctl.focus with
  | .subject (.launch lk) =>
    match launchOf s lk, imageOf s lk with
    | some l, some im =>
      match l.module, l.place with
      | some m, some r =>
        if !controlFree s lk.part || l.state != .loading then stay s
        else if !l.checked then checkImage s l m im
        else if !l.todo.isEmpty || !(streamOf s lk).staged.isEmpty then stay s
        else if l.cfgBad then .next (failLaunch (enterState s l .running) lk)
        else .next (restoreImage s l m r im)
      | _, _ => stay s
    | _, _ => stay s
  | _ => stay s

end Sys2Proof.Machine
end

