-- ==== Sys2Proof/Machine/Replay.lean ====
section
/-! DEFINITION. Uncorrected errors (R319): the copies that are dropped, the losses that a replay makes good (R328 to R330), and those
that escalate. -/

namespace Sys2Proof.Machine

/-! ### When a replay is admitted (R328) -/

/-- The oldest epoch that the frontier has not passed at every location of a launch. -/
def oldestEpoch (s : State) (l : Launch) : Option Nat :=
  match landingOf s l.key with
  | some x => minBy id ((x.counts.filter fun c => decide (0 < c.d)).map fun c => tagLevel l.widths c.tag 0)
  | none => none
/-- a ≥ b modulo 2^16, within a window of 2^15. -/
def epochGe (a b : Nat) : Bool := decide ((a % 2 ^ 16 + 2 ^ 16 - b % 2 ^ 16) % 2 ^ 16 < 2 ^ 15)
/-- The launch may be replayed now: nothing in its graph forbids it, and no log has overflowed in an open epoch. -/
def replayableNow (s : State) (l : Launch) : Bool :=
  l.replayable && (l.state = .running || l.state = .draining) && match l.logFull with
    | some e => passedEverywhere s l e
    | none => true
/-- A lost sector or row is admitted by its write mark, which names the launch and an epoch that is not passed. -/
def markAdmits (s : State) (m : Option WriteMark) (part : Nat) : Option (Launch × Nat) :=
  m.bind fun m => if m.launch = 0xFF then none else (launchOf s ⟨part, m.launch.toNat⟩).bind fun l =>
    if !replayableNow s l then none
    else (oldestEpoch s l).bind fun r => if epochGe m.epoch.toNat r then some (l, r) else none

/-! ### The replay (R330), in one step -/

def Launch.domain (l : Launch) : List Placed := l.placed.filter fun p => !isTile p.at_.elem
/-- A pattern from its element 0. -/
def Command.fromStart (c : Command) : Command :=
  { c with phase := 0, todo := [(0, .look)], got := [], count := 0, moved := 0, stalled := none, ended := false, aux := [] }
/-- A pattern that had ended runs again without a node and without its sync word, which it has raised. -/
def Command.again (c : Command) : Command :=
  { c.fromStart with node := 0, rec_ := c.rec_.take 52 ++ List.replicate 4 0 ++ c.rec_.drop 56 }
/-- Whether a pattern's count stands: until its END is sent, or its node is acknowledged. -/
def Command.holdStands (c : Command) : Bool := !(hasOutput c.op && c.ended)
/-- A streamer starts again at the earliest pattern whose position record holds an epoch from r on. -/
def restartStreamer (s : State) (l : Launch) (k : EKey) (r : Nat) : State :=
  let ps := if sealedAt s k then [] else s.host.positions.filter fun p => p.eng = k && decide (p.cmd.launch = l.key)
  match minBy id ((ps.filter fun p => decide (r ≤ tagLevel l.widths p.tag 0)).map (·.place)) with
  | none => s
  | some first =>
    let go := sortBy Position.place (ps.filter fun p => decide (first ≤ p.place))
    let cs := go.map fun p => match commandOf s p.place with
      | some c => (c.fromStart, c.holdStands)
      | none => (p.cmd.again, false)
    let ds := cs.flatMap fun (c, stood) => if stood then [] else c.holdDelta 1
    let rest := s.eng.commands.filter fun c => !(go.any fun p => p.place == c.id)
    changeSet (setCommands s (rest ++ cs.map (·.1))) k.stand l.key ds
/-- What one element of the replay domain holds of the epochs from r on is discarded, in one change set; its patterns stay, to be
started again. -/
def discardAt (s : State) (l : Launch) (p : Placed) (cov : Tag → Bool) : State :=
  let k := p.at_
  let cs := s.eng.commands
  let s := cancelAt (setCommands s (cs.filter fun c => !(c.eng = k))) l k p.node cov true
  let s := setCommands s cs
  let s := { s with q := { s.q with counts := s.q.counts.filter fun c => !(c.vpe = k && cov c.tag) } }
  if isMatrix k.elem then emptyTiles s l k cov else s
/-- Tokens of those epochs on their way, or waiting to leave an element. -/
def discardFlights (s : State) (l : Launch) (cov : Tag → Bool) : State :=
  let hit := fun (ek : EdgeKey) (t : Token) => ofLaunch l.key ek && cov t.tag && t.kind != .brake && t.kind != .req
  let fs := s.q.flights.filter fun f => hit f.edge f.tok
  let os := s.q.owed.filter fun o => hit o.edge o.tok
  let s := setFlights s (s.q.flights.filter fun f => !hit f.edge f.tok)
  let s := setOwed s (s.q.owed.filter fun o => !hit o.edge o.tok)
  let open_ := (s.q.bursts.filter fun b => ofLaunch l.key b.edge && cov b.tag).map (·.edge)
  let s := setBursts s (s.q.bursts.filter fun b => !(ofLaunch l.key b.edge && cov b.tag))
  let forget := fun (s : State) (src : EKey) (ek : EdgeKey) (t : Token) (last : Bool) =>
    forgetTok (changeSet s src.stand l.key (usedDelta ek.edge t)) ek t last
  let s := fs.foldl (fun s f => let (s, last, _) := burstArrival s f.edge f.tok; forget s f.src f.edge f.tok last) s
  let s := os.foldl (fun s o => forget s o.src o.edge o.tok false) s
  open_.foldl (fun s ek => setArriving s ek (0, false, 0)) s
/-- Tokens of those epochs before an egress port; the port begins each such epoch's slots again (R330). -/
def discardEgress (s : State) (l : Launch) (r : Nat) (cov : Tag → Bool) (port : Nat) : State :=
  let k : PortKey := ⟨l.key.part, port⟩
  let bs := s.q.buffers.filter fun b => consumerOf s b.edge == .egress k && cov b.tok.tag
  let here := portKey s l ((l.portNode .egress port).getD 0) 0xF9
  let s := bs.foldl takeBuffered s
  let s := changeSet s here.stand l.key (bs.flatMap fun b => usedDelta b.edge.edge b.tok)
  let p := egressAt s k
  setEgress s { p with
    held := p.held.filter fun x => !cov x.2
    set_ := match p.nfa with | some a => a.states_ (stopInit p a) | none => []
    stopped := p.stopped.filter fun e => decide (e < r)
    due := p.due.filter fun x => decide (x.1 < r)
    again := ((p.epochSlots.filter fun x => decide (r ≤ x.1)).map fun x => (x.1, 0)) }
/-- Undelivered requests of those epochs go, with the count that stood for each NOTE; a delivered one is not delivered again (R30). -/
def discardRequests (s : State) (l : Launch) (cov : Tag → Bool) : State :=
  match landingOf s l.key with
  | none => s
  | some x =>
    let s := (x.requests.filter fun q => cov q.tag && !q.delivered).foldl (fun s q => changeSet s q.vpe.stand l.key [⟨q.edge, q.tag, -1⟩]) s
    let rs := x.requests.filter fun q => q.delivered || !cov q.tag
    setLanding s { x with requests := updIf rs (fun q => cov q.tag) fun q => { q with again := true } }
/-- An ingress port's buffer becomes its logged tokens of those epochs, in the order they were admitted. -/
def readmit (s : State) (l : Launch) (r port : Nat) : State :=
  match l.portNode .ingress port, l.ingressEdge port with
  | some n, some e =>
    let q := ingressAt s ⟨l.key.part, port⟩
    let ts := (q.log.filter fun x => decide (r ≤ x.1)).map (·.2)
    let s := changeSet s (portKey s l n 0xF8).stand l.key
      ((q.buf.flatMap (usedDelta e.num)) ++ ts.flatMap fun t => tokDelta e.num t 1)
    setIngress s { q with buf := ts }
  | _, _ => s
/-- Steps 1 to 7 of R330, the damaged item apart; the record comes from launch control. -/
def replay (s : State) (l : Launch) (r : Nat) : State :=
  let cov := fun (t : Tag) => decide (r ≤ tagLevel l.widths t 0)
  let s := discardFlights s l cov
  let s := l.domain.foldl (fun s p => discardAt s l p cov) s
  let s := l.egressPorts.foldl (fun s p => discardEgress s l r cov p) s
  let s := discardRequests s l cov
  let s := (s.eng.backfill.filter fun b => decide (b.launch = l.key) && cov b.tag).foldl cancelBf s
  let s := setShadows s (s.fr.shadows.filter fun h => !(l.stands.contains h.stand && h.ctx == l.ctx && decide (r ≤ h.epoch)))
  let s := l.domain.foldl (fun s p => if isStreamer p.at_.elem then restartStreamer s l p.at_ r else s) s
  let s := l.ingressPorts.foldl (fun s p => readmit s l r p) s
  record s (simpleRec s l.key.part 8 0 (64 * landingDie s l.key.part) 0xFD l.ctx l.key.launch 0 r)

/-! ### UNCORRECTED_ERROR -/

/-- Launches a lost item fails: the one its mark or place names, else every launch of the partition that stands on elements. -/
def failFor (s : State) (part : Nat) (lk : Option LKey) : State :=
  match lk with
  | some k => if (launchOf s k).any fun l => l.state.onElements then failLaunch s k else escalate s k
  | none =>
    let ls := (s.la.launches.filter fun l => l.state.onElements && l.key.part == part).map (·.key)
    if ls.isEmpty then escalate s ⟨part, 0xFF⟩ else ls.foldl failLaunch s
/-- A token, matching entry, D tile or L register of a replay-domain element. -/
def lostWork (s : State) (lk : LKey) (node : Nat) : State :=
  match launchOf s lk with
  | none => s
  | some l =>
    let inDomain := (l.whereIs node).all fun k => !isTile k.elem
    match if inDomain && replayableNow s l then oldestEpoch s l else none with
    | some r => replay s l r
    | none => failFor s lk.part (some lk)
/-- A lost sector or row: `fix` puts back what it had before the launch wrote it. -/
def lostBytes (s : State) (part : Nat) (m : Option WriteMark) (lk : Option LKey) (fix : State → State) : State :=
  match markAdmits s m part with
  | some (l, r) => replay (fix s) l r
  | none => failFor s part (match m with | some m => if m.launch = 0xFF then lk else some ⟨part, m.launch.toNat⟩ | none => lk)
/-- A plain row as after the context load (R330). -/
def reloadRow (s : State) (l : Launch) (k : ScratchKey) : State :=
  let s := setMem s { s.mem with marks := s.mem.marks.filter fun x => !decide (x.1 = k) }
  match l.place.bind fun r => r.regions.find? fun x => x.stand == k.stand && decide (x.addr ≤ k.addr)
      && (l.module.bind fun m => m.regions.find? fun g => g.num == x.region).any fun g => decide (k.addr < x.addr + (g.size + 63) / 64 * 64) with
  | some x =>
    let init := ((l.module.bind fun m => m.regions.find? fun g => g.num == x.region).map (·.bytes)).getD []
    scratchWrite s k.stand k.addr ((((init.drop (k.addr - x.addr)).take 64) ++ List.replicate 64 0).take 64)
  | none => scratchWrite s k.stand k.addr (List.replicate 64 0)
/-- The launch whose context holds a scratch address in a region, with the region. -/
def rowOwner (s : State) (k : ScratchKey) : Option (Launch × Region) :=
  s.la.launches.findSome? fun l => if !l.state.onElements || !l.stands.contains k.stand then none
    else (regionOf s k.stand l.ctx k.addr 64).map fun x => (l, x.2)
/-- An error in a L2 sector: a clean copy is dropped; a dirty one is lost. -/
def sectorError (s : State) (sec : Nat) : Out :=
  match lineOf s (sec / 2) with
  | none => stay s
  | some l =>
    if !(getAt l.valid (sec % 2) false) then stay s
    else
      let drop_ := fun (s : State) => setLine s { l with
        valid := setAt l.valid (sec % 2) false, dirty := setAt l.dirty (sec % 2) false, marks := setAt l.marks (sec % 2) none }
      if getAt l.dirty (sec % 2) false then .next (lostBytes s l.part (getAt l.marks (sec % 2) none) none drop_) else .next (drop_ s)
/-- An error in a scratch row: a stash sector that is no more than a copy is dropped; any other row is lost. -/
def rowError (s : State) (k : ScratchKey) : Out :=
  let k := sectorKeyOf k.stand k.addr
  match rowOwner s k with
  | none => stay s
  | some (l, r) =>
    let mark := aget s.mem.marks k
    let drop_ := fun (s : State) => setMem s { s.mem with
      sectors := s.mem.sectors.filter fun x => !decide (x.key = k), marks := s.mem.marks.filter fun x => !decide (x.1 = k) }
    if r.mode = 2 then
      match sectorOf s k with
      | none => stay s
      | some x => if x.dirty = 0 then .next (drop_ s) else .next (lostBytes s l.key.part mark (some l.key) drop_)
    else .next (lostBytes s l.key.part mark (some l.key) fun s => reloadRow s l k)
/-- A lost token that stands before or in the element of an edge's consumer. -/
def lostAtConsumer (s : State) (ek : EdgeKey) : State := lostWork s (ekLaunch ek) (((edgeRec s ek).map (·.cons)).getD 0)
/-- A lost item of the element where a launch's node stands. -/
def lostAt (s : State) (k : EKey) : Out :=
  match launchAt s k with
  | some l => .next (lostWork s l.key ((l.nodeAt k).getD 0))
  | none => stay s
/-- A lost token in a port: one of an ingress port's buffer, or, behind those, one of an egress port's held bytes. -/
def portError (s : State) (k : PortKey) (i : Nat) : Out :=
  let n := (ingressAt s k).buf.length
  let inward := decide (i < n)
  if !inward && (egressAt s k).held.length + n ≤ i then stay s
  else match s.la.launches.find? fun l => l.state.onElements && l.key.part == k.part
      && (if inward then l.ingressPorts else l.egressPorts).contains k.port with
    | some l => .next (lostWork s l.key ((l.portNode (if inward then .ingress else .egress) k.port).getD 0))
    | none => stay s
/-- Everything a lost item brings about. A token or an element's own item in the replay domain is replayed; frames, D registers and
instruction words are a block tile's, and no pattern's bytes but those a streamer has fetched are replayed (R328). -/
def uncorrected (site : ErrSite) (s : State) : Out :=
  match site with
  | .l2Sector sec => sectorError s sec
  | .l1Line stand line => .next (withL1 s (s.mem.l1.filter fun c => !(c.stand == stand && c.line == line)))
  | .tlbEntry stand i =>
    -- a stand's TLB, or, from 512 on, the cache of die stand − 512
    let mine := fun (t : Trans) => if stand < 512 then t.stand == some stand else t.stand.isNone && t.die == stand - 512
    match (s.mem.trans.filter mine)[i]? with
    | some t => .next (withTrans s (s.mem.trans.erase t))
    | none => stay s
  | .scratchRow k => rowError s k
  | .token id =>
    match flightOf s id with
    | some f => .next (lostWork s (ekLaunch f.edge) (((edgeRec s f.edge).map (·.prod)).getD 0))
    | none => stay s
  | .matchEntry vpe i =>
    match (s.q.store.filter fun x => x.vpe = vpe)[i]?, launchAt s vpe with
    | some _, some l => .next (lostWork s l.key ((l.nodeAt vpe).getD 0))
    | _, _ => stay s
  | .buffered i => match s.q.buffers[i]? with | some b => .next (lostAtConsumer s b.edge) | none => stay s
  | .heldToken i => match s.q.held[i]? with | some h => lostAt s h.vpe | none => stay s
  | .endMark i => match s.q.ends[i]? with | some e => lostAt s e.vpe | none => stay s
  | .owed i =>
    match s.q.owed[i]? with
    | some o => .next (lostWork s (ekLaunch o.edge) (((edgeRec s o.edge).map (·.prod)).getD 0))
    | none => stay s
  | .portToken k i => portError s k i
  | .runAhead id =>
    match commandOf s id with
    | some c => if c.got.isEmpty then stay s
        else if hasOutput c.op then lostAt s c.eng else .next (failFor s c.launch.part (some c.launch))
    | none => stay s
  | .tile k => if isMatrix k.elem && (islandOf s k).tiles.any (·.bound) then lostAt s k else stay s
  | .lreg k => if isVpe k.elem then lostAt s k else stay s
  | .frame t => match threadOf s t with | some t => .next (failFor s t.launch.part (some t.launch)) | none => stay s
  | .dreg k => if isTile k.elem then lostAt s k else stay s
  | .imem k => if isTile k.elem then lostAt s k else stay s
/-- UNCORRECTED_ERROR (R319); its change sets need room like any other (R163). -/
def execUncorrectedError (site : ErrSite) (s : State) : Out :=
  match uncorrected site s with
  | .next t => roomed s t
  | o => o

end Sys2Proof.Machine
end

