-- ==== Sys2Proof/Machine/HostEvents.lean ====
section
/-! DEFINITION. What reaches the machine from outside it (R337 to R348): records that pre-empt, resume and kill, host registers, the
fault queue, TDI states, SPDM, Syivo links, temperature, bring-up and device reset. -/

namespace Sys2Proof.Machine

/-! ### PREEMPT, RESUME, KILL (R341) -/

/-- Every node sealed, then FAILED (R324, R341): the member egress ports write their END slots and launch control its record, whose code and
detail the spec does not give (log entry 44). -/
def killRunning (s : State) (l : Launch) : State :=
  let s := sealNodes s l ((l.module.map fun m => m.nodes.map (·.num)).getD []) 0 Config.killCode true
  let r := simpleRec s l.key.part 3 Config.killCode.toNat (64 * landingDie s l.key.part) 0xFD l.ctx l.key.launch 0 Config.killDetail.toNat
  finishLaunch (record s r) l.key .failed
/-- What KILL does to a launch, by its state. -/
def killLaunch (s : State) (l : Launch) : State :=
  match l.state with
  | .running => killRunning s l
  | .draining => setLaunch s { l with killed := true }
  | .ended | .failed => s
  | _ => finishLaunch s l.key .failed
/-- A record of the given kind at the head of a partition's port 0 is taken: it is 0 beside KIND and LAUNCH, or refused; without such
a launch it is ignored. -/
def onRecord (kind : Nat) (act : State → Launch → State) (s : State) : Out :=
  match s.ctl.focus with
  | .subject (.num part) =>
    match systemRecord s part with
    | none => stay s
    | some r =>
      if r.kind != kind || !partRuns s part || !controlFree s part then stay s
      else
        let s := dropRecord s part
        if !r.bare then .next (escalate s ⟨part, r.number⟩)
        else match launchOf s ⟨part, r.number⟩ with
          | some l => .next (act s l)
          | none => .next s
  | _ => stay s
/-- PREEMPT: a request that GATE serves; held while the launch is not yet RUNNING; it joins a drain under way (R28). -/
def execPreempt (s : State) : Out :=
  onRecord 2 (fun s l => match l.state with
    | .saved | .ended | .failed => s
    | _ => if l.preempt.isSome then s else setLaunch s { l with preempt := some s.ctl.clock }) s
/-- RESUME: a SAVED launch waits for dies, in the order of arrival (R25). -/
def execResume (s : State) : Out :=
  onRecord 3 (fun s l => if l.state = .saved && !l.resumed then
      let (n, s) := fresh s
      setLaunch s { l with resumed := true, order := n }
    else s) s
/-- KILL. -/
def execKill (s : State) : Out := onRecord 4 killLaunch s

/-! ### Egress control records and the partition control block (R338, R339) -/

/-- STOPTAB_WRITE: the automaton is loaded, or, while bytes are held, waits for the next epoch close. -/
def execStoptabWrite (port : PortKey) (va : Word) (s : State) : Out :=
  if !partRuns s port.part || 64 ≤ port.port then stay s
  else
    let p := egressAt s port
    .next (setEgress s (if p.held.isEmpty then loadStop s p va else { p with pendTab := some va }))
/-- REQV_ARM: the vector is armed; for an epoch already passed it is raised at once. -/
def execReqvArm (s : State) : Out :=
  match s.ctl.focus with
  | .subject (.port k) =>
    if !partRuns s k.part || 64 ≤ k.port then stay s
    else
      let p := egressAt s k
      match egressLaunch s k with
      | some l => if portPassed s l k.port p.reqEpoch then .next (raiseVector (setEgress s { p with reqv := false }) k.part k.port)
        else .next (setEgress s { p with reqv := true })
      | none => .next (setEgress s { p with reqv := true })
  | _ => stay s
/-- Every live launch of a partition becomes FAILED. -/
def failPart (s : State) (part : Nat) : State :=
  ((s.la.launches.filter fun l => l.state.live && l.key.part == part).map (·.key)).foldl (fun s k => finishLaunch s k .failed) s
/-- A TDI enters ERROR (R344). -/
def errorTdi (s : State) (part : Nat) : State :=
  match partOf (failPart s part) part with
  | some p => setPart (failPart s part) { p with tdi := .error }
  | none => s
/-- A power of two between two bounds. -/
def powerIn (lo hi n : Nat) : Bool := decide (lo ≤ n) && decide (n ≤ hi) && n == 2 ^ n.log2
/-- The control block's ranges: keys and dies of partitions do not overlap (R338). -/
def partOk (s : State) (p : Partition) : Bool :=
  decide (p.keyn ≤ 64) && decide (p.keyb + p.keyn ≤ 64) && (p.fqsize == 0 || powerIn 64 65536 p.fqsize) && p.fqbase.toNat % 64 == 0
    && s.host.parts.all fun q => q.num == p.num || (q.dies &&& p.dies == 0
      && (q.keyn == 0 || p.keyn == 0 || decide (q.keyb + q.keyn ≤ p.keyb) || decide (p.keyb + p.keyn ≤ q.keyb)))
/-- A field of the control block that function 0 writes; none: another register. -/
def pfField (p : Partition) (reg : HostReg) (v : Word) : Option Partition :=
  let n := v.toNat
  match reg with
  | .root => some { p with root := v }
  | .pdeadline => some { p with pdeadline := n % 2 ^ 32 }
  | .fdeadline => some { p with fdeadline := n % 2 ^ 32 }
  | .keyn => some { p with keyn := n % 2 ^ 8 }
  | .keyb => some { p with keyb := n % 2 ^ 8 }
  | .dies => some { p with dies := v.setWidth 8 }
  | .fqsize => some { p with fqsize := n % 2 ^ 32 }
  | .fqbase => some { p with fqbase := v }
  | .peer i => some { p with peers := if v = 0 then adel p.peers i else aset p.peers i v }
  | _ => none
/-- A host field of an egress control record. -/
def egressField (s : State) (k : PortKey) (f : Egress → Egress) : State := setEgress s (f (egressAt s k))
def portIdle (s : State) (k : PortKey) : Bool := match egressLaunch s k with | some l => l.state != .running | none => true
/-- REGISTER_WRITE: the field takes the value, or the write is discarded; function 0's write to a frozen field is an error (R344). -/
def execRegisterWrite (part : Nat) (pf : Bool) (reg : HostReg) (value : Word) (s : State) : Out :=
  match partOf s part with
  | none => stay s
  | some p =>
    match pfField p reg value with
    | some q =>
      if !pf || p.tdi = .error then stay s
      else if p.tdi != .unlocked then .next (errorTdi s part)
      else if partOk s q then .next (setPart s q) else stay s
    | none =>
      let go := fun (port : Nat) (ok : Bool) (f : Egress → Egress) =>
        if partRuns s part && decide (port < 64) && ok then Host.Outcome.next (egressField s ⟨part, port⟩ f) else stay s
      match reg with
      | .fqrd =>
        let v : BitVec 32 := value.setWidth 32
        if (p.fqwr - p.fqrd).toNat < (v - p.fqrd).toNat then stay s else .next (setPart s { p with fqrd := v })
      | .hold n => go n (decide (value.toNat ≤ 4096)) fun e =>
          if e.held.isEmpty then { e with hold := value.toNat } else { e with pendHold := some value.toNat }
      | .reqepoch n => go n true fun e => { e with reqEpoch := value.toNat % 2 ^ 32 }
      | .rd n => go n true fun e => { e with rd := value.toNat % 2 ^ 32 }
      | .slots n => go n (portIdle s ⟨part, n⟩ && powerIn 16 (2 ^ 20) value.toNat) fun e => { e with slots := value.toNat }
      | .reqv n => go n (value == 0) fun e => { e with reqv := false }
      | .bufbase n => go n (portIdle s ⟨part, n⟩ && value.toNat % 128 == 0) fun e => { e with bufbase := value }
      | _ => stay s

/-! ### What the host reads in BAR0 (R153, R202, R337 to R339) -/

/-- A port's control record (R339). -/
def Egress.controlBytes (p : Egress) : List Byte :=
  leBytes 8 p.bufbase.toNat ++ leBytes 4 p.slots ++ leBytes 4 p.wr ++ leBytes 4 p.rd ++ leBytes 4 p.reqEpoch
    ++ [if p.reqv then 1 else 0, 0] ++ leBytes 2 p.hold ++ leBytes 4 0 ++ leBytes 8 p.stoptab.toNat ++ List.replicate 24 0
/-- The partition control block (R338). -/
def Partition.controlBytes (p : Partition) : List Byte :=
  leBytes 8 p.fqbase.toNat ++ leBytes 8 0 ++ leBytes 4 p.fqsize ++ leBytes 4 p.fqwr.toNat ++ leBytes 4 p.fqrd.toNat
    ++ [0, p.dies.setWidth 8] ++ leBytes 1 p.keyb ++ leBytes 1 p.keyn ++ leBytes 4 p.fdeadline ++ leBytes 4 p.pdeadline
    ++ leBytes 8 p.root.toNat ++ List.replicate 16 0
/-- A performance counter as a partition's host reads it: 0 for a stand of another partition (R202, R337). -/
def hostPerf (s : State) (part stand i : Nat) : Word := if (partDies s part).contains (dieOf stand) then perfOf s stand i else 0
/-- Eight bytes of a partition's BAR0; what is not listed reads 0 (R337). -/
def barRead (s : State) (part off : Nat) : Word :=
  let at_ := fun (bs : List Byte) (o : Nat) => leWord ((bs.drop (o / 8 * 8)).take 8)
  if off < 0x40000 then (if off % 0x1000 = 0xC40 then portStatus s ⟨part, off / 0x1000⟩ else 0)
  else if off < 0x41000 then at_ (egressAt s ⟨part, (off - 0x40000) / 64⟩).controlBytes (off % 64)
  else if 0x50000 ≤ off && off < 0x50040 then ((partOf s part).map fun p => at_ p.controlBytes (off % 64)).getD 0
  else if 0x100000 ≤ off && off < 0x110000 then hostPerf s part ((off - 0x100000) / 128) ((off - 0x100000) / 8 % 16)
  else 0

/-! ### The fault queue (R325, R326, R338) -/

def FaultRec.bytes (r : FaultRec) : List Byte :=
  leBytes 1 r.typ ++ leBytes 1 r.code ++ leBytes 2 r.stand ++ leBytes 1 r.elem ++ leBytes 1 r.ctx ++ leBytes 2 r.launch
    ++ leBytes 8 r.tag.toNat ++ leBytes 8 r.addr ++ leBytes 8 r.detail ++ leBytes 8 r.time ++ (r.extra ++ List.replicate 24 0).take 24
/-- FAULT_RECORD_WRITE: the oldest record of a die's buffer for a partition goes to its queue; it waits while the queue is full, or its
page cannot be written. Vector 64 is raised when the queue was empty. -/
def execFaultRecordWrite (s : State) : Out :=
  match s.ctl.focus with
  | .subject (.pair die part) =>
    match s.host.pendingFaults.find? fun r => r.die == die && r.part == part, partOf s part with
    | some r, some p =>
      let va := p.fqbase + BitVec.ofNat 64 (64 * (p.fqwr.toNat % max 1 p.fqsize))
      if p.fqsize ≤ (p.fqwr - p.fqrd).toNat then stay s
      else match (translate s (64 * landingDie s part) part va false true).2 with
        | .ok _ =>
          let s := setHostSide s { s.host with pendingFaults := s.host.pendingFaults.erase r }
          let s := pokeVa s part va.toNat r.bytes
          let s := match partOf s part with | some p => setPart s { p with fqwr := p.fqwr + 1 } | none => s
          .next (if p.fqwr = p.fqrd then raiseVector s part 64 else s)
        | _ => stay s
    | _, _ => stay s
  | _ => stay s

/-! ### TDI states (R344, R345) -/

def setLink (s : State) (x : SyivoPort) : State :=
  setHostSide s { s.host with links := updIf s.host.links (fun y => y.port == x.port) fun _ => x }
/-- A group leaves under the next send counter and stands in the replay buffer; no counter reaches 2^48 under one key (R346). -/
def SyivoPort.send (x : SyivoPort) : SyivoPort :=
  if x.tx + 1 < 2 ^ 48 then { x with tx := x.tx + 1, replay := x.replay ++ [x.tx + 1] } else x
/-- The groups of the replay buffer from one on leave again, in order, each under a counter of its own. -/
def SyivoPort.resend (x : SyivoPort) (n : Nat) : SyivoPort :=
  (x.replay.filter fun m => decide (n ≤ m)).foldl (fun x _ => x.send) { x with replay := x.replay.filter fun m => decide (m < n) }
/-- A new key: both counters begin again, and what the other end has not accepted is sent under it. -/
def SyivoPort.rekey (x : SyivoPort) : SyivoPort :=
  x.replay.foldl (fun x _ => x.send) { x with keys := x.keys + 1, tx := 0, lastRx := 0, replay := [] }
/-- The bytes a measurement covers (R345). -/
def measuredBytes (p : Partition) (i : Nat) : List Byte :=
  match i with
  | 1 => Config.firmware
  | 2 => Config.trelgenImage ++ leBytes 4 Config.trelgenVersion.toNat
  | 3 => leBytes 8 p.fqbase.toNat ++ leBytes 8 0 ++ leBytes 4 p.fqsize ++ leBytes 1 p.dies.toNat ++ leBytes 1 p.keyb ++ leBytes 1 p.keyn
      ++ leBytes 4 p.fdeadline ++ leBytes 4 p.pdeadline ++ leBytes 8 p.root.toNat ++ p.peers.flatMap fun x => leBytes 2 x.1 ++ leBytes 8 x.2.toNat
  | _ => Config.interfaceReport p.num
def measure (p : Partition) (i : Nat) : BitVec 512 := (aget p.measured i).getD (sha3 (measuredBytes p i))
/-- A TDISP request acts on its partition inside a secure session; outside one it is refused. -/
def onTdisp (s : State) (act : Partition → Option State) : Out :=
  match s.ctl.focus with
  | .subject (.num part) =>
    match partOf s part with
    | some p => if !p.session || !s.host.up then stay s else match act p with
      | some s => .next s
      | none => stay s
    | none => stay s
  | _ => stay s
/-- LOCK_INTERFACE: keys come from the device's random source, measurements are fixed. -/
def execLockInterface (s : State) : Out :=
  onTdisp s fun p =>
    if p.tdi != .unlocked then none
    else
      let n := s.ctl.freeCtr
      let keys := (List.range p.keyn).map fun i => (p.keyb + i, Config.random (n + i))
      let s := { s with ctl := { s.ctl with freeCtr := n + p.keyn } }
      some (setPart s { p with tdi := .locked, keys := keys, measured := [1, 2, 3, 4].map fun i => (i, measure p i) })
/-- START_INTERFACE. -/
def execStartInterface (s : State) : Out :=
  onTdisp s fun p => if p.tdi = .locked then some (setPart s { p with tdi := .run }) else none
/-- Lines of a partition written back and invalidated, its L1 copies dropped, then its keys destroyed: what they encrypted is noise to any later key, whose
number no key identifier has (R118). -/
def closeKeys (s : State) (p : Partition) : State :=
  let s := (s.mem.l2.filter fun l => l.part == p.num).foldl (fun s l => dropLine (writeBackLine s l) l.line) s
  let (n, s) := fresh s
  let s := withL1 s (s.mem.l1.filter fun c => c.part != p.num)
  setMem s { s.mem with dues := s.mem.dues.filter (fun d => d.part != p.num), hbmKeys := s.mem.hbmKeys.map fun x => if p.keyb ≤ x.2 && x.2 < p.keyb + p.keyn then (x.1, 65 + 64 * n + x.2 % 64) else x }
/-- The teardown of a partition without launches, in its order (R344). -/
def closePart (s : State) (part : Nat) : State :=
  match partOf s part with
  | none => s
  | some p =>
    let s := closeKeys s p
    let s := { s with
      la := { s.la with cache := s.la.cache.filter fun e => e.part != part }
      eng := { s.eng with switchUp := s.eng.switchUp.filter fun x => x.1 != part } }
    setPart s { p with tdi := .unlocked, keys := [], measured := [], stopping := false }
def liveOf (s : State) (part : Nat) : List Launch := s.la.launches.filter fun l => l.state.live && l.key.part == part
/-- A stop goes on once the last launch that drains is FAILED (R341, R344): this happens of itself. -/
def endStops (s : State) : State :=
  s.host.parts.foldl (fun s p => if p.stopping && (liveOf s p.num).isEmpty then closePart s p.num else s) s
/-- STOP_INTERFACE: every live launch is ended as KILL ends it, then the teardown. -/
def execStopInterface (s : State) : Out :=
  onTdisp s fun p =>
    if !controlFree s p.num then none
    else
      let s := (liveOf s p.num).foldl killLaunch s
      some (endStops ((partOf s p.num).elim s fun p => setPart s { p with stopping := true }))
/-- A device reset's teardown of a partition waits for nothing. -/
def resetPart (s : State) (part : Nat) : State := closePart ((liveOf s part).foldl (fun s l => finishLaunch s l.key .failed) s) part
/-- IDE_INTEGRITY_FAILURE of a TDI's stream. -/
def execIdeIntegrityFailure (s : State) : Out :=
  match s.ctl.focus with
  | .subject (.num part) =>
    if (partOf s part).isNone then stay s
    else
      let s := errorTdi s part
      let s := (partOf s part).elim s fun p => setPart s { p with ideKey := none }
      .next (setHostSide s { s.host with ideLost := (s.host.ideLost ++ [part]).dedup })
  | _ => stay s
/-- UCIE_LOSS: every module is lost, and with them every TDI. -/
def execUcieLoss (s : State) : Out := .next ((s.host.parts.map (·.num)).foldl errorTdi s)
/-- The ML-DSA-87 signature that ends an answer: over the SHA3-512 hash of the session's messages, the answer among them (R345). -/
def signed (messages body : List Byte) : List Byte := Config.mldsa (leBytes 64 (sha3 (messages ++ body)).toNat)
/-- An answer is given, and joins the transcript with its request. -/
def answer (s : State) (p : Partition) (messages body : List Byte) : State :=
  let s := setPart s { p with transcript := messages ++ body }
  setHostSide s { s.host with answers := s.host.answers ++ [(p.num, body)] }
/-- SPDM_REQUEST: the responder's answer, signed; a TDISP request outside a session is refused with an empty one. Function 0 alone
answers nothing before bring-up. A session gives the TDI's IDE stream its key (log entry 132), and a Syivo port's two ends their link
key. -/
def execSpdmRequest (part : Nat) (req : SpdmReq) (s : State) : Out :=
  match partOf s part with
  | none => stay s
  | some p =>
    let said := p.transcript ++ Config.spdmBytes req
    if !s.host.up then stay s
    else match req with
      | .openSession =>
        let said := Config.spdmBytes req
        let n := s.ctl.freeCtr
        let s := { s with ctl := { s.ctl with freeCtr := n + 1 }, host := { s.host with ideLost := s.host.ideLost.filter fun i => i != part } }
        .next (answer s { p with session := true, ideKey := some (Config.random n) } said (signed said []))
      | .closeSession => .next (setPart s { p with session := false, transcript := [] })
      | .measure i =>
        if i < 1 || 4 < i then .next (answer s p said [])
        else
          let m := leBytes 64 (measure p i).toNat
          .next (answer s p said (m ++ signed said m))
      | .tdisp => .next (answer s p said (if p.session then [1] else []))
      | .acceptSwitch port =>
        if p.session && bitAt p.dies (port / 2) && port % 2 = 0 && port < 16 && (s.host.links.any fun x => x.port == port && x.up) then
          .next (setEng s { s.eng with switchUp := (s.eng.switchUp ++ [(part, port / 2)]).dedup })
        else stay s
      | .linkKey port =>
        match linkOf s port with
        | some x => if x.up then .next (setLink s x.rekey) else stay s
        | none => stay s

/-! ### Syivo links (R175, R346, R347) -/

/-- LINK_GROUP_RECEIVE: accepted with a newer counter, a good tag and good CRCs; else discarded and requested again, in a group of the
receiver's own. An accepted group names what the other end has accepted, which leaves the replay buffer, and may request a group again, which
is resent with those behind it (log entry 131). -/
def execLinkGroupReceive (port : Nat) (group : LinkGroup) (s : State) : Out :=
  match linkOf s port with
  | none => stay s
  | some x =>
    if !x.up then stay s
    else if x.lastRx < group.counter && group.sealOk && group.crcOk then
      let x := { x with lastRx := group.counter, failures := 0, replay := x.replay.filter fun n => decide (group.acked < n) }
      .next (setLink s (match group.again with | some n => x.resend n | none => x))
    else .next (setLink s { x.send with failures := x.failures + 1 })
/-- LINK_DOWN: after sixteen failed attempts in a row the link is lost, its switch with it; its switch commands, and the accesses
homed in a peer package that have left by it, become poison LINK, as later ones do when they are made; launches whose stands lie beyond it fail. -/
def execLinkDown (s : State) : Out :=
  match s.ctl.focus with
  | .subject (.num port) =>
    match linkOf s port with
    | none => stay s
    | some x =>
      if !x.up || x.failures < Config.linkAttempts then stay s
      else
        let s0 := s
        let s := setLink s { x with up := false }
        let die := port / 2
        let cs := s.eng.commands.filter fun c => port % 2 = 0 && dieOf c.eng.stand == die && !c.ended && c.eng.elem == 0x1FC
        let ns := s.ord.nodes.filter fun n => port == peerPort n.key.stand && n.at_ = .issued && !isEngineOp n.op && leavesPackage n
        let s := if port % 2 = 0 then setEng s { s.eng with switchUp := s.eng.switchUp.filter fun d => d.2 != die } else s
        let s := cs.foldl (fun s c => faultCommand s c pLINK port) s
        let s := ns.foldl (fun s n => poisonNode s n (ownPoison n.key pLINK port)) s
        let far := s.la.launches.filter fun l => l.state.onElements && l.stands.any fun st => decide (512 ≤ st)
        roomed s0 (far.foldl (fun s l => failLaunch s l.key) s)
  | _ => stay s

/-! ### Temperature, bring-up, device reset (R348) -/

/-- THERMAL_LIMIT: programs see only time: the clocks of a microsecond change. -/
def execThermalLimit (s : State) : Out := .next (setHostSide s { s.host with hot := true })
def execThermalRecover (s : State) : Out := .next (setHostSide s { s.host with hot := false })
/-- BRING_UP: the functions enumerate, or function 0 alone remains and reports the failure. -/
def execBringUp (verified : Bool) (s : State) : Out :=
  if s.host.up then stay s else .next (setHostSide s { s.host with up := verified, bootFailed := !verified })
/-- DEVICE_RESET: partitions are torn down; everything has its reset value but what the reset does not reach: HBM under keys that are no
more, the host's memory, the package's temperature, and the model's own counters. -/
def execDeviceReset (s : State) : Out :=
  let t := (s.host.parts.map (·.num)).foldl resetPart s
  let r := State.reset
  .next { r with
    ctl := { r.ctl with sched := s.ctl.sched, freeCtr := t.ctl.freeCtr, nextId := t.ctl.nextId }
    mem := { r.mem with hbm := t.mem.hbm, hbmKeys := t.mem.hbmKeys, host := t.mem.host }
    host := { r.host with hot := s.host.hot } }

end Sys2Proof.Machine
end

