-- ==== Sys2Proof/Machine/StageLane.lean ====
section
/-! DEFINITION. Stage operations that move lanes, reduce, shape streams, change tags and register notifications (R229 to
R236). -/

namespace Sys2Proof.Machine

/-- Lane movement: lane i takes lane `idx i` of a, with v of that lane where `extra` agrees (R229, R230); the HEAD is forwarded (R205). -/
def SEnv.moved (e : SEnv) (idx : Nat → Nat) (extra : Nat → Bool) : SOut :=
  { e.plain (fun i => e.a (idx i)) with
    v := maskFrom fun i => e.act i && extra i && e.okSrc e.w.a (idx i)
    fwd := true }
/-- R229: a permute holds the crossbar of the SCE it names for the clock, and waits while a request before its port is there or the
crossbar has served one. -/
def execPerm (w : SWord) (s : State) : Out :=
  match stageEnv s (.perm w) w with
  | none => stay s
  | some e =>
    let o := e.moved (fun i => (e.b i).toNat % 16) e.v
    match sceBeside e.f.vpe.elem (field w.imm 0 2).toNat with
    | none => .next (stageCommit s e o)
    | some c => match permBar s e.f.vpe.stand c e.f.vpe.ctx (portOf e.f.vpe.elem c) with
      | some s => .next (stageCommit s e o)
      | none => stay s
/-- R230. -/
def execBcast (w : SWord) (s : State) : Out :=
  runStage (.bcast w) w s fun e => e.moved (fun _ => (field w.imm 0 4).toNat) fun _ => e.v (field w.imm 0 4).toNat
def execLrot (w : SWord) (s : State) : Out :=
  runStage (.lrot w) w s fun e => e.moved (fun i => (i + (field w.imm 0 4).toNat) % 16) fun i => e.v ((i + (field w.imm 0 4).toNat) % 16)

/-! ### Reductions (R231) -/

/-- The identity a lane without a value contributes, and the operation of two values. -/
def redIdentity : RedOp → Lane
  | .sum => 0x80000000#32 | .max => 0xFF800000#32 | .min => 0x7F800000#32
def redApply (op : RedOp) (x y : Lane) (r : Rctx) : Val :=
  match op with
  | .sum => fAdd x y r
  | .max => fMinMax true x y
  | .min => fMinMax false x y
def SEnv.withIdentity (e : SEnv) (op : RedOp) (i : Nat) : Lane := if e.v i then e.a i else redIdentity op
/-- One level of the fixed tree: neighbours combined, w[i] by lane i's word of mode 5. -/
def redLevel (op : RedOp) (r : Nat → Rctx) : List Lane → Nat → List Lane × FlagSet
  | x :: y :: rest, i =>
    let v := redApply op x y (r i)
    let (zs, fl) := redLevel op r rest (i + 1)
    (v.bits :: zs, v.fl ||| fl)
  | xs, _ => (xs, 0)
/-- The tree over 16 lanes: four levels. -/
def redTree (op : RedOp) (r : Nat → Rctx) (xs : List Lane) : Lane × FlagSet :=
  let (a, f1) := redLevel op r xs 0
  let (b, f2) := redLevel op r a 0
  let (c, f3) := redLevel op r b 0
  let (d, f4) := redLevel op r c 0
  (d.headD 0, f1 ||| f2 ||| f3 ||| f4)
def execRed (op : RedOp) (w : SWord) (s : State) : Out :=
  runStage (.red op w) w s fun e =>
    let (x, fl) := redTree op (fun i => e.rc i 0 false) ((List.range 16).map (e.withIdentity op))
    e.lanewise fun _ => ⟨x, fl⟩
def scanRed : ScanOp → RedOp
  | .sum => .sum | .max => .max
/-- Left to right from the identity: the value and the flags after each lane. -/
def scanFrom (op : RedOp) (r : Nat → Rctx) : Lane → Nat → List Lane → List Val
  | _, _, [] => []
  | p, i, x :: xs =>
    let v := redApply op p x (r i)
    v :: scanFrom op r v.bits (i + 1) xs
def execScan (op : ScanOp) (w : SWord) (s : State) : Out :=
  runStage (.scan op w) w s fun e =>
    let vs := scanFrom (scanRed op) (fun i => e.rc i 0 false) (redIdentity (scanRed op)) 0 ((List.range 16).map (e.withIdentity (scanRed op)))
    let fl := (vs.foldl (fun fl v => fl ||| v.fl) 0 : FlagSet)
    { e.plain (fun i => (getAt vs i ⟨0, 0⟩).bits) with fl := if (List.range 16).any e.act then fl else 0 }
/-- The lowest lane of the greatest value that is no NaN, or −1. -/
def argmaxOf (vals : List (Nat × Lane)) : Lane :=
  let best := vals.foldl (fun (acc : Option (Nat × Lane)) x =>
    match acc with
    | none => some x
    | some y => if orderKey y.2 < orderKey x.2 then some x else some y) none
  match best with
  | some (i, _) => BitVec.ofNat 32 i
  | none => 0xFFFFFFFF#32
def execArgmax (w : SWord) (s : State) : Out :=
  runStage (.argmax w) w s fun e =>
    let vs := ((List.range 16).filter e.v).map fun i => (i, e.a i)
    let fl := flagIf (vs.any fun x => isSnan32 x.2) fNV
    { e.plain (fun _ => argmaxOf (vs.filter fun x => !isNan32 x.2)) with fl := fl }

/-! ### Stream shaping (R232) -/

def execFilt (w : SWord) (s : State) : Out :=
  runStage (.filt w) w s fun e =>
    { e.plain (fun i => if e.b i != 0 then e.a i else 0) with
      v := maskFrom fun i => e.v i && e.b i != 0
      fwd := true
      shrink := true }
/-- The values of the lanes with v set, in increasing order. -/
def SEnv.vVals (e : SEnv) : List Lane := ((List.range 16).filter e.v).map e.a
/-- Values placed in lanes: lane i takes the one at `at_ i`, and is valid when there is one. -/
def SEnv.placed (e : SEnv) (at_ : Nat → Option Lane) : SOut :=
  { e.plain (fun i => (at_ i).getD 0) with
    v := maskFrom fun i => e.act i && (at_ i).isSome
    fwd := true
    shrink := true }
def execCmpk (w : SWord) (s : State) : Out :=
  runStage (.cmpk w) w s fun e => e.placed fun i => e.vVals[i]?
def execExpnd (w : SWord) (s : State) : Out :=
  runStage (.expnd w) w s fun e => e.placed fun i =>
    if e.act i && e.b i != 0 then
      e.vVals[((List.range i).filter fun j => e.act j && e.b j != 0).length]?
    else none
/-- Sixteen at a time. -/
def chunks16 : Nat → List Lane → List (List Lane)
  | 0, _ => []
  | n + 1, xs => if xs.isEmpty then [] else xs.take 16 :: chunks16 n (xs.drop 16)
def execPackt (w : SWord) (s : State) : Out :=
  runStage (.packt w) w s fun e =>
    match w.a with
    | .inp n =>
      match e.input n.val with
      | none => SOut.bad pFMT (e.locOf w.a)
      | some i =>
        match (portsOf w.d).find? fun p => outBurst e.cfg p != 1 with
        | some p => SOut.bad pFMT (BitVec.ofNat 32 (getAt e.cfg.outloc p 0))
        | none =>
          let vals := i.toks.flatMap fun t =>
            ((List.range 16).filter fun l => bitAt t.valid l && e.act l).map fun l => laneOf t.payload l
          let groups := chunks16 16 vals
          let lanes := fun g => lanesFrom fun k => getAt g k (0 : Lane)
          let valid := fun (g : List Lane) => maskFrom fun k => decide (k < g.length)
          let first := groups.headD []
          let head := fun (p : Nat) => match i.head with
            | some h => [(p, { h with tag := e.f.tag, seg := e.f.seg })]
            | none => []
          { lanes := lanes first, v := valid first, ports := false
            out := (portsOf w.d).flatMap fun p => groups.flatMap fun g =>
              head p ++ [(p, ⟨e.f.tag, e.f.seg, .data, i.first.ft, valid g, lanes g⟩)] }
    | _ => SOut.bad pILL e.slotDetail

/-! ### Tags and notification (R233 to R236) -/

/-- The lane result a under a changed tag; an overflow is poison TAGOVF with the level. -/
def SEnv.retag (e : SEnv) (t : Option Tag) (level : Nat) : SOut :=
  match t with
  | none => SOut.bad pTAGOVF (BitVec.ofNat 32 level)
  | some t => { e.plain e.a with fwd := true, tag := some t }
def execTenter (w : SWord) (s : State) : Out :=
  runStage (.tenter w) w s fun e => { e.retag (tagEnter e.widths e.f.tag) (tagDepth e.f.tag) with shrink := true }
def execTleave (w : SWord) (s : State) : Out :=
  runStage (.tleave w) w s fun e => e.retag (tagLeave e.widths e.f.tag) 0
def execTstep (w : SWord) (s : State) : Out :=
  runStage (.tstep w) w s fun e => e.retag (tagStep e.widths e.f.tag) (tagDepth e.f.tag - 1)
/-- R234. -/
def execTget (w : SWord) (s : State) : Out :=
  runStage (.tget w) w s fun e => e.plain fun _ =>
    let n := (field w.imm 0 3).toNat
    if bitAt w.imm 3 then BitVec.ofNat 32 (tagDepth e.f.tag)
    else if tagDepth e.f.tag ≤ n then 0 else BitVec.ofNat 32 (tagLevel e.widths e.f.tag n)

/-- Requests that hold an entry of a location's queue: those at the landing, and those firings will register (R157). -/
def noteLoad (s : State) (lk : LKey) (loc : Nat) : Nat :=
  (((s.fr.landings.filter fun l => decide (l.launch = lk)).map fun l =>
      (l.requests.filter fun r => r.loc == loc && !r.delivered).length).foldl (· + ·) 0)
    + ((s.firings.filter fun f => decide (f.launch = lk)).map fun f =>
      (f.notes.filter fun n => n.loc == loc).length).foldl (· + ·) 0
/-- R235: a full queue holds the stage; a speculative firing registers nothing. -/
def execNotify (w : SWord) (s : State) : Out :=
  let loc := (field w.imm 0 12).toNat
  match stageEnv s (.notify w) w with
  | none => stay s
  | some e =>
    if e.f.seg = 0 && decide (Config.noteEntries ≤ noteLoad s e.f.launch loc) then stay s
    else runStage (.notify w) w s fun e =>
      { e.plain (fun _ => 0) with ports := false, note := if e.f.seg = 0 then some loc else none }
/-- R236. -/
def execEos (w : SWord) (s : State) : Out :=
  runStage (.eos w) w s fun e =>
    { e.plain e.a with
      ports := false
      out := (portsOf w.d).map fun p => (p, { endToken e.f.tag (outFmt e.cfg p) (e.a 0) with seg := e.f.seg }) }

end Sys2Proof.Machine
end

