-- ==== Sys2Proof/Machine/StageNarrow.lean ====
section
/-! DEFINITION. Stage operations on narrow formats and directions: CVT, the dot products, block quantisation (R222 to
R224), and the directional operations (R226 to R228). -/

namespace Sys2Proof.Machine

/-- R222. -/
def execCvt (pair : Pair) (w : SWord) (s : State) : Out :=
  runStage (.cvt pair w) w s fun e =>
    let p := (field w.imm 0 2).toNat
    e.lanewise fun i => cvtLane pair p (e.a i) (e.b i) (e.scale w.a) (e.rc i p (e.qual 19))

/-- The FP8 format a source of FDOT8 has: its own for an IN source, the other operand's, or E4 (R223). -/
def dotFmt (e : SEnv) (x other : Src) : Fmt := ((e.fmt x).or (e.fmt other)).getD .e4
def fp8 : Fmt → Option Ffmt
  | .e4 => some .e4m3 | .e5 => some .e5m2 | _ => none
/-- Bytes 0 to 3 of a lane. -/
def laneByte (x : Lane) (j : Nat) : Lane := (x >>> (8 * j)) &&& 0xFF#32

/-- R223. -/
def execFdot8 (w : SWord) (s : State) : Out :=
  runStage (.fdot8 w) w s fun e =>
    match fp8 (dotFmt e w.a w.b), fp8 (dotFmt e w.b w.a) with
    | none, _ => SOut.bad pFMT (e.locOf w.a)
    | _, none => SOut.bad pFMT (e.locOf w.b)
    | some fa, some fb =>
      e.lanewise fun i =>
        let es := (List.range 4).map fun j => (fa.decode (laneByte (e.a i) j), fb.decode (laneByte (e.b i) j))
        scaledDot es (e.scale w.a) (e.scale w.b) (e.c i) (e.rc i 0 (e.qual 19))
def execIdot8 (w : SWord) (s : State) : Out :=
  runStage (.idot8 w) w s fun e =>
    e.lanewise fun i =>
      let es := (List.range 4).map fun j =>
        (numOfInt (i8Val (laneByte (e.a i) j)), numOfInt (i8Val (laneByte (e.b i) j)))
      scaledDot es (e.scale w.a) (e.scale w.b) (e.c i) (e.rc i 0 (e.qual 19))

/-- The decoded O4 burst of a source of ODOT4, or the poison it raises (R37, R38, R223). -/
def SEnv.o4 (e : SEnv) (x : Src) : Except (BitVec 8 × Lane) (List Num) :=
  match x with
  | .inp n =>
    match e.input n.val with
    | none => .error (pFMT, e.locOf x)
    | some i =>
      if i.first.ft != .o4 then .error (pFMT, e.locOf x)
      else
        let b := e.inBurst n.val
        let slots := (List.range b).flatMap fun j =>
          match i.toks[j]? with
          | some t => nibbles t.payload
          | none => List.replicate 128 0
        let valid := fun k => match i.toks[k / 128]? with
          | some t => bitAt t.valid (k % 128 / 8)
          | none => false
        match o4Decode slots valid b with
        | .ok es => .ok es
        | .tail => .error (pO4TAIL, e.locOf x)
        | .dense => .error (pO4DENSE, e.locOf x)
  | _ => .error (pILL, e.slotDetail)
def execOdot4 (w : SWord) (s : State) : Out :=
  runStage (.odot4 w) w s fun e =>
    match e.o4 w.a, e.o4 w.b with
    | .error p, _ => SOut.bad p.1 p.2
    | _, .error p => SOut.bad p.1 p.2
    | .ok xs, .ok ys =>
      let t := (field w.imm 0 3).toNat
      e.lanewise fun i =>
        let es := (List.range 8).map fun j =>
          let k := 128 * t + 8 * i + j
          (getAt xs k (numOfInt 0), getAt ys k (numOfInt 0))
        scaledDot es (e.scale w.a) (e.scale w.b) (e.c i) (e.rc i 0 (e.qual 19))

/-! ### Block quantisation (R224) -/

/-- The whole-burst F32 source of QBLK and QO4: input number, elements, lane validity of each token. -/
def SEnv.f32Burst (e : SEnv) (x : Src) : Except (BitVec 8 × Lane) (Nat × List Lane × (Nat → Bool)) :=
  match x with
  | .inp n =>
    match e.input n.val with
    | none => .error (pFMT, e.locOf x)
    | some i =>
      if i.first.ft != .f32 then .error (pFMT, e.locOf x)
      else .ok (n.val, e.burstF32 n.val, fun k => match i.toks[k / 16]? with
        | some t => bitAt t.valid (k % 16)
        | none => false)
  | _ => .error (pILL, e.slotDetail)
/-- The DATA tokens of a quantised burst: `per` codes a lane, a lane valid when one of its source elements is. -/
def quantTokens (e : SEnv) (ft : Fmt) (per : Nat) (payloads : List Lanes) (valid : Nat → Bool) : List Token :=
  payloads.zipIdx.map fun (p, j) =>
    ⟨e.f.tag, e.f.seg, .data, ft,
     maskFrom fun lane => (List.range per).any fun q => valid ((16 * j + lane) * per + q), p⟩
/-- The burst result of QBLK and QO4: on each port HEAD then tokens; Sk is s in every lane. -/
def SEnv.quantOut (e : SEnv) (sc : Nat) (fl : FlagSet) (toks : Nat → List Token) : SOut :=
  { lanes := lanesFrom fun _ => BitVec.ofNat 32 sc
    v := e.vMask, fl := fl, ports := false
    out := (portsOf e.w.d).flatMap fun p =>
      (p, portHead e.cfg p e.f.tag e.f.seg (some (BitVec.ofNat 8 sc)) 0) :: (toks p).map fun t => (p, t) }
def qfmtOf : Fmt → Option QFmt
  | .e4 => some .e4 | .e5 => some .e5 | .i8 => some .i8 | _ => none
/-- The location of an output port (R320, DETAIL). -/
def SEnv.outLoc (e : SEnv) (p : Nat) : Lane := BitVec.ofNat 32 (getAt e.cfg.outloc p 0)

def execQblk (w : SWord) (s : State) : Out :=
  runStage (.qblk w) w s fun e =>
    match e.f32Burst w.a with
    | .error p => SOut.bad p.1 p.2
    | .ok (n, xs, valid) =>
      let b := e.inBurst n
      if b != 4 && b != 8 then SOut.bad pFMT (e.locOf w.a)
      else match (portsOf w.d).find? fun p => (qfmtOf (outFmt e.cfg p)).isNone || outBurst e.cfg p != b / 4 with
        | some p => SOut.bad pFMT (e.outLoc p)
        | none =>
          let word := fun i => stoWord e.f.tag e.k (i / 4 % 16) (i % 4)
          let q := fun p => qblk ((qfmtOf (outFmt e.cfg p)).getD .e4) (xs.map fp32) (resolveRm e.f.drm w.rm) word
          let toks := fun p =>
            let codes := (q p).codes
            quantTokens e (outFmt e.cfg p) 4
              ((List.range (b / 4)).map fun j => packElems 8 ((codes.drop (64 * j)).take 64)) valid
          let first := (portsOf w.d).headD 0
          let fl := (portsOf w.d).foldl (fun fl p => fl ||| (q p).fl) 0
          let o := e.quantOut (q first).scale fl toks
          -- each port's HEAD names its own scale
          { o with out := (portsOf w.d).flatMap fun p =>
              (p, portHead e.cfg p e.f.tag e.f.seg (some (BitVec.ofNat 8 (q p).scale)) 0) :: (toks p).map fun t => (p, t) }
def execQo4 (w : SWord) (s : State) : Out :=
  runStage (.qo4 w) w s fun e =>
    match e.f32Burst w.a with
    | .error p => SOut.bad p.1 p.2
    | .ok (n, xs, valid) =>
      if e.inBurst n != 8 then SOut.bad pFMT (e.locOf w.a)
      else match (portsOf w.d).find? fun p => outFmt e.cfg p != .o4 || outBurst e.cfg p != 1 with
        | some p => SOut.bad pFMT (e.outLoc p)
        | none =>
          let (sc, slots, fl) := qo4 (xs.map fp32) (resolveRm e.f.drm w.rm) fun i => stoWord e.f.tag e.k (i / 8 % 16) (i % 8)
          e.quantOut sc fl fun _ => quantTokens e .o4 8 [packElems 4 slots] valid

/-! ### Directions (R226 to R228) -/

/-- A direction result (R205): Sk holds the first 32 components. -/
def SEnv.dirOut (e : SEnv) (d : DirVal) : SOut :=
  { lanes := packElems 16 (d.dir.comps.take 32), v := e.vMask, fl := d.fl, dir := some d.dir }
/-- An operation on two directions of one dimension (R226). -/
def SEnv.dirPair (e : SEnv) (f : Direction → Direction → SOut) : SOut :=
  match e.dir e.w.a, e.dir e.w.b with
  | .error p, _ => SOut.bad p.1 p.2
  | _, .error p => SOut.bad p.1 p.2
  | .ok a, .ok b => if a.dim != b.dim then SOut.bad pDIMS (e.locOf e.w.a) else f a b
def SEnv.dirOne (e : SEnv) (f : Direction → SOut) : SOut :=
  match e.dir e.w.a with
  | .error p => SOut.bad p.1 p.2
  | .ok a => f a

def execDfrom (w : SWord) (s : State) : Out :=
  runStage (.dfrom w) w s fun e =>
    match e.f32Burst w.a with
    | .error p => SOut.bad p.1 p.2
    | .ok (n, xs, _) =>
      let b := e.inBurst n
      if b != 2 && b != 4 && b != 8 then SOut.bad pDIMS (e.locOf w.a) else e.dirOut (dFrom xs (16 * b))
def execDto (w : SWord) (s : State) : Out :=
  runStage (.dto w) w s fun e => e.dirOne fun a =>
    match (portsOf w.d).find? fun p => outFmt e.cfg p != .f32 || outBurst e.cfg p != a.dim / 16 with
    | some p => SOut.bad pFMT (e.outLoc p)
    | none =>
      let vs := dTo a (resolveRm e.f.drm w.rm) fun i => stoWord e.f.tag e.k (i % 16) 0
      let tok := fun j => lanesFrom fun i => (getAt vs (16 * j + i) ⟨0, 0⟩).bits
      { lanes := tok 0, v := e.vMask, fl := vs.foldl (fun fl x => fl ||| x.fl) 0, ports := false
        out := (portsOf w.d).flatMap fun p =>
          (List.range (a.dim / 16)).map fun j => (p, ⟨e.f.tag, e.f.seg, .data, .f32, 0xFFFF#16, tok j⟩) }
def execDdot (w : SWord) (s : State) : Out :=
  runStage (.ddot w) w s fun e => e.dirPair fun a b =>
    let v := dDot (e.qual 0) a b (e.rc 0 0 false)
    e.lanewise fun _ => v
def execDadd (w : SWord) (s : State) : Out := runStage (.dadd w) w s fun e => e.dirPair fun a b => e.dirOut (dAdd false a b)
def execDsub (w : SWord) (s : State) : Out := runStage (.dsub w) w s fun e => e.dirPair fun a b => e.dirOut (dAdd true a b)
def execDneg (w : SWord) (s : State) : Out := runStage (.dneg w) w s fun e => e.dirOne fun a => e.dirOut (dNeg a)
def execDscl (w : SWord) (s : State) : Out :=
  runStage (.dscl w) w s fun e => e.dirOne fun a => e.dirOut (dScl a (e.b 0))
def execDlerp (w : SWord) (s : State) : Out :=
  runStage (.dlerp w) w s fun e => e.dirPair fun a b => e.dirOut (dLerp a b (e.c 0))
def execDnrm (w : SWord) (s : State) : Out := runStage (.dnrm w) w s fun e => e.dirOne fun a => e.dirOut (dNrm a)

end Sys2Proof.Machine
end

