-- ==== Sys2Proof/Machine/Dispatch.lean ====
section
/-! DEFINITION. What every step does: one arm per constructor of Instr, each a call of its meaning. -/

namespace Sys2Proof.Machine

def exec (i : Instr) (s : State) : Host.Outcome State Fault Refusal :=
  match i with
  | .configCommand elem fld value => Sys2Proof.Machine.execConfigCommand elem fld value s
  | .sel ctx stand => Sys2Proof.Machine.execSel ctx stand s
  | .page p => Sys2Proof.Machine.execPage p s
  | .flags hold => Sys2Proof.Machine.execFlags hold s
  | .end_ count => Sys2Proof.Machine.execEnd count s
  | .fadd w => Sys2Proof.Machine.execFadd w s
  | .fsub w => Sys2Proof.Machine.execFsub w s
  | .fmul w => Sys2Proof.Machine.execFmul w s
  | .ffma w => Sys2Proof.Machine.execFfma w s
  | .ffms w => Sys2Proof.Machine.execFfms w s
  | .fnma w => Sys2Proof.Machine.execFnma w s
  | .fmin w => Sys2Proof.Machine.execFmin w s
  | .fmax w => Sys2Proof.Machine.execFmax w s
  | .fcmp cond w => Sys2Proof.Machine.execFcmp cond w s
  | .fclass w => Sys2Proof.Machine.execFclass w s
  | .fabs w => Sys2Proof.Machine.execFabs w s
  | .fneg w => Sys2Proof.Machine.execFneg w s
  | .fcpys w => Sys2Proof.Machine.execFcpys w s
  | .mov w => Sys2Proof.Machine.execMov w s
  | .selStage w => Sys2Proof.Machine.execSelStage w s
  | .ldi w => Sys2Proof.Machine.execLdi w s
  | .acc w => Sys2Proof.Machine.execAcc w s
  | .nop w => Sys2Proof.Machine.execNop w s
  | .iadd w => Sys2Proof.Machine.execIadd w s
  | .isub w => Sys2Proof.Machine.execIsub w s
  | .imul w => Sys2Proof.Machine.execImul w s
  | .imulh w => Sys2Proof.Machine.execImulh w s
  | .imulhu w => Sys2Proof.Machine.execImulhu w s
  | .imin w => Sys2Proof.Machine.execImin w s
  | .imax w => Sys2Proof.Machine.execImax w s
  | .umin w => Sys2Proof.Machine.execUmin w s
  | .umax w => Sys2Proof.Machine.execUmax w s
  | .icmp cond w => Sys2Proof.Machine.execIcmp cond w s
  | .and w => Sys2Proof.Machine.execAnd w s
  | .or w => Sys2Proof.Machine.execOr w s
  | .xor w => Sys2Proof.Machine.execXor w s
  | .andn w => Sys2Proof.Machine.execAndn w s
  | .not w => Sys2Proof.Machine.execNot w s
  | .shl w => Sys2Proof.Machine.execShl w s
  | .shr w => Sys2Proof.Machine.execShr w s
  | .sar w => Sys2Proof.Machine.execSar w s
  | .rotl w => Sys2Proof.Machine.execRotl w s
  | .popc w => Sys2Proof.Machine.execPopc w s
  | .clz w => Sys2Proof.Machine.execClz w s
  | .ctz w => Sys2Proof.Machine.execCtz w s
  | .cvt pair w => Sys2Proof.Machine.execCvt pair w s
  | .fdot8 w => Sys2Proof.Machine.execFdot8 w s
  | .idot8 w => Sys2Proof.Machine.execIdot8 w s
  | .odot4 w => Sys2Proof.Machine.execOdot4 w s
  | .qblk w => Sys2Proof.Machine.execQblk w s
  | .qo4 w => Sys2Proof.Machine.execQo4 w s
  | .rcp w => Sys2Proof.Machine.execRcp w s
  | .rsq w => Sys2Proof.Machine.execRsq w s
  | .sqrt w => Sys2Proof.Machine.execSqrt w s
  | .exp2 w => Sys2Proof.Machine.execExp2 w s
  | .log2 w => Sys2Proof.Machine.execLog2 w s
  | .ln w => Sys2Proof.Machine.execLn w s
  | .tanh w => Sys2Proof.Machine.execTanh w s
  | .sigm w => Sys2Proof.Machine.execSigm w s
  | .erf w => Sys2Proof.Machine.execErf w s
  | .dfrom w => Sys2Proof.Machine.execDfrom w s
  | .dto w => Sys2Proof.Machine.execDto w s
  | .ddot w => Sys2Proof.Machine.execDdot w s
  | .dadd w => Sys2Proof.Machine.execDadd w s
  | .dsub w => Sys2Proof.Machine.execDsub w s
  | .dneg w => Sys2Proof.Machine.execDneg w s
  | .dscl w => Sys2Proof.Machine.execDscl w s
  | .dlerp w => Sys2Proof.Machine.execDlerp w s
  | .dnrm w => Sys2Proof.Machine.execDnrm w s
  | .perm w => Sys2Proof.Machine.execPerm w s
  | .bcast w => Sys2Proof.Machine.execBcast w s
  | .lrot w => Sys2Proof.Machine.execLrot w s
  | .red op w => Sys2Proof.Machine.execRed op w s
  | .scan op w => Sys2Proof.Machine.execScan op w s
  | .argmax w => Sys2Proof.Machine.execArgmax w s
  | .filt w => Sys2Proof.Machine.execFilt w s
  | .cmpk w => Sys2Proof.Machine.execCmpk w s
  | .expnd w => Sys2Proof.Machine.execExpnd w s
  | .packt w => Sys2Proof.Machine.execPackt w s
  | .tenter w => Sys2Proof.Machine.execTenter w s
  | .tleave w => Sys2Proof.Machine.execTleave w s
  | .tstep w => Sys2Proof.Machine.execTstep w s
  | .tget w => Sys2Proof.Machine.execTget w s
  | .notify w => Sys2Proof.Machine.execNotify w s
  | .eos w => Sys2Proof.Machine.execEos w s
  | .sld w => Sys2Proof.Machine.execSld w s
  | .sst w => Sys2Proof.Machine.execSst w s
  | .ldh w => Sys2Proof.Machine.execLdh w s
  | .sth w => Sys2Proof.Machine.execSth w s
  | .advh w => Sys2Proof.Machine.execAdvh w s
  | .waith w => Sys2Proof.Machine.execWaith w s
  | .peekh w => Sys2Proof.Machine.execPeekh w s
  | .waitx w => Sys2Proof.Machine.execWaitx w s
  | .samo w => Sys2Proof.Machine.execSamo w s
  | .gnoiseKey w => Sys2Proof.Machine.execGnoiseKey w s
  | .gnoiseNoise w => Sys2Proof.Machine.execGnoiseNoise w s
  | .smaxi w => Sys2Proof.Machine.execSmaxi w s
  | .nfastep w => Sys2Proof.Machine.execNfastep w s
  | .nfamsk w => Sys2Proof.Machine.execNfamsk w s
  | .exitq w => Sys2Proof.Machine.execExitq w s
  | .faddBlock w => Sys2Proof.Machine.execFaddBlock w s
  | .fsubBlock w => Sys2Proof.Machine.execFsubBlock w s
  | .fmulBlock w => Sys2Proof.Machine.execFmulBlock w s
  | .ffmaBlock w => Sys2Proof.Machine.execFfmaBlock w s
  | .ffmsBlock w => Sys2Proof.Machine.execFfmsBlock w s
  | .fnmaBlock w => Sys2Proof.Machine.execFnmaBlock w s
  | .fminBlock w => Sys2Proof.Machine.execFminBlock w s
  | .fmaxBlock w => Sys2Proof.Machine.execFmaxBlock w s
  | .fcmpBlock cond w => Sys2Proof.Machine.execFcmpBlock cond w s
  | .fclassBlock w => Sys2Proof.Machine.execFclassBlock w s
  | .fabsBlock w => Sys2Proof.Machine.execFabsBlock w s
  | .fnegBlock w => Sys2Proof.Machine.execFnegBlock w s
  | .fcpysBlock w => Sys2Proof.Machine.execFcpysBlock w s
  | .movBlock w => Sys2Proof.Machine.execMovBlock w s
  | .selBlock w => Sys2Proof.Machine.execSelBlock w s
  | .nopBlock w => Sys2Proof.Machine.execNopBlock w s
  | .iaddBlock w => Sys2Proof.Machine.execIaddBlock w s
  | .isubBlock w => Sys2Proof.Machine.execIsubBlock w s
  | .imulBlock w => Sys2Proof.Machine.execImulBlock w s
  | .imulhBlock w => Sys2Proof.Machine.execImulhBlock w s
  | .imulhuBlock w => Sys2Proof.Machine.execImulhuBlock w s
  | .iminBlock w => Sys2Proof.Machine.execIminBlock w s
  | .imaxBlock w => Sys2Proof.Machine.execImaxBlock w s
  | .uminBlock w => Sys2Proof.Machine.execUminBlock w s
  | .umaxBlock w => Sys2Proof.Machine.execUmaxBlock w s
  | .icmpBlock cond w => Sys2Proof.Machine.execIcmpBlock cond w s
  | .andBlock w => Sys2Proof.Machine.execAndBlock w s
  | .orBlock w => Sys2Proof.Machine.execOrBlock w s
  | .xorBlock w => Sys2Proof.Machine.execXorBlock w s
  | .andnBlock w => Sys2Proof.Machine.execAndnBlock w s
  | .notBlock w => Sys2Proof.Machine.execNotBlock w s
  | .shlBlock w => Sys2Proof.Machine.execShlBlock w s
  | .shrBlock w => Sys2Proof.Machine.execShrBlock w s
  | .sarBlock w => Sys2Proof.Machine.execSarBlock w s
  | .rotlBlock w => Sys2Proof.Machine.execRotlBlock w s
  | .popcBlock w => Sys2Proof.Machine.execPopcBlock w s
  | .clzBlock w => Sys2Proof.Machine.execClzBlock w s
  | .ctzBlock w => Sys2Proof.Machine.execCtzBlock w s
  | .cvtBlock pair w => Sys2Proof.Machine.execCvtBlock pair w s
  | .dfromBlock w => Sys2Proof.Machine.execDfromBlock w s
  | .dtoBlock w => Sys2Proof.Machine.execDtoBlock w s
  | .ddotBlock w => Sys2Proof.Machine.execDdotBlock w s
  | .daddBlock w => Sys2Proof.Machine.execDaddBlock w s
  | .dsubBlock w => Sys2Proof.Machine.execDsubBlock w s
  | .dnegBlock w => Sys2Proof.Machine.execDnegBlock w s
  | .dsclBlock w => Sys2Proof.Machine.execDsclBlock w s
  | .dlerpBlock w => Sys2Proof.Machine.execDlerpBlock w s
  | .dnrmBlock w => Sys2Proof.Machine.execDnrmBlock w s
  | .br w => Sys2Proof.Machine.execBr w s
  | .bri w => Sys2Proof.Machine.execBri w s
  | .lend imm w => Sys2Proof.Machine.execLend imm w s
  | .ret w => Sys2Proof.Machine.execRet w s
  | .call w => Sys2Proof.Machine.execCall w s
  | .loop w => Sys2Proof.Machine.execLoop w s
  | .fork w => Sys2Proof.Machine.execFork w s
  | .halt w => Sys2Proof.Machine.execHalt w s
  | .yield w => Sys2Proof.Machine.execYield w s
  | .lea w => Sys2Proof.Machine.execLea w s
  | .movi w => Sys2Proof.Machine.execMovi w s
  | .movhi w => Sys2Proof.Machine.execMovhi w s
  | .bfext w => Sys2Proof.Machine.execBfext w s
  | .bfins w => Sys2Proof.Machine.execBfins w s
  | .spawnp w => Sys2Proof.Machine.execSpawnp w s
  | .resolve w => Sys2Proof.Machine.execResolve w s
  | .squash w => Sys2Proof.Machine.execSquash w s
  | .lkrd w => Sys2Proof.Machine.execLkrd w s
  | .barx w => Sys2Proof.Machine.execBarx w s
  | .send w => Sys2Proof.Machine.execSend w s
  | .sendBrk w => Sys2Proof.Machine.execSendBrk w s
  | .recv w => Sys2Proof.Machine.execRecv w s
  | .recvStart w => Sys2Proof.Machine.execRecvStart w s
  | .sysr w => Sys2Proof.Machine.execSysr w s
  | .sysw w => Sys2Proof.Machine.execSysw w s
  | .trap w => Sys2Proof.Machine.execTrap w s
  | .ecall w => Sys2Proof.Machine.execEcall w s
  | .poison w => Sys2Proof.Machine.execPoison w s
  | .quies w => Sys2Proof.Machine.execQuies w s
  | .invt w => Sys2Proof.Machine.execInvt w s
  | .sldBlock w => Sys2Proof.Machine.execSldBlock w s
  | .sstBlock w => Sys2Proof.Machine.execSstBlock w s
  | .samoBlock w => Sys2Proof.Machine.execSamoBlock w s
  | .ld w => Sys2Proof.Machine.execLd w s
  | .ldv w => Sys2Proof.Machine.execLdv w s
  | .st w => Sys2Proof.Machine.execSt w s
  | .stv w => Sys2Proof.Machine.execStv w s
  | .pref w => Sys2Proof.Machine.execPref w s
  | .amo w => Sys2Proof.Machine.execAmo w s
  | .famo w => Sys2Proof.Machine.execFamo w s
  | .cas w => Sys2Proof.Machine.execCas w s
  | .fence w => Sys2Proof.Machine.execFence w s
  | .dld w => Sys2Proof.Machine.execDld w s
  | .dst w => Sys2Proof.Machine.execDst w s
  | .swset w => Sys2Proof.Machine.execSwset w s
  | .swwait w => Sys2Proof.Machine.execSwwait w s
  | .xst w => Sys2Proof.Machine.execXst w s
  | .strmLd w => Sys2Proof.Machine.execStrmLd w s
  | .strmSt w => Sys2Proof.Machine.execStrmSt w s
  | .strmGth w => Sys2Proof.Machine.execStrmGth w s
  | .strmSct w => Sys2Proof.Machine.execStrmSct w s
  | .strmWin w => Sys2Proof.Machine.execStrmWin w s
  | .strmStop w => Sys2Proof.Machine.execStrmStop w s
  | .strmPos w => Sys2Proof.Machine.execStrmPos w s
  | .cpy w => Sys2Proof.Machine.execCpy w s
  | .plane w => Sys2Proof.Machine.execPlane w s
  | .tilef w => Sys2Proof.Machine.execTilef w s
  | .tilee w => Sys2Proof.Machine.execTilee w s
  | .mxrd w => Sys2Proof.Machine.execMxrd w s
  | .mxclr w => Sys2Proof.Machine.execMxclr w s
  | .xrslot w => Sys2Proof.Machine.execXrslot w s
  | .xred w => Sys2Proof.Machine.execXred w s
  | .xrwait w => Sys2Proof.Machine.execXrwait w s
  | .rnsum w => Sys2Proof.Machine.execRnsum w s
  | .rnmax w => Sys2Proof.Machine.execRnmax w s
  | .kvst w => Sys2Proof.Machine.execKvst w s
  | .kvstFin w => Sys2Proof.Machine.execKvstFin w s
  | .kvld w => Sys2Proof.Machine.execKvld w s
  | .kvalloc w => Sys2Proof.Machine.execKvalloc w s
  | .kvfree w => Sys2Proof.Machine.execKvfree w s
  | .bfq w => Sys2Proof.Machine.execBfq w s
  | .bfwait w => Sys2Proof.Machine.execBfwait w s
  | .ingressDataWrite port off size data => Sys2Proof.Machine.execIngressDataWrite port off size data s
  | .ingressHeadWrite port size data => Sys2Proof.Machine.execIngressHeadWrite port size data s
  | .epoch port size value => Sys2Proof.Machine.execEpoch port size value s
  | .close port size value => Sys2Proof.Machine.execClose port size value s
  | .leaseStep act => Sys2Proof.Machine.execLeaseStep act s
  | .uncorrectedError site => Sys2Proof.Machine.execUncorrectedError site s
  | .dieGrant dies => Sys2Proof.Machine.execDieGrant dies s
  | .mapping result => Sys2Proof.Machine.execMapping result s
  | .ecallReply part tile value => Sys2Proof.Machine.execEcallReply part tile value s
  | .stoptabWrite port va => Sys2Proof.Machine.execStoptabWrite port va s
  | .registerWrite part pf reg value => Sys2Proof.Machine.execRegisterWrite part pf reg value s
  | .spdmRequest part req => Sys2Proof.Machine.execSpdmRequest part req s
  | .linkGroupReceive port group => Sys2Proof.Machine.execLinkGroupReceive port group s
  | .bringUp verified => Sys2Proof.Machine.execBringUp verified s
  | .hostMemoryAccess part requester write va size data => Sys2Proof.Machine.execHostMemoryAccess part requester write va size data s
  | .slotTableTakesEffect => Sys2Proof.Machine.execSlotTableTakesEffect s
  | .tokenArrival => Sys2Proof.Machine.execTokenArrival s
  | .edgeBufferArrival => Sys2Proof.Machine.execEdgeBufferArrival s
  | .reqArrival => Sys2Proof.Machine.execReqArrival s
  | .pileHeldTokenEntry => Sys2Proof.Machine.execPileHeldTokenEntry s
  | .firingStart => Sys2Proof.Machine.execFiringStart s
  | .firingComplete => Sys2Proof.Machine.execFiringComplete s
  | .blockChoice => Sys2Proof.Machine.execBlockChoice s
  | .blockOverdue => Sys2Proof.Machine.execBlockOverdue s
  | .executionStart => Sys2Proof.Machine.execExecutionStart s
  | .executionCommit => Sys2Proof.Machine.execExecutionCommit s
  | .segmentTake => Sys2Proof.Machine.execSegmentTake s
  | .brakeArrival => Sys2Proof.Machine.execBrakeArrival s
  | .backfillPortEnd => Sys2Proof.Machine.execBackfillPortEnd s
  | .egressTake => Sys2Proof.Machine.execEgressTake s
  | .egressVector => Sys2Proof.Machine.execEgressVector s
  | .skidderClaim => Sys2Proof.Machine.execSkidderClaim s
  | .claimDelivery => Sys2Proof.Machine.execClaimDelivery s
  | .noteDelivery => Sys2Proof.Machine.execNoteDelivery s
  | .batchFlush => Sys2Proof.Machine.execBatchFlush s
  | .hubMergeForward => Sys2Proof.Machine.execHubMergeForward s
  | .batchApply => Sys2Proof.Machine.execBatchApply s
  | .flagShadowMerge => Sys2Proof.Machine.execFlagShadowMerge s
  | .launchEnd => Sys2Proof.Machine.execLaunchEnd s
  | .issue => Sys2Proof.Machine.execIssue s
  | .arrive => Sys2Proof.Machine.execArrive s
  | .perform => Sys2Proof.Machine.execPerform s
  | .acknowledge => Sys2Proof.Machine.execAcknowledge s
  | .fenceComplete => Sys2Proof.Machine.execFenceComplete s
  | .swap => Sys2Proof.Machine.execSwap s
  | .timestampReset => Sys2Proof.Machine.execTimestampReset s
  | .faultResume => Sys2Proof.Machine.execFaultResume s
  | .faultDeadline => Sys2Proof.Machine.execFaultDeadline s
  | .syncWordRaise => Sys2Proof.Machine.execSyncWordRaise s
  | .engineAccept => Sys2Proof.Machine.execEngineAccept s
  | .streamerEmit => Sys2Proof.Machine.execStreamerEmit s
  | .matrixPass => Sys2Proof.Machine.execMatrixPass s
  | .tileDrain => Sys2Proof.Machine.execTileDrain s
  | .matrixEnd => Sys2Proof.Machine.execMatrixEnd s
  | .xrslotDeadline => Sys2Proof.Machine.execXrslotDeadline s
  | .xrslotFreeTimeout => Sys2Proof.Machine.execXrslotFreeTimeout s
  | .seal => Sys2Proof.Machine.execSeal s
  | .faultRecordWrite => Sys2Proof.Machine.execFaultRecordWrite s
  | .gate => Sys2Proof.Machine.execGate s
  | .preemptionDeadline => Sys2Proof.Machine.execPreemptionDeadline s
  | .drainQuiescent => Sys2Proof.Machine.execDrainQuiescent s
  | .drainDeadline => Sys2Proof.Machine.execDrainDeadline s
  | .restore => Sys2Proof.Machine.execRestore s
  | .launch => Sys2Proof.Machine.execLaunch s
  | .preempt => Sys2Proof.Machine.execPreempt s
  | .resume => Sys2Proof.Machine.execResume s
  | .kill => Sys2Proof.Machine.execKill s
  | .loadingDone => Sys2Proof.Machine.execLoadingDone s
  | .reqvArm => Sys2Proof.Machine.execReqvArm s
  | .lockInterface => Sys2Proof.Machine.execLockInterface s
  | .startInterface => Sys2Proof.Machine.execStartInterface s
  | .stopInterface => Sys2Proof.Machine.execStopInterface s
  | .ideIntegrityFailure => Sys2Proof.Machine.execIdeIntegrityFailure s
  | .ucieLoss => Sys2Proof.Machine.execUcieLoss s
  | .linkDown => Sys2Proof.Machine.execLinkDown s
  | .thermalLimit => Sys2Proof.Machine.execThermalLimit s
  | .thermalRecover => Sys2Proof.Machine.execThermalRecover s
  | .deviceReset => Sys2Proof.Machine.execDeviceReset s
  | .hostInvalidation => Sys2Proof.Machine.execHostInvalidation s

end Sys2Proof.Machine
end

