-- ==== Sys2Proof/Machine/Waits.lean ====
section
/-! DEFINITION. What the machine does between two picks of the schedule: owed tokens leave, ports admit, frames are given, wait
counters follow the queues, clocks pass and crossbars count (R89, R143, R153, R183, R254); and what a pick fetches. -/

namespace Sys2Proof.Machine

/-- The clock ends: each crossbar that held a request in it counts one (R89, R202; log entry 11). -/
def countHeld (s : State) : State :=
  s.mem.bars.foldl (fun s b =>
    if b.clock = s.ctl.clock && barHeld s b then bumpPerf (setXwc s b.stand (0x10 + b.sce) (xwcOf s b.stand (0x10 + b.sce) + 1)) b.stand 6 1
    else s) s
/-- An execution could issue an instruction in this clock. -/
def canIssue (s : State) (x : Exec) : Bool :=
  x.abort.isNone && match loadBlock s x.tile x.block with
    | .ok b =>
      let dead := b.deadSet x
      b.instrs.zipIdx.any fun (i, idx) => !x.fired.contains idx && !dead.contains idx
        && (b.used idx).all (fun k => (slotVal x (idx, k)).isSome) && !waitsAt s x idx i
    | .error _ => false
/-- A tile context has a unit that could be granted: an instruction to issue, a block to choose, an execution to begin (R180). -/
def tileReady (s : State) (k : EKey) : Bool :=
  running s k && ((s.tiles.execs.any fun x => x.tile = k && canIssue s x) || (tileOpen s k && !(queuedOn s k).isEmpty
    && ((choiceDue s k && (lateBlocks s k).isEmpty) || ((schedOf s k).chosen.any fun b => !(queueOf s k b).isEmpty) && decide ((schedOf s k).run < Config.runLimit))))
/-- The clock of each block tile is granted to a context (R180, R181), when one is ready. -/
def turnTiles (s : State) : State :=
  (((s.tiles.threads.map fun t => (t.tile.stand, t.tile.elem))).dedup).foldl (fun s (stand, elem) =>
    if s.tiles.turns.any fun t => t.1 == stand && t.2.1 == elem then s
    else
      let idx := tableIndex elem
      match (slotTable s stand idx).grantee s.ctl.clock fun c => tileReady s ⟨stand, elem, c⟩ with
      | some (c, t) =>
        let s := setSlotTable s stand idx t
        { s with tiles := { s.tiles with turns := (stand, elem, some c) :: s.tiles.turns } }
      | none => s) s
/-- Clocks pass: what a clock granted is over, and the new clock is granted. -/
def passClocks (s : State) (dt : Nat) : State :=
  if dt = 0 then s
  else
    let s := countHeld s
    turnTiles { s with ctl := { s.ctl with clock := s.ctl.clock + dt }, tiles := { s.tiles with turns := [] } }
/-- Frames go to the tiles on which a committed creation waits for one. -/
def giveAll (s : State) : State :=
  (((s.tiles.threads.filter fun t => match t.at_ with | .noFrame _ => true | _ => false).map (·.tile)).dedup).foldl giveFrames s
/-- What happens of itself before a pick. -/
def settle (s : State) : State := turnTiles (noteEnds (noteWaits (giveAll (admitAll (forwardBrakes (payOwed (dropAcked (endStops s))))))))
/-- The next pick: the schedule's, or a free one. -/
def nextPick (s : State) : Pick × State :=
  match s.ctl.sched with
  | p :: rest => (p, { s with ctl := { s.ctl with sched := rest } })
  | [] => (freePick s.ctl.freeCtr, { s with ctl := { s.ctl with freeCtr := s.ctl.freeCtr + 1 } })
/-- The state in which a pick's instruction runs, its subject in focus. -/
def focusOn (s : State) (f : Focus) : State := { s with ctl := { s.ctl with focus := f } }
/-- The pick as it is taken: while a launch loads, its stream is what is sent, in order (R24, R27); another word is none of its commands. -/
def allowedPick (s : State) (p : Pick) : Pick :=
  match p.what with
  | .command lk w => match launchOf s lk with
    | some l => if l.state = .loading && (l.todo.head? != some w || ((imageOf s lk).isSome && !l.checked)) then { p with what := .idle } else p
    | none => p
  | _ => p
/-- A command of a launch that loads has been sent. -/
def sentCommand (s : State) (lk : LKey) : State :=
  { s with la := { s.la with launches := updIf s.la.launches (fun l => decide (l.key = lk) && l.state = .loading) fun l => { l with todo := l.todo.drop 1 } } }
/-- The state in which a pick is taken: its clocks have passed; a command finds the stream of its launch, and leaves what is still to be
sent unless it must wait; a launch on its elements starts another stream (R58, R60). -/
def takePick (s : State) (p : Pick) : State :=
  let s := passClocks s p.dt
  match p.what with
  | .command lk w =>
    let s := tune s lk
    if (runCommand (decodeConfig w) s).isSome then sentCommand s lk else s
  | .opening lk => if (launchOf s lk).any fun l => l.state = .running || l.state = .draining then openStream (tune s lk) lk else s
  | _ => s
/-- What a pick fetches. -/
inductive Fetched where
  | nothing
  | bad
  | run (i : Instr) (f : Focus)
deriving DecidableEq, Repr
/-- An event or a command stands in the pick; a firing's next stage in its slot; a block's instruction behind its header. A firing,
execution or index that is not there fetches nothing. -/
def fetch (s : State) : Fetch → Fetched
  | .idle => .nothing
  | .opening _ => .nothing
  | .event i x => .run i (.subject x)
  | .command _ w => .run (decodeConfig w) .nothing
  | .stage id => match firingOf s id with
    | none => .nothing
    | some f =>
      let c := vpeCfg s f.vpe
      if c.stages ≤ f.stage then .nothing
      else match decodeStage (slotWord c f.stage) with
        | .ok i => .run i (.firing id)
        | .error _ => .bad
  | .block id idx => match execOf s id with
    | none => .nothing
    | some x => match headerOf s x.tile x.block with
      | none => .nothing
      | some h =>
        if h.icount ≤ idx then .nothing
        else match decodeBlock (imemWord s x.tile (x.block + 4 + idx)) with
          | .ok i => .run i (.exec id idx)
          | .error _ => .bad

/-! ### A table word placed where the next step fetches it -/

/-- A stage word stands in slot 0 of the VPE at stand 0, element 0, context 0, with a firing that is ahead of every other. -/
def placeStage (s : State) (w : Word) : State :=
  let k : EKey := ⟨0, 0, 0⟩
  let c := vpeCfg s k
  let s := setVpeCfg s k { c with slots := setAt c.slots 0 w, stages := max 1 c.stages }
  let f : Firing := ⟨0, k, ⟨0, 0⟩, 0x1000000000000000#64, 0, 0, 0, [], [], [], [], none, false, [], [], [], [], 0⟩
  { s with firings := f :: s.firings.filter fun g => g.id != 0,
           ctl := { s.ctl with sched := ⟨0, .stage 0⟩ :: s.ctl.sched } }
/-- The write entries a word's targets name. -/
def writeEntries (i : Instr) : Nat := (sendsTo i).foldl (fun n t => match t with | .w k => max n (k.val + 1) | _ => n) 0
/-- The header words of a block of one instruction that its read entries feed from G0 (R70). -/
def oneHeader (i : Instr) : List Word :=
  let slots := (⟨0, ⟨1, 0, 0, [], []⟩, [i]⟩ : Block).used 0
  let nw := writeEntries i
  let es := slots.zipIdx.foldl (fun n (k, e) => n + k * 2 ^ (16 * e)) 0
  [BitVec.ofNat 64 (0xF8 * 2 ^ 56 + 2 ^ 49 + slots.length * 2 ^ 45 + nw * 2 ^ 41 + (if isStore i then 1 else 0) * 2 ^ 35),
   BitVec.ofNat 64 es, 0, BitVec.ofNat 64 ((List.range nw).foldl (fun n e => n + 0x80 * 2 ^ (8 * e)) 0)]
/-- A block word stands alone in block 0 of the tile at stand 0, element 0x20, context 0, with an execution of it, every register 0. -/
def placeBlock (s : State) (w : Word) (i : Instr) : State :=
  let k : EKey := ⟨0, 0x20, 0⟩
  let c := tileCfg s k
  let words := (oneHeader i ++ [w]).zipIdx.map fun (x, a) => (a, x)
  let s := setTileCfg s k { c with imem := words ++ c.imem.filter (fun x => decide (5 ≤ x.1)), galloc := max 8 c.galloc }
  let n := s.ctl.nextId
  let t : Thread := ⟨n, k, 0, ⟨0, 0⟩, 0, 0x1000000000000000#64, 0, List.replicate 128 0, [0, 0, 0], 0, none, .running (n + 1), none⟩
  let vals := ((⟨0, ⟨1, 0, 0, [], []⟩, [i]⟩ : Block).used 0).map fun k => (⟨0, k, 0, none⟩ : SlotVal)
  let x : Exec := { newExec s (n + 1) t with vals := vals }
  { s with tiles := { s.tiles with threads := s.tiles.threads ++ [t], execs := s.tiles.execs ++ [x] },
           ctl := { s.ctl with nextId := n + 2, sched := ⟨0, .block (n + 1) 0⟩ :: s.ctl.sched } }
/-- A configuration command is the next pick; a 64-bit word is placed as a stage word, or, where it is none, as a block word. -/
def placeWord (s : State) (nbits w : Nat) : State :=
  if nbits ≤ 32 then { s with ctl := { s.ctl with sched := ⟨0, .command ⟨0, 0⟩ (BitVec.ofNat 32 w)⟩ :: s.ctl.sched } }
  else
    let x : Word := BitVec.ofNat 64 w
    match decodeStage x, decodeBlock x with
    | .error _, .ok i => placeBlock s x i
    | _, _ => placeStage s x

end Sys2Proof.Machine
end

