-- ==== Sys2Proof/Machine/Step.lean ====
section
/-! DEFINITION. One step of the machine: what happens of itself, the next pick of the schedule, and the meaning of what it fetches. -/

namespace Sys2Proof.Machine

/-- The state in which a step fetches, and the pick it takes; what happens of itself leaves the schedule as it is. -/
def ready (s : State) : Pick × State :=
  let (p, s) := nextPick s
  let s := settle s
  let p := allowedPick s p
  (p, takePick s p)

/-- One step (log entry 1). -/
def step (s : State) : Host.Outcome State Fault Refusal :=
  match fetch (ready s).2 (ready s).1.what with
  | .run i f => exec i (focusOn (ready s).2 f)
  | .nothing => .next (ready s).2
  | .bad => .fault .badWord

/-- The state with an instruction placed where the next step fetches it. -/
def State.withFetchWord (s : State) (nbits w : Nat) : State := placeWord s nbits w

end Sys2Proof.Machine
end

