-- ==== Sys2Proof/Laws/PerInstr.lean ====
section
/-! SUPPORT. What an instruction as syntax says of its encoding: a legal one of a layout has the word of its OPC and FN over its
operand fields, and the table of that layout reads OPC and FN back as that instruction. One lemma for each constructor. -/

/-- The words of each layout are those of R66 to R72 and R74. -/
def Sys2Proof.Laws.Encodes.Statement (i : Sys2Proof.Instr) : Prop :=
  (Sys2Proof.wfStage i = true → ∃ (opc fn : Nat) (w : Sys2Proof.SWord), opc < 256 ∧ fn < 16
    ∧ Sys2Proof.encodeStage i = some (Sys2Proof.opBits opc fn ||| w.bits) ∧ Sys2Proof.stageOf opc fn w = some i)
  ∧ (Sys2Proof.wfB i = true → ∃ (opc fn : Nat) (w : Sys2Proof.BWord), opc < 256 ∧ fn < 16
    ∧ Sys2Proof.encodeBlock i = some (Sys2Proof.opBits opc fn ||| w.bits) ∧ Sys2Proof.blockBOf opc fn w = some i)
  ∧ (Sys2Proof.wfM i = true → ∃ (opc fn : Nat) (w : Sys2Proof.MWord), opc < 256 ∧ fn < 16
    ∧ Sys2Proof.encodeBlock i = some (Sys2Proof.opBits opc fn ||| w.bits) ∧ Sys2Proof.blockMOf opc fn w = some i)
  ∧ (Sys2Proof.wfE i = true → ∃ (opc fn : Nat) (w : Sys2Proof.EWord), opc < 256 ∧ fn < 16
    ∧ Sys2Proof.encodeBlock i = some (Sys2Proof.opBits opc fn ||| w.bits) ∧ Sys2Proof.blockEOf opc fn w = some i)

namespace Sys2Proof.Laws
open Sys2Proof

/-- A layout that is not the instruction's. -/
theorem no {p : Prop} (h : false = true) : p := nomatch h
/-- Bits outside a mask are 0, so a bit there is. -/
theorem bit_of_mask {n : Nat} {x m : BitVec n} {i : Nat} (h : x &&& ~~~m = 0) (hi : i < n) (hm : bitAt m i = false) :
    bitAt x i = false := by
  have h1 : (x &&& ~~~m).getLsbD i = false := by rw [h]; simp
  rw [BitVec.getLsbD_and, BitVec.getLsbD_not] at h1
  unfold bitAt at *
  rw [hm] at h1
  simpa [hi] using h1

end Sys2Proof.Laws

open Sys2Proof Sys2Proof.Laws
theorem Sys2Proof.Laws.Encodes.configCommand (elem : BitVec 8) (fld : BitVec 8) (value : BitVec 16) : Sys2Proof.Laws.Encodes.Statement (.configCommand elem fld value) :=
  ⟨no, no, no, no⟩
theorem Sys2Proof.Laws.Encodes.sel (ctx : BitVec 2) (stand : BitVec 9) : Sys2Proof.Laws.Encodes.Statement (.sel ctx stand) :=
  ⟨no, no, no, no⟩
theorem Sys2Proof.Laws.Encodes.page (p : BitVec 4) : Sys2Proof.Laws.Encodes.Statement (.page p) := ⟨no, no, no, no⟩
theorem Sys2Proof.Laws.Encodes.flags (hold : BitVec 1) : Sys2Proof.Laws.Encodes.Statement (.flags hold) := ⟨no, no, no, no⟩
theorem Sys2Proof.Laws.Encodes.end_ (count : BitVec 16) : Sys2Proof.Laws.Encodes.Statement (.end_ count) := ⟨no, no, no, no⟩
theorem Sys2Proof.Laws.Encodes.fadd (w : SWord) : Sys2Proof.Laws.Encodes.Statement (.fadd w) :=
  ⟨fun _ => ⟨0x00, 0, w, by decide, by decide, rfl, rfl⟩, no, no, no⟩
theorem Sys2Proof.Laws.Encodes.fsub (w : SWord) : Sys2Proof.Laws.Encodes.Statement (.fsub w) :=
  ⟨fun _ => ⟨0x00, 1, w, by decide, by decide, rfl, rfl⟩, no, no, no⟩
theorem Sys2Proof.Laws.Encodes.fmul (w : SWord) : Sys2Proof.Laws.Encodes.Statement (.fmul w) :=
  ⟨fun _ => ⟨0x01, 0, w, by decide, by decide, rfl, rfl⟩, no, no, no⟩
theorem Sys2Proof.Laws.Encodes.ffma (w : SWord) : Sys2Proof.Laws.Encodes.Statement (.ffma w) :=
  ⟨fun _ => ⟨0x02, 0, w, by decide, by decide, rfl, rfl⟩, no, no, no⟩
theorem Sys2Proof.Laws.Encodes.ffms (w : SWord) : Sys2Proof.Laws.Encodes.Statement (.ffms w) :=
  ⟨fun _ => ⟨0x02, 1, w, by decide, by decide, rfl, rfl⟩, no, no, no⟩
theorem Sys2Proof.Laws.Encodes.fnma (w : SWord) : Sys2Proof.Laws.Encodes.Statement (.fnma w) :=
  ⟨fun _ => ⟨0x02, 2, w, by decide, by decide, rfl, rfl⟩, no, no, no⟩
theorem Sys2Proof.Laws.Encodes.fmin (w : SWord) : Sys2Proof.Laws.Encodes.Statement (.fmin w) :=
  ⟨fun _ => ⟨0x03, 0, w, by decide, by decide, rfl, rfl⟩, no, no, no⟩
theorem Sys2Proof.Laws.Encodes.fmax (w : SWord) : Sys2Proof.Laws.Encodes.Statement (.fmax w) :=
  ⟨fun _ => ⟨0x03, 1, w, by decide, by decide, rfl, rfl⟩, no, no, no⟩
theorem Sys2Proof.Laws.Encodes.fcmp (cond : FCond) (w : SWord) : Sys2Proof.Laws.Encodes.Statement (.fcmp cond w) :=
  ⟨fun _ => ⟨0x04, _, w, by decide, by cases cond <;> decide, rfl, by cases cond <;> rfl⟩, no, no, no⟩
theorem Sys2Proof.Laws.Encodes.fclass (w : SWord) : Sys2Proof.Laws.Encodes.Statement (.fclass w) :=
  ⟨fun _ => ⟨0x05, 0, w, by decide, by decide, rfl, rfl⟩, no, no, no⟩
theorem Sys2Proof.Laws.Encodes.fabs (w : SWord) : Sys2Proof.Laws.Encodes.Statement (.fabs w) :=
  ⟨fun _ => ⟨0x06, 0, w, by decide, by decide, rfl, rfl⟩, no, no, no⟩
theorem Sys2Proof.Laws.Encodes.fneg (w : SWord) : Sys2Proof.Laws.Encodes.Statement (.fneg w) :=
  ⟨fun _ => ⟨0x06, 1, w, by decide, by decide, rfl, rfl⟩, no, no, no⟩
theorem Sys2Proof.Laws.Encodes.fcpys (w : SWord) : Sys2Proof.Laws.Encodes.Statement (.fcpys w) :=
  ⟨fun _ => ⟨0x06, 2, w, by decide, by decide, rfl, rfl⟩, no, no, no⟩
theorem Sys2Proof.Laws.Encodes.mov (w : SWord) : Sys2Proof.Laws.Encodes.Statement (.mov w) :=
  ⟨fun _ => ⟨0x18, 0, w, by decide, by decide, rfl, rfl⟩, no, no, no⟩
theorem Sys2Proof.Laws.Encodes.selStage (w : SWord) : Sys2Proof.Laws.Encodes.Statement (.selStage w) :=
  ⟨fun _ => ⟨0x18, 1, w, by decide, by decide, rfl, rfl⟩, no, no, no⟩
theorem Sys2Proof.Laws.Encodes.ldi (w : SWord) : Sys2Proof.Laws.Encodes.Statement (.ldi w) :=
  ⟨fun _ => ⟨0x19, 0, w, by decide, by decide, rfl, rfl⟩, no, no, no⟩
theorem Sys2Proof.Laws.Encodes.acc (w : SWord) : Sys2Proof.Laws.Encodes.Statement (.acc w) :=
  ⟨fun _ => ⟨0x1A, 0, w, by decide, by decide, rfl, rfl⟩, no, no, no⟩
theorem Sys2Proof.Laws.Encodes.nop (w : SWord) : Sys2Proof.Laws.Encodes.Statement (.nop w) :=
  ⟨fun _ => ⟨0x1F, 0, w, by decide, by decide, rfl, rfl⟩, no, no, no⟩
theorem Sys2Proof.Laws.Encodes.iadd (w : SWord) : Sys2Proof.Laws.Encodes.Statement (.iadd w) :=
  ⟨fun _ => ⟨0x20, 0, w, by decide, by decide, rfl, rfl⟩, no, no, no⟩
theorem Sys2Proof.Laws.Encodes.isub (w : SWord) : Sys2Proof.Laws.Encodes.Statement (.isub w) :=
  ⟨fun _ => ⟨0x20, 1, w, by decide, by decide, rfl, rfl⟩, no, no, no⟩
theorem Sys2Proof.Laws.Encodes.imul (w : SWord) : Sys2Proof.Laws.Encodes.Statement (.imul w) :=
  ⟨fun _ => ⟨0x21, 0, w, by decide, by decide, rfl, rfl⟩, no, no, no⟩
theorem Sys2Proof.Laws.Encodes.imulh (w : SWord) : Sys2Proof.Laws.Encodes.Statement (.imulh w) :=
  ⟨fun _ => ⟨0x21, 1, w, by decide, by decide, rfl, rfl⟩, no, no, no⟩
theorem Sys2Proof.Laws.Encodes.imulhu (w : SWord) : Sys2Proof.Laws.Encodes.Statement (.imulhu w) :=
  ⟨fun _ => ⟨0x21, 2, w, by decide, by decide, rfl, rfl⟩, no, no, no⟩
theorem Sys2Proof.Laws.Encodes.imin (w : SWord) : Sys2Proof.Laws.Encodes.Statement (.imin w) :=
  ⟨fun _ => ⟨0x22, 0, w, by decide, by decide, rfl, rfl⟩, no, no, no⟩
theorem Sys2Proof.Laws.Encodes.imax (w : SWord) : Sys2Proof.Laws.Encodes.Statement (.imax w) :=
  ⟨fun _ => ⟨0x22, 1, w, by decide, by decide, rfl, rfl⟩, no, no, no⟩
theorem Sys2Proof.Laws.Encodes.umin (w : SWord) : Sys2Proof.Laws.Encodes.Statement (.umin w) :=
  ⟨fun _ => ⟨0x22, 2, w, by decide, by decide, rfl, rfl⟩, no, no, no⟩
theorem Sys2Proof.Laws.Encodes.umax (w : SWord) : Sys2Proof.Laws.Encodes.Statement (.umax w) :=
  ⟨fun _ => ⟨0x22, 3, w, by decide, by decide, rfl, rfl⟩, no, no, no⟩
theorem Sys2Proof.Laws.Encodes.icmp (cond : ICond) (w : SWord) : Sys2Proof.Laws.Encodes.Statement (.icmp cond w) :=
  ⟨fun _ => ⟨0x23, _, w, by decide, by cases cond <;> decide, rfl, by cases cond <;> rfl⟩, no, no, no⟩
theorem Sys2Proof.Laws.Encodes.and (w : SWord) : Sys2Proof.Laws.Encodes.Statement (.and w) :=
  ⟨fun _ => ⟨0x24, 0, w, by decide, by decide, rfl, rfl⟩, no, no, no⟩
theorem Sys2Proof.Laws.Encodes.or (w : SWord) : Sys2Proof.Laws.Encodes.Statement (.or w) :=
  ⟨fun _ => ⟨0x24, 1, w, by decide, by decide, rfl, rfl⟩, no, no, no⟩
theorem Sys2Proof.Laws.Encodes.xor (w : SWord) : Sys2Proof.Laws.Encodes.Statement (.xor w) :=
  ⟨fun _ => ⟨0x24, 2, w, by decide, by decide, rfl, rfl⟩, no, no, no⟩
theorem Sys2Proof.Laws.Encodes.andn (w : SWord) : Sys2Proof.Laws.Encodes.Statement (.andn w) :=
  ⟨fun _ => ⟨0x24, 3, w, by decide, by decide, rfl, rfl⟩, no, no, no⟩
theorem Sys2Proof.Laws.Encodes.not (w : SWord) : Sys2Proof.Laws.Encodes.Statement (.not w) :=
  ⟨fun _ => ⟨0x24, 4, w, by decide, by decide, rfl, rfl⟩, no, no, no⟩
theorem Sys2Proof.Laws.Encodes.shl (w : SWord) : Sys2Proof.Laws.Encodes.Statement (.shl w) :=
  ⟨fun _ => ⟨0x25, 0, w, by decide, by decide, rfl, rfl⟩, no, no, no⟩
theorem Sys2Proof.Laws.Encodes.shr (w : SWord) : Sys2Proof.Laws.Encodes.Statement (.shr w) :=
  ⟨fun _ => ⟨0x25, 1, w, by decide, by decide, rfl, rfl⟩, no, no, no⟩
theorem Sys2Proof.Laws.Encodes.sar (w : SWord) : Sys2Proof.Laws.Encodes.Statement (.sar w) :=
  ⟨fun _ => ⟨0x25, 2, w, by decide, by decide, rfl, rfl⟩, no, no, no⟩
theorem Sys2Proof.Laws.Encodes.rotl (w : SWord) : Sys2Proof.Laws.Encodes.Statement (.rotl w) :=
  ⟨fun _ => ⟨0x25, 3, w, by decide, by decide, rfl, rfl⟩, no, no, no⟩
theorem Sys2Proof.Laws.Encodes.popc (w : SWord) : Sys2Proof.Laws.Encodes.Statement (.popc w) :=
  ⟨fun _ => ⟨0x26, 0, w, by decide, by decide, rfl, rfl⟩, no, no, no⟩
theorem Sys2Proof.Laws.Encodes.clz (w : SWord) : Sys2Proof.Laws.Encodes.Statement (.clz w) :=
  ⟨fun _ => ⟨0x26, 1, w, by decide, by decide, rfl, rfl⟩, no, no, no⟩
theorem Sys2Proof.Laws.Encodes.ctz (w : SWord) : Sys2Proof.Laws.Encodes.Statement (.ctz w) :=
  ⟨fun _ => ⟨0x26, 2, w, by decide, by decide, rfl, rfl⟩, no, no, no⟩
theorem Sys2Proof.Laws.Encodes.cvt (pair : Pair) (w : SWord) : Sys2Proof.Laws.Encodes.Statement (.cvt pair w) :=
  ⟨fun _ => ⟨0x40, _, w, by decide, by cases pair <;> decide, rfl, by cases pair <;> rfl⟩, no, no, no⟩
theorem Sys2Proof.Laws.Encodes.fdot8 (w : SWord) : Sys2Proof.Laws.Encodes.Statement (.fdot8 w) :=
  ⟨fun _ => ⟨0x41, 0, w, by decide, by decide, rfl, rfl⟩, no, no, no⟩
theorem Sys2Proof.Laws.Encodes.idot8 (w : SWord) : Sys2Proof.Laws.Encodes.Statement (.idot8 w) :=
  ⟨fun _ => ⟨0x42, 0, w, by decide, by decide, rfl, rfl⟩, no, no, no⟩
theorem Sys2Proof.Laws.Encodes.odot4 (w : SWord) : Sys2Proof.Laws.Encodes.Statement (.odot4 w) :=
  ⟨fun _ => ⟨0x43, 0, w, by decide, by decide, rfl, rfl⟩, no, no, no⟩
theorem Sys2Proof.Laws.Encodes.qblk (w : SWord) : Sys2Proof.Laws.Encodes.Statement (.qblk w) :=
  ⟨fun _ => ⟨0x44, 0, w, by decide, by decide, rfl, rfl⟩, no, no, no⟩
theorem Sys2Proof.Laws.Encodes.qo4 (w : SWord) : Sys2Proof.Laws.Encodes.Statement (.qo4 w) :=
  ⟨fun _ => ⟨0x44, 1, w, by decide, by decide, rfl, rfl⟩, no, no, no⟩
theorem Sys2Proof.Laws.Encodes.rcp (w : SWord) : Sys2Proof.Laws.Encodes.Statement (.rcp w) :=
  ⟨fun _ => ⟨0x50, 0, w, by decide, by decide, rfl, rfl⟩, no, no, no⟩
theorem Sys2Proof.Laws.Encodes.rsq (w : SWord) : Sys2Proof.Laws.Encodes.Statement (.rsq w) :=
  ⟨fun _ => ⟨0x50, 1, w, by decide, by decide, rfl, rfl⟩, no, no, no⟩
theorem Sys2Proof.Laws.Encodes.sqrt (w : SWord) : Sys2Proof.Laws.Encodes.Statement (.sqrt w) :=
  ⟨fun _ => ⟨0x50, 2, w, by decide, by decide, rfl, rfl⟩, no, no, no⟩
theorem Sys2Proof.Laws.Encodes.exp2 (w : SWord) : Sys2Proof.Laws.Encodes.Statement (.exp2 w) :=
  ⟨fun _ => ⟨0x51, 0, w, by decide, by decide, rfl, rfl⟩, no, no, no⟩
theorem Sys2Proof.Laws.Encodes.log2 (w : SWord) : Sys2Proof.Laws.Encodes.Statement (.log2 w) :=
  ⟨fun _ => ⟨0x51, 1, w, by decide, by decide, rfl, rfl⟩, no, no, no⟩
theorem Sys2Proof.Laws.Encodes.ln (w : SWord) : Sys2Proof.Laws.Encodes.Statement (.ln w) :=
  ⟨fun _ => ⟨0x51, 2, w, by decide, by decide, rfl, rfl⟩, no, no, no⟩
theorem Sys2Proof.Laws.Encodes.tanh (w : SWord) : Sys2Proof.Laws.Encodes.Statement (.tanh w) :=
  ⟨fun _ => ⟨0x52, 0, w, by decide, by decide, rfl, rfl⟩, no, no, no⟩
theorem Sys2Proof.Laws.Encodes.sigm (w : SWord) : Sys2Proof.Laws.Encodes.Statement (.sigm w) :=
  ⟨fun _ => ⟨0x52, 1, w, by decide, by decide, rfl, rfl⟩, no, no, no⟩
theorem Sys2Proof.Laws.Encodes.erf (w : SWord) : Sys2Proof.Laws.Encodes.Statement (.erf w) :=
  ⟨fun _ => ⟨0x52, 2, w, by decide, by decide, rfl, rfl⟩, no, no, no⟩
theorem Sys2Proof.Laws.Encodes.dfrom (w : SWord) : Sys2Proof.Laws.Encodes.Statement (.dfrom w) :=
  ⟨fun _ => ⟨0x58, 0, w, by decide, by decide, rfl, rfl⟩, no, no, no⟩
theorem Sys2Proof.Laws.Encodes.dto (w : SWord) : Sys2Proof.Laws.Encodes.Statement (.dto w) :=
  ⟨fun _ => ⟨0x58, 1, w, by decide, by decide, rfl, rfl⟩, no, no, no⟩
theorem Sys2Proof.Laws.Encodes.ddot (w : SWord) : Sys2Proof.Laws.Encodes.Statement (.ddot w) :=
  ⟨fun _ => ⟨0x59, 0, w, by decide, by decide, rfl, rfl⟩, no, no, no⟩
theorem Sys2Proof.Laws.Encodes.dadd (w : SWord) : Sys2Proof.Laws.Encodes.Statement (.dadd w) :=
  ⟨fun _ => ⟨0x5A, 0, w, by decide, by decide, rfl, rfl⟩, no, no, no⟩
theorem Sys2Proof.Laws.Encodes.dsub (w : SWord) : Sys2Proof.Laws.Encodes.Statement (.dsub w) :=
  ⟨fun _ => ⟨0x5A, 1, w, by decide, by decide, rfl, rfl⟩, no, no, no⟩
theorem Sys2Proof.Laws.Encodes.dneg (w : SWord) : Sys2Proof.Laws.Encodes.Statement (.dneg w) :=
  ⟨fun _ => ⟨0x5A, 2, w, by decide, by decide, rfl, rfl⟩, no, no, no⟩
theorem Sys2Proof.Laws.Encodes.dscl (w : SWord) : Sys2Proof.Laws.Encodes.Statement (.dscl w) :=
  ⟨fun _ => ⟨0x5B, 0, w, by decide, by decide, rfl, rfl⟩, no, no, no⟩
theorem Sys2Proof.Laws.Encodes.dlerp (w : SWord) : Sys2Proof.Laws.Encodes.Statement (.dlerp w) :=
  ⟨fun _ => ⟨0x5C, 0, w, by decide, by decide, rfl, rfl⟩, no, no, no⟩
theorem Sys2Proof.Laws.Encodes.dnrm (w : SWord) : Sys2Proof.Laws.Encodes.Statement (.dnrm w) :=
  ⟨fun _ => ⟨0x5D, 0, w, by decide, by decide, rfl, rfl⟩, no, no, no⟩
theorem Sys2Proof.Laws.Encodes.perm (w : SWord) : Sys2Proof.Laws.Encodes.Statement (.perm w) :=
  ⟨fun _ => ⟨0x60, 0, w, by decide, by decide, rfl, rfl⟩, no, no, no⟩
theorem Sys2Proof.Laws.Encodes.bcast (w : SWord) : Sys2Proof.Laws.Encodes.Statement (.bcast w) :=
  ⟨fun _ => ⟨0x61, 0, w, by decide, by decide, rfl, rfl⟩, no, no, no⟩
theorem Sys2Proof.Laws.Encodes.lrot (w : SWord) : Sys2Proof.Laws.Encodes.Statement (.lrot w) :=
  ⟨fun _ => ⟨0x62, 0, w, by decide, by decide, rfl, rfl⟩, no, no, no⟩
theorem Sys2Proof.Laws.Encodes.red (op : RedOp) (w : SWord) : Sys2Proof.Laws.Encodes.Statement (.red op w) :=
  ⟨fun _ => ⟨0x63, _, w, by decide, by cases op <;> decide, rfl, by cases op <;> rfl⟩, no, no, no⟩
theorem Sys2Proof.Laws.Encodes.scan (op : ScanOp) (w : SWord) : Sys2Proof.Laws.Encodes.Statement (.scan op w) :=
  ⟨fun _ => ⟨0x64, _, w, by decide, by cases op <;> decide, rfl, by cases op <;> rfl⟩, no, no, no⟩
theorem Sys2Proof.Laws.Encodes.argmax (w : SWord) : Sys2Proof.Laws.Encodes.Statement (.argmax w) :=
  ⟨fun _ => ⟨0x65, 0, w, by decide, by decide, rfl, rfl⟩, no, no, no⟩
theorem Sys2Proof.Laws.Encodes.filt (w : SWord) : Sys2Proof.Laws.Encodes.Statement (.filt w) :=
  ⟨fun _ => ⟨0x68, 0, w, by decide, by decide, rfl, rfl⟩, no, no, no⟩
theorem Sys2Proof.Laws.Encodes.cmpk (w : SWord) : Sys2Proof.Laws.Encodes.Statement (.cmpk w) :=
  ⟨fun _ => ⟨0x69, 0, w, by decide, by decide, rfl, rfl⟩, no, no, no⟩
theorem Sys2Proof.Laws.Encodes.expnd (w : SWord) : Sys2Proof.Laws.Encodes.Statement (.expnd w) :=
  ⟨fun _ => ⟨0x6A, 0, w, by decide, by decide, rfl, rfl⟩, no, no, no⟩
theorem Sys2Proof.Laws.Encodes.packt (w : SWord) : Sys2Proof.Laws.Encodes.Statement (.packt w) :=
  ⟨fun _ => ⟨0x6B, 0, w, by decide, by decide, rfl, rfl⟩, no, no, no⟩
theorem Sys2Proof.Laws.Encodes.tenter (w : SWord) : Sys2Proof.Laws.Encodes.Statement (.tenter w) :=
  ⟨fun _ => ⟨0x70, 0, w, by decide, by decide, rfl, rfl⟩, no, no, no⟩
theorem Sys2Proof.Laws.Encodes.tleave (w : SWord) : Sys2Proof.Laws.Encodes.Statement (.tleave w) :=
  ⟨fun _ => ⟨0x70, 1, w, by decide, by decide, rfl, rfl⟩, no, no, no⟩
theorem Sys2Proof.Laws.Encodes.tstep (w : SWord) : Sys2Proof.Laws.Encodes.Statement (.tstep w) :=
  ⟨fun _ => ⟨0x70, 2, w, by decide, by decide, rfl, rfl⟩, no, no, no⟩
theorem Sys2Proof.Laws.Encodes.tget (w : SWord) : Sys2Proof.Laws.Encodes.Statement (.tget w) :=
  ⟨fun _ => ⟨0x71, 0, w, by decide, by decide, rfl, rfl⟩, no, no, no⟩
theorem Sys2Proof.Laws.Encodes.notify (w : SWord) : Sys2Proof.Laws.Encodes.Statement (.notify w) :=
  ⟨fun _ => ⟨0x72, 0, w, by decide, by decide, rfl, rfl⟩, no, no, no⟩
theorem Sys2Proof.Laws.Encodes.eos (w : SWord) : Sys2Proof.Laws.Encodes.Statement (.eos w) :=
  ⟨fun _ => ⟨0x73, 0, w, by decide, by decide, rfl, rfl⟩, no, no, no⟩
theorem Sys2Proof.Laws.Encodes.sld (w : SWord) : Sys2Proof.Laws.Encodes.Statement (.sld w) :=
  ⟨fun _ => ⟨0x78, 0, w, by decide, by decide, rfl, rfl⟩, no, no, no⟩
theorem Sys2Proof.Laws.Encodes.sst (w : SWord) : Sys2Proof.Laws.Encodes.Statement (.sst w) :=
  ⟨fun _ => ⟨0x78, 1, w, by decide, by decide, rfl, rfl⟩, no, no, no⟩
theorem Sys2Proof.Laws.Encodes.ldh (w : SWord) : Sys2Proof.Laws.Encodes.Statement (.ldh w) :=
  ⟨fun _ => ⟨0x79, 0, w, by decide, by decide, rfl, rfl⟩, no, no, no⟩
theorem Sys2Proof.Laws.Encodes.sth (w : SWord) : Sys2Proof.Laws.Encodes.Statement (.sth w) :=
  ⟨fun _ => ⟨0x79, 1, w, by decide, by decide, rfl, rfl⟩, no, no, no⟩
theorem Sys2Proof.Laws.Encodes.advh (w : SWord) : Sys2Proof.Laws.Encodes.Statement (.advh w) :=
  ⟨fun _ => ⟨0x7A, 0, w, by decide, by decide, rfl, rfl⟩, no, no, no⟩
theorem Sys2Proof.Laws.Encodes.waith (w : SWord) : Sys2Proof.Laws.Encodes.Statement (.waith w) :=
  ⟨fun _ => ⟨0x7A, 1, w, by decide, by decide, rfl, rfl⟩, no, no, no⟩
theorem Sys2Proof.Laws.Encodes.peekh (w : SWord) : Sys2Proof.Laws.Encodes.Statement (.peekh w) :=
  ⟨fun _ => ⟨0x7A, 2, w, by decide, by decide, rfl, rfl⟩, no, no, no⟩
theorem Sys2Proof.Laws.Encodes.waitx (w : SWord) : Sys2Proof.Laws.Encodes.Statement (.waitx w) :=
  ⟨fun _ => ⟨0x7B, 0, w, by decide, by decide, rfl, rfl⟩, no, no, no⟩
theorem Sys2Proof.Laws.Encodes.samo (w : SWord) : Sys2Proof.Laws.Encodes.Statement (.samo w) :=
  ⟨fun _ => ⟨0x7C, 0, w, by decide, by decide, rfl, rfl⟩, no, no, no⟩
theorem Sys2Proof.Laws.Encodes.smaxi (w : SWord) : Sys2Proof.Laws.Encodes.Statement (.smaxi w) :=
  ⟨fun _ => ⟨0xE1, 0, w, by decide, by decide, rfl, rfl⟩, no, no, no⟩
theorem Sys2Proof.Laws.Encodes.nfastep (w : SWord) : Sys2Proof.Laws.Encodes.Statement (.nfastep w) :=
  ⟨fun _ => ⟨0xE2, 0, w, by decide, by decide, rfl, rfl⟩, no, no, no⟩
theorem Sys2Proof.Laws.Encodes.nfamsk (w : SWord) : Sys2Proof.Laws.Encodes.Statement (.nfamsk w) :=
  ⟨fun _ => ⟨0xE3, 0, w, by decide, by decide, rfl, rfl⟩, no, no, no⟩
theorem Sys2Proof.Laws.Encodes.exitq (w : SWord) : Sys2Proof.Laws.Encodes.Statement (.exitq w) :=
  ⟨fun _ => ⟨0xE8, 0, w, by decide, by decide, rfl, rfl⟩, no, no, no⟩
theorem Sys2Proof.Laws.Encodes.faddBlock (w : BWord) : Sys2Proof.Laws.Encodes.Statement (.faddBlock w) :=
  ⟨no, fun _ => ⟨0x00, 0, w, by decide, by decide, rfl, rfl⟩, no, no⟩
theorem Sys2Proof.Laws.Encodes.fsubBlock (w : BWord) : Sys2Proof.Laws.Encodes.Statement (.fsubBlock w) :=
  ⟨no, fun _ => ⟨0x00, 1, w, by decide, by decide, rfl, rfl⟩, no, no⟩
theorem Sys2Proof.Laws.Encodes.fmulBlock (w : BWord) : Sys2Proof.Laws.Encodes.Statement (.fmulBlock w) :=
  ⟨no, fun _ => ⟨0x01, 0, w, by decide, by decide, rfl, rfl⟩, no, no⟩
theorem Sys2Proof.Laws.Encodes.ffmaBlock (w : BWord) : Sys2Proof.Laws.Encodes.Statement (.ffmaBlock w) :=
  ⟨no, fun _ => ⟨0x02, 0, w, by decide, by decide, rfl, rfl⟩, no, no⟩
theorem Sys2Proof.Laws.Encodes.ffmsBlock (w : BWord) : Sys2Proof.Laws.Encodes.Statement (.ffmsBlock w) :=
  ⟨no, fun _ => ⟨0x02, 1, w, by decide, by decide, rfl, rfl⟩, no, no⟩
theorem Sys2Proof.Laws.Encodes.fnmaBlock (w : BWord) : Sys2Proof.Laws.Encodes.Statement (.fnmaBlock w) :=
  ⟨no, fun _ => ⟨0x02, 2, w, by decide, by decide, rfl, rfl⟩, no, no⟩
theorem Sys2Proof.Laws.Encodes.fminBlock (w : BWord) : Sys2Proof.Laws.Encodes.Statement (.fminBlock w) :=
  ⟨no, fun _ => ⟨0x03, 0, w, by decide, by decide, rfl, rfl⟩, no, no⟩
theorem Sys2Proof.Laws.Encodes.fmaxBlock (w : BWord) : Sys2Proof.Laws.Encodes.Statement (.fmaxBlock w) :=
  ⟨no, fun _ => ⟨0x03, 1, w, by decide, by decide, rfl, rfl⟩, no, no⟩
theorem Sys2Proof.Laws.Encodes.fcmpBlock (cond : FCond) (w : BWord) : Sys2Proof.Laws.Encodes.Statement (.fcmpBlock cond w) :=
  ⟨no, fun _ => ⟨0x04, _, w, by decide, by cases cond <;> decide, rfl, by cases cond <;> rfl⟩, no, no⟩
theorem Sys2Proof.Laws.Encodes.fclassBlock (w : BWord) : Sys2Proof.Laws.Encodes.Statement (.fclassBlock w) :=
  ⟨no, fun _ => ⟨0x05, 0, w, by decide, by decide, rfl, rfl⟩, no, no⟩
theorem Sys2Proof.Laws.Encodes.fabsBlock (w : BWord) : Sys2Proof.Laws.Encodes.Statement (.fabsBlock w) :=
  ⟨no, fun _ => ⟨0x06, 0, w, by decide, by decide, rfl, rfl⟩, no, no⟩
theorem Sys2Proof.Laws.Encodes.fnegBlock (w : BWord) : Sys2Proof.Laws.Encodes.Statement (.fnegBlock w) :=
  ⟨no, fun _ => ⟨0x06, 1, w, by decide, by decide, rfl, rfl⟩, no, no⟩
theorem Sys2Proof.Laws.Encodes.fcpysBlock (w : BWord) : Sys2Proof.Laws.Encodes.Statement (.fcpysBlock w) :=
  ⟨no, fun _ => ⟨0x06, 2, w, by decide, by decide, rfl, rfl⟩, no, no⟩
theorem Sys2Proof.Laws.Encodes.movBlock (w : BWord) : Sys2Proof.Laws.Encodes.Statement (.movBlock w) :=
  ⟨no, fun _ => ⟨0x18, 0, w, by decide, by decide, rfl, rfl⟩, no, no⟩
theorem Sys2Proof.Laws.Encodes.selBlock (w : BWord) : Sys2Proof.Laws.Encodes.Statement (.selBlock w) :=
  ⟨no, fun _ => ⟨0x18, 1, w, by decide, by decide, rfl, rfl⟩, no, no⟩
theorem Sys2Proof.Laws.Encodes.nopBlock (w : BWord) : Sys2Proof.Laws.Encodes.Statement (.nopBlock w) :=
  ⟨no, fun _ => ⟨0x1F, 0, w, by decide, by decide, rfl, rfl⟩, no, no⟩
theorem Sys2Proof.Laws.Encodes.iaddBlock (w : BWord) : Sys2Proof.Laws.Encodes.Statement (.iaddBlock w) :=
  ⟨no, fun _ => ⟨0x20, 0, w, by decide, by decide, rfl, rfl⟩, no, no⟩
theorem Sys2Proof.Laws.Encodes.isubBlock (w : BWord) : Sys2Proof.Laws.Encodes.Statement (.isubBlock w) :=
  ⟨no, fun _ => ⟨0x20, 1, w, by decide, by decide, rfl, rfl⟩, no, no⟩
theorem Sys2Proof.Laws.Encodes.imulBlock (w : BWord) : Sys2Proof.Laws.Encodes.Statement (.imulBlock w) :=
  ⟨no, fun _ => ⟨0x21, 0, w, by decide, by decide, rfl, rfl⟩, no, no⟩
theorem Sys2Proof.Laws.Encodes.imulhBlock (w : BWord) : Sys2Proof.Laws.Encodes.Statement (.imulhBlock w) :=
  ⟨no, fun _ => ⟨0x21, 1, w, by decide, by decide, rfl, rfl⟩, no, no⟩
theorem Sys2Proof.Laws.Encodes.imulhuBlock (w : BWord) : Sys2Proof.Laws.Encodes.Statement (.imulhuBlock w) :=
  ⟨no, fun _ => ⟨0x21, 2, w, by decide, by decide, rfl, rfl⟩, no, no⟩
theorem Sys2Proof.Laws.Encodes.iminBlock (w : BWord) : Sys2Proof.Laws.Encodes.Statement (.iminBlock w) :=
  ⟨no, fun _ => ⟨0x22, 0, w, by decide, by decide, rfl, rfl⟩, no, no⟩
theorem Sys2Proof.Laws.Encodes.imaxBlock (w : BWord) : Sys2Proof.Laws.Encodes.Statement (.imaxBlock w) :=
  ⟨no, fun _ => ⟨0x22, 1, w, by decide, by decide, rfl, rfl⟩, no, no⟩
theorem Sys2Proof.Laws.Encodes.uminBlock (w : BWord) : Sys2Proof.Laws.Encodes.Statement (.uminBlock w) :=
  ⟨no, fun _ => ⟨0x22, 2, w, by decide, by decide, rfl, rfl⟩, no, no⟩
theorem Sys2Proof.Laws.Encodes.umaxBlock (w : BWord) : Sys2Proof.Laws.Encodes.Statement (.umaxBlock w) :=
  ⟨no, fun _ => ⟨0x22, 3, w, by decide, by decide, rfl, rfl⟩, no, no⟩
theorem Sys2Proof.Laws.Encodes.icmpBlock (cond : ICond) (w : BWord) : Sys2Proof.Laws.Encodes.Statement (.icmpBlock cond w) :=
  ⟨no, fun _ => ⟨0x23, _, w, by decide, by cases cond <;> decide, rfl, by cases cond <;> rfl⟩, no, no⟩
theorem Sys2Proof.Laws.Encodes.andBlock (w : BWord) : Sys2Proof.Laws.Encodes.Statement (.andBlock w) :=
  ⟨no, fun _ => ⟨0x24, 0, w, by decide, by decide, rfl, rfl⟩, no, no⟩
theorem Sys2Proof.Laws.Encodes.orBlock (w : BWord) : Sys2Proof.Laws.Encodes.Statement (.orBlock w) :=
  ⟨no, fun _ => ⟨0x24, 1, w, by decide, by decide, rfl, rfl⟩, no, no⟩
theorem Sys2Proof.Laws.Encodes.xorBlock (w : BWord) : Sys2Proof.Laws.Encodes.Statement (.xorBlock w) :=
  ⟨no, fun _ => ⟨0x24, 2, w, by decide, by decide, rfl, rfl⟩, no, no⟩
theorem Sys2Proof.Laws.Encodes.andnBlock (w : BWord) : Sys2Proof.Laws.Encodes.Statement (.andnBlock w) :=
  ⟨no, fun _ => ⟨0x24, 3, w, by decide, by decide, rfl, rfl⟩, no, no⟩
theorem Sys2Proof.Laws.Encodes.notBlock (w : BWord) : Sys2Proof.Laws.Encodes.Statement (.notBlock w) :=
  ⟨no, fun _ => ⟨0x24, 4, w, by decide, by decide, rfl, rfl⟩, no, no⟩
theorem Sys2Proof.Laws.Encodes.shlBlock (w : BWord) : Sys2Proof.Laws.Encodes.Statement (.shlBlock w) :=
  ⟨no, fun _ => ⟨0x25, 0, w, by decide, by decide, rfl, rfl⟩, no, no⟩
theorem Sys2Proof.Laws.Encodes.shrBlock (w : BWord) : Sys2Proof.Laws.Encodes.Statement (.shrBlock w) :=
  ⟨no, fun _ => ⟨0x25, 1, w, by decide, by decide, rfl, rfl⟩, no, no⟩
theorem Sys2Proof.Laws.Encodes.sarBlock (w : BWord) : Sys2Proof.Laws.Encodes.Statement (.sarBlock w) :=
  ⟨no, fun _ => ⟨0x25, 2, w, by decide, by decide, rfl, rfl⟩, no, no⟩
theorem Sys2Proof.Laws.Encodes.rotlBlock (w : BWord) : Sys2Proof.Laws.Encodes.Statement (.rotlBlock w) :=
  ⟨no, fun _ => ⟨0x25, 3, w, by decide, by decide, rfl, rfl⟩, no, no⟩
theorem Sys2Proof.Laws.Encodes.popcBlock (w : BWord) : Sys2Proof.Laws.Encodes.Statement (.popcBlock w) :=
  ⟨no, fun _ => ⟨0x26, 0, w, by decide, by decide, rfl, rfl⟩, no, no⟩
theorem Sys2Proof.Laws.Encodes.clzBlock (w : BWord) : Sys2Proof.Laws.Encodes.Statement (.clzBlock w) :=
  ⟨no, fun _ => ⟨0x26, 1, w, by decide, by decide, rfl, rfl⟩, no, no⟩
theorem Sys2Proof.Laws.Encodes.ctzBlock (w : BWord) : Sys2Proof.Laws.Encodes.Statement (.ctzBlock w) :=
  ⟨no, fun _ => ⟨0x26, 2, w, by decide, by decide, rfl, rfl⟩, no, no⟩
theorem Sys2Proof.Laws.Encodes.cvtBlock (pair : Pair) (w : BWord) : Sys2Proof.Laws.Encodes.Statement (.cvtBlock pair w) :=
  ⟨no, fun _ => ⟨0x40, _, w, by decide, by cases pair <;> decide, rfl, by cases pair <;> rfl⟩, no, no⟩
theorem Sys2Proof.Laws.Encodes.dfromBlock (w : BWord) : Sys2Proof.Laws.Encodes.Statement (.dfromBlock w) :=
  ⟨no, fun _ => ⟨0x58, 0, w, by decide, by decide, rfl, rfl⟩, no, no⟩
theorem Sys2Proof.Laws.Encodes.dtoBlock (w : BWord) : Sys2Proof.Laws.Encodes.Statement (.dtoBlock w) :=
  ⟨no, fun _ => ⟨0x58, 1, w, by decide, by decide, rfl, rfl⟩, no, no⟩
theorem Sys2Proof.Laws.Encodes.ddotBlock (w : BWord) : Sys2Proof.Laws.Encodes.Statement (.ddotBlock w) :=
  ⟨no, fun _ => ⟨0x59, 0, w, by decide, by decide, rfl, rfl⟩, no, no⟩
theorem Sys2Proof.Laws.Encodes.daddBlock (w : BWord) : Sys2Proof.Laws.Encodes.Statement (.daddBlock w) :=
  ⟨no, fun _ => ⟨0x5A, 0, w, by decide, by decide, rfl, rfl⟩, no, no⟩
theorem Sys2Proof.Laws.Encodes.dsubBlock (w : BWord) : Sys2Proof.Laws.Encodes.Statement (.dsubBlock w) :=
  ⟨no, fun _ => ⟨0x5A, 1, w, by decide, by decide, rfl, rfl⟩, no, no⟩
theorem Sys2Proof.Laws.Encodes.dnegBlock (w : BWord) : Sys2Proof.Laws.Encodes.Statement (.dnegBlock w) :=
  ⟨no, fun _ => ⟨0x5A, 2, w, by decide, by decide, rfl, rfl⟩, no, no⟩
theorem Sys2Proof.Laws.Encodes.dsclBlock (w : BWord) : Sys2Proof.Laws.Encodes.Statement (.dsclBlock w) :=
  ⟨no, fun _ => ⟨0x5B, 0, w, by decide, by decide, rfl, rfl⟩, no, no⟩
theorem Sys2Proof.Laws.Encodes.dlerpBlock (w : BWord) : Sys2Proof.Laws.Encodes.Statement (.dlerpBlock w) :=
  ⟨no, fun _ => ⟨0x5C, 0, w, by decide, by decide, rfl, rfl⟩, no, no⟩
theorem Sys2Proof.Laws.Encodes.dnrmBlock (w : BWord) : Sys2Proof.Laws.Encodes.Statement (.dnrmBlock w) :=
  ⟨no, fun _ => ⟨0x5D, 0, w, by decide, by decide, rfl, rfl⟩, no, no⟩
theorem Sys2Proof.Laws.Encodes.ret (w : BWord) : Sys2Proof.Laws.Encodes.Statement (.ret w) :=
  ⟨no, fun _ => ⟨0x81, 1, w, by decide, by decide, rfl, rfl⟩, no, no⟩
theorem Sys2Proof.Laws.Encodes.call (w : BWord) : Sys2Proof.Laws.Encodes.Statement (.call w) :=
  ⟨no, fun _ => ⟨0x81, 0, w, by decide, by decide, rfl, rfl⟩, no, no⟩
theorem Sys2Proof.Laws.Encodes.loop (w : BWord) : Sys2Proof.Laws.Encodes.Statement (.loop w) :=
  ⟨no, fun _ => ⟨0x82, 0, w, by decide, by decide, rfl, rfl⟩, no, no⟩
theorem Sys2Proof.Laws.Encodes.fork (w : BWord) : Sys2Proof.Laws.Encodes.Statement (.fork w) :=
  ⟨no, fun _ => ⟨0x83, 0, w, by decide, by decide, rfl, rfl⟩, no, no⟩
theorem Sys2Proof.Laws.Encodes.halt (w : BWord) : Sys2Proof.Laws.Encodes.Statement (.halt w) :=
  ⟨no, fun _ => ⟨0x84, 0, w, by decide, by decide, rfl, rfl⟩, no, no⟩
theorem Sys2Proof.Laws.Encodes.yield (w : BWord) : Sys2Proof.Laws.Encodes.Statement (.yield w) :=
  ⟨no, fun _ => ⟨0x84, 1, w, by decide, by decide, rfl, rfl⟩, no, no⟩
theorem Sys2Proof.Laws.Encodes.lea (w : BWord) : Sys2Proof.Laws.Encodes.Statement (.lea w) :=
  ⟨no, fun _ => ⟨0x88, 0, w, by decide, by decide, rfl, rfl⟩, no, no⟩
theorem Sys2Proof.Laws.Encodes.movi (w : BWord) : Sys2Proof.Laws.Encodes.Statement (.movi w) :=
  ⟨no, fun _ => ⟨0x89, 0, w, by decide, by decide, rfl, rfl⟩, no, no⟩
theorem Sys2Proof.Laws.Encodes.movhi (w : BWord) : Sys2Proof.Laws.Encodes.Statement (.movhi w) :=
  ⟨no, fun _ => ⟨0x89, 1, w, by decide, by decide, rfl, rfl⟩, no, no⟩
theorem Sys2Proof.Laws.Encodes.bfext (w : BWord) : Sys2Proof.Laws.Encodes.Statement (.bfext w) :=
  ⟨no, fun _ => ⟨0x8A, 0, w, by decide, by decide, rfl, rfl⟩, no, no⟩
theorem Sys2Proof.Laws.Encodes.bfins (w : BWord) : Sys2Proof.Laws.Encodes.Statement (.bfins w) :=
  ⟨no, fun _ => ⟨0x8A, 1, w, by decide, by decide, rfl, rfl⟩, no, no⟩
theorem Sys2Proof.Laws.Encodes.spawnp (w : BWord) : Sys2Proof.Laws.Encodes.Statement (.spawnp w) :=
  ⟨no, fun _ => ⟨0xB0, 0, w, by decide, by decide, rfl, rfl⟩, no, no⟩
theorem Sys2Proof.Laws.Encodes.resolve (w : BWord) : Sys2Proof.Laws.Encodes.Statement (.resolve w) :=
  ⟨no, fun _ => ⟨0xB1, 0, w, by decide, by decide, rfl, rfl⟩, no, no⟩
theorem Sys2Proof.Laws.Encodes.squash (w : BWord) : Sys2Proof.Laws.Encodes.Statement (.squash w) :=
  ⟨no, fun _ => ⟨0xB2, 0, w, by decide, by decide, rfl, rfl⟩, no, no⟩
theorem Sys2Proof.Laws.Encodes.lkrd (w : BWord) : Sys2Proof.Laws.Encodes.Statement (.lkrd w) :=
  ⟨no, fun _ => ⟨0xB3, 0, w, by decide, by decide, rfl, rfl⟩, no, no⟩
theorem Sys2Proof.Laws.Encodes.barx (w : BWord) : Sys2Proof.Laws.Encodes.Statement (.barx w) :=
  ⟨no, fun _ => ⟨0xB9, 0, w, by decide, by decide, rfl, rfl⟩, no, no⟩
theorem Sys2Proof.Laws.Encodes.sysr (w : BWord) : Sys2Proof.Laws.Encodes.Statement (.sysr w) :=
  ⟨no, fun _ => ⟨0xF0, 0, w, by decide, by decide, rfl, rfl⟩, no, no⟩
theorem Sys2Proof.Laws.Encodes.sysw (w : BWord) : Sys2Proof.Laws.Encodes.Statement (.sysw w) :=
  ⟨no, fun _ => ⟨0xF0, 1, w, by decide, by decide, rfl, rfl⟩, no, no⟩
theorem Sys2Proof.Laws.Encodes.trap (w : BWord) : Sys2Proof.Laws.Encodes.Statement (.trap w) :=
  ⟨no, fun _ => ⟨0xF1, 0, w, by decide, by decide, rfl, rfl⟩, no, no⟩
theorem Sys2Proof.Laws.Encodes.ecall (w : BWord) : Sys2Proof.Laws.Encodes.Statement (.ecall w) :=
  ⟨no, fun _ => ⟨0xF1, 1, w, by decide, by decide, rfl, rfl⟩, no, no⟩
theorem Sys2Proof.Laws.Encodes.poison (w : BWord) : Sys2Proof.Laws.Encodes.Statement (.poison w) :=
  ⟨no, fun _ => ⟨0xF2, 0, w, by decide, by decide, rfl, rfl⟩, no, no⟩
theorem Sys2Proof.Laws.Encodes.quies (w : BWord) : Sys2Proof.Laws.Encodes.Statement (.quies w) :=
  ⟨no, fun _ => ⟨0xF3, 0, w, by decide, by decide, rfl, rfl⟩, no, no⟩
theorem Sys2Proof.Laws.Encodes.invt (w : BWord) : Sys2Proof.Laws.Encodes.Statement (.invt w) :=
  ⟨no, fun _ => ⟨0xF4, 0, w, by decide, by decide, rfl, rfl⟩, no, no⟩
theorem Sys2Proof.Laws.Encodes.sldBlock (w : MWord) : Sys2Proof.Laws.Encodes.Statement (.sldBlock w) :=
  ⟨no, no, fun _ => ⟨0x78, 0, w, by decide, by decide, rfl, rfl⟩, no⟩
theorem Sys2Proof.Laws.Encodes.sstBlock (w : MWord) : Sys2Proof.Laws.Encodes.Statement (.sstBlock w) :=
  ⟨no, no, fun _ => ⟨0x78, 1, w, by decide, by decide, rfl, rfl⟩, no⟩
theorem Sys2Proof.Laws.Encodes.samoBlock (w : MWord) : Sys2Proof.Laws.Encodes.Statement (.samoBlock w) :=
  ⟨no, no, fun _ => ⟨0x7C, 0, w, by decide, by decide, rfl, rfl⟩, no⟩
theorem Sys2Proof.Laws.Encodes.ld (w : MWord) : Sys2Proof.Laws.Encodes.Statement (.ld w) :=
  ⟨no, no, fun _ => ⟨0xA0, 0, w, by decide, by decide, rfl, rfl⟩, no⟩
theorem Sys2Proof.Laws.Encodes.ldv (w : MWord) : Sys2Proof.Laws.Encodes.Statement (.ldv w) :=
  ⟨no, no, fun _ => ⟨0xA1, 0, w, by decide, by decide, rfl, rfl⟩, no⟩
theorem Sys2Proof.Laws.Encodes.st (w : MWord) : Sys2Proof.Laws.Encodes.Statement (.st w) :=
  ⟨no, no, fun _ => ⟨0xA0, 1, w, by decide, by decide, rfl, rfl⟩, no⟩
theorem Sys2Proof.Laws.Encodes.stv (w : MWord) : Sys2Proof.Laws.Encodes.Statement (.stv w) :=
  ⟨no, no, fun _ => ⟨0xA1, 1, w, by decide, by decide, rfl, rfl⟩, no⟩
theorem Sys2Proof.Laws.Encodes.pref (w : MWord) : Sys2Proof.Laws.Encodes.Statement (.pref w) :=
  ⟨no, no, fun _ => ⟨0xA2, 0, w, by decide, by decide, rfl, rfl⟩, no⟩
theorem Sys2Proof.Laws.Encodes.amo (w : MWord) : Sys2Proof.Laws.Encodes.Statement (.amo w) :=
  ⟨no, no, fun _ => ⟨0xA3, 0, w, by decide, by decide, rfl, rfl⟩, no⟩
theorem Sys2Proof.Laws.Encodes.famo (w : MWord) : Sys2Proof.Laws.Encodes.Statement (.famo w) :=
  ⟨no, no, fun _ => ⟨0xA4, 0, w, by decide, by decide, rfl, rfl⟩, no⟩
theorem Sys2Proof.Laws.Encodes.cas (w : MWord) : Sys2Proof.Laws.Encodes.Statement (.cas w) :=
  ⟨no, no, fun _ => ⟨0xA5, 0, w, by decide, by decide, rfl, rfl⟩, no⟩
theorem Sys2Proof.Laws.Encodes.fence (w : MWord) : Sys2Proof.Laws.Encodes.Statement (.fence w) :=
  ⟨no, no, fun _ => ⟨0xA6, 0, w, by decide, by decide, rfl, rfl⟩, no⟩
theorem Sys2Proof.Laws.Encodes.dld (w : MWord) : Sys2Proof.Laws.Encodes.Statement (.dld w) :=
  ⟨no, no, fun _ => ⟨0xA8, 0, w, by decide, by decide, rfl, rfl⟩, no⟩
theorem Sys2Proof.Laws.Encodes.dst (w : MWord) : Sys2Proof.Laws.Encodes.Statement (.dst w) :=
  ⟨no, no, fun _ => ⟨0xA8, 1, w, by decide, by decide, rfl, rfl⟩, no⟩
theorem Sys2Proof.Laws.Encodes.swset (w : MWord) : Sys2Proof.Laws.Encodes.Statement (.swset w) :=
  ⟨no, no, fun _ => ⟨0xB8, 0, w, by decide, by decide, rfl, rfl⟩, no⟩
theorem Sys2Proof.Laws.Encodes.swwait (w : MWord) : Sys2Proof.Laws.Encodes.Statement (.swwait w) :=
  ⟨no, no, fun _ => ⟨0xB8, 1, w, by decide, by decide, rfl, rfl⟩, no⟩
theorem Sys2Proof.Laws.Encodes.xst (w : MWord) : Sys2Proof.Laws.Encodes.Statement (.xst w) :=
  ⟨no, no, fun _ => ⟨0xBA, 0, w, by decide, by decide, rfl, rfl⟩, no⟩
theorem Sys2Proof.Laws.Encodes.strmLd (w : EWord) : Sys2Proof.Laws.Encodes.Statement (.strmLd w) :=
  ⟨no, no, no, fun _ => ⟨0xC0, 0, w, by decide, by decide, rfl, rfl⟩⟩
theorem Sys2Proof.Laws.Encodes.strmSt (w : EWord) : Sys2Proof.Laws.Encodes.Statement (.strmSt w) :=
  ⟨no, no, no, fun _ => ⟨0xC0, 1, w, by decide, by decide, rfl, rfl⟩⟩
theorem Sys2Proof.Laws.Encodes.strmGth (w : EWord) : Sys2Proof.Laws.Encodes.Statement (.strmGth w) :=
  ⟨no, no, no, fun _ => ⟨0xC0, 2, w, by decide, by decide, rfl, rfl⟩⟩
theorem Sys2Proof.Laws.Encodes.strmSct (w : EWord) : Sys2Proof.Laws.Encodes.Statement (.strmSct w) :=
  ⟨no, no, no, fun _ => ⟨0xC0, 3, w, by decide, by decide, rfl, rfl⟩⟩
theorem Sys2Proof.Laws.Encodes.strmWin (w : EWord) : Sys2Proof.Laws.Encodes.Statement (.strmWin w) :=
  ⟨no, no, no, fun _ => ⟨0xC0, 4, w, by decide, by decide, rfl, rfl⟩⟩
theorem Sys2Proof.Laws.Encodes.strmStop (w : EWord) : Sys2Proof.Laws.Encodes.Statement (.strmStop w) :=
  ⟨no, no, no, fun _ => ⟨0xC1, 0, w, by decide, by decide, rfl, rfl⟩⟩
theorem Sys2Proof.Laws.Encodes.strmPos (w : EWord) : Sys2Proof.Laws.Encodes.Statement (.strmPos w) :=
  ⟨no, no, no, fun _ => ⟨0xC1, 1, w, by decide, by decide, rfl, rfl⟩⟩
theorem Sys2Proof.Laws.Encodes.cpy (w : EWord) : Sys2Proof.Laws.Encodes.Statement (.cpy w) :=
  ⟨no, no, no, fun _ => ⟨0xC2, 0, w, by decide, by decide, rfl, rfl⟩⟩
theorem Sys2Proof.Laws.Encodes.plane (w : EWord) : Sys2Proof.Laws.Encodes.Statement (.plane w) :=
  ⟨no, no, no, fun _ => ⟨0xC3, 0, w, by decide, by decide, rfl, rfl⟩⟩
theorem Sys2Proof.Laws.Encodes.tilef (w : EWord) : Sys2Proof.Laws.Encodes.Statement (.tilef w) :=
  ⟨no, no, no, fun _ => ⟨0xD0, 0, w, by decide, by decide, rfl, rfl⟩⟩
theorem Sys2Proof.Laws.Encodes.tilee (w : EWord) : Sys2Proof.Laws.Encodes.Statement (.tilee w) :=
  ⟨no, no, no, fun _ => ⟨0xD0, 1, w, by decide, by decide, rfl, rfl⟩⟩
theorem Sys2Proof.Laws.Encodes.mxrd (w : EWord) : Sys2Proof.Laws.Encodes.Statement (.mxrd w) :=
  ⟨no, no, no, fun _ => ⟨0xD1, 0, w, by decide, by decide, rfl, rfl⟩⟩
theorem Sys2Proof.Laws.Encodes.mxclr (w : EWord) : Sys2Proof.Laws.Encodes.Statement (.mxclr w) :=
  ⟨no, no, no, fun _ => ⟨0xD2, 0, w, by decide, by decide, rfl, rfl⟩⟩
theorem Sys2Proof.Laws.Encodes.xrslot (w : EWord) : Sys2Proof.Laws.Encodes.Statement (.xrslot w) :=
  ⟨no, no, no, fun _ => ⟨0xD8, 0, w, by decide, by decide, rfl, rfl⟩⟩
theorem Sys2Proof.Laws.Encodes.xred (w : EWord) : Sys2Proof.Laws.Encodes.Statement (.xred w) :=
  ⟨no, no, no, fun _ => ⟨0xD9, 0, w, by decide, by decide, rfl, rfl⟩⟩
theorem Sys2Proof.Laws.Encodes.xrwait (w : EWord) : Sys2Proof.Laws.Encodes.Statement (.xrwait w) :=
  ⟨no, no, no, fun _ => ⟨0xDA, 0, w, by decide, by decide, rfl, rfl⟩⟩
theorem Sys2Proof.Laws.Encodes.rnsum (w : EWord) : Sys2Proof.Laws.Encodes.Statement (.rnsum w) :=
  ⟨no, no, no, fun _ => ⟨0xDB, 0, w, by decide, by decide, rfl, rfl⟩⟩
theorem Sys2Proof.Laws.Encodes.rnmax (w : EWord) : Sys2Proof.Laws.Encodes.Statement (.rnmax w) :=
  ⟨no, no, no, fun _ => ⟨0xDB, 1, w, by decide, by decide, rfl, rfl⟩⟩
theorem Sys2Proof.Laws.Encodes.kvld (w : EWord) : Sys2Proof.Laws.Encodes.Statement (.kvld w) :=
  ⟨no, no, no, fun _ => ⟨0xE9, 1, w, by decide, by decide, rfl, rfl⟩⟩
theorem Sys2Proof.Laws.Encodes.kvalloc (w : EWord) : Sys2Proof.Laws.Encodes.Statement (.kvalloc w) :=
  ⟨no, no, no, fun _ => ⟨0xEA, 0, w, by decide, by decide, rfl, rfl⟩⟩
theorem Sys2Proof.Laws.Encodes.kvfree (w : EWord) : Sys2Proof.Laws.Encodes.Statement (.kvfree w) :=
  ⟨no, no, no, fun _ => ⟨0xEA, 1, w, by decide, by decide, rfl, rfl⟩⟩
theorem Sys2Proof.Laws.Encodes.bfq (w : EWord) : Sys2Proof.Laws.Encodes.Statement (.bfq w) :=
  ⟨no, no, no, fun _ => ⟨0xEB, 0, w, by decide, by decide, rfl, rfl⟩⟩
theorem Sys2Proof.Laws.Encodes.bfwait (w : EWord) : Sys2Proof.Laws.Encodes.Statement (.bfwait w) :=
  ⟨no, no, no, fun _ => ⟨0xEB, 1, w, by decide, by decide, rfl, rfl⟩⟩
theorem Sys2Proof.Laws.Encodes.ingressDataWrite (port : PortKey) (off : Nat) (size : Nat) (data : Lanes) : Sys2Proof.Laws.Encodes.Statement (.ingressDataWrite port off size data) :=
  ⟨no, no, no, no⟩
theorem Sys2Proof.Laws.Encodes.ingressHeadWrite (port : PortKey) (size : Nat) (data : Lanes) : Sys2Proof.Laws.Encodes.Statement (.ingressHeadWrite port size data) :=
  ⟨no, no, no, no⟩
theorem Sys2Proof.Laws.Encodes.epoch (port : PortKey) (size : Nat) (value : Word) : Sys2Proof.Laws.Encodes.Statement (.epoch port size value) :=
  ⟨no, no, no, no⟩
theorem Sys2Proof.Laws.Encodes.close (port : PortKey) (size : Nat) (value : Word) : Sys2Proof.Laws.Encodes.Statement (.close port size value) :=
  ⟨no, no, no, no⟩
theorem Sys2Proof.Laws.Encodes.leaseStep (act : LeaseAct) : Sys2Proof.Laws.Encodes.Statement (.leaseStep act) := ⟨no, no, no, no⟩
theorem Sys2Proof.Laws.Encodes.uncorrectedError (site : ErrSite) : Sys2Proof.Laws.Encodes.Statement (.uncorrectedError site) :=
  ⟨no, no, no, no⟩
theorem Sys2Proof.Laws.Encodes.dieGrant (dies : BitVec 8) : Sys2Proof.Laws.Encodes.Statement (.dieGrant dies) := ⟨no, no, no, no⟩
theorem Sys2Proof.Laws.Encodes.mapping (result : Option MapResult) : Sys2Proof.Laws.Encodes.Statement (.mapping result) :=
  ⟨no, no, no, no⟩
theorem Sys2Proof.Laws.Encodes.ecallReply (part : Nat) (tile : EKey) (value : Word) : Sys2Proof.Laws.Encodes.Statement (.ecallReply part tile value) :=
  ⟨no, no, no, no⟩
theorem Sys2Proof.Laws.Encodes.stoptabWrite (port : PortKey) (va : Word) : Sys2Proof.Laws.Encodes.Statement (.stoptabWrite port va) :=
  ⟨no, no, no, no⟩
theorem Sys2Proof.Laws.Encodes.registerWrite (part : Nat) (pf : Bool) (reg : HostReg) (value : Word) : Sys2Proof.Laws.Encodes.Statement (.registerWrite part pf reg value) :=
  ⟨no, no, no, no⟩
theorem Sys2Proof.Laws.Encodes.spdmRequest (part : Nat) (req : SpdmReq) : Sys2Proof.Laws.Encodes.Statement (.spdmRequest part req) :=
  ⟨no, no, no, no⟩
theorem Sys2Proof.Laws.Encodes.linkGroupReceive (port : Nat) (group : LinkGroup) : Sys2Proof.Laws.Encodes.Statement (.linkGroupReceive port group) :=
  ⟨no, no, no, no⟩
theorem Sys2Proof.Laws.Encodes.bringUp (verified : Bool) : Sys2Proof.Laws.Encodes.Statement (.bringUp verified) :=
  ⟨no, no, no, no⟩
theorem Sys2Proof.Laws.Encodes.hostMemoryAccess (part : Nat) (requester : Nat) (write : Bool) (va : Nat) (size : Nat) (data : Lanes) : Sys2Proof.Laws.Encodes.Statement (.hostMemoryAccess part requester write va size data) :=
  ⟨no, no, no, no⟩
theorem Sys2Proof.Laws.Encodes.slotTableTakesEffect : Sys2Proof.Laws.Encodes.Statement (.slotTableTakesEffect) := ⟨no, no, no, no⟩
theorem Sys2Proof.Laws.Encodes.tokenArrival : Sys2Proof.Laws.Encodes.Statement (.tokenArrival) := ⟨no, no, no, no⟩
theorem Sys2Proof.Laws.Encodes.edgeBufferArrival : Sys2Proof.Laws.Encodes.Statement (.edgeBufferArrival) := ⟨no, no, no, no⟩
theorem Sys2Proof.Laws.Encodes.reqArrival : Sys2Proof.Laws.Encodes.Statement (.reqArrival) := ⟨no, no, no, no⟩
theorem Sys2Proof.Laws.Encodes.pileHeldTokenEntry : Sys2Proof.Laws.Encodes.Statement (.pileHeldTokenEntry) := ⟨no, no, no, no⟩
theorem Sys2Proof.Laws.Encodes.firingStart : Sys2Proof.Laws.Encodes.Statement (.firingStart) := ⟨no, no, no, no⟩
theorem Sys2Proof.Laws.Encodes.firingComplete : Sys2Proof.Laws.Encodes.Statement (.firingComplete) := ⟨no, no, no, no⟩
theorem Sys2Proof.Laws.Encodes.blockChoice : Sys2Proof.Laws.Encodes.Statement (.blockChoice) := ⟨no, no, no, no⟩
theorem Sys2Proof.Laws.Encodes.blockOverdue : Sys2Proof.Laws.Encodes.Statement (.blockOverdue) := ⟨no, no, no, no⟩
theorem Sys2Proof.Laws.Encodes.executionStart : Sys2Proof.Laws.Encodes.Statement (.executionStart) := ⟨no, no, no, no⟩
theorem Sys2Proof.Laws.Encodes.executionCommit : Sys2Proof.Laws.Encodes.Statement (.executionCommit) := ⟨no, no, no, no⟩
theorem Sys2Proof.Laws.Encodes.segmentTake : Sys2Proof.Laws.Encodes.Statement (.segmentTake) := ⟨no, no, no, no⟩
theorem Sys2Proof.Laws.Encodes.brakeArrival : Sys2Proof.Laws.Encodes.Statement (.brakeArrival) := ⟨no, no, no, no⟩
theorem Sys2Proof.Laws.Encodes.backfillPortEnd : Sys2Proof.Laws.Encodes.Statement (.backfillPortEnd) := ⟨no, no, no, no⟩
theorem Sys2Proof.Laws.Encodes.egressTake : Sys2Proof.Laws.Encodes.Statement (.egressTake) := ⟨no, no, no, no⟩
theorem Sys2Proof.Laws.Encodes.egressVector : Sys2Proof.Laws.Encodes.Statement (.egressVector) := ⟨no, no, no, no⟩
theorem Sys2Proof.Laws.Encodes.skidderClaim : Sys2Proof.Laws.Encodes.Statement (.skidderClaim) := ⟨no, no, no, no⟩
theorem Sys2Proof.Laws.Encodes.claimDelivery : Sys2Proof.Laws.Encodes.Statement (.claimDelivery) := ⟨no, no, no, no⟩
theorem Sys2Proof.Laws.Encodes.noteDelivery : Sys2Proof.Laws.Encodes.Statement (.noteDelivery) := ⟨no, no, no, no⟩
theorem Sys2Proof.Laws.Encodes.batchFlush : Sys2Proof.Laws.Encodes.Statement (.batchFlush) := ⟨no, no, no, no⟩
theorem Sys2Proof.Laws.Encodes.hubMergeForward : Sys2Proof.Laws.Encodes.Statement (.hubMergeForward) := ⟨no, no, no, no⟩
theorem Sys2Proof.Laws.Encodes.batchApply : Sys2Proof.Laws.Encodes.Statement (.batchApply) := ⟨no, no, no, no⟩
theorem Sys2Proof.Laws.Encodes.flagShadowMerge : Sys2Proof.Laws.Encodes.Statement (.flagShadowMerge) := ⟨no, no, no, no⟩
theorem Sys2Proof.Laws.Encodes.launchEnd : Sys2Proof.Laws.Encodes.Statement (.launchEnd) := ⟨no, no, no, no⟩
theorem Sys2Proof.Laws.Encodes.issue : Sys2Proof.Laws.Encodes.Statement (.issue) := ⟨no, no, no, no⟩
theorem Sys2Proof.Laws.Encodes.arrive : Sys2Proof.Laws.Encodes.Statement (.arrive) := ⟨no, no, no, no⟩
theorem Sys2Proof.Laws.Encodes.perform : Sys2Proof.Laws.Encodes.Statement (.perform) := ⟨no, no, no, no⟩
theorem Sys2Proof.Laws.Encodes.acknowledge : Sys2Proof.Laws.Encodes.Statement (.acknowledge) := ⟨no, no, no, no⟩
theorem Sys2Proof.Laws.Encodes.fenceComplete : Sys2Proof.Laws.Encodes.Statement (.fenceComplete) := ⟨no, no, no, no⟩
theorem Sys2Proof.Laws.Encodes.swap : Sys2Proof.Laws.Encodes.Statement (.swap) := ⟨no, no, no, no⟩
theorem Sys2Proof.Laws.Encodes.timestampReset : Sys2Proof.Laws.Encodes.Statement (.timestampReset) := ⟨no, no, no, no⟩
theorem Sys2Proof.Laws.Encodes.faultResume : Sys2Proof.Laws.Encodes.Statement (.faultResume) := ⟨no, no, no, no⟩
theorem Sys2Proof.Laws.Encodes.faultDeadline : Sys2Proof.Laws.Encodes.Statement (.faultDeadline) := ⟨no, no, no, no⟩
theorem Sys2Proof.Laws.Encodes.syncWordRaise : Sys2Proof.Laws.Encodes.Statement (.syncWordRaise) := ⟨no, no, no, no⟩
theorem Sys2Proof.Laws.Encodes.engineAccept : Sys2Proof.Laws.Encodes.Statement (.engineAccept) := ⟨no, no, no, no⟩
theorem Sys2Proof.Laws.Encodes.streamerEmit : Sys2Proof.Laws.Encodes.Statement (.streamerEmit) := ⟨no, no, no, no⟩
theorem Sys2Proof.Laws.Encodes.matrixPass : Sys2Proof.Laws.Encodes.Statement (.matrixPass) := ⟨no, no, no, no⟩
theorem Sys2Proof.Laws.Encodes.tileDrain : Sys2Proof.Laws.Encodes.Statement (.tileDrain) := ⟨no, no, no, no⟩
theorem Sys2Proof.Laws.Encodes.matrixEnd : Sys2Proof.Laws.Encodes.Statement (.matrixEnd) := ⟨no, no, no, no⟩
theorem Sys2Proof.Laws.Encodes.xrslotDeadline : Sys2Proof.Laws.Encodes.Statement (.xrslotDeadline) := ⟨no, no, no, no⟩
theorem Sys2Proof.Laws.Encodes.xrslotFreeTimeout : Sys2Proof.Laws.Encodes.Statement (.xrslotFreeTimeout) := ⟨no, no, no, no⟩
theorem Sys2Proof.Laws.Encodes.seal : Sys2Proof.Laws.Encodes.Statement (.seal) := ⟨no, no, no, no⟩
theorem Sys2Proof.Laws.Encodes.faultRecordWrite : Sys2Proof.Laws.Encodes.Statement (.faultRecordWrite) := ⟨no, no, no, no⟩
theorem Sys2Proof.Laws.Encodes.gate : Sys2Proof.Laws.Encodes.Statement (.gate) := ⟨no, no, no, no⟩
theorem Sys2Proof.Laws.Encodes.preemptionDeadline : Sys2Proof.Laws.Encodes.Statement (.preemptionDeadline) := ⟨no, no, no, no⟩
theorem Sys2Proof.Laws.Encodes.drainQuiescent : Sys2Proof.Laws.Encodes.Statement (.drainQuiescent) := ⟨no, no, no, no⟩
theorem Sys2Proof.Laws.Encodes.drainDeadline : Sys2Proof.Laws.Encodes.Statement (.drainDeadline) := ⟨no, no, no, no⟩
theorem Sys2Proof.Laws.Encodes.restore : Sys2Proof.Laws.Encodes.Statement (.restore) := ⟨no, no, no, no⟩
theorem Sys2Proof.Laws.Encodes.launch : Sys2Proof.Laws.Encodes.Statement (.launch) := ⟨no, no, no, no⟩
theorem Sys2Proof.Laws.Encodes.preempt : Sys2Proof.Laws.Encodes.Statement (.preempt) := ⟨no, no, no, no⟩
theorem Sys2Proof.Laws.Encodes.resume : Sys2Proof.Laws.Encodes.Statement (.resume) := ⟨no, no, no, no⟩
theorem Sys2Proof.Laws.Encodes.kill : Sys2Proof.Laws.Encodes.Statement (.kill) := ⟨no, no, no, no⟩
theorem Sys2Proof.Laws.Encodes.loadingDone : Sys2Proof.Laws.Encodes.Statement (.loadingDone) := ⟨no, no, no, no⟩
theorem Sys2Proof.Laws.Encodes.reqvArm : Sys2Proof.Laws.Encodes.Statement (.reqvArm) := ⟨no, no, no, no⟩
theorem Sys2Proof.Laws.Encodes.lockInterface : Sys2Proof.Laws.Encodes.Statement (.lockInterface) := ⟨no, no, no, no⟩
theorem Sys2Proof.Laws.Encodes.startInterface : Sys2Proof.Laws.Encodes.Statement (.startInterface) := ⟨no, no, no, no⟩
theorem Sys2Proof.Laws.Encodes.stopInterface : Sys2Proof.Laws.Encodes.Statement (.stopInterface) := ⟨no, no, no, no⟩
theorem Sys2Proof.Laws.Encodes.ideIntegrityFailure : Sys2Proof.Laws.Encodes.Statement (.ideIntegrityFailure) := ⟨no, no, no, no⟩
theorem Sys2Proof.Laws.Encodes.ucieLoss : Sys2Proof.Laws.Encodes.Statement (.ucieLoss) := ⟨no, no, no, no⟩
theorem Sys2Proof.Laws.Encodes.linkDown : Sys2Proof.Laws.Encodes.Statement (.linkDown) := ⟨no, no, no, no⟩
theorem Sys2Proof.Laws.Encodes.thermalLimit : Sys2Proof.Laws.Encodes.Statement (.thermalLimit) := ⟨no, no, no, no⟩
theorem Sys2Proof.Laws.Encodes.thermalRecover : Sys2Proof.Laws.Encodes.Statement (.thermalRecover) := ⟨no, no, no, no⟩
theorem Sys2Proof.Laws.Encodes.deviceReset : Sys2Proof.Laws.Encodes.Statement (.deviceReset) := ⟨no, no, no, no⟩
theorem Sys2Proof.Laws.Encodes.hostInvalidation : Sys2Proof.Laws.Encodes.Statement (.hostInvalidation) := ⟨no, no, no, no⟩
theorem Sys2Proof.Laws.Encodes.gnoiseKey (w : SWord) : Sys2Proof.Laws.Encodes.Statement (.gnoiseKey w) :=
  ⟨fun h => ⟨0xE0, 0, w, by decide, by decide, rfl, by
    have this : bitAt w.imm 0 = false := by
      simp only [wfStage, sform, sExtra, Bool.and_eq_true] at h; simpa using h.2
    exact (show stageOf 0xE0 0 w = if bitAt w.imm 0 then some (.gnoiseNoise w) else some (.gnoiseKey w) from rfl).trans (if_neg (by rw [this]; decide))⟩, no, no, no⟩
theorem Sys2Proof.Laws.Encodes.gnoiseNoise (w : SWord) : Sys2Proof.Laws.Encodes.Statement (.gnoiseNoise w) :=
  ⟨fun h => ⟨0xE0, 0, w, by decide, by decide, rfl, by
    have this : bitAt w.imm 0 = true := by
      simp only [wfStage, sform, sExtra, Bool.and_eq_true] at h; simpa using h.2
    exact (show stageOf 0xE0 0 w = if bitAt w.imm 0 then some (.gnoiseNoise w) else some (.gnoiseKey w) from rfl).trans (if_pos this)⟩, no, no, no⟩
theorem Sys2Proof.Laws.Encodes.br (w : BWord) : Sys2Proof.Laws.Encodes.Statement (.br w) :=
  ⟨no, fun h => ⟨0x80, 0, w, by decide, by decide, rfl, by
    have this : bitAt w.imm 23 = false := bit_of_mask (by
      simp only [wfB, bform, Bool.and_eq_true, beq_iff_eq] at h; exact h.1.1.2) (by decide) (by decide)
    exact (show blockBOf 0x80 0 w = if bitAt w.imm 23 then some (.lend false w) else some (.br w) from rfl).trans (if_neg (by rw [this]; decide))⟩, no, no⟩
theorem Sys2Proof.Laws.Encodes.bri (w : BWord) : Sys2Proof.Laws.Encodes.Statement (.bri w) :=
  ⟨no, fun h => ⟨0x80, 1, w, by decide, by decide, rfl, by
    have this : bitAt w.imm 23 = false := bit_of_mask (by
      simp only [wfB, bform, Bool.and_eq_true, beq_iff_eq] at h; exact h.1.1.2) (by decide) (by decide)
    exact (show blockBOf 0x80 1 w = if bitAt w.imm 23 then some (.lend true w) else some (.bri w) from rfl).trans (if_neg (by rw [this]; decide))⟩, no, no⟩
theorem Sys2Proof.Laws.Encodes.send (w : BWord) : Sys2Proof.Laws.Encodes.Statement (.send w) :=
  ⟨no, fun h => ⟨0xBB, 0, w, by decide, by decide, rfl, by
    have this : bitAt w.imm 6 = false := bit_of_mask (by
      simp only [wfB, bform, Bool.and_eq_true, beq_iff_eq] at h; exact h.1.1.2) (by decide) (by decide)
    exact (show blockBOf 0xBB 0 w = if bitAt w.imm 6 then some (.sendBrk w) else some (.send w) from rfl).trans (if_neg (by rw [this]; decide))⟩, no, no⟩
theorem Sys2Proof.Laws.Encodes.sendBrk (w : BWord) : Sys2Proof.Laws.Encodes.Statement (.sendBrk w) :=
  ⟨no, fun h => ⟨0xBB, 0, w, by decide, by decide, rfl, by
    have this : bitAt w.imm 6 = true := by
      simp only [wfB, bform, bExtra, Bool.and_eq_true, beq_iff_eq] at h; exact h.2.1.2
    exact (show blockBOf 0xBB 0 w = if bitAt w.imm 6 then some (.sendBrk w) else some (.send w) from rfl).trans (if_pos this)⟩, no, no⟩
theorem Sys2Proof.Laws.Encodes.recv (w : BWord) : Sys2Proof.Laws.Encodes.Statement (.recv w) :=
  ⟨no, fun h => ⟨0xBB, 1, w, by decide, by decide, rfl, by
    have this : bitAt w.imm 17 = false := bit_of_mask (by
      simp only [wfB, bform, Bool.and_eq_true, beq_iff_eq] at h; exact h.1.1.2) (by decide) (by decide)
    exact (show blockBOf 0xBB 1 w = if bitAt w.imm 17 then some (.recvStart w) else some (.recv w) from rfl).trans (if_neg (by rw [this]; decide))⟩, no, no⟩
theorem Sys2Proof.Laws.Encodes.recvStart (w : BWord) : Sys2Proof.Laws.Encodes.Statement (.recvStart w) :=
  ⟨no, fun h => ⟨0xBB, 1, w, by decide, by decide, rfl, by
    have this : bitAt w.imm 17 = true := by
      simp only [wfB, bform, bExtra, Bool.and_eq_true, beq_iff_eq] at h; exact h.2
    exact (show blockBOf 0xBB 1 w = if bitAt w.imm 17 then some (.recvStart w) else some (.recv w) from rfl).trans (if_pos this)⟩, no, no⟩
theorem Sys2Proof.Laws.Encodes.lend (imm : Bool) (w : BWord) : Sys2Proof.Laws.Encodes.Statement (.lend imm w) :=
  ⟨no, fun h => ⟨0x80, if imm then 1 else 0, w, by decide, by cases imm <;> decide, rfl, by
    have this : bitAt w.imm 23 = true := by
      simp only [wfB, bform, bExtra, Bool.and_eq_true, beq_iff_eq] at h; exact h.2
    cases imm
    · exact (show blockBOf 0x80 0 w = if bitAt w.imm 23 then some (.lend false w) else some (.br w) from rfl).trans (if_pos this)
    · exact (show blockBOf 0x80 1 w = if bitAt w.imm 23 then some (.lend true w) else some (.bri w) from rfl).trans (if_pos this)⟩, no, no⟩
theorem Sys2Proof.Laws.Encodes.kvst (w : EWord) : Sys2Proof.Laws.Encodes.Statement (.kvst w) :=
  ⟨no, no, no, fun h => ⟨0xE9, 0, w, by decide, by decide, rfl, by
    have this : bitAt w.eq 0 = false := by
      simp only [wfE, eform, Bool.and_eq_true, beq_iff_eq] at h
      have hq : w.eq = 0 := by simpa using h.1.1.2
      rw [hq]; decide
    exact (show blockEOf 0xE9 0 w = if bitAt w.eq 0 then some (.kvstFin w) else some (.kvst w) from rfl).trans (if_neg (by rw [this]; decide))⟩⟩
theorem Sys2Proof.Laws.Encodes.kvstFin (w : EWord) : Sys2Proof.Laws.Encodes.Statement (.kvstFin w) :=
  ⟨no, no, no, fun h => ⟨0xE9, 0, w, by decide, by decide, rfl, by
    have this : bitAt w.eq 0 = true := by
      simp only [wfE, eform, Bool.and_eq_true, beq_iff_eq] at h
      have hq : w.eq = 1 := by simpa using h.1.1.2
      rw [hq]; decide
    exact (show blockEOf 0xE9 0 w = if bitAt w.eq 0 then some (.kvstFin w) else some (.kvst w) from rfl).trans (if_pos this)⟩⟩
end

