-- ==== Sys2Proof/Certificates/Slice0/Obligations.lean ====
section
/-! DEFINITION. The statements for the provers, and the words they are said in: what a committed stage, a fired block
instruction, a queued memory node and an accepted command leave. -/

namespace Sys2Proof.Slice0
open Sys2Proof Sys2Proof.Machine

/-! ### Words about stages -/

/-- The flags an epoch's shadow holds (R199). -/
def flagsIn (s : State) (stand ctx epoch : Nat) : FlagSet :=
  ((s.fr.shadows.find? (shadowMine stand ctx epoch)).map (·.fl)).getD 0

/-- What no stage touches, whatever it computes. -/
structure StageFrame (s t : State) (e : SEnv) : Prop where
  firings : ∀ id, id ≠ e.f.id → firingOf t id = firingOf s id
  regs : ∀ k, k ≠ e.f.vpe → laneRegs t k = laneRegs s k
  shadows : ∀ st c ep, ¬ (st = e.f.vpe.stand ∧ c = e.f.vpe.ctx ∧ ep = e.epoch) → flagsIn t st c ep = flagsIn s st c ep
  front : t.fr = { s.fr with shadows := t.fr.shadows }
  rest : t = { s with firings := t.firings, regs := t.regs, fr := t.fr }

/-- The firing has left the stage: one result more, and these tokens and requests added to those it will send (R205). -/
def MovedOn (t : State) (e : SEnv) (r : StageRes) (sent : List (Nat × Token)) (notes : List NoteReq) : Prop :=
  firingOf t e.f.id = some { e.f with stage := e.f.stage + 1, results := e.f.results ++ [r], out := e.f.out ++ sent,
                                      notes := e.f.notes ++ notes, issued := false, nodes := [] }

/-- The flags of the active lanes, and no others, are added to the shadow of the firing's epoch (R207). -/
def FlagsOf (s t : State) (e : SEnv) (val : Nat → Val) : Prop :=
  ∀ b, bitAt (flagsIn t e.f.vpe.stand e.f.vpe.ctx e.epoch) b
    = (bitAt (flagsIn s e.f.vpe.stand e.f.vpe.ctx e.epoch) b
      || (List.range 16).any fun i => e.act i && bitAt (val i).fl b)

/-- DS of a lane result: an L register takes the active lanes, an M register says which of them are not 0 (R67, R68); every
other register of the context keeps its bits. -/
def DestTakes (s t : State) (e : SEnv) (val : Nat → Lane) : Prop :=
  (∀ (n : Fin 4) (i : Nat), i < 16 → laneOf ((laneRegs t e.f.vpe).l.get n.val) i
      = if e.w.d = .l n ∧ e.act i = true then val i else laneOf ((laneRegs s e.f.vpe).l.get n.val) i)
  ∧ ∀ (n : Fin 4) (i : Nat), i < 16 → bitAt ((laneRegs t e.f.vpe).m.get n.val) i
      = if e.w.d = .m n ∧ e.act i = true then decide (val i ≠ 0) else bitAt ((laneRegs s e.f.vpe).m.get n.val) i

/-- The HEAD before a lane result's token: of the first IN source with one, where the operation forwards it; else formed from
the port's configuration (R205). -/
def headFor (e : SEnv) (fwd : Bool) (tag : Tag) (p : Nat) : Token :=
  match fwd, e.firstHead with
  | true, some h => { h with tag := tag, seg := e.f.seg }
  | _, _ => portHead e.cfg p tag e.f.seg none 0

/-- A lane result on port p: one DATA token of the lanes, VALID as v, behind a HEAD where the port's format has one (R205). -/
def portSends (e : SEnv) (fwd : Bool) (tag : Tag) (r : StageRes) (p : Nat) : List (Nat × Token) :=
  (if fmtHeaded (outFmt e.cfg p) then [(p, headFor e fwd tag p)] else [])
    ++ [(p, ⟨tag, e.f.seg, .data, outFmt e.cfg p, r.v, r.lanes⟩)]
/-- What a lane result sends: a token on each port of DS (R205). -/
def laneSends (e : SEnv) (fwd : Bool) (tag : Tag) (r : StageRes) : List (Nat × Token) :=
  (portsOf e.w.d).flatMap (portSends e fwd tag r)
/-- The same of an operation that sends nothing where no lane is valid (R195, R232). -/
def shownSends (e : SEnv) (fwd : Bool) (tag : Tag) (r : StageRes) : List (Nat × Token) :=
  if r.v = 0 then [] else laneSends e fwd tag r

/-- A committed lane result (R204, R205, R207): `val` is each lane's value and flags, `ok` its valid bit, `sends` what goes to the
ports. -/
structure LaneLeft (s t : State) (e : SEnv) (val : Nat → Val) (ok : Nat → Bool) (sends : StageRes → List (Nat × Token)) : Prop where
  result : ∃ r : StageRes, r.dir = none
    ∧ (∀ i, i < 16 → laneOf r.lanes i = if e.act i then (val i).bits else 0)
    ∧ (∀ i, i < 16 → bitAt r.v i = ok i)
    ∧ MovedOn t e r (sends r) []
  dest : DestTakes s t e fun i => (val i).bits
  flags : FlagsOf s t e val
  frame : StageFrame s t e

/-- A committed lane result that sends a token on every port of DS. -/
abbrev LaneDone (s t : State) (e : SEnv) (val : Nat → Val) (ok : Nat → Bool) (fwd : Bool) (tag : Tag) : Prop :=
  LaneLeft s t e val ok (laneSends e fwd tag)
/-- A lane result finds its place: the ports DS names have burst length 1 (R205), and raised flags find a shadow (R199). -/
structure LaneFree (s : State) (e : SEnv) (val : Nat → Val) : Prop where
  ports : ∀ p ∈ portsOf e.w.d, outBurst e.cfg p = 1
  shadow : (∀ i, i < 16 → e.act i = true → (val i).fl = 0) ∨ shadowRoom s e.f.vpe.stand e.f.vpe.ctx e.epoch = true

/-- The instruction, in the stage it stands in, commits lane values `val`. -/
def LaneRule (i : Instr) (w : SWord) (val : SEnv → Nat → Val) (ok : SEnv → Nat → Bool) (fwd : Bool) : Prop :=
  ∀ s e, stageEnv s i w = some e → LaneFree s e (val e) →
    ∃ t, exec i s = .next t ∧ LaneDone s t e (val e) (ok e) fwd e.f.tag

/-- The instruction shapes the stream: it commits lane values `val`, and sends them only where a lane is valid (R232). -/
def ShapeRule (i : Instr) (w : SWord) (val : SEnv → Nat → Val) (ok : SEnv → Nat → Bool) : Prop :=
  ∀ s e, stageEnv s i w = some e → LaneFree s e (val e) →
    ∃ t, exec i s = .next t ∧ LaneLeft s t e (val e) (ok e) (shownSends e true e.f.tag)

/-- A value without flags. -/
def quietly (x : Lane) : Val := ⟨x, 0⟩

end Sys2Proof.Slice0
namespace Sys2Proof.Slice0
open Sys2Proof Sys2Proof.Machine

/-! ### Values of lanes, read from their bits -/

/-- Sign, exponent and mantissa fields of an FP32 code (R35). -/
def signBit (x : Lane) : Bool := bitAt x 31
def expField (x : Lane) : Nat := (field x 23 8).toNat
def manField (x : Lane) : Nat := (field x 0 23).toNat
def isNaN (x : Lane) : Prop := expField x = 255 ∧ manField x ≠ 0
/-- A NaN with a clear leading mantissa bit. -/
def isSNaN (x : Lane) : Prop := isNaN x ∧ bitAt x 22 = false
/-- The magnitude of a code that is neither NaN nor infinite, in units of 2^-149 (R35). -/
def units (x : Lane) : Int :=
  if expField x = 0 then (manField x : Int) else ((2 ^ 23 + manField x) * 2 ^ (expField x - 1) : Nat)
/-- The value in units of 2^-149; an infinity stands above every finite value. -/
def value (x : Lane) : Int :=
  let m := if expField x = 255 then (2 ^ 128 * 2 ^ 250 : Int) else units x
  if signBit x then -m else m
/-- FCMP's conditions (R212). -/
def floatCond (c : FCond) (a b : Lane) : Prop :=
  match c with
  | .eq => ¬ isNaN a ∧ ¬ isNaN b ∧ value a = value b
  | .ne => isNaN a ∨ isNaN b ∨ value a ≠ value b
  | .lt => ¬ isNaN a ∧ ¬ isNaN b ∧ value a < value b
  | .le => ¬ isNaN a ∧ ¬ isNaN b ∧ value a ≤ value b
  | .gt => ¬ isNaN a ∧ ¬ isNaN b ∧ value b < value a
  | .ge => ¬ isNaN a ∧ ¬ isNaN b ∧ value b ≤ value a
  | .un => isNaN a ∨ isNaN b
/-- Whether the condition raises NV (R212): an ordered one on any NaN, the others on a signalling one. -/
def floatCondNv (c : FCond) (a b : Lane) : Prop :=
  match c with
  | .lt | .le | .gt | .ge => isNaN a ∨ isNaN b
  | _ => isSNaN a ∨ isSNaN b
/-- a comes before b in FMIN's order: by value, −0 before +0 (R211). -/
def comesBefore (a b : Lane) : Prop := value a < value b ∨ (value a = value b ∧ signBit a = true ∧ signBit b = false)
/-- The class bit of R213. -/
def classBit (x : Lane) : Nat :=
  if expField x = 255 then
    if manField x = 0 then (if signBit x then 0 else 7) else if bitAt x 22 then 9 else 8
  else if expField x = 0 then
    if manField x = 0 then (if signBit x then 3 else 4) else (if signBit x then 2 else 5)
  else (if signBit x then 1 else 6)

/-- A lane rule whose value a relation gives: every value it allows finds its place, and the lanes take one. -/
def LaneRelation (i : Instr) (w : SWord) (rel : SEnv → Nat → Val → Prop) : Prop :=
  ∀ s e, stageEnv s i w = some e → (∀ val : Nat → Val, (∀ l, l < 16 → rel e l (val l)) → LaneFree s e val) →
    ∃ t val, (∀ l, l < 16 → rel e l (val l)) ∧ exec i s = .next t ∧ LaneDone s t e val e.v false e.f.tag

/-- FMIN and FMAX of one lane (R211). -/
def minMaxRel (isMax : Bool) (a b : Lane) (x : Val) : Prop :=
  (isNaN a ∧ isNaN b → x.bits = a ||| 0x00400000#32)
  ∧ (isNaN a ∧ ¬ isNaN b → x.bits = b) ∧ (¬ isNaN a ∧ isNaN b → x.bits = a)
  ∧ (¬ isNaN a ∧ ¬ isNaN b → (x.bits = a ∨ x.bits = b)
      ∧ (if isMax then ¬ comesBefore x.bits a ∧ ¬ comesBefore x.bits b else ¬ comesBefore a x.bits ∧ ¬ comesBefore b x.bits))
  ∧ (isSNaN a ∨ isSNaN b → x.fl = fNV) ∧ (¬ (isSNaN a ∨ isSNaN b) → x.fl = 0)
/-- FCMP of one lane (R212). -/
def compareRel (c : FCond) (a b : Lane) (x : Val) : Prop :=
  (floatCond c a b → x.bits = 0xFFFFFFFF#32) ∧ (¬ floatCond c a b → x.bits = 0)
  ∧ (floatCondNv c a b → x.fl = fNV) ∧ (¬ floatCondNv c a b → x.fl = 0)

/-! ### Integers of any width, read as numbers (R219 to R221) -/

/-- The signed range of n bits. -/
def inRange (n : Nat) (x : Int) : Prop := -(2 ^ (n - 1) : Int) ≤ x ∧ x < (2 ^ (n - 1) : Int)
/-- The exact result x wrapped, or with SAT clamped, into n bits, SAT raised only when it clamps (R47, R219). -/
def wrapRel {n : Nat} (sat : Bool) (x : Int) (r : BitVec n) (fl : FlagSet) : Prop :=
  (sat = false ∨ inRange n x → r = BitVec.ofInt n x ∧ fl = 0)
  ∧ (sat = true ∧ x < -(2 ^ (n - 1) : Int) → r.toInt = -(2 ^ (n - 1) : Int) ∧ fl = fSAT)
  ∧ (sat = true ∧ (2 ^ (n - 1) : Int) ≤ x → r.toInt = (2 ^ (n - 1) : Int) - 1 ∧ fl = fSAT)
/-- ICMP's conditions (R220). -/
def intCond {n : Nat} (c : ICond) (a b : BitVec n) : Prop :=
  match c with
  | .eq => a = b | .ne => a ≠ b
  | .lt => a.toInt < b.toInt | .le => a.toInt ≤ b.toInt | .gt => b.toInt < a.toInt | .ge => b.toInt ≤ a.toInt
  | .ltu => a.toNat < b.toNat | .leu => a.toNat ≤ b.toNat | .gtu => b.toNat < a.toNat | .geu => b.toNat ≤ a.toNat
/-- What an integer operation makes of a and b at width n, and the flags (R219 to R221); none for another instruction. -/
def intRel {n : Nat} (i : Instr) (sat : Bool) (a b r : BitVec n) (fl : FlagSet) : Prop :=
  match i with
  | .iadd _ | .iaddBlock _ => wrapRel sat (a.toInt + b.toInt) r fl
  | .isub _ | .isubBlock _ => wrapRel sat (a.toInt - b.toInt) r fl
  | .imul _ | .imulBlock _ => wrapRel sat (a.toInt * b.toInt) r fl
  | .imulh _ | .imulhBlock _ => r.toInt = a.toInt * b.toInt / (2 ^ n : Int) ∧ fl = 0
  | .imulhu _ | .imulhuBlock _ => r.toNat = a.toNat * b.toNat / 2 ^ n ∧ fl = 0
  | .imin _ | .iminBlock _ => r.toInt = min a.toInt b.toInt ∧ fl = 0
  | .imax _ | .imaxBlock _ => r.toInt = max a.toInt b.toInt ∧ fl = 0
  | .umin _ | .uminBlock _ => r.toNat = min a.toNat b.toNat ∧ fl = 0
  | .umax _ | .umaxBlock _ => r.toNat = max a.toNat b.toNat ∧ fl = 0
  | .icmp c _ | .icmpBlock c _ => (intCond c a b → r = BitVec.allOnes n) ∧ (¬ intCond c a b → r = 0#n) ∧ fl = 0
  | .and _ | .andBlock _ => (∀ k, bitAt r k = (bitAt a k && bitAt b k)) ∧ fl = 0
  | .or _ | .orBlock _ => (∀ k, bitAt r k = (bitAt a k || bitAt b k)) ∧ fl = 0
  | .xor _ | .xorBlock _ => (∀ k, bitAt r k = (bitAt a k != bitAt b k)) ∧ fl = 0
  | .andn _ | .andnBlock _ => (∀ k, bitAt r k = (bitAt a k && !bitAt b k)) ∧ fl = 0
  | .not _ | .notBlock _ => (∀ k, k < n → bitAt r k = !bitAt a k) ∧ fl = 0
  | .shl _ | .shlBlock _ => r.toNat = a.toNat * 2 ^ (b.toNat % n) % 2 ^ n ∧ fl = 0
  | .shr _ | .shrBlock _ => r.toNat = a.toNat / 2 ^ (b.toNat % n) ∧ fl = 0
  | .sar _ | .sarBlock _ => r.toInt = a.toInt / (2 ^ (b.toNat % n) : Int) ∧ fl = 0
  | .rotl _ | .rotlBlock _ => (∀ k, k < n → bitAt r ((k + b.toNat) % n) = bitAt a k) ∧ fl = 0
  | .popc _ | .popcBlock _ => r.toNat = ((List.range n).filter fun k => bitAt a k).length ∧ fl = 0
  | .clz _ | .clzBlock _ => r.toNat ≤ n ∧ (∀ k, k < r.toNat → bitAt a (n - 1 - k) = false)
      ∧ (r.toNat < n → bitAt a (n - 1 - r.toNat) = true) ∧ fl = 0
  | .ctz _ | .ctzBlock _ => r.toNat ≤ n ∧ (∀ k, k < r.toNat → bitAt a k = false)
      ∧ (r.toNat < n → bitAt a r.toNat = true) ∧ fl = 0
  | _ => False
/-- The stage operations of R219 to R221. -/
def stageInt (w : SWord) : List Instr :=
  [.iadd w, .isub w, .imul w, .imulh w, .imulhu w, .imin w, .imax w, .umin w, .umax w, .and w, .or w, .xor w, .andn w, .not w,
   .shl w, .shr w, .sar w, .rotl w, .popc w, .clz w, .ctz w]

end Sys2Proof.Slice0

open Sys2Proof Sys2Proof.Machine Sys2Proof.Slice0

/-- R210: FADD, FSUB, FMUL, FFMA, FFMS and FNMA round once by their RM, their lane and their stage, for every source, predicate
and destination. -/
def Obligations.StageFloatArithmetic : Prop :=
  ∀ w : SWord,
    LaneRule (.fadd w) w (fun e l => fAdd (e.a l) (e.b l) (e.rc l 0 e.sat)) SEnv.v false
    ∧ LaneRule (.fsub w) w (fun e l => fSub (e.a l) (e.b l) (e.rc l 0 e.sat)) SEnv.v false
    ∧ LaneRule (.fmul w) w (fun e l => fMul (e.a l) (e.b l) (e.rc l 0 e.sat)) SEnv.v false
    ∧ LaneRule (.ffma w) w (fun e l => fFma false false (e.a l) (e.b l) (e.c l) (e.rc l 0 e.sat)) SEnv.v false
    ∧ LaneRule (.ffms w) w (fun e l => fFma false true (e.a l) (e.b l) (e.c l) (e.rc l 0 e.sat)) SEnv.v false
    ∧ LaneRule (.fnma w) w (fun e l => fFma true false (e.a l) (e.b l) (e.c l) (e.rc l 0 e.sat)) SEnv.v false

/-- R211, R212: minimum, maximum and compare by value, with their NaN rules and flags. -/
def Obligations.StageMinMaxCompare : Prop :=
  ∀ w : SWord,
    LaneRelation (.fmin w) w (fun e l => minMaxRel false (e.a l) (e.b l))
    ∧ LaneRelation (.fmax w) w (fun e l => minMaxRel true (e.a l) (e.b l))
    ∧ ∀ c, LaneRelation (.fcmp c w) w (fun e l => compareRel c (e.a l) (e.b l))

/-- R213 to R216, R234: classes and signs by the bits, copies, the upper immediate and TGET. -/
def Obligations.StageBitsAndMoves : Prop :=
  ∀ w : SWord,
    LaneRule (.fclass w) w (fun e l => quietly (BitVec.ofNat 32 (2 ^ classBit (e.a l)))) SEnv.v false
    ∧ LaneRelation (.fabs w) w (fun e l x => (∀ k, k < 31 → bitAt x.bits k = bitAt (e.a l) k) ∧ bitAt x.bits 31 = false ∧ x.fl = 0)
    ∧ LaneRelation (.fneg w) w (fun e l x => (∀ k, k < 31 → bitAt x.bits k = bitAt (e.a l) k)
        ∧ bitAt x.bits 31 = (!bitAt (e.a l) 31) ∧ x.fl = 0)
    ∧ LaneRelation (.fcpys w) w (fun e l x => (∀ k, k < 31 → bitAt x.bits k = bitAt (e.a l) k)
        ∧ bitAt x.bits 31 = bitAt (e.b l) 31 ∧ x.fl = 0)
    ∧ LaneRule (.mov w) w (fun e l => quietly (e.a l)) SEnv.v true
    ∧ LaneRule (.selStage w) w (fun e l => quietly (if e.c l = 0 then e.b l else e.a l)) SEnv.v true
    ∧ LaneRelation (.ldi w) w (fun e l x => (∀ k, k < 12 → bitAt x.bits k = bitAt (e.a l) k)
        ∧ (∀ k, k < 20 → bitAt x.bits (12 + k) = bitAt w.imm k) ∧ x.fl = 0)
    ∧ LaneRule (.tget w) w (fun e _ => quietly (
        if bitAt w.imm 3 then BitVec.ofNat 32 (tagDepth e.f.tag)
        else if (field w.imm 0 3).toNat < tagDepth e.f.tag then BitVec.ofNat 32 (tagLevel e.widths e.f.tag (field w.imm 0 3).toNat)
        else 0)) SEnv.v false

/-- R219 to R221: integer and bit operations of a lane as numbers and bits. -/
def Obligations.StageIntegers : Prop :=
  ∀ w : SWord,
    (∀ i ∈ stageInt w, LaneRelation i w (fun e l x => intRel i e.sat (e.a l) (e.b l) x.bits x.fl))
    ∧ ∀ c, LaneRelation (.icmp c w) w (fun e l x => intRel (.icmp c w) e.sat (e.a l) (e.b l) x.bits x.fl)

/-- R222, R223, R225, R307: conversion, dots within a lane, special functions and the sampling noise, one rounding each. The model's own: the word of
CVT's stochastic rounding (log entry 22), the infinity that `.sat` leaves to R47's table (95), and the precision at which a special function's
enclosure ends (21). -/
def Obligations.StageConvertDotSpecial : Prop :=
  ∀ w : SWord,
    (∀ p, LaneRule (.cvt p w) w (fun e l =>
      cvtLane p (field w.imm 0 2).toNat (e.a l) (e.b l) (e.scale w.a) (e.rc l (field w.imm 0 2).toNat (e.qual 19))) SEnv.v false)
    ∧ LaneRule (.idot8 w) w (fun e l =>
        scaledDot ((List.range 4).map fun j => (numOfInt (i8Val (laneByte (e.a l) j)), numOfInt (i8Val (laneByte (e.b l) j))))
          (e.scale w.a) (e.scale w.b) (e.c l) (e.rc l 0 (e.qual 19))) SEnv.v false
    ∧ (∀ s e fa fb, stageEnv s (.fdot8 w) w = some e → fp8 (dotFmt e w.a w.b) = some fa → fp8 (dotFmt e w.b w.a) = some fb →
        ∀ val, val = (fun l => scaledDot
            ((List.range 4).map fun j => (fa.decode (laneByte (e.a l) j), fb.decode (laneByte (e.b l) j)))
            (e.scale w.a) (e.scale w.b) (e.c l) (e.rc l 0 (e.qual 19))) →
        LaneFree s e val → ∃ t, exec (.fdot8 w) s = .next t ∧ LaneDone s t e val e.v false e.f.tag)
    ∧ (∀ s e xs ys, stageEnv s (.odot4 w) w = some e → e.o4 w.a = .ok xs → e.o4 w.b = .ok ys →
        ∀ val, val = (fun l => scaledDot
            ((List.range 8).map fun j => (getAt xs (128 * (field w.imm 0 3).toNat + 8 * l + j) (numOfInt 0),
              getAt ys (128 * (field w.imm 0 3).toNat + 8 * l + j) (numOfInt 0)))
            (e.scale w.a) (e.scale w.b) (e.c l) (e.rc l 0 (e.qual 19))) →
        LaneFree s e val → ∃ t, exec (.odot4 w) s = .next t ∧ LaneDone s t e val e.v false e.f.tag)
    ∧ (∀ x ∈ [(Instr.rcp w, fRcp), (.rsq w, fRsq), (.sqrt w, fSqrt), (.exp2 w, fExp2), (.log2 w, fLog true), (.ln w, fLog false),
          (.tanh w, fTanh), (.sigm w, fSigm), (.erf w, fErf)],
        LaneRule x.1 w (fun e l => x.2 (e.a l) (e.rc l 0 false)) SEnv.v false)
    ∧ LaneRule (.gnoiseKey w) w (fun e l => quietly (kmix (e.a l ^^^ e.b l))) SEnv.v false
    ∧ LaneRule (.gnoiseNoise w) w (fun e l =>
        let g := gumbel (kmix (e.a l ^^^ e.b l))
        let v := fAdd (e.c l) g.bits (e.rc l 0 false)
        ⟨v.bits, g.fl ||| v.fl⟩) SEnv.v false

/-- R229 to R232: what moves lanes, reduces them or shapes the stream: which lane each lane takes, and which are valid; the fixed tree,
the running fold and the place of the greatest, over the lanes with v set. A permute on a side with a SCE takes that crossbar for the
clock, and stands while it cannot. The model's own: RED's stochastic words (log entry 27), that FILT, CMPK and EXPND forward the HEAD of their
input (24), and that SCAN raises the flags of its whole fold (23). -/
def Obligations.StageLaneMoves : Prop :=
  ∀ w : SWord,
    (∀ s e, stageEnv s (.perm w) w = some e →
      let bar := match sceBeside e.f.vpe.elem (field w.imm 0 2).toNat with
        | none => some s
        | some c => permBar s e.f.vpe.stand c e.f.vpe.ctx (portOf e.f.vpe.elem c)
      (bar = none → exec (.perm w) s = .next s)
      ∧ ∀ u, bar = some u → (∀ p ∈ portsOf w.d, outBurst e.cfg p = 1) →
        (u = { s with mem := { s.mem with bars := u.mem.bars }, cfg := { s.cfg with tables := u.cfg.tables } })
        ∧ ∃ t, exec (.perm w) s = .next t ∧ LaneDone u t e (fun l => quietly (e.a ((e.b l).toNat % 16)))
            (fun l => e.v l && e.okSrc w.a ((e.b l).toNat % 16)) true e.f.tag)
    ∧ LaneRule (.bcast w) w (fun e _ => quietly (e.a (field w.imm 0 4).toNat))
        (fun e l => e.act l && e.v (field w.imm 0 4).toNat && e.okSrc w.a (field w.imm 0 4).toNat) true
    ∧ LaneRule (.lrot w) w (fun e l => quietly (e.a ((l + (field w.imm 0 4).toNat) % 16)))
        (fun e l => e.act l && e.v ((l + (field w.imm 0 4).toNat) % 16) && e.okSrc w.a ((l + (field w.imm 0 4).toNat) % 16)) true
    ∧ ShapeRule (.filt w) w (fun e l => quietly (if e.b l = 0 then 0 else e.a l)) (fun e l => e.v l && decide (e.b l ≠ 0))
    ∧ ShapeRule (.cmpk w) w (fun e l => quietly ((((List.range 16).filter e.v)[l]?.map e.a).getD 0))
        (fun e l => e.act l && decide (l < ((List.range 16).filter e.v).length))
    ∧ ShapeRule (.expnd w) w
        (fun e l => quietly (if e.act l && decide (e.b l ≠ 0) then
          (((List.range 16).filter e.v)[((List.range l).filter fun j => e.act j && decide (e.b j ≠ 0)).length]?.map e.a).getD 0 else 0))
        (fun e l => e.act l && decide (e.b l ≠ 0)
          && decide (((List.range l).filter fun j => e.act j && decide (e.b j ≠ 0)).length < ((List.range 16).filter e.v).length))
    ∧ (∀ op, LaneRule (.red op w) w
      (fun e _ => let r := redTree op (fun i => e.rc i 0 false) ((List.range 16).map (e.withIdentity op)); ⟨r.1, r.2⟩) SEnv.v false)
    ∧ (∀ op s e, stageEnv s (.scan op w) w = some e →
        let vs := scanFrom (scanRed op) (fun i => e.rc i 0 false) (redIdentity (scanRed op)) 0
          ((List.range 16).map (e.withIdentity (scanRed op)))
        let fl := (List.range 16).foldl (fun fl i => fl ||| (getAt vs i ⟨0, 0⟩).fl) (0 : FlagSet)
        let val := fun l => (⟨(getAt vs l ⟨0, 0⟩).bits, fl⟩ : Val)
        LaneFree s e val → ∃ t, exec (.scan op w) s = .next t ∧ LaneDone s t e val e.v false e.f.tag)
    ∧ ∀ s e fl, stageEnv s (.argmax w) w = some e →
        ((∃ l, l < 16 ∧ e.v l = true ∧ isSNaN (e.a l)) → fl = fNV) → ((∀ l, l < 16 → e.v l = true → ¬ isSNaN (e.a l)) → fl = 0) →
        LaneFree s e (fun _ => ⟨0, fl⟩) →
        ∃ t x, exec (.argmax w) s = .next t ∧ LaneDone s t e (fun _ => ⟨x, fl⟩) e.v false e.f.tag
          ∧ ((∀ l, l < 16 → e.v l = true → isNaN (e.a l)) → x = 0xFFFFFFFF#32)
          ∧ ∀ l, l < 16 → e.v l = true → ¬ isNaN (e.a l) → ∃ k, k < 16 ∧ x = BitVec.ofNat 32 k ∧ e.v k = true ∧ ¬ isNaN (e.a k)
              ∧ ¬ comesBefore (e.a k) (e.a l) ∧ (k ≤ l ∨ comesBefore (e.a l) (e.a k))

/-- R218: OPC 0x1F with FN 0 is NOP when SA, SB and SC hold 0x0E, DS 0x07 and IMM20 0, and reserved otherwise; Sk is 0 in every lane;
a slot of a reset VPE holds such a word. -/
def Obligations.StageNop : Prop :=
  let isNop := fun x : BitVec 64 => field x 37 6 = 0x0E#6 ∧ field x 31 6 = 0x0E#6 ∧ field x 25 6 = 0x0E#6 ∧ field x 20 5 = 0x07#5
    ∧ field x 0 20 = 0#20
  (∀ x i, field x 56 8 = 0x1F#8 → field x 52 4 = 0#4 → decodeStage x = .ok i → isNop x ∧ ∃ w, i = .nop w)
  ∧ (∀ x, field x 56 8 = 0x1F#8 → field x 52 4 = 0#4 → isNop x → (field x 46 3).toNat ≠ 7 → (field x 43 3).toNat < 6 →
      ∃ w, decodeStage x = .ok (.nop w))
  ∧ (∀ x w, decodeStage x = .ok (.nop w) → field x 56 8 = 0x1F#8 ∧ field x 52 4 = 0#4)
  ∧ (∀ w : SWord, LaneRule (.nop w) w (fun _ _ => quietly 0) SEnv.v false)
  ∧ ∀ k i, slotWord (vpeCfg State.reset k) i = 0x1F0E01C71C700000#64

namespace Sys2Proof.Slice0
open Sys2Proof Sys2Proof.Machine

/-- A committed result that goes to ports alone: these tokens, requests and flags, and no lane register changes. -/
structure SentDone (s t : State) (e : SEnv) (r : StageRes) (sent : List (Nat × Token)) (notes : List NoteReq) (fl : FlagSet) : Prop where
  moved : MovedOn t e r sent notes
  regs : laneRegs t e.f.vpe = laneRegs s e.f.vpe
  flags : flagsIn t e.f.vpe.stand e.f.vpe.ctx e.epoch = flagsIn s e.f.vpe.stand e.f.vpe.ctx e.epoch ||| fl
  frame : StageFrame s t e
/-- Raised flags find a shadow (R199). -/
def FlagRoom (s : State) (e : SEnv) (fl : FlagSet) : Prop := fl = 0 ∨ shadowRoom s e.f.vpe.stand e.f.vpe.ctx e.epoch = true
/-- DS names no lane register. -/
def OutOnly (w : SWord) : Prop := ∀ n, w.d ≠ .l n ∧ w.d ≠ .m n

/-- What a direction result sends on each port: HEAD with its norm and VALID 0x0003, then its components, 32 a token (R205). -/
def dirSends (e : SEnv) (d : Direction) : List (Nat × Token) :=
  (portsOf e.w.d).flatMap fun p =>
    (p, formHead e.f.tag e.f.seg .dir 0x7F 0 false (outSwz e.cfg p) d.norm)
      :: (List.range (d.dim / 32)).map fun j =>
        (p, ⟨e.f.tag, e.f.seg, .data, .dir, 0xFFFF#16, packElems 16 ((d.comps.drop (32 * j)).take 32)⟩)
/-- The instruction commits direction `d` (R205, R226 to R228). -/
def DirRule (i : Instr) (w : SWord) (pre : SEnv → DirVal → Prop) : Prop :=
  ∀ s e d, stageEnv s i w = some e → pre e d → OutOnly w → FlagRoom s e d.fl →
    (∀ p ∈ portsOf w.d, outFmt e.cfg p = .dir ∧ outBurst e.cfg p = d.dir.dim / 32) →
    ∃ t, exec i s = .next t
      ∧ SentDone s t e ⟨packElems 16 (d.dir.comps.take 32), maskFrom e.v, some d.dir⟩ (dirSends e d.dir) [] d.fl

/-- The lane result a, sent under another tag (R233). -/
def TagRule (i : Instr) (w : SWord) (sends : SEnv → Bool → Tag → StageRes → List (Nat × Token)) (tag : SEnv → Option Tag) : Prop :=
  ∀ s e u, stageEnv s i w = some e → tag e = some u → (∀ p ∈ portsOf w.d, outBurst e.cfg p = 1) →
    ∃ t, exec i s = .next t ∧ LaneLeft s t e (fun l => quietly (e.a l)) e.v (sends e true u)

/-- A stage that met a poison condition (R206): the firing sends nothing it had gathered, its later stages are passed over, it
holds the code and the VPE as origin, and no destination is written. -/
structure StagePoisoned (s t : State) (e : SEnv) (code : BitVec 8) (detail : Lane) : Prop where
  firing : firingOf t e.f.id = some { e.f with
    poison := some ⟨code, e.f.vpe.stand, BitVec.ofNat 8 e.f.vpe.elem, detail⟩, stage := e.cfg.stages,
    out := [], notes := [], issued := false, nodes := [] }
  firings : ∀ id, id ≠ e.f.id → firingOf t id = firingOf s id
  rest : t = { s with firings := t.firings, host := t.host }
  perf : t.host = { s.host with perf := t.host.perf }
  host : code ≠ pSYNC → t.host = s.host

end Sys2Proof.Slice0

/-- R217: ACC adds with its compensation, four roundings, and writes both registers in the active lanes. -/
def Obligations.StageCompensatedSum : Prop :=
  ∀ (w : SWord) (n : Fin 4) s e, stageEnv s (.acc w) w = some e → w.d = .l n → n.val < 3 →
    ∀ val, val = (fun l =>
      let sum := laneOf (e.regs.l.get n.val) l
      let r := e.rc l 0 false
      let y := fSub (e.a l) (laneOf (e.regs.l.get (n.val + 1)) l) r
      let t := fAdd sum y.bits r
      let u := fSub t.bits sum r
      (⟨t.bits, y.fl ||| t.fl ||| u.fl ||| (fSub u.bits y.bits r).fl⟩ : Val)) →
    FlagRoom s e ((List.range 16).foldl (fun fl l => if e.act l then fl ||| (val l).fl else fl) 0) →
    ∃ t, exec (.acc w) s = .next t
      ∧ (∃ r, MovedOn t e r [] [] ∧ ∀ l, l < 16 → laneOf r.lanes l = if e.act l then (val l).bits else 0)
      ∧ (∀ l, l < 16 → laneOf ((laneRegs t e.f.vpe).l.get n.val) l
          = if e.act l then (val l).bits else laneOf ((laneRegs s e.f.vpe).l.get n.val) l)
      ∧ (∀ l, l < 16 → laneOf ((laneRegs t e.f.vpe).l.get (n.val + 1)) l
          = if e.act l then
              let r := e.rc l 0 false
              let y := fSub (e.a l) (laneOf (e.regs.l.get (n.val + 1)) l) r
              (fSub (fSub (val l).bits (laneOf (e.regs.l.get n.val) l) r).bits y.bits r).bits
            else laneOf ((laneRegs s e.f.vpe).l.get (n.val + 1)) l)
      ∧ (∀ m : Fin 4, m.val ≠ n.val → m.val ≠ n.val + 1 → (laneRegs t e.f.vpe).l.get m.val = (laneRegs s e.f.vpe).l.get m.val)
      ∧ (laneRegs t e.f.vpe).m = (laneRegs s e.f.vpe).m ∧ FlagsOf s t e val ∧ StageFrame s t e

/-- R308, R302: SMAXI keeps in each active lane the pair that wins, and with .across gives the winner of the active lanes. -/
def Obligations.StageRunningMaximum : Prop :=
  ∀ (w : SWord) (n : Fin 4) s e, stageEnv s (.smaxi w) w = some e → w.d = .l n → n.val < 3 →
    let oldV := fun l => laneOf ((laneRegs s e.f.vpe).l.get n.val) l
    let oldI := fun l => laneOf ((laneRegs s e.f.vpe).l.get (n.val + 1)) l
    let takes := fun l => e.act l && (e.qual 0 || pairWins (e.a l) (e.b l) (oldV l) (oldI l))
    let newV := fun l => if takes l then e.a l else oldV l
    let newI := fun l => if takes l then e.b l else oldI l
    ∃ t r, exec (.smaxi w) s = .next t ∧ MovedOn t e r [] []
      ∧ (∀ l, l < 16 → laneOf ((laneRegs t e.f.vpe).l.get n.val) l = newV l)
      ∧ (∀ l, l < 16 → laneOf ((laneRegs t e.f.vpe).l.get (n.val + 1)) l = newI l)
      ∧ (∀ m : Fin 4, m.val ≠ n.val → m.val ≠ n.val + 1 → (laneRegs t e.f.vpe).l.get m.val = (laneRegs s e.f.vpe).l.get m.val)
      ∧ (laneRegs t e.f.vpe).m = (laneRegs s e.f.vpe).m ∧ t.fr = s.fr ∧ StageFrame s t e
      ∧ (e.qual 1 = false → ∀ l, l < 16 → laneOf r.lanes l = if e.act l then newV l else 0)
      ∧ (e.qual 1 = true → (∀ l, 2 ≤ l → l < 16 → laneOf r.lanes l = 0)
          ∧ ((∀ l, l < 16 → e.act l = true → isNan32 (newV l) = true) →
              laneOf r.lanes 0 = 0x7FC00000#32 ∧ laneOf r.lanes 1 = 0xFFFFFFFF#32)
          ∧ ∀ l, l < 16 → e.act l = true → isNan32 (newV l) = false →
              (∃ k, k < 16 ∧ e.act k = true ∧ laneOf r.lanes 0 = newV k ∧ laneOf r.lanes 1 = newI k)
              ∧ pairWins (newV l) (newI l) (laneOf r.lanes 0) (laneOf r.lanes 1) = false)

/-- R226 to R228: directions: the operation's direction goes out whole, and DDOT's cosine to every active lane. -/
def Obligations.StageDirections : Prop :=
  ∀ w : SWord,
    DirRule (.dfrom w) w (fun e d => ∃ n xs v, e.f32Burst w.a = .ok (n, xs, v) ∧ (e.inBurst n = 2 ∨ e.inBurst n = 4 ∨ e.inBurst n = 8)
      ∧ d = dFrom xs (16 * e.inBurst n))
    ∧ DirRule (.dadd w) w (fun e d => ∃ a b, e.dir w.a = .ok a ∧ e.dir w.b = .ok b ∧ a.dim = b.dim ∧ d = dAdd false a b)
    ∧ DirRule (.dsub w) w (fun e d => ∃ a b, e.dir w.a = .ok a ∧ e.dir w.b = .ok b ∧ a.dim = b.dim ∧ d = dAdd true a b)
    ∧ DirRule (.dneg w) w (fun e d => ∃ a, e.dir w.a = .ok a ∧ d = dNeg a)
    ∧ DirRule (.dscl w) w (fun e d => ∃ a, e.dir w.a = .ok a ∧ d = dScl a (e.b 0))
    ∧ DirRule (.dlerp w) w (fun e d => ∃ a b, e.dir w.a = .ok a ∧ e.dir w.b = .ok b ∧ a.dim = b.dim ∧ d = dLerp a b (e.c 0))
    ∧ DirRule (.dnrm w) w (fun e d => ∃ a, e.dir w.a = .ok a ∧ d = dNrm a)
    ∧ ∀ s e a b, stageEnv s (.ddot w) w = some e → e.dir w.a = .ok a → e.dir w.b = .ok b → a.dim = b.dim →
        ∀ val, val = (fun _ => dDot (e.qual 0) a b (e.rc 0 0 false)) → LaneFree s e val →
        ∃ t, exec (.ddot w) s = .next t ∧ LaneDone s t e val e.v false e.f.tag

/-- R224, R226, R232: the burst results: QBLK's and QO4's scale and codes, DTO's components, PACKT's packed lanes. The word
of QBLK's and DTO's stochastic roundings is the model's reading (log entry 22). -/
def Obligations.StageBursts : Prop :=
  ∀ w : SWord, OutOnly w →
    (∀ s e n xs valid, stageEnv s (.qblk w) w = some e → e.f32Burst w.a = .ok (n, xs, valid) → (e.inBurst n = 4 ∨ e.inBurst n = 8) →
      (∀ p ∈ portsOf w.d, (qfmtOf (outFmt e.cfg p)).isSome = true ∧ outBurst e.cfg p = e.inBurst n / 4) →
      let q := fun p => qblk ((qfmtOf (outFmt e.cfg p)).getD .e4) (xs.map fp32) (resolveRm e.f.drm w.rm)
        fun i => stoWord e.f.tag e.k (i / 4 % 16) (i % 4)
      FlagRoom s e ((portsOf w.d).foldl (fun fl p => fl ||| (q p).fl) 0) →
      ∃ t, exec (.qblk w) s = .next t ∧ SentDone s t e
        ⟨lanesFrom fun _ => BitVec.ofNat 32 (q ((portsOf w.d).headD 0)).scale, maskFrom e.v, none⟩
        ((portsOf w.d).flatMap fun p =>
          (p, formHead e.f.tag e.f.seg (outFmt e.cfg p) (BitVec.ofNat 8 (q p).scale) 0 false (outSwz e.cfg p) 0)
            :: (List.range (e.inBurst n / 4)).map fun j =>
              (p, ⟨e.f.tag, e.f.seg, .data, outFmt e.cfg p,
                maskFrom fun l => (List.range 4).any fun k => valid (64 * j + 4 * l + k),
                packElems 8 (((q p).codes.drop (64 * j)).take 64)⟩))
        [] ((portsOf w.d).foldl (fun fl p => fl ||| (q p).fl) 0))
    ∧ (∀ s e n xs valid, stageEnv s (.qo4 w) w = some e → e.f32Burst w.a = .ok (n, xs, valid) → e.inBurst n = 8 →
      (∀ p ∈ portsOf w.d, outFmt e.cfg p = .o4 ∧ outBurst e.cfg p = 1) →
      let q := qo4 (xs.map fp32) (resolveRm e.f.drm w.rm) fun i => stoWord e.f.tag e.k (i / 8 % 16) (i % 8)
      FlagRoom s e q.2.2 →
      ∃ t, exec (.qo4 w) s = .next t ∧ SentDone s t e ⟨lanesFrom fun _ => BitVec.ofNat 32 q.1, maskFrom e.v, none⟩
        ((portsOf w.d).flatMap fun p =>
          [(p, formHead e.f.tag e.f.seg .o4 (BitVec.ofNat 8 q.1) 0 false (outSwz e.cfg p) 0),
           (p, ⟨e.f.tag, e.f.seg, .data, .o4, maskFrom fun l => (List.range 8).any fun k => valid (8 * l + k), packElems 4 q.2.1⟩)])
        [] q.2.2)
    ∧ (∀ s e a, stageEnv s (.dto w) w = some e → e.dir w.a = .ok a →
      (∀ p ∈ portsOf w.d, outFmt e.cfg p = .f32 ∧ outBurst e.cfg p = a.dim / 16) →
      let vs := dTo a (resolveRm e.f.drm w.rm) fun i => stoWord e.f.tag e.k (i % 16) 0
      let fl := vs.foldl (fun fl x => fl ||| x.fl) (0 : FlagSet)
      FlagRoom s e fl →
      ∃ t, exec (.dto w) s = .next t ∧ SentDone s t e ⟨lanesFrom fun i => (getAt vs i ⟨0, 0⟩).bits, maskFrom e.v, none⟩
        ((portsOf w.d).flatMap fun p => (List.range (a.dim / 16)).map fun j =>
          (p, ⟨e.f.tag, e.f.seg, .data, .f32, 0xFFFF#16, lanesFrom fun i => (getAt vs (16 * j + i) ⟨0, 0⟩).bits⟩)) [] fl)
    ∧ ∀ s e n x, stageEnv s (.packt w) w = some e → w.a = .inp n → e.input n.val = some x → x.toks.length ≤ 16 →
      (∀ p ∈ portsOf w.d, outBurst e.cfg p = 1) →
      let vals := x.toks.flatMap fun t => ((List.range 16).filter fun l => bitAt t.valid l && e.act l).map (laneOf t.payload)
      let groups := (List.range ((vals.length + 15) / 16)).map fun g => (vals.drop (16 * g)).take 16
      let tok := fun (g : List Lane) => (⟨e.f.tag, e.f.seg, .data, x.first.ft, maskFrom fun k => decide (k < g.length),
        lanesFrom fun k => getAt g k 0⟩ : Token)
      ∃ t, exec (.packt w) s = .next t ∧ SentDone s t e ⟨(tok (groups.headD [])).payload, (tok (groups.headD [])).valid, none⟩
        ((portsOf w.d).flatMap fun p => groups.flatMap fun g =>
          (match x.head with | some h => [(p, { h with tag := e.f.tag, seg := e.f.seg })] | none => []) ++ [(p, tok g)]) [] 0

/-- R195, R233, R235, R236: tags entered, stepped and left on the named ports, TENTER sending only where a lane is valid; the request of NOTIFY; the END of EOS. -/
def Obligations.StageTagsAndEnds : Prop :=
  ∀ w : SWord, OutOnly w →
    TagRule (.tenter w) w shownSends (fun e => tagEnter e.widths e.f.tag)
    ∧ TagRule (.tstep w) w laneSends (fun e => tagStep e.widths e.f.tag)
    ∧ TagRule (.tleave w) w laneSends (fun e => tagLeave e.widths e.f.tag)
    ∧ (∀ s e, stageEnv s (.notify w) w = some e → e.f.seg ≠ 0 ∨ noteLoad s e.f.launch (field w.imm 0 12).toNat < Config.noteEntries →
        ∃ t, exec (.notify w) s = .next t ∧ SentDone s t e ⟨0, maskFrom e.v, none⟩ []
          (if e.f.seg = 0 then [⟨(field w.imm 0 12).toNat, getAt e.cfg.outloc ((portsOf w.d).headD 0) 0⟩] else []) 0)
    ∧ ∀ s e, stageEnv s (.eos w) w = some e → ∃ t r, exec (.eos w) s = .next t
        ∧ (∀ l, l < 16 → laneOf r.lanes l = if e.act l then e.a l else 0)
        ∧ SentDone s t e r ((portsOf w.d).map fun p => (p, ⟨e.f.tag, e.f.seg, .endOf, outFmt e.cfg p, 1#16, (e.a 0).setWidth 512⟩)) [] 0

/-- R206 with R205, R19, R223 and R224: a lane result on a port of another burst length, an overflowing tag, and an operand or port
of another format or shape each end the firing's work in poison of the named code, and write nothing. -/
def Obligations.StagePoisonEndsFiring : Prop :=
  ∀ (w : SWord) s,
    (∀ e p, stageEnv s (.mov w) w = some e → (portsOf w.d).find? (fun q => outBurst e.cfg q != 1) = some p →
      ∃ t, exec (.mov w) s = .next t ∧ StagePoisoned s t e pFMT (BitVec.ofNat 32 (getAt e.cfg.outloc p 0)))
    ∧ (∀ e, stageEnv s (.tenter w) w = some e → tagEnter e.widths e.f.tag = none →
      ∃ t, exec (.tenter w) s = .next t ∧ StagePoisoned s t e pTAGOVF (BitVec.ofNat 32 (tagDepth e.f.tag)))
    ∧ (∀ e, stageEnv s (.tstep w) w = some e → tagStep e.widths e.f.tag = none →
      ∃ t, exec (.tstep w) s = .next t ∧ StagePoisoned s t e pTAGOVF (BitVec.ofNat 32 (tagDepth e.f.tag - 1)))
    ∧ (∀ e, stageEnv s (.fdot8 w) w = some e → fp8 (dotFmt e w.a w.b) = none →
      ∃ t, exec (.fdot8 w) s = .next t ∧ StagePoisoned s t e pFMT (e.locOf w.a))
    ∧ (∀ e n xs v, stageEnv s (.qblk w) w = some e → e.f32Burst w.a = .ok (n, xs, v) → e.inBurst n ≠ 4 → e.inBurst n ≠ 8 →
      ∃ t, exec (.qblk w) s = .next t ∧ StagePoisoned s t e pFMT (e.locOf w.a))
    ∧ (∀ e x, stageEnv s (.odot4 w) w = some e → e.o4 w.a = .error x →
      ∃ t, exec (.odot4 w) s = .next t ∧ StagePoisoned s t e x.1 x.2)
    ∧ ∀ e a b, stageEnv s (.ddot w) w = some e → e.dir w.a = .ok a → e.dir w.b = .ok b → a.dim ≠ b.dim →
      ∃ t, exec (.ddot w) s = .next t ∧ StagePoisoned s t e pDIMS (e.locOf w.a)

namespace Sys2Proof.Slice0
open Sys2Proof Sys2Proof.Machine

/-! ### Stages that reach memory -/

/-- A node a stage issues, in its queue and not yet on its way (R126, R237). -/
def stageNode (e : SEnv) (id i : Nat) (x : SNode) : MNode :=
  ⟨id, .stage e.f.vpe e.k e.f.tag, e.f.vpe, e.f.launch, x.path, e.f.id * 4096 + i, x.op, x.ord, x.scope, [], .queued, 0, 0,
   0, none, e.epoch, none⟩
/-- The stage has issued its accesses in order; with `holds` its firing stands in the stage until they are acknowledged. -/
structure StageIssued (s t : State) (e : SEnv) (xs : List SNode) (holds : Prop) : Prop where
  nodes : t.ord = { s.ord with nodes := s.ord.nodes ++ xs.mapIdx fun i x => stageNode e (s.ctl.nextId + i) i x }
  ids : t.ctl = { s.ctl with nextId := s.ctl.nextId + xs.length }
  firing : holds → firingOf t e.f.id = some { e.f with issued := true, nodes := (List.range xs.length).map (s.ctl.nextId + ·) }
  firings : ∀ id, id ≠ e.f.id → firingOf t id = firingOf s id
  rest : t = { s with ctl := t.ctl, ord := t.ord, firings := t.firings, regs := t.regs }
/-- The stage has issued more accesses behind those it holds, and stands until they too are acknowledged. -/
structure StageMore (s t : State) (e : SEnv) (xs : List SNode) : Prop where
  nodes : t.ord = { s.ord with nodes := s.ord.nodes ++ xs.mapIdx fun i x => stageNode e (s.ctl.nextId + i) (e.f.nodes.length + i) x }
  ids : t.ctl = { s.ctl with nextId := s.ctl.nextId + xs.length }
  firing : firingOf t e.f.id
    = some { e.f with issued := true, nodes := e.f.nodes ++ (List.range xs.length).map (s.ctl.nextId + ·) }
  firings : ∀ id, id ≠ e.f.id → firingOf t id = firingOf s id
  rest : t = { s with ctl := t.ctl, ord := t.ord, firings := t.firings }
/-- The state without the nodes of a firing whose stage has taken their answers. -/
def withoutNodes (s : State) (ids : List Nat) : State :=
  { s with ord := { s.ord with nodes := s.ord.nodes.filter fun n => !ids.contains n.id } }
/-- The stand scratch address of a lane: its value plus a signed offset of `bits` bits, modulo 2^20 (R237, R241). -/
def laneAddr (e : SEnv) (bits lane : Nat) : Nat := (((e.a lane).toNat + (BitVec.ofNat bits e.w.imm.toNat).toInt) % 2 ^ 20).toNat
/-- The active lanes in order. -/
def activeLanes (e : SEnv) : List Nat := (List.range 16).filter e.act
/-- Every active lane's address is aligned, in an adjacent SCE and inside a region (R237). -/
def LanesInReach (s : State) (e : SEnv) (bits : Nat) : Prop :=
  ∀ l ∈ activeLanes e, laneAddr e bits l % 4 = 0 ∧ adjacent e.f.vpe.elem (sceOf (laneAddr e bits l)) = true
    ∧ (regionOf s e.f.vpe.stand e.f.vpe.ctx (laneAddr e bits l) 4).isSome = true
def soIf (b : Bool) : Ord := if b then .so else .plain
/-- The node that answers a lane. -/
def laneNode (e : SEnv) (ns : List MNode) (l : Nat) : Option MNode := (((activeLanes e).zip ns).find? fun x => x.1 == l).map (·.2)
/-- A lane result from the answers of a stage's nodes, which leave the order machine. -/
def ReturnRule (i : Instr) (w : SWord) (val : SEnv → List MNode → Nat → Lane) : Prop :=
  ∀ s e ns, stageEnv s i w = some e → e.f.issued = true → ackedNodes s e.f = some ns →
    ((∀ n ∈ ns, n.poison = none) → (∀ p ∈ portsOf w.d, outBurst e.cfg p = 1) →
      ∃ t, exec i s = .next t ∧ LaneDone (withoutNodes s e.f.nodes) t e (fun l => quietly (val e ns l)) e.v false e.f.tag)
    ∧ ∀ p, ns.findSome? (·.poison) = some p →
      ∃ t, exec i s = .next t ∧ StagePoisoned (withoutNodes s e.f.nodes) t e p.code p.detail
/-- The first round of an automaton stage: one access to the 64-byte header, or PERM with its address. -/
def HeaderRule (s : State) (e : SEnv) (hd : Nat) (more : List SNode → Prop) (poisoned : BitVec 8 → Lane → Prop) : Prop :=
  e.f.issued = false →
    ((hd % 64 = 0 ∧ stageReach s e hd 64 = true → more [scratchNode hd 64])
    ∧ (¬ (hd % 64 = 0 ∧ stageReach s e hd 64 = true) → poisoned pPERM (BitVec.ofNat 32 hd)))
/-- Later rounds: a refused access is its poison, a row that is no header PERM. -/
def NodesRule (ns : List MNode) (hd : Nat) (poisoned : BitVec 8 → Lane → Prop) : Prop :=
  (∀ p, ns.findSome? (·.poison) = some p → poisoned p.code p.detail)
  ∧ ((∀ n ∈ ns, n.poison = none) → ∀ h rest, ns.map MNode.bytes = h :: rest → nfaOf h = none → poisoned pPERM (BitVec.ofNat 32 hd))
/-- A round of scratch ranges: one access each, or PERM with the address of the first out of reach. -/
def RangesRule (s : State) (e : SEnv) (xs : List (Nat × Nat)) (more : List SNode → Prop) (poisoned : BitVec 8 → Lane → Prop) : Prop :=
  ((∀ x ∈ xs, stageReach s e x.1 x.2 = true) → more (xs.map fun x => scratchNode x.1 x.2))
  ∧ ∀ x, xs.find? (fun x => !stageReach s e x.1 x.2) = some x → poisoned pPERM (BitVec.ofNat 32 (x.1 % 2 ^ 20))
/-- The ring handle a stage names: the SCE on its side, handle IMM20[3:0] (R96, R238). -/
def ringHandle (s : State) (e : SEnv) : Option (EKey × Handle) := e.handle s (field e.w.imm 16 2).toNat
/-- EXITQ's result: all ones in the lanes that pass (R311). -/
def exitRes (e : SEnv) (pass : List Nat) : StageRes :=
  ⟨lanesFrom fun l => if pass.contains l then 0xFFFFFFFF#32 else 0, maskFrom e.v, none⟩
/-- The lanes `m` of a on one port; nothing where there are none (R311). -/
def exitSend (e : SEnv) (m : Nat → Bool) (p : Nat) : List (Nat × Token) :=
  if maskFrom m = 0 then []
  else portSends e false e.f.tag ⟨lanesFrom fun l => if m l then e.a l else 0, maskFrom m, none⟩ p
/-- OUT1 carries the lanes that pass, OUT0 the other valid lanes (R311). -/
def exitSends (e : SEnv) (pass : List Nat) : List (Nat × Token) :=
  exitSend e pass.contains 1 ++ exitSend e (fun l => e.v l && !pass.contains l) 0

end Sys2Proof.Slice0

/-- R237, R238, R241, R310: one node a lane in lane order for SLD, SST and SAMO, one row for LDH, a word a lane for STH; an SST that is
not .so goes on at once, the others hold; an address out of reach is poison PERM, a slot beyond the count poison SYNC. The acknowledged
nodes give each active lane its word, SST.so and STH give 0, a refused access is poison. -/
def Obligations.StageScratch : Prop :=
  (∀ (w : SWord) s,
    (∀ e, stageEnv s (.sld w) w = some e → e.f.issued = false → activeLanes e ≠ [] → LanesInReach s e 16 →
      ∃ t, exec (.sld w) s = .next t ∧ StageIssued s t e
        ((activeLanes e).map fun l => ⟨.sa, .sload (laneAddr e 16 l) 4, soIf (bitAt w.imm 16), .stand⟩) True ∧ t.regs = s.regs)
    ∧ (∀ e, stageEnv s (.sst w) w = some e → e.f.issued = false → activeLanes e ≠ [] → LanesInReach s e 16 → w.d = .nowhere →
      ∃ t, exec (.sst w) s = .next t ∧ StageIssued s t e
          ((activeLanes e).map fun l => ⟨.sa, .sstore (laneAddr e 16 l) (leBytes 4 (e.b l).toNat), soIf (bitAt w.imm 16), .stand⟩)
          (bitAt w.imm 16 = true)
        ∧ (bitAt w.imm 16 = false → MovedOn t e ⟨0, maskFrom e.v, none⟩ [] []) ∧ ∀ k, laneRegs t k = laneRegs s k)
    ∧ (∀ e, stageEnv s (.samo w) w = some e → e.f.issued = false → activeLanes e ≠ [] → LanesInReach s e 15 →
      ∃ t, exec (.samo w) s = .next t ∧ StageIssued s t e
        ((activeLanes e).map fun l =>
          ⟨.sa, .samo (laneAddr e 15 l) 4 (field w.imm 16 4).toNat ((e.b l).setWidth 64), soIf (bitAt w.imm 15), .stand⟩) True
        ∧ t.regs = s.regs)
    ∧ (∀ e c h a, stageEnv s (.ldh w) w = some e → e.f.issued = false → ringHandle s e = some (c, h) →
      (field w.imm 4 10).toNat < h.fill → a = slotAddr c h (offOf (advance h.size h.head (field w.imm 4 10).toNat)) →
      (regionOf s c.stand c.ctx a 64).isSome = true →
      ∃ t, exec (.ldh w) s = .next t ∧ StageIssued s t e [⟨.sa, .sload a 64, .plain, .stand⟩] True ∧ t.regs = s.regs)
    ∧ (∀ e c h a, stageEnv s (.sth w) w = some e → e.f.issued = false → ringHandle s e = some (c, h) → activeLanes e ≠ [] →
      (field w.imm 4 10).toNat < h.free → a = slotAddr c h (offOf (advance h.size h.tail (field w.imm 4 10).toNat)) →
      (regionOf s c.stand c.ctx a 64).isSome = true →
      ∃ t, exec (.sth w) s = .next t ∧ StageIssued s t e
        ((activeLanes e).map fun l => ⟨.sa, .sstore (a + 4 * l) (leBytes 4 (e.b l).toNat), .plain, .stand⟩) True ∧ t.regs = s.regs)
    ∧ (∀ e l, stageEnv s (.sld w) w = some e → e.f.issued = false → (activeLanes e).find? (fun l => !laneOk s e (laneAddr e 16 l)) = some l →
      ∃ t, exec (.sld w) s = .next t ∧ StagePoisoned s t e pPERM (BitVec.ofNat 32 (laneAddr e 16 l)))
    ∧ ∀ e c h, stageEnv s (.ldh w) w = some e → e.f.issued = false → ringHandle s e = some (c, h) →
      h.fill ≤ (field w.imm 4 10).toNat →
      ∃ t, exec (.ldh w) s = .next t ∧ StagePoisoned s t e pSYNC (BitVec.ofNat 32 (slotAddr c h 0)))
  ∧ (∀ w : SWord,
    ReturnRule (.sld w) w (fun e ns l => ((laneNode e ns l).map fun n => BitVec.ofNat 32 (leNat n.bytes)).getD 0)
    ∧ ReturnRule (.samo w) w (fun e ns l => ((laneNode e ns l).map fun n => n.value.setWidth 32).getD 0)
    ∧ ReturnRule (.ldh w) w (fun _ ns l => laneOf (leLanes ((ns.head?.map MNode.bytes).getD [])) l)
    ∧ ReturnRule (.sth w) w (fun _ _ _ => 0)
    ∧ ReturnRule (.sst w) w (fun _ _ _ => 0))

/-- R96, R107, R197, R239: ADVH moves its pointer by k within the count once no move from a higher port has been made in the clock;
WAITH goes on once the count is there and holds before; PEEKH shows the image and the counts; all three stand while a permute holds
the crossbar; beyond a count ADVH is poison SYNC. An advance moves an
offset past the last slot back to 0 and inverts its wrap bit; HEAD's takes as many slots from the fill, TAIL's from the free count.
That a lower port's move waits for the next clock, and that the three stand under a permute, is the model's reading (log entry 116). -/
def Obligations.RingsAdvance : Prop :=
  (∀ (w : SWord) s,
    (∀ e c h, stageEnv s (.advh w) w = some e → ringHandle s e = some (c, h) → w.d = .nowhere →
      let k := (field w.imm 5 11).toNat
      let tail := bitAt w.imm 4
      ((if tail then h.free else h.fill) ≥ k →
        let moved := moveHandle s c (field w.imm 0 4).toNat (portOf e.f.vpe.elem (c.elem - 0x10))
        (moved = none → exec (.advh w) s = .next s)
        ∧ ∀ u, moved = some u → u = { s with mem := { s.mem with bars := u.mem.bars } }
          ∧ ∃ t, exec (.advh w) s = .next t ∧ LaneDone (setHandle u c (field w.imm 0 4).toNat
              (if tail then { h with tail := advance h.size h.tail k } else { h with head := advance h.size h.head k }))
              t e (fun _ => quietly 0) e.v false e.f.tag)
      ∧ ((if tail then h.free else h.fill) < k →
        ∃ t, exec (.advh w) s = .next t ∧ StagePoisoned s t e pSYNC (BitVec.ofNat 32 (slotAddr c h 0))))
    ∧ (∀ e c h, stageEnv s (.waith w) w = some e → ringHandle s e = some (c, h) → w.d = .nowhere →
      let n := (field w.imm 5 11).toNat
      let count := if bitAt w.imm 4 then h.free else h.fill
      (n ≤ count → (h.size ≠ 0 ∨ n = 0) → handleFree s c = true → ∃ t, exec (.waith w) s = .next t ∧ LaneDone s t e (fun _ => quietly 0) e.v false e.f.tag)
      ∧ (count < n ∨ handleFree s c = false → (h.size ≠ 0 ∨ n = 0) → exec (.waith w) s = .next s)
      ∧ (h.size = 0 → n ≠ 0 → ∃ t, exec (.waith w) s = .next t ∧ StagePoisoned s t e pSYNC (BitVec.ofNat 32 (slotAddr c h 0))))
    ∧ (∀ e c h, stageEnv s (.peekh w) w = some e → ringHandle s e = some (c, h) → (∀ p ∈ portsOf w.d, outBurst e.cfg p = 1) →
      (handleFree s c = false → exec (.peekh w) s = .next s)
      ∧ (handleFree s c = true → ∃ t, exec (.peekh w) s = .next t ∧ LaneDone s t e (fun l => quietly (match l with
        | 0 => h.image.setWidth 32 | 1 => (h.image >>> 32).setWidth 32
        | 2 => BitVec.ofNat 32 h.fill | 3 => BitVec.ofNat 32 h.free | _ => 0)) e.v false e.f.tag)))
  ∧ (∀ (h : Handle) (k : Nat), 0 < h.size → h.size ≤ 1024 → offOf h.head < h.size → offOf h.tail < h.size →
    (wrapOf h.tail = wrapOf h.head → offOf h.head ≤ offOf h.tail) → (wrapOf h.tail ≠ wrapOf h.head → offOf h.tail ≤ offOf h.head) →
    h.fill + h.free = h.size
    ∧ (k ≤ h.size → offOf (advance h.size h.head k) = (if offOf h.head + k < h.size then offOf h.head + k else offOf h.head + k - h.size)
        ∧ (wrapOf (advance h.size h.head k) = wrapOf h.head ↔ offOf h.head + k < h.size))
    ∧ (k ≤ h.fill → ({ h with head := advance h.size h.head k } : Handle).fill = h.fill - k)
    ∧ (k ≤ h.free → ({ h with tail := advance h.size h.tail k } : Handle).fill = h.fill + k))

/-- R240: WAITX is OPC 0x7B, FN 0, SB and SC unused; it holds its firing in the stage while the generation of the launch's exchange
group is a's lane 0 [15:0], and then gives the generation, zero-extended, in every active lane. -/
def Obligations.StageExchangeWait : Prop :=
  (∀ x w, decodeStage x = .ok (.waitx w) → field x 56 8 = 0x7B#8 ∧ field x 52 4 = 0#4 ∧ field x 31 6 = 0x0E#6 ∧ field x 25 6 = 0x0E#6)
  ∧ (∀ x i, field x 56 8 = 0x7B#8 → decodeStage x = .ok i → ∃ w, i = .waitx w)
  ∧ (∀ w : SWord, wfStage (.waitx w) = true ↔ w.b = .zero ∧ w.c = .zero ∧ (w.hasImm = false → w.imm = 0))
  ∧ ∀ (w : SWord) s e l, stageEnv s (.waitx w) w = some e → launchOf s e.f.launch = some l →
    (l.ex.gen ≠ field (e.a 0) 0 16 → (∀ p ∈ portsOf w.d, outBurst e.cfg p = 1) →
      ∃ t, exec (.waitx w) s = .next t ∧ LaneDone s t e (fun _ => quietly (l.ex.gen.setWidth 32)) e.v false e.f.tag)
    ∧ (l.ex.gen = field (e.a 0) 0 16 → exec (.waitx w) s = .next s)

/-- R127, R187, R309, R310: NFASTEP and NFAMSK go round by round, each round's nodes acknowledged before the next: the header at its bank, or
poison PERM where it is misaligned, out of reach or no header; the byte's class, the initial, accept and state sets at their banks; the
follow rows of the current states; the store of the next set; then whether it accepts, how many states it holds and whether it is empty.
NFAMSK reads the state set, then the mask rows, and ORs them into its lanes. A refused access is poison. -/
def Obligations.StageAutomata : Prop :=
  ∀ (w : SWord) s,
    (∀ e, stageEnv s (.nfastep w) w = some e →
      let hd := (e.a 0).toNat % 2 ^ 20
      let c := (e.c 0).toNat % 2 ^ 20
      let more := fun xs => ∃ t, exec (.nfastep w) s = .next t ∧ StageMore s t e xs
      let poisoned := fun code d => ∃ t, exec (.nfastep w) s = .next t ∧ StagePoisoned (withoutNodes s e.f.nodes) t e code d
      HeaderRule s e hd more poisoned
      ∧ ∀ ns, e.f.issued = true → ackedNodes s e.f = some ns →
        NodesRule ns hd poisoned
        ∧ ((∀ n ∈ ns, n.poison = none) → ∀ h a, nfaOf h = some a →
          (ns.map MNode.bytes = [h] → RangesRule s e
            [(hd + a.classOff + (field (e.b 0) 0 8).toNat * a.setBytes, a.setBytes), (hd + a.initOff, a.setBytes),
              (hd + a.accOff, a.setBytes), (c, a.setBytes)] more poisoned)
          ∧ ∀ cls init acc cur rows, ns.map MNode.bytes = h :: cls :: init :: acc :: cur :: rows →
            let states := a.states_ (if e.qual 0 then init else cur)
            (rows = [] → states ≠ [] → more (states.map fun i => loadNode (a.followVa i) a.setBytes))
            ∧ (rows.length = states.length → more [⟨.sa, .sstore c (a.next rows cls init), .plain, .stand⟩])
            ∧ ∀ follows done next, rows = follows ++ [done] → follows.length = states.length → next = a.next follows cls init →
              (∀ p ∈ portsOf w.d, outBurst e.cfg p = 1) →
              ∃ t, exec (.nfastep w) s = .next t ∧ LaneDone (withoutNodes s e.f.nodes) t e (fun l => quietly (match l with
                | 0 => if anyBit (andBytes next acc) then 1 else 0
                | 1 => BitVec.ofNat 32 (statesOf next).length
                | 2 => if anyBit next then 0 else 1
                | _ => 0)) e.v false e.f.tag))
    ∧ ∀ e, stageEnv s (.nfamsk w) w = some e →
      let hd := (e.b 0).toNat % 2 ^ 20
      let m := w.imm.toNat
      let more := fun xs => ∃ t, exec (.nfamsk w) s = .next t ∧ StageMore s t e xs
      let poisoned := fun code d => ∃ t, exec (.nfamsk w) s = .next t ∧ StagePoisoned (withoutNodes s e.f.nodes) t e code d
      HeaderRule s e hd more poisoned
      ∧ ∀ ns, e.f.issued = true → ackedNodes s e.f = some ns →
        NodesRule ns hd poisoned
        ∧ ((∀ n ∈ ns, n.poison = none) → ∀ h a, nfaOf h = some a →
          (∀ rest, ns.map MNode.bytes = h :: rest → a.vrow < 64 * (m + 1) → poisoned pPERM (BitVec.ofNat 32 hd))
          ∧ (64 * (m + 1) ≤ a.vrow →
            (ns.map MNode.bytes = [h] → RangesRule s e [((e.c 0).toNat % 2 ^ 20, a.setBytes)] more poisoned)
            ∧ ∀ cur rows, ns.map MNode.bytes = h :: cur :: rows →
              (rows = [] → a.states_ cur ≠ [] → more ((a.states_ cur).map fun i => loadNode (a.maskVa i m) 64))
              ∧ (rows.length = (a.states_ cur).length → (∀ p ∈ portsOf w.d, outBurst e.cfg p = 1) →
                ∃ t, exec (.nfamsk w) s = .next t ∧ LaneDone (withoutNodes s e.f.nodes) t e
                  (fun l => quietly (e.a l ||| laneOf (leLanes (rows.foldl orBytes (zeroBytes 64))) l)) e.v false e.f.tag)))

/-- R311: EXITQ reserves a queue entry for every lane that reaches the threshold and marks its layers. It completes, its firing in the next
stage with its result and its tokens, in two ways: at once, where no layer is left to mark or no lane reaches the threshold; else once the
layers are marked, with the entries in the queue. The lanes that pass leave on OUT1, the others on OUT0. -/
def Obligations.StageEarlyExit : Prop :=
  ∀ (w : SWord) s e, stageEnv s (.exitq w) w = some e →
    let ctl := laneOf (e.regs.l.get 3) 0
    let lfirst := (field ctl 20 8).toNat
    let d := (field ctl 28 4).toNat
    (∀ a, e.f.issued = false → outBurst e.cfg 0 = 1 → outBurst e.cfg 1 = 1 →
      adjacent e.f.vpe.elem (sceOf (field ctl 0 20).toNat) = true →
      areaAt s e.f.vpe.stand e.f.vpe.ctx (field ctl 0 20).toNat = .ok a → lfirst < a.nlayer → e.confident ≠ [] →
      (∀ l ∈ e.confident, a.holds (e.entryOf l).1 (e.entryOf l).2 = true) →
      (s.eng.backfill.filter fun x => x.die == dieOf e.f.vpe.stand).length + e.confident.length ≤ Config.backfillEntries →
      ∃ t, exec (.exitq w) s = .next t
        ∧ t.eng = { s.eng with backfill := s.eng.backfill ++ e.confident.mapIdx fun j l =>
            ⟨s.ctl.nextId + j, dieOf e.f.vpe.stand, a.va, (e.entryOf l).1, (e.entryOf l).2, lfirst, a.nlayer - 1, e.f.tag,
             if d = 15 then none else some (e.epoch + d), nodeOf s e.f.launch e.f.vpe, e.f.launch, s.ctl.nextId + j, none, false, false, a.fields⟩ }
        ∧ (∃ ids, firingOf t e.f.id = some { e.f with issued := true, nodes := ids, bfs := e.confident.mapIdx fun j l => (l, s.ctl.nextId + j) })
        ∧ t.ord.nodes.map (·.op) = s.ord.nodes.map (·.op) ++ e.confident.flatMap fun l =>
            (a.words (e.entryOf l).1 (e.entryOf l).2 lfirst (a.nlayer - 1)).map fun x => .kvmap x.1 x.2 .exit)
    ∧ (∀ a, e.f.issued = false → outBurst e.cfg 0 = 1 → outBurst e.cfg 1 = 1 →
      adjacent e.f.vpe.elem (sceOf (field ctl 0 20).toNat) = true →
      areaAt s e.f.vpe.stand e.f.vpe.ctx (field ctl 0 20).toNat = .ok a → (a.nlayer ≤ lfirst ∨ e.confident = []) → w.d = .outB →
      (∀ l ∈ e.confident, a.holds (e.entryOf l).1 (e.entryOf l).2 = true) →
      ∃ t, exec (.exitq w) s = .next t ∧ SentDone s t e (exitRes e e.confident) (exitSends e e.confident) [] 0)
    ∧ ∀ ns, e.f.issued = true → ackedNodes s e.f = some ns → (∀ n ∈ ns, n.poison = none) → w.d = .outB →
      (s.eng.backfill.map (·.id)).Nodup →
      let u := e.f.bfs.foldl (fun s b => appendBf s e.f.vpe.stand b.2) (withoutNodes s e.f.nodes)
      (unitsFit u = false → exec (.exitq w) s = .next s)
      ∧ (unitsFit u = true → ∃ t, exec (.exitq w) s = .next t
        ∧ t.eng.backfill = s.eng.backfill.map (fun x => if e.f.bfs.any (fun b => b.2 == x.id) then { x with visible := true } else x)
        ∧ firingOf t e.f.id = some { e.f with
            stage := e.f.stage + 1, issued := false, nodes := [], bfs := [],
            results := e.f.results ++ [exitRes e (e.f.bfs.map (·.1))], out := e.f.out ++ exitSends e (e.f.bfs.map (·.1)) })

namespace Sys2Proof.Slice0
open Sys2Proof Sys2Proof.Machine

/-! ### Words about blocks -/

/-- Nothing stands yet where a target sends (R69). -/
def targetFree (x : Exec) (t : Target) : Prop :=
  (∀ sl, targetSlot t = some sl → slotVal x sl = none) ∧ ∀ k, t = .w k → x.writes.find? (fun w => w.1 == k.val) = none
/-- Both targets are free, and they differ unless neither sends. -/
def TargetsFree (e : BEnv) : Prop :=
  targetFree e.x e.inf.t0 ∧ targetFree e.x e.inf.t1 ∧ (e.inf.t0 = e.inf.t1 → e.inf.t0 = .nowhere)
/-- Raised flags find a shadow (R199). -/
def ShadowFor (s : State) (e : BEnv) (fl : FlagSet) : Prop := fl = 0 ∨ shadowRoom s e.x.tile.stand e.x.tile.ctx e.epoch = true

/-- No step of one instruction of an execution touches more than its own execution and its epoch's flags. -/
structure BlockFrame (s t : State) (e : BEnv) : Prop where
  execs : ∀ id, id ≠ e.x.id → execOf t id = execOf s id
  shadows : ∀ st c ep, ¬ (st = e.x.tile.stand ∧ c = e.x.tile.ctx ∧ ep = e.epoch) → flagsIn t st c ep = flagsIn s st c ep
  rest : t = { s with tiles := { s.tiles with execs := t.tiles.execs }, fr := { s.fr with shadows := t.fr.shadows } }
/-- Targets T0 and T1 hold v0 and v1; what RECV put at T0 is marked with its format and its edge, `ft`; every other slot and write entry is
as before. -/
structure Delivered (x y : Exec) (f : BInfo) (v0 v1 : Lanes) (ft : Option (Fmt × Nat)) : Prop where
  slots : ∀ sl, slotVal y sl = if targetSlot f.t0 = some sl then some ⟨sl.1, sl.2, v0, ft⟩
    else if targetSlot f.t1 = some sl then some ⟨sl.1, sl.2, v1, none⟩ else slotVal x sl
  writes : ∀ k : Fin 8, y.writes.find? (fun w => w.1 == k.val) = if f.t0 = .w k then some (k.val, f.n0, v0)
    else if f.t1 = .w k then some (k.val, f.n1, v1) else x.writes.find? fun w => w.1 == k.val
/-- The instruction has fired (R242): its values stand at its targets, its flags are raised, and `own` says what else it changed
of its execution. -/
structure FiredAs (s t : State) (e : BEnv) (v0 v1 : Lanes) (ft : Option (Fmt × Nat)) (fl : FlagSet) (own : Exec → Exec) : Prop where
  exec : ∃ y, execOf t e.x.id = some y ∧ y.fired = e.idx :: e.x.fired ∧ Delivered e.x y e.inf v0 v1 ft
    ∧ y = { own e.x with fired := y.fired, vals := y.vals, writes := y.writes }
  flags : flagsIn t e.x.tile.stand e.x.tile.ctx e.epoch = flagsIn s e.x.tile.stand e.x.tile.ctx e.epoch ||| fl
  frame : BlockFrame s t e
abbrev Fired (s t : State) (e : BEnv) (v0 v1 : Lanes) (fl : FlagSet) (own : Exec → Exec) : Prop := FiredAs s t e v0 v1 none fl own
/-- The instruction may fire: all its slots are filled, no operand has a format it refuses, its targets are free. -/
def MayFire (s : State) (i : Instr) (e : BEnv) : Prop := blockEnv s i = some e ∧ e.badFormat = false ∧ TargetsFree e
/-- It fires whenever it may and `pre` holds: values, and what it changes of its execution. -/
def FiresWith (i : Instr) (pre : State → BEnv → Prop) (v0 v1 : State → BEnv → Lanes) (own : State → BEnv → Exec → Exec) : Prop :=
  ∀ s e, MayFire s i e → pre s e → ∃ t, exec i s = .next t ∧ Fired s t e (v0 s e) (v1 s e) 0 (own s e)
/-- It gives both targets one 64-bit value that the relation allows. -/
def Gives64 (i : Instr) (rel : BEnv → Word → Prop) : Prop :=
  ∀ s e, MayFire s i e → ∃ t v, rel e v ∧ exec i s = .next t ∧ Fired s t e (v.setWidth 512) (v.setWidth 512) 0 id

/-- A lane result of a block (R249): 16 lanes at W 10, lane 0 zero-extended at W 01. -/
def laneResult (w : BWord) (val : Nat → Val) : Lanes :=
  if w.w = .tok then lanesFrom fun l => (val l).bits else (val 0).bits.setWidth 512
def laneFlags (w : BWord) (val : Nat → Val) : FlagSet :=
  if w.w = .tok then (List.range 16).foldl (fun fl l => fl ||| (val l).fl) 0 else (val 0).fl
/-- Each lane takes a value that the relation allows. -/
def BlockLanes (i : Instr) (w : BWord) (rel : BEnv → Nat → Val → Prop) : Prop :=
  ∀ s e, MayFire s i e → (∀ val : Nat → Val, (∀ l, l < 16 → rel e l (val l)) → ShadowFor s e (laneFlags w val)) →
    ∃ t val, (∀ l, l < 16 → rel e l (val l)) ∧ exec i s = .next t
      ∧ Fired s t e (laneResult w val) (laneResult w val) (laneFlags w val) id
/-- Lane `l` of a, of b or its immediate in place of b, and of p (R243, R249). -/
def laneA (e : BEnv) (l : Nat) : Lane := laneOf (e.slot 0) l
def laneB (e : BEnv) (imm : Lane) (l : Nat) : Lane := if e.named 1 then laneOf (e.slot 1) l else imm
def laneP (e : BEnv) (l : Nat) : Lane := laneOf (e.slot 2) l
/-- The FP immediate: sign, exponent and the top of the mantissa; the rest 0 (R243). -/
def floatImm (w : BWord) : Lane := BitVec.ofNat 32 ((field w.imm 0 23).toNat * 512)
def signedImm (w : BWord) : Word := BitVec.ofInt 64 (field w.imm 0 23).toInt
/-- The rounding of lane l: the word's RM, or the tile's where it says so; stochastic words of site 16 + index (R46, R242). -/
def roundAt (e : BEnv) (w : BWord) (l : Nat) : Rctx := e.rc w.rm l 0 (bitAt w.imm 23)

end Sys2Proof.Slice0

/-- R249, with R210 to R213, R222: the FP32 operations and CVT of a block, a lane each, with one rounding. The word of CVT's stochastic
rounding (log entry 22) and the infinity that `.sat` leaves to R47's table (95) are the model's reading. -/
def Obligations.BlockFloat : Prop :=
  ∀ w : BWord,
    BlockLanes (.faddBlock w) w (fun e l x => x = fAdd (laneA e l) (laneB e (floatImm w) l) (roundAt e w l))
    ∧ BlockLanes (.fsubBlock w) w (fun e l x => x = fSub (laneA e l) (laneB e (floatImm w) l) (roundAt e w l))
    ∧ BlockLanes (.fmulBlock w) w (fun e l x => x = fMul (laneA e l) (laneB e (floatImm w) l) (roundAt e w l))
    ∧ BlockLanes (.ffmaBlock w) w (fun e l x => x = fFma false false (laneA e l) (laneB e (floatImm w) l) (laneP e l) (roundAt e w l))
    ∧ BlockLanes (.ffmsBlock w) w (fun e l x => x = fFma false true (laneA e l) (laneB e (floatImm w) l) (laneP e l) (roundAt e w l))
    ∧ BlockLanes (.fnmaBlock w) w (fun e l x => x = fFma true false (laneA e l) (laneB e (floatImm w) l) (laneP e l) (roundAt e w l))
    ∧ BlockLanes (.fminBlock w) w (fun e l => minMaxRel false (laneA e l) (laneB e (floatImm w) l))
    ∧ BlockLanes (.fmaxBlock w) w (fun e l => minMaxRel true (laneA e l) (laneB e (floatImm w) l))
    ∧ (∀ c, BlockLanes (.fcmpBlock c w) w (fun e l => compareRel c (laneA e l) (laneB e (floatImm w) l)))
    ∧ BlockLanes (.fclassBlock w) w (fun e l x => x = quietly (BitVec.ofNat 32 (2 ^ classBit (laneA e l))))
    ∧ BlockLanes (.fabsBlock w) w (fun e l x =>
        (∀ k, k < 31 → bitAt x.bits k = bitAt (laneA e l) k) ∧ bitAt x.bits 31 = false ∧ x.fl = 0)
    ∧ BlockLanes (.fnegBlock w) w (fun e l x =>
        (∀ k, k < 31 → bitAt x.bits k = bitAt (laneA e l) k) ∧ bitAt x.bits 31 = (!bitAt (laneA e l) 31) ∧ x.fl = 0)
    ∧ BlockLanes (.fcpysBlock w) w (fun e l x =>
        (∀ k, k < 31 → bitAt x.bits k = bitAt (laneA e l) k) ∧ bitAt x.bits 31 = bitAt (laneB e (floatImm w) l) 31 ∧ x.fl = 0)
    ∧ ∀ p, BlockLanes (.cvtBlock p w) w (fun e l x =>
        x = cvtLane p (field w.imm 0 2).toNat (laneA e l) (laneOf (e.slot 1) l) Scale.one
          (e.rc w.rm l (field w.imm 0 2).toNat (bitAt w.imm 23)))

namespace Sys2Proof.Slice0
open Sys2Proof Sys2Proof.Machine
/-- An integer operation of a block: 64 bits wide at W 00, a 32-bit lane each otherwise (R249). -/
def BlockInt (i : Instr) (w : BWord) : Prop :=
  (w.w = .w64 → ∀ s e, MayFire s i e → (∀ r fl, intRel i (bitAt w.imm 23) (e.slot 0 |>.setWidth 64)
        (if e.named 1 then (e.slot 1).setWidth 64 else signedImm w) (r : Word) fl → ShadowFor s e fl) →
    ∃ t r fl, intRel i (bitAt w.imm 23) (e.slot 0 |>.setWidth 64) (if e.named 1 then (e.slot 1).setWidth 64 else signedImm w) (r : Word) fl
      ∧ exec i s = .next t ∧ Fired s t e (r.setWidth 512) (r.setWidth 512) fl id)
  ∧ (w.w ≠ .w64 → BlockLanes i w fun e l x =>
      intRel i (bitAt w.imm 23) (laneA e l) (laneB e ((signedImm w).setWidth 32) l) x.bits x.fl)
/-- The block forms of R219 to R221. -/
def blockInt (w : BWord) : List Instr :=
  [.iaddBlock w, .isubBlock w, .imulBlock w, .imulhBlock w, .imulhuBlock w, .iminBlock w, .imaxBlock w, .uminBlock w, .umaxBlock w,
   .andBlock w, .orBlock w, .xorBlock w, .andnBlock w, .notBlock w, .shlBlock w, .shrBlock w, .sarBlock w, .rotlBlock w,
   .popcBlock w, .clzBlock w, .ctzBlock w]
end Sys2Proof.Slice0

/-- R249, with R214, R215, R218 to R221: integers, bits, MOV, SEL and NOP of a block at 64 bits and by lanes. -/
def Obligations.BlockIntegers : Prop :=
  ∀ w : BWord,
    (∀ i ∈ blockInt w, BlockInt i w) ∧ (∀ c, BlockInt (.icmpBlock c w) w)
    ∧ (w.w = .w64 → Gives64 (.movBlock w) (fun e v => v = (e.slot 0).setWidth 64)
        ∧ Gives64 (.selBlock w) (fun e v =>
            v = if (e.slot 2).setWidth 64 = (0 : Word) then (e.slot 1).setWidth 64 else (e.slot 0).setWidth 64))
    ∧ (w.w ≠ .w64 → BlockLanes (.movBlock w) w (fun e l x => x = quietly (laneA e l))
        ∧ BlockLanes (.selBlock w) w (fun e l x => x = quietly (if laneP e l = 0 then laneOf (e.slot 1) l else laneA e l)))
    ∧ ∀ s e, blockEnv s (.nopBlock w) = some e →
        ∃ t, exec (.nopBlock w) s = .next t ∧ execOf t e.x.id = some { e.x with fired := e.idx :: e.x.fired }
          ∧ BlockFrame s t e ∧ t.fr = s.fr

/-- R257 to R259: LEA adds a, the shifted b and the displacement modulo 2^64; MOVI extends its immediate, at 32 bits with the upper
half 0; MOVHI replaces one half-word; BFEXT and BFINS move a bit field. -/
def Obligations.BlockAddressArithmetic : Prop :=
  ∀ w : BWord,
    Gives64 (.lea w) (fun e v => (v.toNat : Int) = (((e.slot 0).setWidth 64).toNat
      + ((e.slot 1).setWidth 64).toNat * 2 ^ (field w.imm 0 3).toNat + (field w.imm 3 21).toInt) % 2 ^ 64)
    ∧ Gives64 (.movi w) (fun _ v =>
        if w.w = .w64 then v.toInt = w.imm.toInt else (v.toNat : Int) = w.imm.toInt % 2 ^ 32)
    ∧ Gives64 (.movhi w) (fun e v => ∀ k, k < 64 → bitAt v k =
        if k / 16 = (field w.imm 16 2).toNat then bitAt w.imm (k % 16) else bitAt (e.slot 0) k)
    ∧ Gives64 (.bfext w) (fun e v => bfPos w + bfLen w ≤ 64 → ∀ k, k < 64 → bitAt v k =
        if k < bfLen w then bitAt (e.slot 0) (bfPos w + k) else bitAt w.imm 12 && bitAt (e.slot 0) (bfPos w + bfLen w - 1))
    ∧ Gives64 (.bfins w) (fun e v => bfPos w + bfLen w ≤ 64 → ∀ k, k < 64 → bitAt v k =
        if bfPos w ≤ k ∧ k < bfPos w + bfLen w then bitAt (e.slot 1) (k - bfPos w) else bitAt (e.slot 0) k)

namespace Sys2Proof.Slice0
open Sys2Proof Sys2Proof.Machine
/-- The registers of the group at `base`, as the execution found them, with the base's norm (R94, R95). -/
def groupAt (e : BEnv) (base n : Nat) : Direction :=
  ⟨(List.range n).flatMap fun j => (getAt e.x.dregs (base + j) (Direction.zero 32)).comps,
   (getAt e.x.dregs base (Direction.zero 32)).norm⟩
/-- The instruction gives both targets 1 and the commit a direction for its DD group, a register for each 32 components, all with
the direction's norm (R94, R250). -/
def PutsDirection (i : Instr) (w : BWord) (d : BEnv → DirVal) : Prop :=
  ∀ s e, MayFire s i e → ShadowFor s e (d e).fl →
    ∃ t, exec i s = .next t ∧ Fired s t e 1 1 (d e).fl (fun x => { x with dwrites := x.dwrites ++
      ((List.range (dGroup w.imm)).map fun j => (dDst w.imm + j, ⟨((d e).dir.comps.drop (32 * j)).take 32, (d e).dir.norm⟩)) })
end Sys2Proof.Slice0

/-- R250: directional operations of a block read the D registers of the start and write a group at the commit; DDOT and DTO
give lanes. DTO's stochastic word, of lane i modulo 16, is the model's reading (log entry 22). -/
def Obligations.BlockDirections : Prop :=
  ∀ w : BWord,
    let da := fun (e : BEnv) => groupAt e (dA w.imm) (dGroup w.imm)
    let db := fun (e : BEnv) => groupAt e (dB w.imm) (dGroup w.imm)
    PutsDirection (.dfromBlock w) w (fun e => dFrom ((List.range 16).map (laneA e) ++ (List.range 16).map (laneOf (e.slot 1))) 32)
    ∧ PutsDirection (.daddBlock w) w (fun e => dAdd false (da e) (db e))
    ∧ PutsDirection (.dsubBlock w) w (fun e => dAdd true (da e) (db e))
    ∧ PutsDirection (.dnegBlock w) w (fun e => dNeg (da e))
    ∧ PutsDirection (.dsclBlock w) w (fun e => dScl (da e) (laneOf (e.slot 1) 0))
    ∧ PutsDirection (.dlerpBlock w) w (fun e => dLerp (da e) (db e) (laneOf (e.slot 1) 0))
    ∧ PutsDirection (.dnrmBlock w) w (fun e => dNrm (da e))
    ∧ (∀ s e v, MayFire s (.ddotBlock w) e → v = dDot (bitAt w.imm 0) (da e) (db e) (e.rc w.rm 0 0 false) → ShadowFor s e v.fl →
        ∃ t, exec (.ddotBlock w) s = .next t ∧ Fired s t e (v.bits.setWidth 512) (v.bits.setWidth 512) v.fl id)
    ∧ ∀ s e vs, MayFire s (.dtoBlock w) e →
        vs = ((dTo (da e) (resolveRm e.x.drm w.rm) fun i => stoWord e.x.tag (16 + e.idx) (i % 16) 0).drop (16 * dJ w.imm)).take 16 →
        ShadowFor s e (vs.foldl (fun fl v => fl ||| v.fl) 0) →
        ∃ t, exec (.dtoBlock w) s = .next t
          ∧ Fired s t e (lanesFrom fun l => (getAt vs l ⟨0, 0⟩).bits) (lanesFrom fun l => (getAt vs l ⟨0, 0⟩).bits)
            (vs.foldl (fun fl v => fl ||| v.fl) 0) id

namespace Sys2Proof.Slice0
open Sys2Proof Sys2Proof.Machine

/-! ### Executions that end in poison, control, and what leaves a block -/

/-- The token travels on the edge, or waits there for its credit (R143). -/
def sentOn (t : State) (ek : EdgeKey) (src : EKey) (tok : Token) : Prop :=
  (∃ f ∈ t.q.flights, f.edge = ek ∧ f.src = src ∧ f.tok = tok) ∨ ∃ o ∈ t.q.owed, o.edge = ek ∧ o.src = src ∧ o.tok = tok
/-- An execution that met poison (R247): a segment's stops where it is; any other is gone with its unissued nodes, its thread
token is replaced by a POISON on every output edge of its node, or at rest where it has none, and the counts follow in one change
set. -/
structure Aborted (s t : State) (e : BEnv) (code : BitVec 8) (detail : Nat) : Prop where
  segment : e.th.speculative = true → execOf t e.x.id = some { e.x with abort := some (ownPoison e.x.tile code detail) }
    ∧ ∀ id, id ≠ e.x.id → execOf t id = execOf s id
  ended : e.th.speculative = false → t.tiles.execs = s.tiles.execs.filter (fun x => !(x.id == e.x.id))
    ∧ threadOf t e.th.uid = (if e.th.guard = 0 then none else some { e.th with at_ := .ended })
    ∧ t.ord.nodes = s.ord.nodes.filter fun n =>
        !(n.at_ = .queued && decide (n.src = .thread e.x.thread) && n.pos / 1024 == e.x.id && decide (n.pos % 1024 < 512))
  poison : e.th.speculative = false → (∀ k ∈ e.x.taken, k.tok.kind ≠ .poison) →
    let out := nodeOutEdges s e.th.launch e.th.tile
    (∀ n ∈ out, sentOn t (lkEdge e.th.launch n) e.th.tile (poisonToken e.th.tag (ownPoison e.x.tile code detail)))
    ∧ t.fr = (changeSet s e.th.tile.stand e.th.launch
        (takenDeltas e.x ++ [⟨e.th.hold, e.th.tag, -1⟩] ++ out.map fun n => ⟨n, e.th.tag, 1⟩)).fr
    ∧ (out = [] → ∃ r ∈ t.host.rests, r.info = ownPoison e.x.tile code detail ∧ r.tag = e.th.tag)
    ∧ t.host.poisons = s.host.poisons
  rest : t = { s with
    ctl := { s.ctl with nextId := t.ctl.nextId }, ord := { s.ord with nodes := t.ord.nodes }, fr := t.fr,
    tiles := { s.tiles with execs := t.tiles.execs, threads := t.tiles.threads },
    q := { s.q with flights := t.q.flights, owed := t.q.owed, bursts := t.q.bursts },
    host := { s.host with perf := t.host.perf, rests := t.host.rests, poisons := t.host.poisons } }
/-- It ends its execution in poison, once the frontier unit has room for that change set; it stays while there is none (R163). -/
def EndsIn (i : Instr) (s : State) (e : BEnv) (code : BitVec 8) (detail : Nat) : Prop :=
  (abortRoom s e.x = true → ∃ t, exec i s = .next t ∧ Aborted s t e code detail)
  ∧ (abortRoom s e.x = false → exec i s = .next s)

/-- Its execution will leave by `c` (R246). -/
def withControl (c : Control) (x : Exec) : Exec := { x with control := some c }
/-- A transfer to `target`, its targets holding `v`; a target that is no block header, or a second control instruction, is ILL
(R246). -/
def TransferRule (i : Instr) (target : BEnv → Option Nat) (yields : Bool) (v : BEnv → Word) : Prop :=
  ∀ s e, MayFire s i e →
    (∀ n, target e = some n → n < 8192 → headerWordAt s e.x.tile n = true → e.x.control = none →
      ∃ t, exec i s = .next t ∧ Fired s t e ((v e).setWidth 512) ((v e).setWidth 512) 0 (withControl (.goto n yields)))
    ∧ (((∀ n, target e = some n → 8192 ≤ n ∨ headerWordAt s e.x.tile n = false) ∨ e.x.control ≠ none) → EndsIn i s e pILL e.b.addr)
/-- The block address in a; its upper bits must be 0 (R251). -/
def addressInA (e : BEnv) : Option Nat :=
  if ((e.slot 0).setWidth 64).toNat < 8192 then some ((e.slot 0).setWidth 64).toNat else none
/-- The registers a FORK gives its thread token: a, and b where it is named, from register IMM[19:13] on (R254). -/
def forkRegs (w : BWord) (e : BEnv) : List (Nat × Word) :=
  ((field w.imm 13 7).toNat, (e.slot 0).setWidth 64)
    :: if e.named 1 then [((field w.imm 13 7).toNat + 1, (e.slot 1).setWidth 64)] else []
/-- Loop counters in use (R253). -/
def liveLoops (e : BEnv) : Nat := (e.th.lc.filter fun c => c != 0).length
def addressIn (w : BWord) : Nat := (field w.imm 0 13).toNat
def afterBlock (e : BEnv) : Nat := e.b.addr + 4 + e.b.head.icount

end Sys2Proof.Slice0

/-- R246, R251 to R253, R255: BR, RET, BRI, CALL, YIELD and HALT; CALL's targets take the fall-through address. LOOP opens a counter
with its count, leaves at once on 0, and is ILL with three open; LEND lowers the last counter and goes back while it is not 0; without
one it is ILL. -/
def Obligations.BlockTransfers : Prop :=
  (∀ w : BWord,
    TransferRule (.br w) addressInA false (fun _ => 1) ∧ TransferRule (.ret w) addressInA false (fun _ => 1)
    ∧ TransferRule (.bri w) (fun _ => some (addressIn w)) false (fun _ => 1)
    ∧ TransferRule (.call w) (fun _ => some (addressIn w)) false (fun e => BitVec.ofNat 64 (afterBlock e))
    ∧ TransferRule (.yield w) (fun _ => some (addressIn w)) true (fun _ => 1)
    ∧ ∀ s e, MayFire s (.halt w) e →
        (e.x.control = none → ∃ t, exec (.halt w) s = .next t ∧ Fired s t e 1 1 0 (withControl .halt))
        ∧ (e.x.control ≠ none → EndsIn (.halt w) s e pILL e.b.addr))
  ∧ ∀ (w : BWord) s e, e.x.control = none → headerWordAt s e.x.tile (afterBlock e) = true → afterBlock e < 8192 →
    (MayFire s (.loop w) e →
      (laneA e 0 = 0 → addressIn w < 8192 → headerWordAt s e.x.tile (addressIn w) = true →
        ∃ t, exec (.loop w) s = .next t ∧ Fired s t e 1 1 0 (withControl (.goto (addressIn w) false)))
      ∧ (laneA e 0 ≠ 0 → liveLoops e ≠ 3 →
        ∃ t, exec (.loop w) s = .next t ∧ Fired s t e 1 1 0 fun x =>
          { x with lc := x.lc ++ [(liveLoops e, laneA e 0)], control := some (.goto (afterBlock e) false) })
      ∧ (laneA e 0 ≠ 0 → liveLoops e = 3 → EndsIn (.loop w) s e pILL e.b.addr))
    ∧ ∀ imm n, MayFire s (.lend imm w) e → (if imm then some (addressIn w) else addressInA e) = some n →
      (0 < liveLoops e → n < 8192 → headerWordAt s e.x.tile n = true →
        ∃ t, exec (.lend imm w) s = .next t ∧ Fired s t e 1 1 0 fun x =>
          { x with lc := x.lc ++ [(liveLoops e - 1, getAt e.th.lc (liveLoops e - 1) 0 - 1)],
                   control := some (.goto (if getAt e.th.lc (liveLoops e - 1) 0 = 1 then afterBlock e else n) false) })
      ∧ (liveLoops e = 0 → EndsIn (.lend imm w) s e pILL e.b.addr)

/-- R69, R247, R248, R282, R320: POISON completes: where it may fire outside a segment and the frontier unit has room for what follows (R163),
exec answers the state in which its own effect is taken: the execution is gone, ended in poison of code IMM[7:0] (ILL beside another
control instruction), and the poison leaves on every output edge of its node or rests there; in a segment it waits. A 512-bit operand
that came straight from RECV in a format FT excludes ends the execution FMT, with the location of the input it came by; a slot written
twice ends it ILL. -/
def Obligations.BlockPoison : Prop :=
  (∀ (w : BWord) s e, blockEnv s (.poison w) = some e → e.badFormat = false → e.th.speculative = false → abortRoom s e.x = true →
    ∃ t, exec (.poison w) s = .next t ∧ execOf t e.x.id = none
      ∧ Aborted s t e (if e.x.control = none then field w.imm 0 8 else pILL) e.b.addr)
  ∧ (∀ (w : BWord) s e, blockEnv s (.poison w) = some e → e.badFormat = false → e.th.speculative = true →
      exec (.poison w) s = .next s)
  ∧ (∀ (w : BWord) s e edge, ∀ i ∈ [Instr.faddBlock w, .ffmaBlock w, .iaddBlock w, .movBlock w, .selBlock w],
      blockEnv s i = some e → e.badInput = some edge → EndsIn i s e pFMT (inLoc edge))
  ∧ (∀ (w : BWord) s e sl, blockEnv s (.movi w) = some e → e.badFormat = false → targetSlot e.inf.t0 = some sl →
      slotVal e.x sl ≠ none → abortRoom s e.x = true →
      ∃ t y, exec (.movi w) s = .next t ∧ y = { e.x with fired := e.idx :: e.x.fired, vals := y.vals, writes := y.writes }
        ∧ Aborted s t { e with x := y } pILL e.b.addr)
  ∧ ∀ (e : BEnv) edge, e.badInput = some edge ↔ ∃ f, e.inf.ft = some f ∧
      e.inf.wide.findSome? (fun k => match slotVal e.x (e.idx, k) with
        | some ⟨_, _, _, some (g, from_)⟩ => if g = f then none else some from_
        | _ => none) = some edge

/-- R161, R254, R272, R278, R371: FORK, SEND and SEND.brk join what leaves at the commit; a fork will hold the pointstamp its creator holds
now. FORK takes its place in the line for a frame and, when its turn has come, reserves the lowest free one (that it is the lowest is log
entry 120; that a turn comes in a clock after the one it joined in, log entry 58); a segment's FORK reserves none; a SEND or FORK of a segment holds while its buffer is full, but for a SEND on a
local edge; a brake takes its own tag with level p one higher; a port without an edge, or a level the tag lacks, is ILL. -/
def Obligations.BlockForkAndSend : Prop :=
  ∀ (w : BWord) s,
    (∀ e f, MayFire s (.fork w) e → e.th.speculative = false → e.freeFrame s = some f →
      f ∈ freeFrames s e.x.tile ∧ (∀ g ∈ freeFrames s e.x.tile, f ≤ g)
      ∧ ∃ t, exec (.fork w) s = .next t ∧ Fired s t e 1 1 0 fun x =>
        { x with leaving := x.leaving ++ [.fork (addressIn w) (forkRegs w e) x.tag (some f) (some e.th.hold) e.idx], frames := x.frames ++ [f] })
    ∧ (∀ e, MayFire s (.fork w) e → e.th.speculative = false → e.freeFrame s = none → exec (.fork w) s = .next (joinLine s e none))
    ∧ (∀ e, MayFire s (.fork w) e → e.th.speculative = true →
      (e.sendsHeld s < Config.segSends → ∃ t, exec (.fork w) s = .next t ∧ Fired s t e 1 1 0 fun x =>
        { x with leaving := x.leaving ++ [.fork (addressIn w) (forkRegs w e) x.tag none (some e.th.hold) e.idx] })
      ∧ (Config.segSends ≤ e.sendsHeld s → exec (.fork w) s = .next s))
    ∧ (∀ e ed, MayFire s (.send w) e → tileOutEdge s e.th.launch e.x.tile (field w.imm 0 4).toNat = some ed →
      e.th.speculative = true → Config.segSends ≤ e.sendsHeld s → localOut s e.x.tile (lkEdge e.th.launch ed.num) = false →
      exec (.send w) s = .next s)
    ∧ (∀ e ed, MayFire s (.send w) e → tileOutEdge s e.th.launch e.x.tile (field w.imm 0 4).toNat = some ed →
      (e.th.speculative = false ∨ e.sendsHeld s < Config.segSends ∨ localOut s e.x.tile (lkEdge e.th.launch ed.num) = true) →
      ∃ t, exec (.send w) s = .next t ∧ Fired s t e 1 1 0 fun x =>
        { x with leaving := x.leaving ++ [.send (field w.imm 0 4).toNat
            ⟨x.tag, if localOut s x.tile (lkEdge e.th.launch ed.num) then e.th.sid else 0,
             if (field w.imm 4 2).toNat = 0 then .data else if (field w.imm 4 2).toNat = 1 then .head else .endOf,
             w.ft.getD .i32, if e.named 1 then (e.slot 1).setWidth 16 else 0xFFFF#16, e.slot 0⟩ e.idx] })
    ∧ (∀ e, MayFire s (.send w) e → tileOutEdge s e.th.launch e.x.tile (field w.imm 0 4).toNat = none →
        EndsIn (.send w) s e pILL e.b.addr)
    ∧ ∀ e ed p, MayFire s (.sendBrk w) e → e.th.speculative = false → p = (field w.imm 7 3).toNat →
      tileOutEdge s e.th.launch e.x.tile (field w.imm 0 4).toNat = some ed →
      (p < tagDepth e.x.tag → tagLevel e.widths e.x.tag p + 1 < 2 ^ levelWidth e.widths p →
        ∃ t, exec (.sendBrk w) s = .next t ∧ Fired s t e 1 1 0 fun x =>
          { x with leaving := x.leaving ++ [.send (field w.imm 0 4).toNat
            ⟨setLevel e.widths x.tag p (tagLevel e.widths x.tag p + 1), 0, .brake, .i32, 0x0001#16, BitVec.ofNat 512 p⟩ e.idx] })
      ∧ (tagDepth e.x.tag ≤ p → EndsIn (.sendBrk w) s e pILL e.b.addr)
      ∧ (p < tagDepth e.x.tag → 2 ^ levelWidth e.widths p ≤ tagLevel e.widths e.x.tag p + 1 → EndsIn (.sendBrk w) s e pTAGOVF p)

namespace Sys2Proof.Slice0
open Sys2Proof Sys2Proof.Machine
/-- The state with a buffered token taken, the permit it gives back under way; takings are numbered as they come (R144, R285). -/
def tookToken (s : State) (b : Buffered) : State := (fresh (takeBuffered s b)).2
def tookAs (s : State) (b : Buffered) (ek : EdgeKey) (w : BWord) (start : Option (Nat × Option Nat)) (x : Exec) : Exec :=
  { x with taken := x.taken ++ [⟨ek, b.tok, b.last, b.bad, start, bitAt w.imm 18, (fresh (takeBuffered s b)).1⟩],
           frames := x.frames ++ (start.bind (·.2)).toList }
/-- Whether FT admits the token (R273). -/
def ftTakes (w : BWord) (b : Buffered) : Prop := ∀ f, w.ft = some f → f = b.tok.ft
end Sys2Proof.Slice0

/-- R39, R254, R273, R320: RECV takes the oldest token of its port when its turn in the port's line has come (in a clock after the one it joined
in, log entry 58): T0 the payload, T1 VALID, FT and KIND. With START a DATA token reserves a frame, in a segment a place of its buffer;
an END gives 0. A token of a format FT excludes, one whose HEAD is malformed or missing, and a HEAD with START end the execution FMT with
the location of the input. Where no token stands, or it is not its turn, it takes its place in the line; a segment's RECV on a port from
elsewhere waits. -/
def Obligations.BlockReceive : Prop :=
  ∀ (w : BWord) s e ed, tileInEdge s e.th.launch e.x.tile (field w.imm 0 4).toNat = some ed →
    let ek := lkEdge e.th.launch ed.num
    let port := some (ek, recvSid s e ek)
    ((e.th.speculative = true ∧ localIn s e.x.tile ek = false) →
      (MayFire s (.recv w) e → exec (.recv w) s = .next s) ∧ (MayFire s (.recvStart w) e → exec (.recvStart w) s = .next s))
    ∧ ((e.th.speculative = false ∨ localIn s e.x.tile ek = true) →
      ((e.turn s port = false ∨ recvToken s e ek = none) →
        (MayFire s (.recv w) e → exec (.recv w) s = .next (joinLine s e port))
        ∧ (MayFire s (.recvStart w) e → exec (.recvStart w) s = .next (joinLine s e port)))
      ∧ ∀ b, e.turn s port = true → recvToken s e ek = some b → b.tok.kind ≠ .poison →
        (MayFire s (.recv w) e → ftTakes w b → b.bad = false →
          ∃ t, exec (.recv w) s = .next t ∧ FiredAs (tookToken s b) t e b.tok.payload
            (BitVec.ofNat 512 (b.tok.valid.toNat + Fmt.code b.tok.ft * 2 ^ 16 + b.tok.kind.code * 2 ^ 19)) (some (b.tok.ft, ed.num)) 0
            (tookAs s b ek w none))
        ∧ (∀ i, MayFire s i e → (i = .recv w ∧ (¬ ftTakes w b ∨ b.bad = true)
              ∨ i = .recvStart w ∧ (¬ ftTakes w b ∨ b.bad = true ∨ b.tok.kind = .head)) →
            (abortRoom s (tookAs s b ek w none e.x) = true → ∃ t, exec i s = .next t
              ∧ Aborted (tookToken s b) t { e with x := tookAs s b ek w none e.x } pFMT (inLoc ed.num))
            ∧ (abortRoom s (tookAs s b ek w none e.x) = false → exec i s = .next s))
        ∧ (MayFire s (.recvStart w) e → ftTakes w b → b.bad = false → b.tok.kind ≠ .endOf → b.tok.kind ≠ .head →
          (∀ f, e.startFrame s = some f →
            ∃ t, exec (.recvStart w) s = .next t
              ∧ Fired (tookToken s b) t e 1 1 0 (tookAs s b ek w (some ((field w.imm 4 13).toNat, f))))
          ∧ (e.startFrame s = none → exec (.recvStart w) s
              = .next (if e.th.speculative then joinLine s e port else joinLine (joinLine s e port) e none)))
        ∧ (MayFire s (.recvStart w) e → ftTakes w b → b.bad = false → b.tok.kind = .endOf →
          ∃ t, exec (.recvStart w) s = .next t ∧ Fired (tookToken s b) t e 0 0 0 (tookAs s b ek w none)))

namespace Sys2Proof.Slice0
open Sys2Proof Sys2Proof.Machine
/-- A SPAWNP finds what it needs (R274): a handle, `sides` deck entries, segment names and frames that no waiting FORK is owed, fewer than eight conditions,
and room in its own segment's buffer. -/
def SpawnRoom (s : State) (e : BEnv) (sides : Nat) : Prop :=
  (match e.th.seg with | some g => g.chain.length ≠ 8 | none => True)
  ∧ deckUsed s (dieOf e.x.tile.stand) + sides ≤ Config.deckEntries
  ∧ sides ≤ (freeSids s e.x.tile.stand).length ∧ sides ≤ (spareFrames s e.x.tile).length
  ∧ (e.th.speculative = true → e.sendsHeld s < Config.segSends ∧ e.storesHeld < Config.segStores)
end Sys2Proof.Slice0

/-- R163, R274 to R277, R373: SPAWNP reserves a segment a side and gives the handle, or gives 0; RESOLVE and SQUASH of a thread token act
at once, or wait while the frontier unit has no room, and give whether the handle was live in their launch, a segment's are recorded; LKRD reads the segment's likelihoods, 0 without conditions. A
squashed condition leaves no segment that waits for it, and its handle is dead. -/
def Obligations.BlockSpeculation : Prop :=
  (∀ (w : BWord) s,
    (∀ e sides, MayFire s (.spawnp w) e → sides = (if bitAt w.imm 23 then 2 else 1) →
      (bitAt w.imm 23 = true → ((e.slot 0).setWidth 64).toNat < 8192) →
      (∀ n, freeHandle s (dieOf e.x.tile.stand) = some n → SpawnRoom s e sides →
        ∃ t, exec (.spawnp w) s = .next t ∧ Fired s t e
          (BitVec.ofNat 512 (handleWord s e.th.launch (dieOf e.x.tile.stand) n)) (BitVec.ofNat 512 (handleWord s e.th.launch (dieOf e.x.tile.stand) n)) 0
          fun x => { x with spawns := x.spawns ++ [⟨handleWord s e.th.launch (dieOf e.x.tile.stand) n, addressIn w,
            if bitAt w.imm 23 then some ((e.slot 0).setWidth 64).toNat else none, (spawnCode s e w).1, (spawnCode s e w).2,
            (spareFrames s e.x.tile).take sides, (freeSids s e.x.tile.stand).take sides⟩] })
      ∧ ((freeHandle s (dieOf e.x.tile.stand) = none ∨ ¬ SpawnRoom s e sides) →
        ∃ t, exec (.spawnp w) s = .next t ∧ Fired s t e 0 0 0 id))
    ∧ (∀ e, MayFire s (.spawnp w) e → bitAt w.imm 23 = true → 8192 ≤ ((e.slot 0).setWidth 64).toNat →
        EndsIn (.spawnp w) s e pILL e.b.addr)
    ∧ (∀ e i o, MayFire s i e → i = .resolve w → o = bitAt (e.slot 1) 0 →
      (e.th.speculative = true → ∃ t, exec i s = .next t ∧ Fired s t e 1 1 0 fun x =>
        { x with recs := x.recs ++ [.resolve ((e.slot 0).setWidth 64) o] })
      ∧ (e.th.speculative = false → handleLive s e.th.launch ((e.slot 0).setWidth 64) = none →
        ∃ t, exec i s = .next t ∧ Fired s t e 0 0 0 id)
      ∧ (e.th.speculative = false → handleLive s e.th.launch ((e.slot 0).setWidth 64) ≠ none →
        ∀ u, u = (resolveHandle s e.th.launch ((e.slot 0).setWidth 64) o).1 → execOf u e.x.id = some e.x →
        (unitsFit u = true → ∃ t, exec i s = .next t ∧ Fired u t e 1 1 0 id) ∧ (unitsFit u = false → exec i s = .next s)))
    ∧ (∀ e i, MayFire s i e → i = .squash w →
      (e.th.speculative = true → ∃ t, exec i s = .next t ∧ Fired s t e 1 1 0 fun x =>
        { x with recs := x.recs ++ [.squash ((e.slot 0).setWidth 64)] })
      ∧ (e.th.speculative = false → handleLive s e.th.launch ((e.slot 0).setWidth 64) = none →
        ∃ t, exec i s = .next t ∧ Fired s t e 0 0 0 id)
      ∧ (e.th.speculative = false → handleLive s e.th.launch ((e.slot 0).setWidth 64) ≠ none →
        ∀ u, u = (squashOne s e.th.launch ((e.slot 0).setWidth 64)).1 → execOf u e.x.id = some e.x →
        (unitsFit u = true → ∃ t, exec i s = .next t ∧ Fired u t e 1 1 0 id) ∧ (unitsFit u = false → exec i s = .next s)))
    ∧ Gives64 (.lkrd w) (fun e v => v = match e.th.seg with
        | some g => if g.chain = [] then 0 else BitVec.ofNat 64 (g.lks + g.lkp * 2 ^ 16 + g.chain.length * 2 ^ 32 + g.sid.toNat * 2 ^ 36)
        | none => 0))
  ∧ (∀ s lk h r, (s.tiles.threads.map (·.uid)).Nodup → handleLive s lk h = some r →
    (squashOne s lk h).2 = true ∧ handleLive (squashOne s lk h).1 lk h = none
    ∧ ∀ side, segmentsWith (squashOne s lk h).1 h.toNat side = [])
namespace Sys2Proof.Slice0
open Sys2Proof Sys2Proof.Machine

/-! ### Instructions of a block that become nodes of the order machine, or are posted -/

/-- The instruction has fired as a node in its queue and awaits its answer (R126, R242); `binds` marks an execution that can no
longer be undone (R285). -/
structure NodeAdded (s t : State) (e : BEnv) (path : Path) (op : MemOp) (ord : Ord) (scope : Scope) (binds : Bool) : Prop where
  nodes : t.ord = { s.ord with nodes := s.ord.nodes ++ [⟨s.ctl.nextId, .thread e.th.uid, e.x.tile, e.th.launch, path,
    e.x.id * 1024 + e.idx, op, ord, scope, [], .queued, 0, 0, 0, none, e.epoch, none⟩] }
  exec : execOf t e.x.id = some { e.x with fired := e.idx :: e.x.fired, waits := e.x.waits ++ [⟨e.idx, [s.ctl.nextId]⟩],
                                           bound := e.x.bound || binds }
  execs : ∀ id, id ≠ e.x.id → execOf t id = execOf s id
  rest : t = { s with ctl := { s.ctl with nextId := s.ctl.nextId + 1 }, ord := t.ord, tiles := { s.tiles with execs := t.tiles.execs } }
/-- The store stands among those the commit will post (R245); nothing is sent. -/
structure StorePosted (s t : State) (e : BEnv) (p : Posted) : Prop where
  exec : execOf t e.x.id = some { e.x with fired := e.idx :: e.x.fired, stores := e.x.stores ++ [p] }
  execs : ∀ id, id ≠ e.x.id → execOf t id = execOf s id
  rest : t = { s with tiles := { s.tiles with execs := t.tiles.execs } }
/-- It becomes this node whenever its slots are filled. -/
def NodeRule (i : Instr) (path : Path) (op : BEnv → MemOp) (ord : Ord) (scope : Scope) (binds : Bool) : Prop :=
  ∀ s e, blockEnv s i = some e → ∃ t, exec i s = .next t ∧ NodeAdded s t e path (op e) ord scope binds
/-- The same at an address that is a multiple of `k`; any other ends the execution PERM. -/
def AlignedNodeRule (i : Instr) (addr : BEnv → Nat) (k : Nat) (path : Path) (op : BEnv → MemOp) (ord : Ord) (scope : Scope)
    (binds : Bool) : Prop :=
  ∀ s e, blockEnv s i = some e →
    (addr e % k = 0 → ∃ t, exec i s = .next t ∧ NodeAdded s t e path (op e) ord scope binds)
    ∧ (addr e % k ≠ 0 → EndsIn i s e pPERM (addr e % 2 ^ 32))
/-- A posted store, while its segment's buffer has room; a full one holds it (R278). -/
def StoreRule (i : Instr) (p : BEnv → Posted) : Prop :=
  ∀ s e, blockEnv s i = some e →
    (e.storeRoom = true → ∃ t, exec i s = .next t ∧ StorePosted s t e (p e)) ∧ (e.storeRoom = false → exec i s = .next s)
def AlignedStoreRule (i : Instr) (addr : BEnv → Nat) (k : Nat) (p : BEnv → Posted) : Prop :=
  ∀ s e, blockEnv s i = some e →
    (addr e % k = 0 → e.storeRoom = true → ∃ t, exec i s = .next t ∧ StorePosted s t e (p e))
    ∧ (addr e % k ≠ 0 → EndsIn i s e pPERM (addr e % 2 ^ 32))

/-- Device address a + sext(OFF) modulo 2^64, and scratch address modulo 2^20 (R260, R265). -/
def deviceAddr (w : MWord) (e : BEnv) : Word := BitVec.ofInt 64 (((e.slot 0).setWidth 64).toNat + w.off.toInt)
def scratchAddr (w : MWord) (e : BEnv) : Nat := (deviceAddr w e).toNat % 2 ^ 20
/-- Bytes of a datum; the data in b. -/
def size (w : MWord) : Nat := 2 ^ w.sz.val
def storeData (w : MWord) (e : BEnv) : List Byte := leBytes (size w) (e.slot 1).toNat
def word1 (e : BEnv) : Word := (e.slot 1).setWidth 64
/-- Place of a posted store in source order: behind the execution's other nodes (R126). -/
def storePlace (e : BEnv) : Nat := e.x.id * 1024 + 512 + e.idx

end Sys2Proof.Slice0

/-- R245, R262, R265, R266, R268, R271: stores of every kind are posted with the address and the bytes they will write; DST writes its
registers' images; XST names the stand in a,
and reserved bits beside it make it ILL (the model's reading, log entry 60). -/
def Obligations.BlockStores : Prop :=
  ∀ w : MWord,
    StoreRule (.st w) (fun e => .mem (deviceAddr w e) (storeData w e) w.ord w.scope (storePlace e))
    ∧ StoreRule (.stv w) (fun e => .mem (deviceAddr w e) (storeData w e) w.ord w.scope (storePlace e))
    ∧ StoreRule (.sstBlock w) (fun e => .scratch (scratchAddr w e) (storeData w e) w.ord (storePlace e))
    ∧ AlignedStoreRule (.swset w) (scratchAddr w) 8 (fun e => .sync (scratchAddr w e) (word1 e) w.ord w.scope (storePlace e))
    ∧ AlignedStoreRule (.dst w) (fun e => (deviceAddr w e).toNat) 128 (fun e =>
        let g := groupAt e w.aop.toNat (size w)
        .mem (deviceAddr w e) ((List.range (size w)).flatMap fun j => dirImage ⟨(g.comps.drop (32 * j)).take 32, g.norm⟩)
          w.ord w.scope (storePlace e))
    ∧ ∀ s e, blockEnv s (.xst w) = some e →
        (((e.slot 0).setWidth 64 : Word).toNat < 2 ^ 29 → e.storeRoom = true → ∃ t, exec (.xst w) s = .next t
          ∧ StorePosted s t e (.remote (field (e.slot 0) 20 9).toNat
              (((field (e.slot 0) 0 20).toNat + w.off.toInt) % 2 ^ 20).toNat (storeData w e) w.ord w.scope (storePlace e)))
        ∧ (2 ^ 29 ≤ ((e.slot 0).setWidth 64 : Word).toNat → EndsIn (.xst w) s e pILL e.b.addr)

/-- R260, R261, R263 to R266, R269, R270, R135: loads, atomics, waits, FENCE and BARX become one node each on their path, with the
address, size, order and scope of their word; a misaligned atomic, direction or wait is PERM. PREF gives 1 and changes no register,
ordering node, token or byte of scratch, nor a byte of HBM that no L2 line holds. -/
def Obligations.BlockMemoryNodes : Prop :=
  ((∀ w : MWord,
    NodeRule (.ld w) .ls (fun e => .load (deviceAddr w e) (size w) w.nc) w.ord w.scope false
    ∧ NodeRule (.ldv w) .ls (fun e => .load (deviceAddr w e) (size w) w.nc) w.ord w.scope false
    ∧ NodeRule (.sldBlock w) .sa (fun e => .sload (scratchAddr w e) (size w)) w.ord w.scope false
    ∧ AlignedNodeRule (.amo w) (fun e => (deviceAddr w e).toNat) (size w) .ls
        (fun e => .amo (deviceAddr w e) (size w) w.aop.toNat (word1 e)) w.ord w.scope true
    ∧ AlignedNodeRule (.famo w) (fun e => (deviceAddr w e).toNat) (size w) .ls
        (fun e => .amo (deviceAddr w e) (size w) w.aop.toNat (word1 e)) w.ord w.scope true
    ∧ AlignedNodeRule (.cas w) (fun e => (deviceAddr w e).toNat) (size w) .ls
        (fun e => .cas (deviceAddr w e) (size w) ((e.slot 2).setWidth 64) (word1 e)) w.ord w.scope true
    ∧ AlignedNodeRule (.samoBlock w) (scratchAddr w) (size w) .sa
        (fun e => .samo (scratchAddr w e) (size w) w.aop.toNat (word1 e)) w.ord w.scope true
    ∧ AlignedNodeRule (.dld w) (fun e => (deviceAddr w e).toNat) 128 .ls
        (fun e => .load (deviceAddr w e) (128 * size w) w.nc) w.ord w.scope false
    ∧ AlignedNodeRule (.swwait w) (fun e => ((e.slot 0).setWidth 64).toNat % 2 ^ 20) 8 .sa
        (fun e => .swwait (((e.slot 0).setWidth 64).toNat % 2 ^ 20) (if e.named 1 then (e.slot 1).setWidth 16 else w.off)) w.ord w.scope false
    ∧ ∀ s e, blockEnv s (.fence w) = some e →
        (e.th.speculative = false → ∃ t, exec (.fence w) s = .next t
          ∧ NodeAdded s t e .sa (.fence (field w.off 8 8) (field w.off 0 8)) .plain w.scope false)
        ∧ (e.th.speculative = true → TargetsFree e → ∃ t, exec (.fence w) s = .next t ∧ Fired s t e 1 1 0 fun x =>
            { x with recs := x.recs ++ [.fence (field w.off 8 8) (field w.off 0 8) w.scope (x.id * 1024 + e.idx)] }))
  ∧ ∀ (w : BWord) s e, blockEnv s (.barx w) = some e →
      (e.th.speculative = false → ∃ t, exec (.barx w) s = .next t ∧ NodeAdded s t e .sa .barx .plain .stand true)
      ∧ (e.th.speculative = true → exec (.barx w) s = .next s))
  ∧ (∀ (w : MWord) s e, blockEnv s (.pref w) = some e → TargetsFree e →
    ∃ t y, exec (.pref w) s = .next t ∧ execOf t e.x.id = some y ∧ y.fired = e.idx :: e.x.fired ∧ Delivered e.x y e.inf 1 1 none
      ∧ y = { e.x with fired := y.fired, vals := y.vals, writes := y.writes } ∧ t.ord = s.ord ∧ t.regs = s.regs ∧ t.q = s.q ∧ t.cfg = s.cfg
      ∧ t.tiles = { s.tiles with execs := t.tiles.execs } ∧ t.mem.scratch = s.mem.scratch
      ∧ t.mem.host = s.mem.host ∧ ∀ a, lineOf s (a / 128) = none → hbmPlain t a = hbmPlain s a)

namespace Sys2Proof.Slice0
open Sys2Proof Sys2Proof.Machine
/-- The page an INVT names, by its size field (R284). -/
def namedPage (w : BWord) (e : BEnv) : Nat × Nat :=
  let bits := match (field w.imm 0 2).toNat with | 0 => 16 | 1 => 21 | 2 => 30 | _ => 64
  (bits, ((e.slot 0).setWidth 64 : Word).toNat / 2 ^ bits * 2 ^ bits)
end Sys2Proof.Slice0

/-- R100 to R103, R280, R281, R283, R284: SYSR reads what the execution found at its start; SYSW is applied at the commit, to writable
registers; TRAP is a control; ECALL leaves a record and waits; QUIES waits for its stand; INVT drops the cached translations of
a page. The register's number as DETAIL of SYSW's PERM is the model's reading (log entry 71). -/
def Obligations.BlockSystem : Prop :=
  ∀ (w : BWord) s,
    (∀ e n, MayFire s (.sysr w) e → n = (field w.imm 0 12).toNat →
      (∀ v, sysRead s e.x e.th.launch.part n = some v → ∃ t, exec (.sysr w) s = .next t ∧ Fired s t e (v.setWidth 512) (v.setWidth 512) 0 id)
      ∧ (sysRead s e.x e.th.launch.part n = none → EndsIn (.sysr w) s e pILL e.b.addr))
    ∧ (∀ e n, MayFire s (.sysw w) e → e.th.speculative = false → n = (field w.imm 0 12).toNat →
      ((n = 8 ∨ n = 9 ∨ (0x20 ≤ n ∧ n ≤ 0x2F)) → ∃ t, exec (.sysw w) s = .next t ∧ Fired s t e 1 1 0 fun x =>
          { x with sysw := x.sysw ++ [(n, (e.slot 0).setWidth 64)] })
      ∧ ((n = 0 ∨ n = 1 ∨ n = 0x10 ∨ (0x400 ≤ n ∧ n ≤ 0x411)) → EndsIn (.sysw w) s e pPERM n))
    ∧ (∀ e, MayFire s (.trap w) e → e.th.speculative = false → e.x.control = none →
      ∃ t, exec (.trap w) s = .next t ∧ Fired s t e 1 1 0 (withControl (.trap (field w.imm 0 16) ((e.slot 0).setWidth 64))))
    ∧ (∀ e, blockEnv s (.ecall w) = some e → e.th.speculative = false → aget s.tiles.ecalls e.x.tile = none →
      faultRoom s (dieOf e.x.tile.stand) = true →
      ∃ t, exec (.ecall w) s = .next t
        ∧ execOf t e.x.id = some { e.x with fired := e.idx :: e.x.fired, waits := e.x.waits ++ [⟨e.idx, []⟩], bound := true }
        ∧ aget t.tiles.ecalls e.x.tile = some e.x.id
        ∧ (∃ r, t.host.pendingFaults = s.host.pendingFaults ++ [r] ∧ r.typ = 5 ∧ r.code = (field w.imm 0 8).toNat
            ∧ r.detail = (field w.imm 0 16).toNat ∧ r.tag = e.x.tag ∧ r.stand = e.x.tile.stand ∧ r.elem = e.x.tile.elem
            ∧ r.extra.take 8 = leBytes 8 ((e.slot 0).setWidth 64).toNat)
        ∧ t = { s with tiles := { s.tiles with execs := t.tiles.execs, ecalls := t.tiles.ecalls },
                       host := { s.host with pendingFaults := t.host.pendingFaults } })
    ∧ (∀ e, MayFire s (.quies w) e → e.th.speculative = false →
      (e.nodesOpen s = false → standBusy s e.x.tile.stand e.x.tile.ctx = false →
        ∃ t, exec (.quies w) s = .next t ∧ Fired s t e 1 1 0 id)
      ∧ ((e.nodesOpen s = true ∨ standBusy s e.x.tile.stand e.x.tile.ctx = true) → exec (.quies w) s = .next s))
    ∧ ∀ e, blockEnv s (.invt w) = some e → e.th.speculative = false → TargetsFree e →
      let covers := fun (tr : Trans) => tr.part = e.th.launch.part ∧ transMeets tr (namedPage w e).1 (namedPage w e).2 = true
      ∃ t y, exec (.invt w) s = .next t ∧ execOf t e.x.id = some y ∧ Delivered e.x y e.inf 1 1 none
        ∧ (∀ tr ∈ t.mem.trans, tr ∈ s.mem.trans) ∧ (∀ tr ∈ s.mem.trans, ¬ covers tr → tr ∈ t.mem.trans)
        ∧ ((field w.imm 2 2).toNat ≤ 1 → ∀ tr ∈ t.mem.trans, tr.stand = some e.x.tile.stand → ¬ covers tr)
        ∧ ((field w.imm 2 2).toNat = 1 → ∀ tr ∈ t.mem.trans, ∀ st, tr.stand = some st → dieOf st = dieOf e.x.tile.stand → ¬ covers tr)
        ∧ ((field w.imm 2 2).toNat = 2 → ∀ tr ∈ t.mem.trans, ∀ st, tr.stand = some st → st < 512 →
            bitAt (((partOf s e.th.launch.part).map (·.dies)).getD 0) (dieOf st) = true → ¬ covers tr)
        ∧ t.mem.hbm = s.mem.hbm ∧ t.mem.scratch = s.mem.scratch ∧ t.regs = s.regs ∧ t.ord = s.ord

namespace Sys2Proof.Slice0
open Sys2Proof Sys2Proof.Machine

/-! ### The order machine (R128) -/

/-- A node in its queue that may issue: no edge holds it, it waits for no page, and no record of its element waits for room (R326). -/
def Issuable (s : State) (n : MNode) : Prop :=
  nodeById s n.id = some n ∧ s.ctl.focus = .subject (.num n.id) ∧ n.at_ = .queued ∧ n.held = none ∧ released s n = true
    ∧ reporting s n.key.stand n.key.elem = false
/-- Its one part stands at the head of its home queue. -/
def Performable (s : State) (n : MNode) (p : Part) : Prop :=
  nodeById s n.id = some n ∧ s.ctl.focus = .subject (.pair n.id 0) ∧ n.at_ = .issued ∧ n.parts = [p] ∧ atHead s n p = true
    ∧ flagsWait s n.key.stand n.key.ctx n.epoch (performFlags s n p) = false
/-- The line of an access is in its L2 with both sectors, under the key of the page, and its slice holds no traffic back. -/
def Resident (s : State) (n : MNode) (p : Part) (x : Xlat) (l : L2Line) : Prop :=
  p.xl = some x ∧ p.off = 0 ∧ 0 < p.size ∧ x.dpa % 128 + p.size ≤ 128 ∧ lineOf s (x.dpa / 128) = some l
    ∧ x.key = l.key ∧ timestampsFull s n.launch.part = false ∧ ∀ i, i < 2 → getAt l.valid i false = true
/-- A node that no L1 copy may serve: one off LS, one that is no load, a load with NC (R114, R263). -/
def bypasses (n : MNode) : Bool := n.path != .ls || match n.op with | .load _ _ nc => nc | _ => true
/-- Bytes of device memory as their home holds them. -/
def homeBytes (s : State) (key dpa n : Nat) : List Byte := (List.range n).map fun k => peekByte s key (dpa + k)
/-- Only these bytes of device memory may read otherwise than before. -/
def OnlyBytes (s t : State) (dpa n : Nat) : Prop := ∀ key a, (a < dpa ∨ dpa + n ≤ a) → peekByte t key a = peekByte s key a
/-- No other node changed. -/
def OnlyNode (s t : State) (id : Nat) : Prop := ∀ j, j ≠ id → nodeById t j = nodeById s j

end Sys2Proof.Slice0

/-- R114, R120, R121, R128 to R130, R326, R346: a node of one line issues when no edge holds it: it travels to its home, or a copy within its lease
serves it, or it is refused PERM, or LINK where its home lies behind a lost link (by the die's second port: log entry 131), or opens a
not-present fault and waits, as it does for one already open; a held node stays, and ARRIVE puts a part at the tail of its queue, at a
bank with its port and before what the bank serves later. -/
def Obligations.OrderIssue : Prop :=
  (∀ s n va size rd wr, Issuable s n → memRange n.op = some (va, size, rd, wr) → 0 < size → va.toNat % 128 + size ≤ 128 →
    (pageHeld s (dieOf n.key.stand) n.launch.part va.toNat = true →
      ∃ t, exec .issue s = .next t ∧ OnlyNode s t n.id ∧ nodeById t n.id = some { n with held := some va.toNat } ∧ t.mem = s.mem)
    ∧ (pageHeld s (dieOf n.key.stand) n.launch.part va.toNat = false →
    (∀ u x, translate s n.key.stand n.launch.part va rd wr = (u, .ok x) →
      (l1Serve u n (bypasses n) x size = none → (x.dpa < 2 ^ 41 ∨ linkLost u n.key.stand = false) →
        ∃ t, exec .issue s = .next t ∧ OnlyNode s t n.id ∧ nodeById t n.id = some { n with
          at_ := .issued, held := none, parts := [⟨0, size, some x, .transit, [], 0⟩] })
      ∧ (2 ^ 41 ≤ x.dpa → linkLost u n.key.stand = true → ∃ t, exec .issue s = .next t ∧ OnlyNode s t n.id
        ∧ nodeById t n.id = some { n with at_ := .performed, poison := some (ownPoison n.key pLINK (2 * dieOf n.key.stand + 1)) })
      ∧ ∀ bs wts, l1Serve u n (bypasses n) x size = some (bs, wts) →
        ∃ t, exec .issue s = .next t ∧ OnlyNode s t n.id ∧ nodeById t n.id = some { n with
          at_ := .performed, held := none, wts := max n.wts wts, parts := [⟨0, size, some x, .performed, bs, wts⟩] })
    ∧ ((translate s n.key.stand n.launch.part va rd wr).2 = .permission →
      ∃ t, exec .issue s = .next t ∧ OnlyNode s t n.id
        ∧ nodeById t n.id = some { n with at_ := .performed, poison := some (ownPoison n.key pPERM (va.toNat % 2 ^ 32)) })
    ∧ ((translate s n.key.stand n.launch.part va rd wr).2 = .notPresent →
      ∃ t, exec .issue s = .next t ∧ OnlyNode s t n.id ∧ nodeById t n.id = some { n with held := some va.toNat }
        ∧ pageHeld t (dieOf n.key.stand) n.launch.part va.toNat = true)))
  ∧ (∀ s n, nodeById s n.id = some n → s.ctl.focus = .subject (.num n.id) → (released s n = false ∨ n.held ≠ none ∨ reporting s n.key.stand n.key.elem = true) →
      exec .issue s = .next s)
  ∧ ∀ s n i p, nodeById s n.id = some n → s.ctl.focus = .subject (.pair n.id i) → n.at_ = .issued → n.parts[i]? = some p →
      p.at_ = .transit →
      (mayArrive s n i p = false → exec .arrive s = .next s)
      ∧ (mayArrive s n i p = true → ∃ t m key, exec .arrive s = .next t ∧ OnlyNode s t n.id ∧ nodeById t n.id = some m
        ∧ m.parts[i]? = some { p with at_ := .queued s.ctl.clock key s.ord.arrivals } ∧ (∀ j, j ≠ i → m.parts[j]? = n.parts[j]?)
        ∧ (∀ st a, partPlace s n p = some (st, a) → key = n.port a)
        ∧ m = { n with parts := m.parts } ∧ t.ord.arrivals = s.ord.arrivals + 1 ∧ t.mem = s.mem)

/-- R115, R128, R138, R198: at the home of a resident line, a load returns its bytes and extends the lease, a store writes its bytes
behind every lease and counts, an atomic returns the old word and writes the new; no other byte changes. -/
def Obligations.OrderPerformDevice : Prop :=
  ∀ s n p va x l, Performable s n p → Resident s n p x l →
    (∀ nc, n.op = .load va p.size nc →
      ∃ t, exec .perform s = .next t ∧ OnlyBytes s t x.dpa 0 ∧ OnlyNode s t n.id
        ∧ nodeById t n.id = some { n with
            at_ := .performed, wts := max n.wts l.wts,
            parts := [{ p with at_ := .performed, got := homeBytes s l.key x.dpa p.size, wts := l.wts }] }
        ∧ (pathNow s n = .ls → nc = false → x.cache = true →
            ∃ c, l1Of t n.key.stand n.launch.part x.key (x.dpa / 128) = some c ∧ c.data = l.data ∧ c.wts = l.wts
              ∧ c.rts = max l.rts (lclkOf s n.key.stand n.key.ctx + Config.lease)))
    ∧ (∀ bs, n.op = .store va bs → p.size = bs.length →
      let wts := max (clockOf s n) (l.rts + 1)
      ∃ t, exec .perform s = .next t ∧ OnlyBytes s t x.dpa bs.length ∧ homeBytes t l.key x.dpa bs.length = bs ∧ OnlyNode s t n.id
        ∧ nodeById t n.id = some { n with
            at_ := .performed, wts := max n.wts wts, sq := l.sq + 1,
            parts := [{ p with at_ := .performed, got := bs, wts := wts }] })
    ∧ ∀ op, n.op = op → (∃ k arg, op = .amo va p.size k arg ∨ ∃ old, op = .cas va p.size old arg) →
      let old := leWord (homeBytes s l.key x.dpa p.size)
      let new := leBytes p.size (homeAtomic op old).1.toNat
      let wts := max (clockOf s n) (l.rts + 1)
      ∃ t, exec .perform s = .next t ∧ OnlyBytes s t x.dpa p.size ∧ homeBytes t l.key x.dpa p.size = new ∧ OnlyNode s t n.id
        ∧ nodeById t n.id = some { n with
            at_ := .performed, wts := max n.wts wts, sq := l.sq + 1, value := old,
            parts := [{ p with at_ := .performed, got := new, wts := wts }] }

namespace Sys2Proof.Slice0
open Sys2Proof Sys2Proof.Machine
/-- Only these bytes of a stand's scratch may read otherwise than before. -/
def OnlyScratch (s t : State) (stand addr n : Nat) : Prop :=
  ∀ a, (a < stand * 2 ^ 20 + addr ∨ stand * 2 ^ 20 + addr + n ≤ a) → Memory.read t.mem.scratch a = Memory.read s.mem.scratch a
def scratchBytes (s : State) (stand addr n : Nat) : List Byte := (List.range n).map fun k => Memory.read s.mem.scratch (stand * 2 ^ 20 + addr + k)
/-- The part of a scratch access, whole, at an address of a region of this mode. -/
def InRegion (s : State) (n : MNode) (p : Part) (stand addr size : Nat) (i : Nat) (r : Region) : Prop :=
  p.off = 0 ∧ p.size = size ∧ addr + size ≤ 2 ^ 20 ∧ p.xl = none ∧ regionOf s stand n.key.ctx addr size = some (i, r)
/-- Its bank as it serves the access in this clock (R106 to R108); none: not in this clock. -/
def servedAt (s : State) (n : MNode) (stand addr size : Nat) : Option State :=
  let place := physAddr s stand n.key.ctx addr size (isXst n.op)
  serveBank s stand place size n.key.ctx (n.port place) n.asker
/-- Nothing but the crossbars and the slot tables that share them differs. -/
def OnlyBars (s u : State) : Prop :=
  u = { s with mem := { s.mem with bars := u.mem.bars }, cfg := { s.cfg with tables := u.cfg.tables } }
end Sys2Proof.Slice0

/-- R106, R108, R110, R112, R139, R193, R194, R269, R271: at a bank that serves it in the clock, a load reads, stores and atomics write in one
action, an exchange region is read and written in its visible bank and remote stores land in the other; SWWAIT goes on with another
generation, waits on the same one, and takes a faulted word as SYNC. An access its bank does not serve in the clock stays. An XST to a stand
outside its launch is PERM, recorded there (the model's reading, log entry 60); who has which port is log entry 109. -/
def Obligations.OrderPerformScratch : Prop :=
  ∀ s n p,  Performable s n p →
    (∀ stand addr size i r, scratchRange n.key n.op = some (stand, addr, size) → InRegion s n p stand addr size i r →
      isWait n.op = false → targetOk s n = true →
      (servedAt s n stand addr size = none → exec .perform s = .next s) ∧ ∀ u, servedAt s n stand addr size = some u → OnlyBars s u)
    ∧ (∀ u addr size i r, n.op = .sload addr size → InRegion s n p n.key.stand addr size i r → r.mode ≠ 2 → r.mode ≠ 3 →
      servedAt s n n.key.stand addr size = some u →
      ∃ t, exec .perform s = .next t ∧ t.mem = u.mem ∧ nodeById t n.id = some { n with
        at_ := .performed, wts := max n.wts p.wts,
        value := leWord (scratchBytes s n.key.stand addr size),
        parts := [{ p with at_ := .performed, got := scratchBytes s n.key.stand addr size }] })
    ∧ (∀ u addr bs i r, n.op = .sstore addr bs → InRegion s n p n.key.stand addr bs.length i r → r.mode ≠ 2 → r.mode ≠ 3 → r.mode ≠ 4 →
      servedAt s n n.key.stand addr bs.length = some u →
      ∃ t m, exec .perform s = .next t ∧ OnlyScratch s t n.key.stand addr bs.length ∧ scratchBytes t n.key.stand addr bs.length = bs
        ∧ nodeById t n.id = some m ∧ m.at_ = .performed ∧ m.poison = n.poison)
    ∧ (∀ u addr size k arg i r, n.op = .samo addr size k arg → InRegion s n p n.key.stand addr size i r → r.mode ≠ 2 → r.mode ≠ 3 → r.mode ≠ 4 →
      servedAt s n n.key.stand addr size = some u →
      let old := leWord (scratchBytes s n.key.stand addr size)
      ∃ t m, exec .perform s = .next t ∧ OnlyScratch s t n.key.stand addr size
        ∧ scratchBytes t n.key.stand addr size = leBytes size (atomicOp k size old arg).1.toNat
        ∧ nodeById t n.id = some m ∧ m.at_ = .performed ∧ m.value = old)
    ∧ (∀ u stand addr bs i r, n.op = .xst stand addr bs → InRegion s n p stand addr bs.length i r → r.mode = 3 → targetOk s n = true →
      servedAt s n stand addr bs.length = some u → exchangeAddr s stand addr r true + bs.length ≤ 2 ^ 20 →
      ∃ t m, exec .perform s = .next t ∧ OnlyScratch s t stand (exchangeAddr s stand addr r true) bs.length
        ∧ scratchBytes t stand (exchangeAddr s stand addr r true) bs.length = bs ∧ nodeById t n.id = some m ∧ m.at_ = .performed)
    ∧ (∀ u stand addr bs i r, n.op = .xst stand addr bs → InRegion s n p stand addr bs.length i r → r.mode ≠ 3 → targetOk s n = true →
      servedAt s n stand addr bs.length = some u →
      ∃ t m, exec .perform s = .next t ∧ t.mem = u.mem ∧ nodeById t n.id = some m
        ∧ m.poison = some (ownPoison ⟨stand, 0x10 + sceOf addr, n.key.ctx⟩ pPERM addr))
    ∧ (∀ stand addr bs, n.op = .xst stand addr bs → p.xl = none → targetOk s n = false →
      ∃ t m, exec .perform s = .next t ∧ t.mem = s.mem ∧ nodeById t n.id = some m
        ∧ m.poison = some (ownPoison ⟨stand, 0x10 + sceOf addr, n.key.ctx⟩ pPERM (addr % 2 ^ 20)))
    ∧ ∀ addr g i r, n.op = .swwait addr g → InRegion s n p n.key.stand addr 8 i r → r.mode ≠ 2 → r.mode ≠ 3 →
      let gen := field (leWord (scratchBytes s n.key.stand addr 8)) 48 16
      ((syncMark s ⟨n.key.stand, addr⟩).fault = false → gen = g → exec .perform s = .next s)
      ∧ (servedAt s n n.key.stand addr 8 = none → exec .perform s = .next s)
      ∧ ∀ u, servedAt s n n.key.stand addr 8 = some u →
        ((syncMark s ⟨n.key.stand, addr⟩).fault = false → gen ≠ g → ∃ t m, exec .perform s = .next t ∧ t.mem = u.mem
          ∧ nodeById t n.id = some m ∧ m.at_ = .performed ∧ m.value = gen.setWidth 64)
        ∧ ((syncMark s ⟨n.key.stand, addr⟩).fault = true → ∃ t m, exec .perform s = .next t ∧ t.mem = u.mem
          ∧ nodeById t n.id = some m ∧ m.poison = some (ownPoison n.key pSYNC addr))

/-- R128, R135, R136, R237: an acknowledged node leaves the machine, unless its stash sector must still be written back for its scope, and
its value stands at its instruction's targets; a stage's stays until
the stage reads it; the context's clock takes the largest wts; a fence completes when the nodes of its source set are acknowledged, and
waits before. -/
def Obligations.OrderAcknowledge : Prop :=
  (∀ s n x b i f, nodeById s n.id = some n → s.ctl.focus = .subject (.num n.id) → n.at_ = .performed → n.poison = none →
    unitsFit s = true → (∀ c ∈ s.eng.commands, c.ended = true → c.node ≠ n.id) → (n.scope = .stand ∨ stashOpen s n = false) → acceptT0 i = false → acceptT1 i = false →
    (∃ uid, n.src = .thread uid) → n.pos % 1024 < 512 → execOf s (n.pos / 1024) = some x → loadBlock s x.tile x.block = .ok b →
    x.waits.find? (fun w => w.idx == n.pos % 1024) = some ⟨n.pos % 1024, [n.id]⟩ →
    b.instrs[n.pos % 1024]? = some i → (∀ w, i ≠ .dld w) → binfo i = some f → targetFree x f.t0 → targetFree x f.t1 →
    (f.t0 = f.t1 → f.t0 = .nowhere) →
    ∃ t y, exec .acknowledge s = .next t ∧ nodeById t n.id = none ∧ OnlyNode s t n.id
      ∧ execOf t x.id = some y ∧ Delivered x y f (ackValues i n).1 (ackValues i n).2 none
      ∧ y = { x with vals := y.vals, writes := y.writes, waits := x.waits.filter fun v => !(v.idx == n.pos % 1024) }
      ∧ lclkOf t n.key.stand n.key.ctx = max (lclkOf s n.key.stand n.key.ctx) n.wts)
  ∧ (∀ s n k st tag, nodeById s n.id = some n → s.ctl.focus = .subject (.num n.id) → n.at_ = .performed → n.src = .stage k st tag →
      (∀ c ∈ s.eng.commands, c.ended = true → c.node ≠ n.id) → unitsFit s = true → (∃ f ∈ s.firings, n.id ∈ f.nodes) →
      ∃ t, exec .acknowledge s = .next t ∧ nodeById t n.id = some { n with at_ := .acked } ∧ OnlyNode s t n.id ∧ t.firings = s.firings)
  ∧ (∀ s n, nodeById s n.id = some n → s.ctl.focus = .subject (.num n.id) → n.at_ ≠ .performed → exec .acknowledge s = .next s)
  ∧ ∀ s n src dst, nodeById s n.id = some n → s.ctl.focus = .subject (.num n.id) → n.op = .fence src dst → n.poison = none →
      unitsFit s = true →
      (fenceDone s n = true → (∃ uid, n.src = .thread uid) → 512 ≤ n.pos % 1024 →
        ∃ t, exec .fenceComplete s = .next t ∧ nodeById t n.id = none ∧ OnlyNode s t n.id ∧ t.tiles = s.tiles)
      ∧ (∀ x b w f, fenceDone s n = true → (∃ uid, n.src = .thread uid) → n.pos % 1024 < 512 → execOf s (n.pos / 1024) = some x →
        loadBlock s x.tile x.block = .ok b → x.waits.find? (fun w => w.idx == n.pos % 1024) = some ⟨n.pos % 1024, [n.id]⟩ →
        b.instrs[n.pos % 1024]? = some (.fence w) → binfo (.fence w) = some f → targetFree x f.t0 → targetFree x f.t1 →
        (f.t0 = f.t1 → f.t0 = .nowhere) →
        ∃ t y, exec .fenceComplete s = .next t ∧ nodeById t n.id = none ∧ OnlyNode s t n.id
          ∧ execOf t x.id = some y ∧ Delivered x y f 1 1 none)
      ∧ (fenceDone s n = false → exec .fenceComplete s = .next s)

namespace Sys2Proof.Slice0
open Sys2Proof Sys2Proof.Machine
/-- A stand of a partition: one of a die its DIES holds (R7, R117). -/
def inPart (s : State) (part stand : Nat) : Bool :=
  decide (stand < 512) && bitAt (((partOf s part).map (·.dies)).getD 0) (dieOf stand)
end Sys2Proof.Slice0

/-- R112, R139, R190: when every member has arrived, a swap raises GEN, performs the arrived BARXs with it, makes each exchange region
show its other bank, and lets waiting BARXs join the new generation; before that nothing happens. -/
def Obligations.ExchangeSwap : Prop :=
  ∀ s l, launchOf s l.key = some l → s.ctl.focus = .subject (.launch l.key) →
    (l.ex.arrived ≠ [] → l.ex.expect ≤ l.ex.arrived.length →
      ∃ t u, exec .swap s = .next t ∧ launchOf t l.key = some u ∧ u = { l with ex := u.ex } ∧ u.ex.gen = l.ex.gen + 1
        ∧ u.ex.expect = l.ex.expect ∧ (u.ex.arrived.map (·.1)).Nodup
        ∧ (u.ex.arrived.map (·.2) ++ u.ex.waiting.map (·.2)).Perm (l.ex.waiting.map (·.2))
        ∧ (∀ n id, nodeById s id = some n → id ∈ l.ex.arrived.map (·.2) →
            nodeById t id = some { n with at_ := .performed, value := u.ex.gen.setWidth 64 })
        ∧ (∀ id, id ∉ l.ex.arrived.map (·.2) → nodeById t id = nodeById s id)
        ∧ (∀ k, k ∈ exchangeRegions s l → (k ∈ t.mem.visY ↔ k ∉ s.mem.visY))
        ∧ (∀ k, k ∉ exchangeRegions s l → (k ∈ t.mem.visY ↔ k ∈ s.mem.visY))
        ∧ t.mem.scratch = s.mem.scratch ∧ t.mem.hbm = s.mem.hbm)
    ∧ (l.ex.arrived.length < l.ex.expect → exec .swap s = .next s)

/-- R107, R111, R115: an uncalled lease step does nothing; a fill that its row's bank serves in the clock brings the sector under a lease;
TIMESTAMP_RESET, once a home's timestamp nears 2^63, zeroes the partition's home timestamps and every SY.LCLK of it, drops its L1 copies
and its clean stash leases, keeps its dirty sectors and every byte, touches no other partition, and before that does nothing. -/
def Obligations.LeasesAndTimestamps : Prop :=
  (∀ s k, needersOf s k = [] → exec (.leaseStep (.fill k)) s = .next s)
  ∧ (∀ s k n i r bs wts x u, needersOf s k = [n] → sectorServes s n.ctx k (sectorMask k n.addr n.len) = false →
      regionOf s k.stand n.ctx k.addr 64 = some (i, r) → r.mode = 2 →
      pageHeld s (dieOf k.stand) (whoAt s k.stand n.ctx).1 (stashVa k.stand k.addr r).toNat = false →
      reporting s k.stand (0x10 + sceOf k.addr) = false → timestampsFull s (whoAt s k.stand n.ctx).1 = false →
      translate s k.stand (whoAt s k.stand n.ctx).1 (stashVa k.stand k.addr r) true false = (u, .ok x) →
      (homeRead u (whoAt s k.stand n.ctx).1 x.key x.dpa 64 (lclkOf u k.stand n.ctx + Config.lease)).2 = (bs, wts) →
      k.addr + 64 ≤ 2 ^ 20 → unitsFit s = true → ∀ v, stashFill s n.ctx k = .done v →
      (serveBank v k.stand k.addr 64 n.ctx 8 (2 ^ 64 + 8) = none → exec (.leaseStep (.fill k)) s = .next s)
      ∧ ∀ t, serveBank v k.stand k.addr 64 n.ctx 8 (2 ^ 64 + 8) = some t →
      ∃ y, exec (.leaseStep (.fill k)) s = .next t ∧ sectorOf t k = some y ∧ y.full = BitVec.allOnes 64 ∧ y.leased = true
        ∧ y.dirty = ((sectorOf s k).map (·.dirty)).getD 0 ∧ lclkOf u k.stand n.ctx ≤ lclkOf t k.stand n.ctx ∧ wts ≤ lclkOf t k.stand n.ctx
        ∧ OnlyScratch u t k.stand k.addr 64
        ∧ ∀ j, j < 64 → Memory.read t.mem.scratch (k.stand * 2 ^ 20 + k.addr + j) =
            if bitAt y.dirty j then Memory.read u.mem.scratch (k.stand * 2 ^ 20 + k.addr + j) else bs.getD j 0)
  ∧ ∀ s part, s.ctl.focus = .subject (.num part) →
      (timestampsFull s part = true → ∃ t, exec .timestampReset s = .next t
        ∧ (∀ l ∈ t.mem.l2, l.part = part → l.wts = 0 ∧ l.rts = 0)
        ∧ t.mem.l2.map (fun l => { l with wts := 0, rts := 0 }) = s.mem.l2.map (fun l => { l with wts := 0, rts := 0 })
        ∧ (∀ l ∈ t.mem.l2, l.part ≠ part → l ∈ s.mem.l2) ∧ (∀ c ∈ t.mem.l1, c.part ≠ part)
        ∧ t.mem.hbm = s.mem.hbm ∧ t.mem.scratch = s.mem.scratch ∧ t.mem.host = s.mem.host
        ∧ (∀ x ∈ t.mem.sectors, inPart s part x.key.stand = true → x.dirty ≠ 0 ∧ x.wts = 0 ∧ x.rts = 0)
        ∧ (∀ x ∈ s.mem.sectors, inPart s part x.key.stand = true → x.dirty ≠ 0 → { x with wts := 0, rts := 0 } ∈ t.mem.sectors)
        ∧ (∀ x ∈ s.mem.sectors, inPart s part x.key.stand = false → x ∈ t.mem.sectors)
        ∧ (∀ st ctx, inPart s part st = true → lclkOf t st ctx = 0)
        ∧ ∀ st ctx, inPart s part st = false → lclkOf t st ctx = lclkOf s st ctx)
      ∧ (timestampsFull s part = false → exec .timestampReset s = .next s)

/-- R120, R121, R127, R345: FAULT_RESUME lets go what waits for a page that is no longer open and nothing else; FAULT_DEADLINE closes an
overdue fault, poisons its nodes PAGE and gives up write-backs that wait for its page; HOST_INVALIDATION drops the partition's translations
and closes its faults; a host access becomes a node of HI, for a TDI in RUN under the keys of its IDE stream (R345; log entry 132). -/
def Obligations.PageFaults : Prop :=
  (∀ s, ∃ t, exec .faultResume s = .next t ∧ t.mem = s.mem ∧ t.regs = s.regs
    ∧ ∀ n ∈ s.ord.nodes, { n with
        held :=
        if n.held.isSome && !pageOpen s n.key.stand n.launch.part n.held then none else n.held } ∈ t.ord.nodes)
  ∧ (∀ s i o, s.ctl.focus = .subject (.num i) → s.mem.opens[i]? = some o →
      (o.stopped ≠ none ∨ s.ctl.clock < o.since + ((partOf s o.part).map (·.fdeadline)).getD 0 ∨ heldByDrain s o = true →
        exec .faultDeadline s = .next s)
      ∧ (o.stopped = none → o.since + ((partOf s o.part).map (·.fdeadline)).getD 0 ≤ s.ctl.clock → heldByDrain s o = false →
          (s.ord.nodes.map (·.id)).Nodup → s.eng.commands = [] → s.firings = [] → s.mem.sectors = [] → s.eng.backfill = [] → needs s = [] →
          unitsFit s = true →
          ∃ t, exec .faultDeadline s = .next t ∧ t.mem = { s.mem with opens := s.mem.opens.erase o, dues := t.mem.dues }
            ∧ (∀ d, d ∈ t.mem.dues ↔ d ∈ s.mem.dues ∧ ¬ (dieOf d.key.stand = o.die ∧ d.part = o.part ∧ pageOf d.va.toNat = o.page))
            ∧ ∀ id n a, nodeById s id = some n → dieOf n.key.stand = o.die → n.launch.part = o.part → n.held = some a →
                pageOf a = o.page →
                nodeById t id = some { n with held := none, at_ := .performed, poison := some (ownPoison n.key pPAGE (a % 2 ^ 32)) }))
  ∧ (∀ s part, s.ctl.focus = .subject (.num part) → ∃ t, exec .hostInvalidation s = .next t
      ∧ (∀ tr ∈ t.mem.trans, tr ∈ s.mem.trans) ∧ (∀ tr ∈ s.mem.trans, tr.part ≠ part → tr ∈ t.mem.trans)
      ∧ (∀ tr ∈ t.mem.trans, tr.part = part → tr.base < 2 ^ 64 → ∀ st, tr.stand = some st → st < 512 →
          bitAt (((partOf s part).map (·.dies)).getD 0) (dieOf st) = false)
      ∧ t.mem.hbm = s.mem.hbm ∧ t.mem.scratch = s.mem.scratch ∧ t.ord = s.ord)
  ∧ ∀ part req write va size data s,
    (∀ p, partOf s part = some p → p.tdi = .run → p.ideKey = none → exec (.hostMemoryAccess part req write va size data) s = .next s)
    ∧ ((∀ p, partOf s part = some p → p.tdi = .run → p.ideKey ≠ none) → ∃ t n, exec (.hostMemoryAccess part req write va size data) s = .next t
      ∧ t.ord.nodes = s.ord.nodes ++ [n] ∧ n.id = s.ctl.nextId ∧ n.src = .host part req ∧ n.path = .hi ∧ n.ord = .so ∧ n.at_ = .queued
      ∧ n.op = (if write then .store (BitVec.ofNat 64 va) (leBytes size data.toNat) else .load (BitVec.ofNat 64 va) size true)
      ∧ t.mem = s.mem ∧ t.q = s.q ∧ t.tiles = s.tiles)

namespace Sys2Proof.Slice0
open Sys2Proof Sys2Proof.Machine

/-- The 25 engine commands, each with its path (R72, R127). -/
def engineCommands (w : EWord) : List (Instr × Path) :=
  [(.strmLd w, .st), (.strmSt w, .st), (.strmGth w, .st), (.strmSct w, .st), (.strmWin w, .st), (.strmStop w, .st), (.strmPos w, .st),
   (.cpy w, .cp), (.plane w, .cp), (.tilef w, .mx), (.tilee w, .mx), (.mxrd w, .mx), (.mxclr w, .mx),
   (.xrslot w, .co), (.xred w, .co), (.xrwait w, .co), (.rnsum w, .co), (.rnmax w, .co),
   (.kvst w, .bf), (.kvstFin w, .bf), (.kvld w, .bf), (.kvalloc w, .bf), (.kvfree w, .bf), (.bfq w, .bf), (.bfwait w, .bf)]

end Sys2Proof.Slice0

/-- R126, R278, R285, R286: an engine command of a thread token fires as one node on its path that carries a and b, and binds its
execution; a segment's waits. -/
def Obligations.EngineCommandsIssue : Prop :=
  ∀ w, ∀ x ∈ engineCommands w, ∀ s e, blockEnv s x.1 = some e →
    (e.th.speculative = false → ∃ t, exec x.1 s = .next t
      ∧ NodeAdded s t e x.2 (.engine x.1 [] ((e.slot 0).setWidth 64) ((e.slot 1).setWidth 64)) .plain .pkg true)
    ∧ (e.th.speculative = true → exec x.1 s = .next s)

namespace Sys2Proof.Slice0
open Sys2Proof Sys2Proof.Machine
/-- The command of node n, as its engine finds it: queued, released, and first of its source for the engine. -/
def AtEngine (s : State) (n : MNode) (i : Instr) (r : List Byte) (a b : Word) : Prop :=
  nodeById s n.id = some n ∧ s.ctl.focus = .subject (.num n.id) ∧ n.op = .engine i r a b ∧ n.at_ = .queued
    ∧ released s n = true ∧ engineTurn s n (engineOf n.key i) = true
/-- The engine has room: fewer than four commands held (R286). -/
def EngineRoom (s : State) (n : MNode) (i : Instr) : Prop := (s.eng.commands.filter fun c => c.eng == engineOf n.key i).length < 4
/-- Nothing stands yet where the command's targets send. -/
def EngineTargetsFree (s : State) (n : MNode) (i : Instr) : Prop :=
  ∀ x f, execOf s (n.pos / 1024) = some x → binfo i = some f →
    targetFree x f.t0 ∧ targetFree x f.t1 ∧ (f.t0 = f.t1 → f.t0 = .nowhere)
/-- The targets that send at acceptance hold v0 and v1; every other slot is as before (R286). -/
def SentAtAcceptance (s t : State) (n : MNode) (i : Instr) (v0 v1 : Lanes) : Prop :=
  ∀ x f, execOf s (n.pos / 1024) = some x → binfo i = some f → ∃ y, execOf t x.id = some y
    ∧ ∀ sl, slotVal y sl = if acceptT0 i = true ∧ targetSlot f.t0 = some sl then some ⟨sl.1, sl.2, v0, none⟩
        else if acceptT1 i = true ∧ targetSlot f.t1 = some sl then some ⟨sl.1, sl.2, v1, none⟩ else slotVal x sl
end Sys2Proof.Slice0

/-- R286, R287, R294, R301, R324: an engine takes a command whose turn it is when it has room, STRM.STOP and STRM.POS too, which are done with
their acceptance; T0 and T1 are sent then where no entry gives them another value or moment. One that fails its check aborts its
execution PERM and is not taken; one whose record must be filled, whose row its bank does not serve, that finds no room, or whose counts
find none, waits. RNSUM and RNMAX read their row first, at its bank. At a sealed element a command with a sync word is stopped as it is
taken: its node is acknowledged and it is gone (that acceptance still happens is log entry 123). -/
def Obligations.EngineAcceptance : Prop :=
  ∀ s n i r0 a b, AtEngine s n i r0 a b →
    (∀ r aux u got w, checkCommand s i n a b = .ok r aux → EngineRoom s n i → (∀ w, i ≠ .strmStop w ∧ i ≠ .strmPos w) →
      readAtAccept s n i = .ok u got w → EngineTargetsFree u n i → (sealedAt u (engineOf n.key i) = false ∨ namesSync i = false) →
      ((∀ w, i ≠ .rnsum w ∧ i ≠ .rnmax w) → OnlyBars s u)
      ∧ ∀ t, t = acceptCommand u n i a b r aux (if got = [] then [] else [(0, got)]) →
        (unitsFit t = false → exec .engineAccept s = .next s)
        ∧ (unitsFit t = true → exec .engineAccept s = .next t
          ∧ ∃ c m, t.eng.commands = u.eng.commands ++ [c]
            ∧ c.op = i ∧ c.eng = engineOf n.key i ∧ c.node = n.id ∧ c.launch = n.launch ∧ c.a = a ∧ c.b = b ∧ c.rec_ = r ∧ c.aux = aux
            ∧ c.ended = false ∧ c.stalled = none
            ∧ nodeById t n.id = some m ∧ m.at_ = .issued ∧ m.op = .engine i r a b ∧ OnlyNode s t n.id
            ∧ SentAtAcceptance u t n i 1 1 ∧ t.mem = u.mem))
    ∧ (∀ r aux u got w, checkCommand s i n a b = .ok r aux → EngineRoom s n i → (∀ w, i ≠ .strmStop w ∧ i ≠ .strmPos w) →
      readAtAccept s n i = .ok u got w → EngineTargetsFree u n i → sealedAt u (engineOf n.key i) = true → namesSync i = true → hasOutput i = true →
      (∀ c ∈ u.eng.commands, c.id ≠ u.ctl.nextId) →
      ∀ t, t = acceptCommand u n i a b r aux (if got = [] then [] else [(0, got)]) → unitsFit t = true →
        exec .engineAccept s = .next t ∧ t.eng.commands = u.eng.commands ∧ (∃ m, nodeById t n.id = some m ∧ m.at_ = .performed)
          ∧ ∀ a, syncOf r = some a → (syncMark t ⟨(engineOf n.key i).stand, a⟩).fault = true)
    ∧ (∀ r aux u pg, checkCommand s i n a b = .ok r aux → EngineRoom s n i → readAtAccept s n i = .wait u pg → exec .engineAccept s = .next u)
    ∧ (∀ w m0, i = .strmPos w → EngineRoom s n i → unitsFit s = true → EngineTargetsFree s n i → runningPattern s (engineOf n.key i) = m0 →
      let v := (m0.map Command.delivered).getD 0
      let st := (m0.map fun p => if p.stalled.isSome then 2 else 1).getD 0
      ∃ t m, exec .engineAccept s = .next t ∧ nodeById t n.id = some m ∧ m.at_ = .performed ∧ m.value = BitVec.ofNat 64 v
        ∧ m.sq = BitVec.ofNat 16 st ∧ SentAtAcceptance s t n i (BitVec.ofNat 512 v) (BitVec.ofNat 512 st) ∧ t.eng = s.eng ∧ t.mem = s.mem)
    ∧ (∀ w t, i = .strmStop w → EngineRoom s n i → EngineTargetsFree s n i → t = acceptCommand s n i a b [] [] [] →
      let v := ((runningPattern s (engineOf n.key i)).map Command.delivered).getD 0
      (unitsFit t = false → exec .engineAccept s = .next s)
      ∧ (unitsFit t = true → ∃ m, exec .engineAccept s = .next t ∧ nodeById t n.id = some m ∧ m.at_ = .performed
        ∧ m.value = BitVec.ofNat 64 v ∧ (runningPattern s (engineOf n.key i) = none → t.eng = s.eng)
        ∧ SentAtAcceptance s t n i (BitVec.ofNat 512 v) 1))
    ∧ (checkCommand s i n a b = .fail → EngineRoom s n i →
      (∀ x, execOf s (n.pos / 1024) = some x → unitsFit (abortExec (dropNode s n.id) x pPERM (enginePa i)) = true) →
      ∃ t, exec .engineAccept s = .next t ∧ nodeById t n.id = none ∧ t.eng = s.eng ∧ t.mem = s.mem
        ∧ ∀ x th, execOf s (n.pos / 1024) = some x → threadOf s x.thread = some th → th.speculative = false →
            execOf t x.id = none)
    ∧ (checkCommand s i n a b = .wait → exec .engineAccept s = .next s)
    ∧ (¬ EngineRoom s n i → exec .engineAccept s = .next s)

namespace Sys2Proof.Slice0
open Sys2Proof Sys2Proof.Machine
/-- R123's table, row by row: what an event leaves of a state it meets (0 ABSENT, 1 VALID, 2 DEFERRED, 3 FILLING); `read` is no event of it,
and a KVFREE that meets FILLING waits (R315). -/
def MapRow (ev : KvEvent) (old new : Nat) : Prop :=
  match ev with
  | .read => new = old
  | .exit => (old = 0 → new = 2) ∧ (old ≠ 0 → new = old)
  | .claim => (old = 2 → new = 3) ∧ (old ≠ 2 → new = old)
  | .store => (old = 3 → new = 3) ∧ (old ≠ 3 → new = 1)
  | .finish => (old = 3 → new = 1) ∧ (old ≠ 3 → new = old)
  | .free => new = 0
end Sys2Proof.Slice0

/-- R123, R156, R315: an event on KV map fields moves each named field by R123's table and no other; a KVFREE that meets FILLING in one of its
fields changes nothing. A map access that performs at its home is that change of the word there, in one action, and gives back the old
word. -/
def Obligations.KvMapActions : Prop :=
  (∀ (ev : KvEvent) (fields : List Nat) (w : Nat), fields.Nodup → (∀ i ∈ fields, i < 32) → w < 2 ^ 64 →
    (ev = .free → (∃ i ∈ fields, kvField w i = 3) → kvWord ev fields w = w)
    ∧ ((ev ≠ .free ∨ ∀ i ∈ fields, kvField w i ≠ 3) →
        ∀ i, i < 32 → (i ∈ fields → MapRow ev (kvField w i) (kvField (kvWord ev fields w) i))
          ∧ (i ∉ fields → kvField (kvWord ev fields w) i = kvField w i))
    ∧ kvWord ev fields w < 2 ^ 64)
  ∧ ∀ s n p va fs ev x l, Performable s n p → Resident s n p x l → n.op = .kvmap va fs ev → p.size = 8 → fs.Nodup → (∀ i ∈ fs, i < 32) →
    ∃ t m, exec .perform s = .next t ∧ OnlyBytes s t x.dpa 8
      ∧ leNat (homeBytes t l.key x.dpa 8) = kvWord ev fs (leNat (homeBytes s l.key x.dpa 8))
      ∧ nodeById t n.id = some m ∧ m.at_ = .performed ∧ m.value.toNat = leNat (homeBytes s l.key x.dpa 8) ∧ OnlyNode s t n.id

/-- R107, R108, R193, R194, R286, R293: a command whose accesses are made raises, in its turn, in the streamers' turn at the crossbar, and when
its bank serves it, its sync word
by the bytes it moved: COUNT grows, at TARGET it returns to 0 and GEN rises; past TARGET the word is marked. Its node is then performed;
a pattern without an output keeps its hold until the acknowledgement. -/
def Obligations.SyncWordRaise : Prop :=
  ∀ s c n a i r, commandOf s c.id = some c → s.ctl.focus = .subject (.num c.id) → c.sync = some a → c.ended = true →
    nodeById s c.node = some n → n.at_ ≠ .performed → raiseTurn s c a = true → streamerTurn s c.eng.stand c.eng.elem (sceOf a) = true →
    regionOf s c.eng.stand c.eng.ctx a 8 = some (i, r) → r.mode = 0 → a + 8 ≤ 2 ^ 20 →
    (syncMark s ⟨c.eng.stand, a⟩).fault = false →
    let w := (leWord (scratchBytes s c.eng.stand a 8)).toNat
    let count := w % 2 ^ 24
    let target := w / 2 ^ 24 % 2 ^ 24
    let gen := w / 2 ^ 48
    let served := serveBank s c.eng.stand a 8 c.eng.ctx (portOf c.eng.elem (sceOf a)) c.who.asker
    (served = none → exec .syncWordRaise s = .next s)
    ∧ (served ≠ none → ∃ t, exec .syncWordRaise s = .next t ∧ nodeById t c.node = some { n with at_ := .performed }
      ∧ commandOf t c.id = (if isPattern c.op && !hasOutput c.op then some { c with todo := [] } else none)
      ∧ OnlyScratch s t c.eng.stand a 8
      ∧ (count + c.moved < target → leWord (scratchBytes t c.eng.stand a 8)
          = BitVec.ofNat 64 (gen * 2 ^ 48 + target * 2 ^ 24 + (count + c.moved)))
      ∧ (count + c.moved = target → leWord (scratchBytes t c.eng.stand a 8)
          = BitVec.ofNat 64 ((gen + 1) % 2 ^ 16 * 2 ^ 48 + target * 2 ^ 24))
      ∧ (target < count + c.moved → scratchBytes t c.eng.stand a 8 = scratchBytes s c.eng.stand a 8
          ∧ (syncMark t ⟨c.eng.stand, a⟩).fault = true))

/-- R304 to R306, R347: a switch slot closes when its deadline passes and not before; a closed one is freed once the collect time is over
and not before. -/
def Obligations.SwitchSlots : Prop :=
  ∀ s h x, s.ctl.focus = .subject (.num h) → s.eng.slots.find? (fun y => y.handle == h) = some x →
    (x.closed = none → x.deadline ≤ s.ctl.clock →
      ∃ t, exec .xrslotDeadline s = .next t
        ∧ t.eng.slots.find? (fun y => y.handle == h) = some { x with closed := some x.deadline }
        ∧ ∀ k, k ≠ h → t.eng.slots.find? (fun y => y.handle == k) = s.eng.slots.find? fun y => y.handle == k)
    ∧ ((x.closed ≠ none ∨ s.ctl.clock < x.deadline) → exec .xrslotDeadline s = .next s)
    ∧ (∀ c, x.closed = some c →
      (c + Config.slotCollectUs * Config.cyclesPerUs s.host.hot ≤ s.ctl.clock →
        ∃ t, exec .xrslotFreeTimeout s = .next t ∧ t.eng.slots = s.eng.slots.filter fun y => y.handle != h)
      ∧ (s.ctl.clock < c + Config.slotCollectUs * Config.cyclesPerUs s.host.hot → exec .xrslotFreeTimeout s = .next s))
    ∧ (x.closed = none → exec .xrslotFreeTimeout s = .next s)

/-- R289, R293, R163: on a granted clock a streamer sends the next token of its running pattern once its elements are fetched: the elements in
order, with its tag, counted on its output edge; a burst's HEAD, where the format has one, before its first; after the last one an END. A token whose count finds no room in the frontier unit's tables stays. -/
def Obligations.StreamerTokens : Prop :=
  ∀ s k u c e, s.ctl.focus = .subject (.elem k) → runningPattern s k = some c → hasOutput c.op = true →
    grant s k (emitReady s) = some u → outEdgeOf u c.eng c.launch = some e → mayRun u c = true →
    owedBefore u.q.owed (lkEdge c.launch e) c.eng 0 = false →
    (credited u (lkEdge c.launch e) = true → credits u (lkEdge c.launch e) ≠ 0) →
    commandOf u c.id = some c →
    (c.count < c.tokens → c.count % strmBurst (strmCfg u c.eng) ≠ 0 →
      (∀ i, i < min c.perTok (c.elems - c.perTok * c.count) → c.elemDone (c.perTok * c.count + i) = true) →
      (unitsFit (changeSet u c.eng.stand c.launch [⟨e, c.tag, 1⟩]) = false → exec .streamerEmit s = .next u)
      ∧ (unitsFit (changeSet u c.eng.stand c.launch [⟨e, c.tag, 1⟩]) = true → ∃ t d, exec .streamerEmit s = .next t
        ∧ t.q = { u.q with flights := u.q.flights ++ [⟨u.ctl.nextId, lkEdge c.launch e, c.eng, c.token (strmFmt (strmCfg u c.eng)) c.count⟩] }
        ∧ commandOf t c.id = some d ∧ d.count = c.count + 1 ∧ d.op = c.op ∧ d.tag = c.tag
        ∧ t.fr = (changeSet u c.eng.stand c.launch [⟨e, c.tag, 1⟩]).fr ∧ t.mem = u.mem))
    ∧ (c.count < c.tokens → c.count % strmBurst (strmCfg u c.eng) = 0 → mayStart u (lkEdge c.launch e) = true →
      fmtHeaded (strmFmt (strmCfg u c.eng)) = true → c.aux = [] → unitsFit u = true →
      (∀ i, i < min c.perTok (c.elems - c.perTok * c.count) → c.elemDone (c.perTok * c.count + i) = true) →
      ∃ t, exec .streamerEmit s = .next t ∧ commandOf t c.id = some { c with aux := [1] }
        ∧ t.q = { u.q with flights := u.q.flights ++ [⟨u.ctl.nextId, lkEdge c.launch e, c.eng, c.headTok (strmFmt (strmCfg u c.eng))⟩] })
    ∧ (c.count < c.tokens → c.count % strmBurst (strmCfg u c.eng) = 0 → mayStart u (lkEdge c.launch e) = true →
      (fmtHeaded (strmFmt (strmCfg u c.eng)) = true → c.aux ≠ []) →
      (∀ i, i < min c.perTok (c.elems - c.perTok * c.count) → c.elemDone (c.perTok * c.count + i) = true) →
      unitsFit (changeSet u c.eng.stand c.launch [⟨e, c.tag, 1⟩]) = true →
      ∃ t d, exec .streamerEmit s = .next t
        ∧ t.q.flights = u.q.flights ++ [⟨u.ctl.nextId, lkEdge c.launch e, c.eng, c.token (strmFmt (strmCfg u c.eng)) c.count⟩]
        ∧ commandOf t c.id = some d ∧ d.count = c.count + 1 ∧ d.aux = [] ∧ t.fr = (changeSet u c.eng.stand c.launch [⟨e, c.tag, 1⟩]).fr)
    ∧ (c.tokens ≤ c.count → unitsFit (changeSet u c.eng.stand c.launch ([⟨e, c.tag, 1⟩] ++ c.holdDelta (-1))) = true →
      ∃ t, exec .streamerEmit s = .next t
        ∧ t.q = { u.q with flights := u.q.flights ++ [⟨u.ctl.nextId, lkEdge c.launch e, c.eng, endToken c.tag (strmFmt (strmCfg u c.eng)) 0⟩] }
        ∧ (c.sync = none → commandOf t c.id = none))

/-- R49 to R51, R297, R298: a pass takes its A row and adds one rounded dot to each element of its D row and to no other; a row or slot
of another swizzle poisons the D edge SWZ and empties the tile. A pass whose counts find no room in the frontier unit's tables stays. The
model's reading: infinities of both signs among the products (log entry 99), and the columns a plane count leaves (75). -/
def Obligations.MatrixPasses : Prop :=
  ∀ s k u l r slot, s.ctl.focus = .subject (.elem k) → isMatrix k.elem = true →
    grant s k (fun k => (mxStep s k).isSome) = some u → launchAt u k = some l → sealedAt u k = false → frontOf u k l = .row r →
    (curSlot u k l).bind (slotState u) = some slot →
    let i := islandOf u k
    let d := i.tile i.acc
    let cols := islandCols u k
    let sb := scaleOf (slot.scale.setWidth 32 ||| (slot.refine.setWidth 32 <<< 8) ||| if slot.rv then 0x10000#32 else 0)
    let bytes := scratchRead u slot.key.stand slot.key.addr 12288
    let elem := fun (n : Nat) => passElem (mxCfg u k).afmt r.els
      (fun x => numOfInt (blockWeight (max 1 (mxCfg u k).planes) bytes x n)) r.scale sb (getAt d.acc (i.n % 32 * cols + n) 0)
    d.draining = false → d.acc.length = 32 * cols → i.acc < i.tiles.length →
    (∀ v, mxStep u k = some v → unitsFit v = false → exec .matrixPass s = .next s)
    ∧ ((∀ v, mxStep u k = some v → unitsFit v = true) →
    (r.swz = (mxCfg u k).swzA → slot.swz = (mxCfg u k).swzB → r.pad = false → (i.n + 1) % 32 ≠ 0 → i.n + 1 ≠ 32 * (mxCfg u k).kpass →
      shadowRoom u k.stand k.ctx (tagLevel l.widths (if d.held then d.tag else r.tag) 0) = true →
      ∃ t, exec .matrixPass s = .next t ∧ (islandOf t k).acc = i.acc ∧ (islandOf t k).n = i.n + 1
        ∧ ((islandOf t k).tile i.acc).tag = (if d.held then d.tag else r.tag)
        ∧ (∀ n, n < cols → getAt ((islandOf t k).tile i.acc).acc (i.n % 32 * cols + n) 0 = (elem n).1)
        ∧ (∀ x, (x < i.n % 32 * cols ∨ (i.n % 32 + 1) * cols ≤ x) →
            getAt ((islandOf t k).tile i.acc).acc x 0 = getAt d.acc x 0)
        ∧ t.mem.scratch = u.mem.scratch ∧ t.mem.planes = u.mem.planes)
    ∧ (r.swz ≠ (mxCfg u k).swzA → ∀ e, outEdgeOf u k l.key = some e →
      ∃ t, exec .matrixPass s = .next t ∧ (islandOf t k).tile i.acc = DTile.free cols
        ∧ sentOn t (lkEdge l.key e) k (poisonToken r.tag (ownPoison k pSWZ ((mxCfg u k).swzA.toNat + 16 * r.swz.toNat)))))

/-- R299, R361: a draining tile sends its rows in order, 16 elements a token, rows without a pass with VALID 0, and is free after the
last; an END on A drains every bound tile, then goes on to the D edge. -/
def Obligations.MatrixDrains : Prop :=
  ∀ s k l e, s.ctl.focus = .subject (.elem k) → launchAt s k = some l → outEdgeOf s k l.key = some e →
    owedBefore s.q.owed (lkEdge l.key e) k 0 = false →
    (credited s (lkEdge l.key e) = true → credits s (lkEdge l.key e) ≠ 0) →
    let i := islandOf s k
    let cols := islandCols s k
    let per := (cols + 15) / 16
    (∀ x, i.draining = some x → mayStart s (lkEdge l.key e) = true →
      let row := i.drained / per
      let c := i.drained % per * 16
      unitsFit (changeSet s k.stand l.key ([⟨e, (i.tile x).tag, 1⟩]
        ++ if i.drained + 1 = 32 * per then tileHold s k (i.tile x) (-1) else [])) = true →
      ∃ t tok, exec .tileDrain s = .next t
        ∧ t.q.flights = s.q.flights ++ [⟨s.ctl.nextId, lkEdge l.key e, k, tok⟩]
        ∧ tok.tag = (i.tile x).tag ∧ tok.kind = .data ∧ tok.ft = .f32
        ∧ (∀ n, n < 16 → bitAt tok.valid n = (getAt (i.tile x).rows row false && decide (c + n < cols)))
        ∧ (∀ n, n < 16 → c + n < cols → laneOf tok.payload n = getAt (i.tile x).acc (row * cols + c + n) 0)
        ∧ (i.drained + 1 ≠ 32 * per → (islandOf t k) = { i with drained := i.drained + 1 })
        ∧ (i.drained + 1 = 32 * per → x < i.tiles.length → (islandOf t k).tile x = DTile.free cols ∧ (islandOf t k).drained = 0))
    ∧ (i.draining = none → exec .tileDrain s = .next s)
    ∧ ∀ b, frontA s k l = .endOf b → sealedAt s k = false →
      (i.ending = false → ∃ t, exec .matrixEnd s = .next t ∧ (islandOf t k).ending = true ∧ t.q = s.q
        ∧ (i.acc < 2 → i.tiles.length = 2 → ∀ x, x < 2 → ((islandOf t k).tile x).draining = ((i.tile x).bound || (i.tile x).draining)))
      ∧ (i.ending = true → i.draining = none →
        unitsFit (changeSet s k.stand l.key (usedDelta b.edge.edge b.tok
          ++ [⟨e, b.tok.tag, 1⟩])) = true →
        ∃ t, exec .matrixEnd s = .next t ∧ (islandOf t k).ending = false
          ∧ sentOn t (lkEdge l.key e) k (endToken b.tok.tag .f32 (laneOf b.tok.payload 0)))

namespace Sys2Proof.Slice0
open Sys2Proof Sys2Proof.Machine

/-! ### Words about configuration, tokens and launches -/

/-- A refused command: one CONFIG record with its reason; no element's configuration, no token and no memory changes (R64). -/
structure Refused (s t : State) (reason : Nat) : Prop where
  written : ∃ r, t.host.pendingFaults = s.host.pendingFaults ++ [r] ∧ r.typ = 1 ∧ r.code = reason ∧ r.elem = 0xF0
  cfg : t.cfg = { s.cfg with stream := t.cfg.stream }
  rest : t.mem = s.mem ∧ t.q = s.q ∧ t.regs = s.regs ∧ t.tiles = s.tiles
/-- It is refused, and the stream's selection afterwards is `x`. -/
def RefusedWith (i : Instr) (s : State) (reason : Nat) (x : Stream) : Prop :=
  ∃ t, exec i s = .next t ∧ Refused s t reason ∧ t.cfg.stream = x
/-- Field f of element e takes values that `ok` admits, and `read` of the selected context then gives what `put` makes of it. -/
def FieldTakes {α : Type} (s : State) (e : BitVec 8) (f : BitVec 8) (ok : Nat → Prop) (read : State → EKey → α)
    (put : α → Nat → α) : Prop :=
  ∀ v : Half, let k : EKey := streamKey s e.toNat
    (ok v.toNat → ∃ t, exec (.configCommand e f v) s = .next t ∧ read t k = put (read s k) v.toNat
      ∧ ∀ q, q ≠ k → read t q = read s q)
    ∧ (¬ ok v.toNat → RefusedWith (.configCommand e f v) s 4 { s.cfg.stream with count := s.cfg.stream.count + 1 })

/-- Token `t` has entered the port's edge or waits in its buffer (R153). -/
def admitted (t : State) (k : PortKey) (ek : EdgeKey) (tok : Token) : Prop :=
  (∃ f ∈ t.q.flights, f.edge = ek ∧ f.tok = tok) ∨ tok ∈ (ingressAt t k).buf

/-- A launch has entered a state (R27, R342): its status block says so, and vector 65 is raised. -/
structure Entered (s t : State) (l : Launch) (st : LState) : Prop where
  launch : ∃ m, launchOf t l.key = some m ∧ m.state = st ∧ m.statusSq = l.statusSq + 1
  block : s.mem.host.wf = true → Memory.read t.mem.host l.status = BitVec.ofNat 8 st.code
  vector : ∀ p, partOf s l.key.part = some p → ∃ q, partOf t l.key.part = some q ∧ 65 ∈ q.msix
/-- The launch's state, where it is known. -/
def stateOf (s : State) (k : LKey) : Option LState := (launchOf s k).map (·.state)
/-- The oldest record of a running partition's port 0 asks for `kind` on launch l, and is 0 elsewhere (R341); the control core is free to take
it (R326). -/
def Asks (s : State) (part kind : Nat) (l : Launch) : Prop :=
  s.ctl.focus = .subject (.num part) ∧ partRuns s part = true ∧ launchOf s l.key = some l ∧ l.key.part = part
    ∧ controlFree s part = true ∧ ∃ r, systemRecord s part = some r ∧ r.kind = kind ∧ r.number = l.key.launch ∧ r.bare = true

end Sys2Proof.Slice0

/-- R58 to R64: SEL, PAGE, FLAGS, END and commands to elements: what each sets, when it is staged, refused, discarded; a SEL that finds
staged commands discards them with a CHECK record (R60); and slot tables that take effect at their clock (one of slot 0, R181). The model's
choices: LIVE before FIELD and VALUE (log entry 102), PART where the launch has no stream (53), the batch that a refused FLAGS drops (86), and no
record of a SEL with nothing staged (126). -/
def Obligations.ConfigCommands : Prop :=
  ∀ s : State, cfgRoom s = true →
    let x := s.cfg.stream
    let more : Stream := { x with count := x.count + 1 }
    (∀ ctx stand, (x.hold = false ∨ x.staged = []) →
      (hasStream s x.launch = true → partOfStand s stand.toNat = some x.launch.part →
        exec (.sel ctx stand) s = .next (setStream s ⟨x.launch, some (stand.toNat, ctx.toNat), false, 0, false, 0, []⟩))
      ∧ (hasStream s x.launch = false ∨ partOfStand s stand.toNat ≠ some x.launch.part →
        RefusedWith (.sel ctx stand) s 7 { x with discard := true, hold := false, staged := [] }))
    ∧ (∀ ctx stand, x.hold = true → x.staged ≠ [] →
      (hasStream s x.launch = true → partOfStand s stand.toNat = some x.launch.part →
        RefusedWith (.sel ctx stand) s 6 ⟨x.launch, some (stand.toNat, ctx.toNat), false, 0, false, 0, []⟩)
      ∧ (hasStream s x.launch = false ∨ partOfStand s stand.toNat ≠ some x.launch.part →
        ∃ t a b, exec (.sel ctx stand) s = .next t ∧ t.host.pendingFaults = s.host.pendingFaults ++ [a, b] ∧ a.code = 6 ∧ b.code = 7
          ∧ t.cfg = { s.cfg with stream := { x with discard := true, hold := false, staged := [] } } ∧ t.mem = s.mem ∧ t.q = s.q))
    ∧ (x.discard = true → (∀ e f v, exec (.configCommand e f v) s = .next s) ∧ (∀ p, exec (.page p) s = .next s)
        ∧ (∀ h, exec (.flags h) s = .next s) ∧ ∀ c, exec (.end_ c) s = .next s)
    ∧ (x.discard = false → x.sel = none → (∀ e f v, RefusedWith (.configCommand e f v) s 1 x)
        ∧ (∀ p, RefusedWith (.page p) s 1 x) ∧ (∀ h, RefusedWith (.flags h) s 1 x) ∧ ∀ c, RefusedWith (.end_ c) s 1 x)
    ∧ (∀ y, x.discard = false → x.sel = some y →
        (∀ p, exec (.page p) s = .next (setStream s { more with page := p.toNat }))
        ∧ exec (.flags 1) s = .next (setStream s { more with hold := true })
        ∧ (x.staged = [] → exec (.flags 0) s = .next (setStream s { more with hold := false }))
        ∧ ((∃ c ∈ x.staged, blocked s (streamKey s c.1) c.2.1 = true) →
            RefusedWith (.flags 0) s 5 { more with hold := false, staged := [] })
        ∧ (∀ c : BitVec 16, (x.count % 2 ^ 16 = c.toNat → exec (.end_ c) s = .next s)
            ∧ (x.count % 2 ^ 16 ≠ c.toNat → RefusedWith (.end_ c) s 6 { x with staged := [] }))
        ∧ (∀ (e f : BitVec 8) (v : Half), e ≠ 0xFF#8 → x.hold = true →
            exec (.configCommand e f v) s = .next (setStream s
              { more with staged := x.staged ++ [(e.toNat, 256 * x.page + f.toNat, v)] }))
        ∧ (x.hold = false → x.page = 0 → (∀ (e f : BitVec 8) (v : Half), e ≠ 0xFF#8 → blocked s (streamKey s e.toNat) f.toNat = true →
            RefusedWith (.configCommand e f v) s 5 more))
        ∧ (x.hold = false → x.page = 0 → (∀ e f, blocked s (streamKey s e) f = false) →
            FieldTakes s 0x20 3 (fun n => n < 2 ^ 13) tileCfg (fun c n => { c with entry := n })
            ∧ FieldTakes s 0x20 0 (fun n => n < 2 ^ 13) tileCfg (fun c n => { c with iaddr := n, ihalf := 0 })
            ∧ FieldTakes s 0x21 2 (fun n => 1 ≤ n ∧ n ≤ 8) tileCfg (fun c n => { c with galloc := n })
            ∧ FieldTakes s 0x28 0 (fun n => n ≠ 0) mxCfg (fun c n => { c with kpass := n })
            ∧ FieldTakes s 0x28 5 (fun n => n < 2 ^ 12) mxCfg (fun c n => { c with locD := n })
            ∧ FieldTakes s 0x33 0 (fun n => 1 ≤ n ∧ n ≤ 32) strmCfg (fun c n => { c with runahead := n })
            ∧ ∀ v : Half, 1 ≤ v.toNat → v.toNat ≤ 16 → ∃ t, exec (.configCommand 0x38 1 v) s = .next t
                ∧ flushCfg t y.1 = ((flushCfg s y.1).1, v.toNat) ∧ ∀ st, st ≠ y.1 → flushCfg t st = flushCfg s st))
    ∧ ∀ stand idx p, s.ctl.focus = .subject (.pair stand idx) → (slotTable s stand idx).pending = some p →
        (p.1 ≤ s.ctl.clock → ∃ t, exec .slotTableTakesEffect s = .next t
          ∧ slotTable t stand idx = { slotTable s stand idx with slots := p.2, pending := none })
        ∧ (s.ctl.clock < p.1 → exec .slotTableTakesEffect s = .next s)

/-- R15, R39, R143 to R147, R152, R208, R322, R324: what a token that reaches the end of its edge becomes: an entry with its arrival number,
marked where a HEAD of it is malformed or missing, a bound HEAD, poison forwarded, an END noted or, with every matched input's, sent on
(a segment's under its SEG), a buffered token, a request, a brake's mark; a sealed consumer absorbs it. A malformed HEAD that no DATA
followed is FMT by itself. Where a frontier unit's tables lack the room (R163) the step waits, so each clause asks for it. The model's own: a
NOTE that enters the store (log entry 64), the completing token that passes it (67), and the wait for room among the die's records (38). -/
def Obligations.TokensArrive : Prop :=
  (∀ s f, flightOf s f.id = some f → s.ctl.focus = .subject (.num f.id) → nextOnEdge s f = true →
    let w := burstArrival (landFlight s f) f.edge f.tok
    let u := w.1
    (∀ k i, consumerOf s f.edge = .vpe k i → f.tok.kind ≠ .brake → f.tok.kind ≠ .req → portShut s k i = false →
      let c := if f.tok.kind = .data then countHead u k i f.src else u
      let closed := (arrivingOn u f.edge).1 = 0 ∧ (arrivingOn u f.edge).2.1 = false
      let v := if closed then unbindHead c k i f.src else c
      let bound := if fmtHeaded f.tok.ft then headOf s k i f.src else none
      let bad := decide (f.tok.kind = .data) && (w.2.2 || (headOf s k i f.src).any fun h => !headOk h)
      let fmtPoison := ownPoison k pFMT (getAt (vpeCfg s k).inloc i 0)
      ((sealedAt s k = true ∨ braked s f.edge f.tok = true) → unitsFit (absorbTok v k.stand f.edge f.tok w.2.1) = true →
        ∃ t, exec .tokenArrival s = .next t ∧ t.q.store = s.q.store ∧ (∀ h ∈ t.q.heads, ∃ g ∈ s.q.heads, h = { g with seen := h.seen })
          ∧ t.fr = (changeSet s k.stand (ekLaunch f.edge) (usedDelta f.edge.edge f.tok)).fr)
      ∧ (sealedAt s k = false → braked s f.edge f.tok = false →
        (f.tok.kind = .head → loneHead s k i f = none → unitsFit s = true →
          ∃ t, exec .tokenArrival s = .next t ∧ headOf t k i f.src = some f.tok ∧ t.q = { u.q with heads := t.q.heads })
        ∧ (∀ h, f.tok.kind = .head → boundOf s k i f.src = some h → h.seen = 0 → headOk h.head = false →
            unitsFit (headPoison v k (ekLaunch f.edge) i h.head) = true →
          ∃ t, exec .tokenArrival s = .next t ∧ headOf t k i f.src = some f.tok
            ∧ ∀ p ∈ vpePorts s k, sentOn t (lkEdge (ekLaunch f.edge) (vpeOut s k p)) k (poisonToken h.head.tag fmtPoison))
        ∧ ((f.tok.kind = .data ∨ f.tok.kind = .note) → storeUsed s k < 64 → unitsFit s = true →
          ∃ t x, exec .tokenArrival s = .next t ∧ t.q.store = s.q.store ++ [x] ∧ x.vpe = k ∧ x.inp = i ∧ x.tok = f.tok
            ∧ x.num = countOf s k i f.tok.tag f.tok.seg + 1 ∧ x.inPile = false
            ∧ x.head = bound ∧ x.bad = bad ∧ x.last = w.2.1
            ∧ storeUsed t k = storeUsed s k + (if x.passing then 0 else 1)
            ∧ (closed → headOf t k i f.src = none)
            ∧ (bitAt (vpeCfg s k).whole i = false →
                countOf t k i f.tok.tag f.tok.seg = countOf s k i f.tok.tag f.tok.seg + 1)
            ∧ t.q.flights = u.q.flights)
        ∧ ((f.tok.kind = .data ∨ f.tok.kind = .note) →
            placeToken v k (ekLaunch f.edge) i f.tok bound bad w.2.1 = none →
          ∃ t, exec .tokenArrival s = .next t ∧ t.q = { v.q with held := s.q.held ++ [⟨k, i, f.tok, bound, bad, w.2.1⟩] })
        ∧ (f.tok.kind = .poison → poisonSeen s k f.tok.tag (poisonOf f.tok) = false →
            unitsFit (vpePoison v k (ekLaunch f.edge) f.edge f.tok) = true →
          ∃ t, exec .tokenArrival s = .next t
            ∧ ∀ p ∈ vpePorts s k, sentOn t (lkEdge (ekLaunch f.edge) (vpeOut s k p)) k (poisonToken f.tok.tag (poisonOf f.tok)))
        ∧ (f.tok.kind = .endOf → loneHead s k i f = none → (∀ x ∈ s.q.ends, x.vpe ≠ k) →
          ((∃ j ∈ (vpeCfg s k).matchedInputs, j ≠ i) → unitsFit s = true →
            ∃ t, exec .tokenArrival s = .next t ∧ t.q.store = s.q.store
              ∧ t.q.ends = s.q.ends ++ [⟨k, i, f.tok.tag, f.tok.seg, laneOf f.tok.payload 0, w.2.1⟩])
          ∧ ((vpeCfg s k).matchedInputs = [i] →
            (∀ x ∈ s.q.store, ¬ (x.vpe = k ∧ x.tok.tag = f.tok.tag ∧ x.tok.seg = f.tok.seg)) →
            (∀ g ∈ s.firings, ¬ (g.vpe = k ∧ g.tag = f.tok.tag ∧ g.seg = f.tok.seg)) →
            let toks := (vpePorts s k).map fun p => (vpeOut s k p,
              { endToken f.tok.tag (outFmt (vpeCfg s k) p) (laneOf f.tok.payload 0) with seg := f.tok.seg })
            unitsFit (changeSet s k.stand (ekLaunch f.edge) ((if f.tok.seg = 0 then [⟨inputEdge s k i, f.tok.tag, -1⟩] else [])
              ++ toks.flatMap fun x => tokDelta x.1 x.2 1)) = true →
            ∃ t, exec .tokenArrival s = .next t ∧ t.q.ends = s.q.ends
              ∧ (∀ x ∈ toks, sentOn t (lkEdge (ekLaunch f.edge) x.1) k x.2)))))
    ∧ ((∀ k i, consumerOf s f.edge ≠ .vpe k i) → consumerOf s f.edge ≠ .nobody → f.tok.kind ≠ .brake → f.tok.kind ≠ .req →
      (sealedConsumer s f.edge = false → braked s f.edge f.tok = false →
        exec .edgeBufferArrival s = .next (setBuffers u (s.q.buffers ++ [⟨f.edge, f.tok, w.2.1, w.2.2⟩])))
      ∧ ((sealedConsumer s f.edge = true ∨ braked s f.edge f.tok = true) →
        unitsFit (absorbTok u (consumerStand s f.edge) f.edge f.tok w.2.1) = true →
        ∃ t, exec .edgeBufferArrival s = .next t ∧ t.q.buffers = s.q.buffers))
    ∧ (∀ e l, f.tok.kind = .req → edgeRec s f.edge = some e → launchOf s (ekLaunch f.edge) = some l →
      (reqCount s f.edge < (if e.permits = 0 then 4096 else e.permits) →
        ∃ t, exec .reqArrival s = .next t ∧ reqCount t f.edge = reqCount s f.edge + 1 ∧ t.q = { u.q with reqs := t.q.reqs })
      ∧ ((if e.permits = 0 then 4096 else e.permits) ≤ reqCount s f.edge →
        (faultRoom s (dieOf (portKey s l e.prod 0xF8).stand) = false → exec .reqArrival s = .next s)
        ∧ (faultRoom s (dieOf (portKey s l e.prod 0xF8).stand) = true → ∃ t r, exec .reqArrival s = .next t ∧ t.q = u.q ∧ t.host.pendingFaults = s.host.pendingFaults ++ [r] ∧ r.typ = 9)))
    ∧ (∀ l e k a n, f.tok.kind = .brake → launchOf s (ekLaunch f.edge) = some l → edgeRec s f.edge = some e → l.whereIs e.cons = some k →
      (sealedAt s k = true → exec .brakeArrival s = .next (landFlight s f))
      ∧ (sealedAt s k = false → brakeAccepts s f.edge f.tok = [a] →
        (draftRegion (moduleEdges s l.key) a).returns.contains e.num = false →
        ((launchLoops s l.key).map (·.back)).contains e.num = false →
        (∀ b ∈ s.q.brakes, ¬ (b.launch = l.key ∧ b.accept = a ∧ b.tag = f.tok.tag ∧ b.node = e.cons)) →
        n ∈ frontInputs s l.key (draftRegion (moduleEdges s l.key) a) e.cons → n ≠ e.num →
        unitsFit (brakeAt (landFlight s f) l e f.tok a) = true →
        ∃ t, exec .brakeArrival s = .next t
          ∧ (∃ b ∈ t.q.brakes, b.node = e.cons ∧ b.tag = f.tok.tag ∧ b.seen = [e.num] ∧ b.forwarded = false)
          ∧ (∀ x ∈ t.q.store, x.vpe = k → x.tok.kind = .data → covered l.widths f.tok.tag (brakePos f.tok) x.tok.tag = false)
          ∧ ∀ x ∈ s.q.store, (x.vpe ≠ k ∨ covered l.widths f.tok.tag (brakePos f.tok) x.tok.tag = false) → x.tok.seg = 0 → x ∈ t.q.store)))
  ∧ ∀ s k h l, s.ctl.focus = .subject (.elem k) → s.q.held.find? (fun h => vpeWide h.vpe = vpeWide k) = some h →
      launchAt s h.vpe = some l → storeUsed s h.vpe < 64 →
      ∃ t x, exec .pileHeldTokenEntry s = .next t ∧ t.q.held = s.q.held.erase h ∧ t.q.store = s.q.store ++ [x]
        ∧ x.vpe = h.vpe ∧ x.inp = h.inp ∧ x.tok = h.tok ∧ x.head = h.head ∧ x.bad = h.bad ∧ x.last = h.last ∧ x.inPile = false

/-- R13, R14, R43, R143, R161, R180, R206: a ready match starts its firing on a granted clock, whole and out of the store; it waits for
the credits of its ports; a firing past its last stage sends its tokens and counts them in one change set, or POISON on every port. -/
def Obligations.VpeFirings : Prop :=
  (∀ s k tag seg l n, s.ctl.focus = .subject (.ready k tag seg) → launchAt s k = some l → readyMatch s k tag seg = some n →
    (((∃ x ∈ firingNeeds s k l.key, credits s x.1 < x.2) ∨ sealedAt s k = true
        ∨ (∃ f ∈ s.firings, vpeWide f.vpe = vpeWide k ∧ f.stage = 0) ∨ grant s k (mayFire s) = none) →
      exec .firingStart s = .next s)
    ∧ ((startFiring s k tag seg).isSome = true → (grant s k (mayFire s)).isSome = true →
      ∃ t f, exec .firingStart s = .next t ∧ t.firings = s.firings ++ [f] ∧ f.id = s.ctl.nextId ∧ f.vpe = k ∧ f.launch = l.key
        ∧ f.tag = tag ∧ f.seg = seg ∧ f.results = [] ∧ f.out = [] ∧ f.drm = field (fpmOf s k.stand k.ctx) 0 3
        ∧ f.inputs.map (·.inp) = (vpeCfg s k).matchedInputs
        ∧ (∀ x ∈ f.inputs, x.toks = ((matchEntries s k tag seg n).filter fun y => y.inp == x.inp).map (·.tok))
        ∧ f.poison = firingFault (vpeCfg s k) k f.inputs (((matchEntries s k tag seg n).filter (·.bad)).map (·.inp)) ∧ (f.poison = none → f.stage = 0)
        ∧ t.q.store = s.q.store.filter fun x => !(matchEntries s k tag seg n).contains x))
  ∧ ∀ s f, s.ctl.focus = .subject (.num f.id) → firingOf s f.id = some f → (vpeCfg s f.vpe).stages ≤ f.stage →
    (∀ g ∈ s.firings, vpeWide g.vpe = vpeWide f.vpe → f.id ≤ g.id) →
    (∀ p ∈ namedPorts (vpeCfg s f.vpe) (vpeCfg s f.vpe).stages,
      owedBefore s.q.owed (lkEdge f.launch (getAt (vpeCfg s f.vpe).outloc p 0)) f.vpe 0 = false) →
    unitsFit (completeFiring s f) = true →
    (f.poison = none →
      ∃ t, exec .firingComplete s = .next t ∧ firingOf t f.id = none
        ∧ (∀ x ∈ f.out, ∃ g ∈ t.q.flights, g.edge = lkEdge f.launch (getAt (vpeCfg s f.vpe).outloc x.1 0) ∧ g.src = f.vpe ∧ g.tok = x.2)
        ∧ (f.notes = [] → (∀ x ∈ s.q.ends, x.vpe ≠ f.vpe) →
          t.fr = (changeSet s f.vpe.stand f.launch (((f.tokens s).flatMap fun x => usedDelta x.1 x.2)
            ++ f.out.flatMap fun x => tokDelta (getAt (vpeCfg s f.vpe).outloc x.1 0) x.2 1)).fr))
    ∧ (∀ p, f.poison = some p →
      ∃ t, exec .firingComplete s = .next t ∧ firingOf t f.id = none
        ∧ (∀ q ∈ namedPorts (vpeCfg s f.vpe) (vpeCfg s f.vpe).stages,
            sentOn t (lkEdge f.launch (getAt (vpeCfg s f.vpe).outloc q 0)) f.vpe (poisonToken f.tag p)))

/-- R75, R149, R150, R242, R245, R246, R326, R343: the tile's choice (overdue blocks first, else the fullest queue, ties to the lowest address),
an execution's start from the frame, its abort with ILL when every instruction has fired or is dead and none of those fired was a control
instruction, its commit as one step when its turn has come (R95), the end of its thread token at HALT, the segment an idle tile takes
(whose refused block stays unloadable), and the reply that releases an ECALL. -/
def Obligations.BlockExecutions : Prop :=
  (∀ s k b, s.ctl.focus = .subject (.elem k) → tileOpen s k = true → tileActs s k = true → choiceDue s k = true → lateBlocks s k = [] → queueOf s k b ≠ [] →
    ((∃ bs, (schedOf s k).overdue = b :: bs) ∨ ((schedOf s k).overdue = []
      ∧ ∀ c, (queueOf s k c).length < (queueOf s k b).length ∨ ((queueOf s k c).length = (queueOf s k b).length ∧ b ≤ c))) →
    (blockRefusal s k b = none → ∃ t, exec .blockChoice s = .next t ∧ t = setSched s k (schedOf t k)
        ∧ (schedOf t k).chosen = some b ∧ (schedOf t k).run = 0 ∧ b ∉ (schedOf t k).overdue)
    ∧ (∀ c, blockRefusal s k b = some c → (∀ th, oldestQueued s k b = some th → poisonRoom s th 0 = true) → ∃ t, exec .blockChoice s = .next t ∧ aget (tileCfg t k).unload b = some c.toNat
        ∧ (schedOf t k).chosen = none ∧ b ∉ (schedOf t k).overdue))
  ∧ (∀ s k w, w ∈ lateBlocks s k → (∀ v ∈ lateBlocks s k, v.1 = w.1 → v = w) →
      (∀ v ∈ lateBlocks s k, w.2 < v.2 ∨ (w.2 = v.2 ∧ w.1 ≤ v.1)) → s.ctl.focus = .subject (.elemAt k w.1) →
      ∃ t, exec .blockOverdue s = .next t ∧ (schedOf t k).overdue = (schedOf s k).overdue ++ [w.1] ∧ t = setSched s k (schedOf t k))
  ∧ (∀ s k b th blk, s.ctl.focus = .subject (.elem k) → (schedOf s k).chosen = some b → tileOpen s k = true → tileActs s k = true →
      oldestQueued s k b = some th → blockRefusal s k b = none → loadBlock s k b = .ok blk →
      (readEntries (newExec s s.ctl.nextId th) blk th.g).2 = true →
      ((schedOf s k).run < 64 → ∃ t x, exec .executionStart s = .next t ∧ t.tiles.execs = s.tiles.execs ++ [x] ∧ x.id = s.ctl.nextId
        ∧ x.thread = th.uid ∧ x.tile = k ∧ x.block = th.block ∧ x.tag = th.tag ∧ x.drm = field (fpmOf s k.stand k.ctx) 0 3
        ∧ x.fired = [] ∧ x.control = none ∧ (schedOf t k).run = (schedOf s k).run + 1
        ∧ threadOf t th.uid = some { th with at_ := .running x.id }
        ∧ (∀ r ∈ blk.head.reads, ∀ sl, targetSlot r.2 = some sl →
            slotVal x sl = some ⟨sl.1, sl.2, groupValue th.g r.1 (blk.slotRegs sl), none⟩)
        ∧ t.mem = s.mem ∧ t.ord = s.ord ∧ t.fr = s.fr)
      ∧ (64 ≤ (schedOf s k).run → exec .executionStart s = .next s))
  ∧ (∀ s x th b, s.ctl.focus = .subject (.num x.id) → execOf s x.id = some x → threadOf s x.thread = some th →
      loadBlock s x.tile x.block = .ok b →
      (allSettled x b = false → exec .executionCommit s = .next s)
      ∧ (allSettled x b = true → x.control = none → ∀ e : BEnv, e.x = x → e.th = th →
        (abortRoom s x = true → ∃ t, exec .executionCommit s = .next t ∧ Aborted s t e pILL x.block)
        ∧ (abortRoom s x = false → exec .executionCommit s = .next s))
      ∧ (execEnded x b = false → x.control ≠ none → exec .executionCommit s = .next s)
      ∧ (execEnded x b = true → th.speculative = false → x.leaving = [] → x.spawns = [] → x.taken = [] → x.stores = [] → x.sysw = [] →
        commitReady s x th b = true → (commitTurn s x = false → exec .executionCommit s = .next s) ∧ (commitTurn s x = true →
        unitsFit (commitExec s x th b) = true →
        (∀ target y, x.control = some (.goto target y) →
          ∃ t, exec .executionCommit s = .next t ∧ execOf t x.id = none
            ∧ threadOf t th.uid = some { th with g := commitRegs th.g b x.writes, lc := commitLc th.lc x.lc, block := target,
                                                  at_ := .queued s.ctl.nextId }
            ∧ dregsOf t th.tile = x.dwrites.foldl (fun d w => setAt d w.1 w.2) (dregsOf s th.tile)
            ∧ t.mem = s.mem ∧ t.ord = s.ord ∧ t.q = s.q ∧ t.fr = s.fr)
        ∧ (x.control = some .halt → th.guard = 0 → (∀ o ∈ s.q.bursts, o.owner ≠ th.uid) →
          ∃ t, exec .executionCommit s = .next t ∧ execOf t x.id = none ∧ threadOf t th.uid = none
            ∧ t.fr = (changeSet s th.tile.stand th.launch [⟨th.hold, th.tag, -1⟩]).fr ∧ t.mem = s.mem ∧ t.ord = s.ord))))
  ∧ (∀ s k, s.ctl.focus = .subject (.elem k) →
      (tileIdle s k = false ∨ reporting s k.stand k.elem = true → exec .segmentTake s = .next s)
      ∧ (∀ th c, tileIdle s k = true → reporting s k.stand k.elem = false → deckFirst s k = some th → blockRefusal s th.tile th.block = some c →
        ∃ t x, exec .segmentTake s = .next t ∧ t.tiles.execs = s.tiles.execs ++ [x] ∧ x.thread = th.uid
          ∧ x.abort = some (ownPoison th.tile c th.block) ∧ aget (tileCfg t th.tile).unload th.block = some c.toNat)
      ∧ (∀ th blk, tileIdle s k = true → reporting s k.stand k.elem = false → deckFirst s k = some th → blockRefusal s th.tile th.block = none →
        loadBlock s th.tile th.block = .ok blk → (readEntries (newExec s s.ctl.nextId th) blk th.g).2 = true →
        ∃ t x, exec .segmentTake s = .next t ∧ t.tiles.execs = s.tiles.execs ++ [x] ∧ x.thread = th.uid ∧ x.seg = th.sid
          ∧ x.block = th.block ∧ threadOf t th.uid = some { th with at_ := .running x.id } ∧ t.mem = s.mem ∧ t.fr = s.fr))
  ∧ ∀ s k v l,
      (aget s.tiles.ecalls k = none → ∀ part, exec (.ecallReply part k v) s = .next s)
      ∧ (∀ x b w i f, aget s.tiles.ecalls k = some x.id → launchAt s k = some l → execOf s x.id = some x →
        loadBlock s x.tile x.block = .ok b → x.waits = [w] → b.instrs[w.idx]? = some (.ecall i) → binfo (.ecall i) = some f →
        targetFree x f.t0 → targetFree x f.t1 → (f.t0 = f.t1 → f.t0 = .nowhere) →
        ∃ t y, exec (.ecallReply l.key.part k v) s = .next t ∧ aget t.tiles.ecalls k = none ∧ execOf t x.id = some y ∧ y.waits = []
          ∧ Delivered x y f (v.setWidth 512) (v.setWidth 512) none ∧ t.mem = s.mem ∧ t.q = s.q)

namespace Sys2Proof.Slice0
open Sys2Proof Sys2Proof.Machine
/-- The format of the port a note request names its edge by: OUTFMT's nibble of the first output port sent to that edge (R61, R67), else the
edge record's. -/
def requestFt (s : State) (lk : LKey) (r : Request) : Option Fmt :=
  let c := vpeCfg s r.vpe
  if getAt c.outloc 0 0 = r.edge then some (Fmt.ofCode (field c.outfmt 0 3).toNat)
  else if getAt c.outloc 1 0 = r.edge then some (Fmt.ofCode (field c.outfmt 4 3).toNat)
  else (edgeRec s (lkEdge lk r.edge)).map (·.ft)
end Sys2Proof.Slice0

/-- R163 to R171, R199, R200: batches leave a unit whole where their hub accepts them, hubs merge them in sequence within the die's buffer and
count them (one that alone is larger is forwarded at once, log entry 114), the landing nets a merge whole and fails a launch whose table grows
past its size, with a record of element 0xFE; a NOTE leaves only when no count can still reach it, once, and is poison FMT on a port that is
not I32 (R235); flags join SY.FPF once their epoch has passed. -/
def Obligations.FrontierFlow : Prop :=
  (∀ s lk stand, s.ctl.focus = .subject (.launchAt lk stand) → s.fr.units.any (unitMine stand lk) = true →
    let u := unitOf s stand lk
    (u.table ++ u.spill ≠ [] → hubAccepts s (dieOf stand) = true →
      (u.flushed + (flushCfg s stand).1 ≤ s.ctl.clock ∨ (flushCfg s stand).2 ≤ u.changed.length) →
      ∃ t, exec .batchFlush s = .next t ∧ t.fr.batches = s.fr.batches ++ [⟨lk, stand, u.sq, u.table ++ u.spill, 0⟩]
        ∧ (unitOf t stand lk).table = [] ∧ (unitOf t stand lk).spill = [] ∧ (unitOf t stand lk).changed = [] ∧ (unitOf t stand lk).sq = (u.sq + 1) % 2 ^ 32 ∧ t.fr.landings = s.fr.landings)
    ∧ ((u.table ++ u.spill = [] ∨ hubAccepts s (dieOf stand) = false) → exec .batchFlush s = .next s))
  ∧ (∀ s lk n b, s.ctl.focus = .subject (.launchAt lk n) → n < 512 →
      let h := hubOf s (n / 64) lk
      s.fr.batches.find? (fun b => decide (b.launch = lk) && b.from_ == n && b.sq == agetD h.expect n 0) = some b →
      let buf := netAll h.buf b.entries
      let others := hubOthers s (n / 64) lk
      (others + buf.length ≤ Config.hubEntries →
        ∃ t, exec .hubMergeForward s = .next t ∧ t.fr.batches = s.fr.batches.erase b
          ∧ (hubOf t (n / 64) lk).buf = buf ∧ (hubOf t (n / 64) lk).merged = h.merged + 1
          ∧ t.fr.merges = s.fr.merges ∧ agetD (hubOf t (n / 64) lk).expect n 0 = (b.sq + 1) % 2 ^ 32)
      ∧ (h.merged = 0 → others = 0 → Config.hubEntries < buf.length →
        ∃ t, exec .hubMergeForward s = .next t ∧ t.fr.batches = s.fr.batches.erase b
          ∧ t.fr.merges = s.fr.merges ++ [⟨lk, 0xFE00 + n / 64, h.sq, buf, 1⟩]
          ∧ (hubOf t (n / 64) lk).buf = [] ∧ agetD (hubOf t (n / 64) lk).expect n 0 = (b.sq + 1) % 2 ^ 32)
      ∧ (h.merged ≠ 0 ∨ others ≠ 0 → Config.hubEntries < others + buf.length → exec .hubMergeForward s = .next s))
  ∧ (∀ s lk die, s.ctl.focus = .subject (.launchAt lk (0xFE00 + die)) →
      let h := hubOf s die lk
      (h.merged ≠ 0 → h.forwarded + Config.mergeCycles ≤ s.ctl.clock →
        ∃ t, exec .hubMergeForward s = .next t ∧ t.fr.merges = s.fr.merges ++ [⟨lk, 0xFE00 + die, h.sq, h.buf, h.merged⟩]
          ∧ (hubOf t die lk).buf = [] ∧ (hubOf t die lk).merged = 0)
      ∧ (h.merged = 0 → exec .hubMergeForward s = .next s))
  ∧ (∀ s lk die x l b, s.ctl.focus = .subject (.launchAt lk die) → landingOf s lk = some x → launchOf s lk = some l →
      s.fr.merges.find? (fun b => decide (b.launch = lk) && b.from_ == 0xFE00 + die && b.sq == agetD x.expect die 0) = some b →
      ((netAll x.counts b.entries).length ≤ ((l.place.map (·.landingCap)).getD 0) →
        ∃ t y, exec .batchApply s = .next t ∧ landingOf t lk = some y ∧ y.counts = netAll x.counts b.entries
          ∧ y.summaries = x.summaries ∧ t.fr.merges = s.fr.merges.erase b ∧ t.mem = s.mem ∧ t.q = s.q)
      ∧ (((l.place.map (·.landingCap)).getD 0) < (netAll x.counts b.entries).length →
        ∃ t, exec .batchApply s = .next t ∧ stateOf t lk = some .failed
          ∧ ∃ r ∈ t.host.pendingFaults, r.typ = 6 ∧ r.elem = 0xFE ∧ r.launch = lk.launch ∧ r.part = lk.part))
  ∧ (∀ s x r l, s.ctl.focus = .subject (.num r.id) → s.fr.landings.find? (fun x => x.requests.any fun q => q.id == r.id) = some x →
      x.requests.find? (fun q => q.id == r.id) = some r → launchOf s x.launch = some l →
      ((∃ cs ∈ reachable l.widths x r.loc, coordsLe cs (coords l.widths r.tag) = true) → exec .noteDelivery s = .next s)
      ∧ (r.delivered = true → exec .noteDelivery s = .next s)
      ∧ (r.delivered = false → r.due ≠ none → (∀ q ∈ x.requests, q.due = r.due → r.id ≤ q.id) → deliverable l.widths x r = true → sealedAt s r.vpe = false →
        (l.state = .running ∨ l.state = .draining) →
        ∃ t, exec .noteDelivery s = .next t
          ∧ (∀ ft, requestFt s x.launch r = some ft →
            (ft = .i32 → sentOn t (lkEdge x.launch r.edge) r.vpe ⟨r.tag, 0, .note, .i32, 0x0001#16, BitVec.ofNat 512 r.loc⟩)
            ∧ (ft ≠ .i32 → sentOn t (lkEdge x.launch r.edge) r.vpe
              (poisonToken r.tag ⟨pFMT, r.vpe.stand, BitVec.ofNat 8 r.vpe.elem, BitVec.ofNat 32 r.edge⟩)))
          ∧ ∃ y, landingOf t x.launch = some y ∧ y.requests = updIf x.requests (fun q => q.id == r.id) fun q => { q with delivered := true }))
  ∧ ∀ s k epoch h l, s.ctl.focus = .subject (.elemAt k epoch) → s.fr.shadows.find? (shadowMine k.stand k.ctx epoch) = some h →
      launchOn s k.stand k.ctx = some l →
      (passedEverywhere s l epoch = true → ∃ t, exec .flagShadowMerge s = .next t
        ∧ fpfOf t k.stand k.ctx = fpfOf s k.stand k.ctx ||| h.fl.setWidth 32 ∧ flagsIn t k.stand k.ctx epoch = 0
        ∧ ∀ st c e, ¬ (st = k.stand ∧ c = k.ctx ∧ e = epoch) → flagsIn t st c e = flagsIn s st c e)
      ∧ (passedEverywhere s l epoch = false → exec .flagShadowMerge s = .next s)

/-- R153, R154, R155, R161, R189, R318, R337, R339: what a host write to a port's windows does, what an egress port writes, when its
vector is raised, the skidder's claims and their delivery, and the end of a launch. -/
def Obligations.PortsAndSkidder : Prop :=
  (∀ s (k : PortKey) data off size, k.port ≠ 0 →
    (∀ l e, portGate s k = .open_ l e → launchOf s l.key = some l →
      let node := (l.portNode .ingress k.port).getD 0
      let src := portKey s l node 0xF8
      let tag := epochTag l.widths (ingressAt s k).epoch
      (size = 64 → off % 64 = 0 → off < 0x800 →
        ∃ t, exec (.ingressDataWrite k off size data) s = .next t
          ∧ admitted t k (lkEdge l.key e.num) ⟨tag, 0, .data, e.ft, 0xFFFF#16, data⟩
          ∧ t.fr = (changeSet s src.stand l.key [⟨e.num, tag, 1⟩]).fr ∧ t.mem = s.mem)
      ∧ (size = 64 → ∃ t, exec (.ingressHeadWrite k size data) s = .next t
          ∧ admitted t k (lkEdge l.key e.num) ⟨tag, 0, .head, e.ft, if e.ft = .dir then 0x0003#16 else 0x0001#16, data⟩
          ∧ t.fr = s.fr ∧ t.mem = s.mem))
    ∧ ((size ≠ 64 ∨ off % 64 ≠ 0 ∨ 0x800 ≤ off ∨ partRuns s k.part = false ∨ ingressLaunch s k = none) →
        ∃ t, exec (.ingressDataWrite k off size data) s = .next t ∧ t = setIngress s (ingressAt t k)
          ∧ ingressAt t k = { ingressAt s k with err := min 0xFFFF ((ingressAt s k).err + 1) }))
  ∧ (∀ s part data off, partRuns s part = true → (ingressAt s ⟨part, 0⟩).record.length < 256 → off % 64 = 0 → off < 0x800 →
      ∃ t, exec (.ingressDataWrite ⟨part, 0⟩ off 64 data) s = .next t
        ∧ (ingressAt t ⟨part, 0⟩).record = (ingressAt s ⟨part, 0⟩).record ++ [data])
  ∧ (∀ s (k : PortKey) l e (v : Word), k.port ≠ 0 → partRuns s k.part = true → ingressLaunch s k = some l → l.ingressEdge k.port = some e →
      launchOf s l.key = some l → (ingressAt s k).ended = false → (ingressAt s k).stopped = false → l.bfport ≠ some k.port →
      let q := ingressAt s k
      let node := (l.portNode .ingress k.port).getD 0
      let src := portKey s l node 0xF8
      (256 ≤ q.buf.length → exec (.epoch k 8 v) s = .next s ∧ exec (.close k 8 v) s = .next s)
      ∧ (q.buf.length < 256 → v.toNat = q.epoch → unitRoom s src.stand 4 = true → q.epoch + 1 < 2 ^ levelWidth l.widths 0 →
        (∃ t, exec (.epoch k 8 v) s = .next t ∧ (ingressAt t k).epoch = q.epoch + 1 ∧ (ingressAt t k).ended = false
          ∧ t.fr = (changeSet s src.stand l.key
              [⟨e.num, epochTag l.widths q.epoch, -1⟩, ⟨e.num, epochTag l.widths (q.epoch + 1), 1⟩]).fr)
        ∧ (l.sealed.contains node = false → ∃ t, exec (.close k 8 v) s = .next t ∧ (ingressAt t k).epoch = q.epoch + 1
          ∧ (ingressAt t k).ended = true ∧ admitted t k (lkEdge l.key e.num) (endToken (epochTag l.widths (q.epoch + 1)) e.ft 0)))
      ∧ (q.buf.length < 256 → v.toNat = q.epoch → unitRoom s src.stand 4 = true → 2 ^ levelWidth l.widths 0 ≤ q.epoch + 1 → l.sealed.contains node = false →
        ∃ t, exec (.epoch k 8 v) s = .next t ∧ (ingressAt t k).stopped = true
          ∧ admitted t k (lkEdge l.key e.num) (poisonToken (epochTag l.widths q.epoch) ⟨pTAGOVF, src.stand, 0xF8, 0⟩))
      ∧ (q.buf.length < 256 → v.toNat ≠ q.epoch → ∃ t, exec (.epoch k 8 v) s = .next t ∧ exec (.close k 8 v) s = .next t
          ∧ ingressAt t k = { q with err := min 0xFFFF (q.err + 1) }))
  ∧ (∀ s k l e, s.ctl.focus = .subject (.port k) → ingressLaunch s k = some l → l.ingressEdge k.port = some e → launchOf s l.key = some l →
      ((l.bfport ≠ some k.port ∨ ∃ b ∈ s.eng.backfill, b.launch = l.key) → exec .backfillPortEnd s = .next s)
      ∧ (l.bfport = some k.port → (ingressAt s k).ended = false → (∀ p ∈ l.ingressPorts, p ≠ k.port → (ingressAt s ⟨k.part, p⟩).ended = true) →
        l.state = .running → l.gated = none → (∀ b ∈ s.eng.backfill, b.launch ≠ l.key) → (ingressAt s k).buf.length < 256 →
        unitsFit (closeEpoch s l k e true) = true →
        ∃ t, exec .backfillPortEnd s = .next t ∧ (ingressAt t k).ended = true))
  ∧ (∀ s ek k l b, s.ctl.focus = .subject (.edge ek) → consumerOf s ek = .egress k → launchOf s (ekLaunch ek) = some l →
      oldest s ek = some b →
      let p := egressAt s k
      let here := portKey s l ((l.portNode .egress k.port).getD 0) 0xF9
      (p.free = false → exec .egressTake s = .next s)
      ∧ (p.free = true → p.due = [] → unitRoom s here.stand 1 = true → (p.checks = false ∨ b.tok.kind ≠ .data) → p.again = [] → b.bad = false →
        s.mem.host.wf = true →
        ∃ t, exec .egressTake s = .next t ∧ (egressAt t k).wr = (p.wr + 1) % 2 ^ 32 ∧ t.q.buffers = s.q.buffers.erase b
          ∧ Memory.readN t.mem.host (p.bufbase.toNat + 128 * (p.wr % max 1 p.slots)) 128 = slotBytes b.tok
          ∧ t.fr = (changeSet s here.stand l.key (usedDelta b.edge.edge b.tok)).fr
          ∧ (b.tok.kind = .poison → ∃ r, t.host.rests = s.host.rests ++ [r] ∧ r.info = poisonOf b.tok ∧ r.tag = b.tok.tag)
          ∧ ∀ a, (a < p.bufbase.toNat + 128 * (p.wr % max 1 p.slots) ∨ p.bufbase.toNat + 128 * (p.wr % max 1 p.slots) + 128 ≤ a) →
              Memory.read t.mem.host a = Memory.read s.mem.host a))
  ∧ (∀ s k, s.ctl.focus = .subject (.port k) →
      ((egressAt s k).due ≠ [] → (egressAt s k).free = true →
        ∃ t, exec .egressTake s = .next t ∧ (egressAt t k).due.length < (egressAt s k).due.length)
      ∧ (∀ l p, egressLaunch s k = some l → partOf s k.part = some p → (egressAt s k).reqv = true →
        (portPassed s l k.port (egressAt s k).reqEpoch = true → (∀ x ∈ (egressAt s k).due, (egressAt s k).reqEpoch < x.1) →
          ∃ t, exec .egressVector s = .next t ∧ (egressAt t k).reqv = false
            ∧ partOf t k.part = some { p with msix := p.msix ++ [k.port] })
        ∧ (portPassed s l k.port (egressAt s k).reqEpoch = false → exec .egressVector s = .next s)))
  ∧ (∀ s e, s.ctl.focus = .subject (.num e.id) → s.eng.backfill.find? (fun x => x.id == e.id) = some e →
      (mayClaim s e = false → exec .skidderClaim s = .next s)
      ∧ (∀ u bs m, mayClaim s e = true →
        mapAct s ⟨⟨64 * e.die, 0xFB, ((launchOf s e.launch).map Launch.ctx).getD 0⟩, e.launch, e.tag⟩
          ((areaFrom e.fields).mapWord e.sq e.pos e.first).1 [((areaFrom e.fields).mapWord e.sq e.pos e.first).2] .claim = .ok u bs m →
        kvField (leNat bs) ((areaFrom e.fields).mapWord e.sq e.pos e.first).2 = 2 →
        ∃ t, exec .skidderClaim s = .next t ∧ t.mem = u.mem
          ∧ t.eng.backfill.find? (fun x => x.id == e.id) = some { e with claim := some e.first, delivered := false }
          ∧ t.eng.claimOrder = s.eng.claimOrder ++ [e.id])
      ∧ (∀ layer l port n ed, e.claim = some layer → launchOf s e.launch = some l → l.bfport = some port →
        l.portNode .ingress port = some n → l.ingressEdge port = some ed → e.delivered = false →
        s.eng.claimOrder.find? (fun i => s.eng.backfill.any fun x => x.id == i && decide (x.launch = e.launch) && !x.delivered) = some e.id →
        (ingressAt s ⟨l.key.part, port⟩).buf.length < 256 → unitRoom s (portKey s l n 0xF8).stand 1 = true → l.sealed.contains n = false →
        ∃ t, exec .claimDelivery s = .next t
          ∧ t.eng.backfill.find? (fun x => x.id == e.id) = some { e with delivered := true }
          ∧ admitted t ⟨l.key.part, port⟩ (lkEdge l.key ed.num) ⟨epochTag l.widths (ingressAt s ⟨l.key.part, port⟩).epoch, 0, .data, .i32,
              0xFFFF#16, leLanes (claimBytes e layer)⟩))
  ∧ ∀ s l, s.ctl.focus = .subject (.launch l.key) → launchOf s l.key = some l →
      ((l.state ≠ .running ∨ l.allEnded s = false ∨ quiescent s l = false ∨ mergesDue s l = true) → exec .launchEnd s = .next s)
      ∧ (l.state = .running → l.allEnded s = true → quiescent s l = true → mergesDue s l = false → (∀ p ∈ l.ingressPorts, (ingressAt s ⟨l.key.part, p⟩).buf = []) →
        (∀ p ∈ l.egressPorts, (egressAt s ⟨l.key.part, p⟩).held = [] ∧ (egressAt s ⟨l.key.part, p⟩).due = []) →
        ∃ t, exec .launchEnd s = .next t ∧ Entered s t l .ended)

/-- R24 to R28, R331 to R335, R340 to R342: each event that moves a launch from state to state, when it does so, and that the launch's
status block and vector then say so; and the records PREEMPT, RESUME and KILL, for which the control core must not hold a record of its own
(R326). The model's own: MAPPING's operand is what place and route gives (log entry 16) and a cached result is checked as a fresh one (106);
DIE_GRANT's operand is any set of dies between the module's limits, given to the oldest that waits (18); a grid that a reshape asked for is the
one a launch saved at its boundary waits for (43); what an image's bytes are and what is taken from beside them (40); the code of a KILL's
record (44); the status block's sequence number rises by one with each state (87). -/
def Obligations.LaunchStates : Prop :=
  (∀ s part r p, s.ctl.focus = .subject (.num part) → systemRecord s part = some r → partOf s part = some p → p.tdi = .run →
    p.stopping = false → controlFree s part = true →
    let u := dropRecord s part
    let m := (peekVa u part (recNat r.bytes 0 8) (recNat r.bytes 8 4)).bind moduleOf
    let l := newLaunch u part r m
    (r.kind = 1 → recZero r.bytes 18 2 = true → recZero r.bytes 40 24 = true → r.number ≤ 0xFE →
      (∀ x, launchOf s ⟨part, r.number⟩ = some x → x.state.live = false) →
      1 ≤ l.iport → l.iport ≤ 63 → l.eport ≤ 63 → (∀ q ∈ l.ingressPorts, q ≤ 63) → (∀ q ∈ l.egressPorts, q ≤ 63) →
      portClash u part l.ingressPorts l.egressPorts = false → (∀ q, l.bfport = some q → m = none ∨ q ∈ l.ingressPorts) →
      ∃ t, exec .launch s = .next t ∧ Entered s t l .waiting)
    ∧ (r.kind = 0 ∨ 4 < r.kind → ∃ t x, exec .launch s = .next t ∧ t.la = s.la
        ∧ t.host.pendingFaults = s.host.pendingFaults ++ [x] ∧ x.typ = 6))
  ∧ (∀ s l p (dies : BitVec 8), s.ctl.focus = .subject (.launch l.key) → launchOf s l.key = some l → partOf s l.key.part = some p →
      dies &&& ~~~p.dies = 0 → ((l.module.map (·.minDies)).getD 1) ≤ bitCount dies → bitCount dies ≤ ((l.module.map (·.maxDies)).getD 8) →
      (∀ x ∈ s.la.launches, x.waitsDies = true → x.key.part = l.key.part → l.order ≤ x.order) →
      (l.state = .waiting → ∃ t, exec (.dieGrant dies) s = .next t ∧ Entered s t l .mapping ∧ (launchOf t l.key).map (·.dies) = some dies)
      ∧ (∀ m r, l.state = .saved → l.resumed = true → l.dies = dies → (l.reshape = true → l.atStep = true → dies = l.grid) →
        l.module = some m → l.place = some r → placementOk s l m r = true → ∃ t, exec (.dieGrant dies) s = .next t ∧ Entered s t l .loading)
      ∧ (l.state = .running → (l.module.bind (·.step)).isSome = true →
        ∃ t, exec (.dieGrant dies) s = .next t ∧ launchOf t l.key = some { l with reshape := true, grid := dies })
      ∧ (l.state = .saved → l.resumed = true → l.reshape = false → l.atStep = false → bitCount dies ≠ bitCount l.dies →
        exec (.dieGrant dies) s = .next s))
  ∧ (∀ s l, s.ctl.focus = .subject (.launch l.key) → launchOf s l.key = some l → l.state = .mapping →
      (∀ m, l.module = some m → cachedMap s l.key.part (mappingKey m l.dies) m = none →
        (∀ r sums, summariesOf m r = some sums → burstsFit m = true → placementOk s l m r = true → streamBuilds s l m r = true →
          (r.boundKB ≤ l.saveKB → (m.deadlineEdge = none ∨ l.bfport ≠ none) →
            ∃ t, exec (.mapping (some r)) s = .next t ∧ Entered s t l .loading ∧ (launchOf t l.key).bind (·.place) = some r
              ∧ (landingOf t l.key).map (·.summaries) = some sums)
          ∧ ((l.saveKB < r.boundKB ∨ (m.deadlineEdge ≠ none ∧ l.bfport = none)) →
            ∃ t, exec (.mapping (some r)) s = .next t ∧ stateOf t l.key = some .failed))
        ∧ (∀ r, (burstsFit m = false ∨ summariesOf m r = none) → ∃ t, exec (.mapping (some r)) s = .next t ∧ stateOf t l.key = some .failed)
        ∧ (∃ t, exec (.mapping none) s = .next t ∧ stateOf t l.key = some .failed))
      ∧ (∀ m r sums, l.module = some m → cachedMap s l.key.part (mappingKey m l.dies) m = some (r, sums) → placementOk s l m r = true →
        r.boundKB ≤ l.saveKB → (m.deadlineEdge = none ∨ l.bfport ≠ none) →
        ∀ given, ∃ t, exec (.mapping given) s = .next t ∧ Entered s t l .loading ∧ (launchOf t l.key).bind (·.place) = some r)
      ∧ (l.module = none → ∀ r, ∃ t, exec (.mapping r) s = .next t ∧ stateOf t l.key = some .failed))
  ∧ (∀ s l m r x, s.ctl.focus = .subject (.launch l.key) → launchOf s l.key = some l → l.module = some m → l.place = some r →
      landingOf s l.key = some x → l.state = .loading → imageOf s l.key = none → l.todo = [] → (streamOf s l.key).staged = [] →
      (l.cfgBad = false → ∃ t, exec .loadingDone s = .next t ∧ Entered s t l .running)
      ∧ (l.cfgBad = true → ∃ t, exec .loadingDone s = .next t ∧ stateOf t l.key = some .failed))
  ∧ (∀ s part l, Asks s part 2 l →
      (l.state = .running → l.preempt = none →
        ∃ t, exec .preempt s = .next t ∧ launchOf t l.key = some { l with preempt := some s.ctl.clock })
      ∧ (l.state = .ended → ∃ t, exec .preempt s = .next t ∧ t.la = s.la))
  ∧ (∀ s part l, Asks s part 3 l → l.state = .saved → l.resumed = false →
      ∃ t x, exec .resume s = .next t ∧ launchOf t l.key = some x ∧ x.resumed = true ∧ x.state = .saved)
  ∧ (∀ s part l, Asks s part 4 l →
      ((l.state = .running ∨ l.state = .waiting ∨ l.state = .saved) → ∃ t, exec .kill s = .next t ∧ stateOf t l.key = some .failed)
      ∧ (l.state = .running → ∃ t, exec .kill s = .next t ∧ ∃ x ∈ t.host.pendingFaults,
          x.typ = 3 ∧ x.part = part ∧ x.launch = l.key.launch ∧ x.code = Config.killCode.toNat)
      ∧ (l.state = .draining → ∃ t, exec .kill s = .next t ∧ launchOf t l.key = some { l with killed := true }))
  ∧ (∀ s l, s.ctl.focus = .subject (.launch l.key) → launchOf s l.key = some l →
      (gateDue s l = true → controlFree s l.key.part = true → unitsFit (gateLaunch s l (l.module.bind (·.step)).isSome) = true →
        ∃ t, exec .gate s = .next t ∧ Entered s t l .draining ∧ (launchOf t l.key).bind (·.gated) = some s.ctl.clock)
      ∧ ((gateDue s l = false ∨ controlFree s l.key.part = false) → exec .gate s = .next s)
      ∧ (∀ c, l.preempt = some c → l.state = .running → l.gated = none → (l.module.bind (·.step)).isSome = true →
        (c + pdeadlineClocks s l.key.part ≤ s.ctl.clock → controlFree s l.key.part = true → unitsFit (gateLaunch s l false) = true →
          ∃ t, exec .preemptionDeadline s = .next t ∧ Entered s t l .draining)
        ∧ (s.ctl.clock < c + pdeadlineClocks s l.key.part → exec .preemptionDeadline s = .next s)))
  ∧ (∀ s l, s.ctl.focus = .subject (.launch l.key) → launchOf s l.key = some l → l.state = .draining → controlFree s l.key.part = true →
      ((l.execs s).any (abandoned s) = false → drained s l = true → l.killed = true →
        ∃ t, exec .drainQuiescent s = .next t ∧ Entered s t l .failed)
      ∧ ((l.execs s).any (abandoned s) = false → drained s l = false → exec .drainQuiescent s = .next s)
      ∧ (∀ m r u, (l.execs s).any (abandoned s) = false → drained s l = true → l.killed = false → l.dirty s = [] →
        l.module = some m → l.place = some r → writeImage s l ((imageNow s l m r).bytes s l) = (u, none) →
        ∃ t, exec .drainQuiescent s = .next t ∧ (launchOf t l.key).map (·.state) = some .saved
          ∧ (∃ im, imageOf t l.key = some im ∧ im.written = (imageNow s l m r).bytes s l))
      ∧ (∀ c, l.gated = some c → l.killed = false →
        (c + pdeadlineClocks s l.key.part ≤ s.ctl.clock → (drained s l = false ∨ l.dirty s ≠ []) →
          ∃ t, exec .drainDeadline s = .next t ∧ Entered s t l .running ∧ (launchOf t l.key).map (·.preemptCode) = some 1
            ∧ (launchOf t l.key).map (·.gated) = some none)
        ∧ (s.ctl.clock < c + pdeadlineClocks s l.key.part → exec .drainDeadline s = .next s)))
  ∧ ∀ s l im m r, s.ctl.focus = .subject (.launch l.key) → launchOf s l.key = some l → imageOf s l.key = some im → l.module = some m →
      l.place = some r → l.state = .loading → controlFree s l.key.part = true →
      (l.checked = false →
        (∀ off, readImage s l = .error off → ∃ t, exec .restore s = .next t ∧ Entered s t l .saved
          ∧ (launchOf t l.key).map (·.preemptCode) = some 2 ∧ preemptRec s l 2 off ∈ t.host.pendingFaults)
        ∧ (∀ bs, readImage s l = .ok bs → imageValid m.digest bs = false → ∃ t, exec .restore s = .next t ∧ stateOf t l.key = some .failed)
        ∧ (∀ bs, readImage s l = .ok bs → imageValid m.digest bs = true →
          ∃ t, exec .restore s = .next t ∧ launchOf t l.key = some { l with checked := true } ∧ imageOf t l.key = some { im with written := bs }
            ∧ t.mem = s.mem ∧ t.fr = s.fr))
      ∧ (l.checked = true → l.todo = [] → (streamOf s l.key).staged = [] → l.cfgBad = false →
        ∃ t, exec .restore s = .next t ∧ (launchOf t l.key).map (·.state) = some .running ∧ imageOf t l.key = none
          ∧ ∀ x, landingOf s l.key = some x → ∃ y, landingOf t l.key = some y ∧ y.counts = (im.readFrom l m s.ctl.nextId im.written).counts)
      ∧ (l.checked = true → (l.todo ≠ [] ∨ (streamOf s l.key).staged ≠ []) → exec .restore s = .next s)

/-- R319, R323 to R326: the oldest poison at rest seals every element of the nodes it reaches and leaves one record; records reach their
partition's queue in order, and wait while it is full; an error in a clean copy drops the copy. -/
def Obligations.Containment : Prop :=
  (∀ s, s.host.rests = [] → exec .seal s = .next s)
  ∧ (∀ s r rest, s.host.rests = r :: rest →
      (r.members s = none → exec .seal s = .next { s with host := { s.host with rests := rest } })
      ∧ (∀ l ms, r.members s = some (l, ms) →
        unitsFit (sealNodes { s with host := { s.host with rests := rest } } l ms r.tag r.info.code true) = true →
        ∃ t, exec .seal s = .next t ∧ containRec s l r ∈ t.host.pendingFaults
          ∧ (∀ p ∈ l.placed, p.node ∈ ms → p.node ∉ l.sealed → sealedAt t p.at_ = true)
          ∧ ∃ m, launchOf t l.key = some m ∧ ∀ n ∈ ms, n ∈ m.sealed))
  ∧ (∀ s die part r p, s.ctl.focus = .subject (.pair die part) →
      s.host.pendingFaults.find? (fun r => r.die == die && r.part == part) = some r → partOf s part = some p →
      (p.fqsize ≤ (p.fqwr - p.fqrd).toNat → exec .faultRecordWrite s = .next s)
      ∧ (∀ x, (p.fqwr - p.fqrd).toNat < p.fqsize →
        (translate s (64 * landingDie s part) part (p.fqbase + BitVec.ofNat 64 (64 * (p.fqwr.toNat % max 1 p.fqsize))) false true).2 = .ok x →
        ∃ t q, exec .faultRecordWrite s = .next t ∧ t.host.pendingFaults = s.host.pendingFaults.erase r ∧ partOf t part = some q
          ∧ q.fqwr = p.fqwr + 1 ∧ (p.fqwr = p.fqrd → 64 ∈ q.msix)))
  ∧ (∀ s stand line, unitsFit s = true → ∃ t, exec (.uncorrectedError (.l1Line stand line)) s = .next t
      ∧ (∀ c, c ∈ t.mem.l1 ↔ c ∈ s.mem.l1 ∧ ¬ (c.stand = stand ∧ c.line = line)) ∧ t.mem.hbm = s.mem.hbm ∧ t.mem.l2 = s.mem.l2)
  ∧ ∀ s sec l, lineOf s (sec / 2) = some l → getAt l.valid (sec % 2) false = true → getAt l.dirty (sec % 2) false = false →
      l.valid.length = 2 → unitsFit s = true →
      ∃ t m, exec (.uncorrectedError (.l2Sector sec)) s = .next t ∧ lineOf t (sec / 2) = some m ∧ getAt m.valid (sec % 2) true = false
        ∧ t.mem.hbm = s.mem.hbm ∧ t.mem.scratch = s.mem.scratch ∧ t.q = s.q

/-- R175, R337 to R339, R343 to R348: the registers a host may write and when a write of a frozen one is an error; the interface states
and their requests; links that accept, retry and are lost; temperature, bring-up and device reset. The model's own: a field out of its range changes nothing and egress
fields are written in RUN (log entry 47); LOCK, START and STOP need bring-up and a session (50); what a lost link fails (51) and how groups are
sent again (131); the key and the transcript of a session (132). -/
def Obligations.HostInterface : Prop :=
  (∀ s (k : PortKey), partRuns s k.part = true → k.port < 64 →
    ((egressAt s k).held = [] → ∃ t, exec (.stoptabWrite k 0) s = .next t ∧ (egressAt t k).stoptab = 0
        ∧ (egressAt t k).active = false)
    ∧ (∀ va, (egressAt s k).held ≠ [] → exec (.stoptabWrite k va) s = .next (setEgress s { egressAt s k with pendTab := some va }))
    ∧ (s.ctl.focus = .subject (.port k) →
      (egressLaunch s k = none → exec .reqvArm s = .next (setEgress s { egressAt s k with reqv := true }))
      ∧ (∀ l p, egressLaunch s k = some l → partOf s k.part = some p → portPassed s l k.port (egressAt s k).reqEpoch = true →
        ∃ t, exec .reqvArm s = .next t ∧ partOf t k.part = some { p with msix := p.msix ++ [k.port] })
      ∧ (∀ l, egressLaunch s k = some l → portPassed s l k.port (egressAt s k).reqEpoch = false →
        exec .reqvArm s = .next (setEgress s { egressAt s k with reqv := true }))))
  ∧ (∀ s part p (v : Word), partOf s part = some p →
      (p.tdi = .unlocked → partOk s p = true → exec (.registerWrite part true .root v) s = .next (setPart s { p with root := v })
        ∧ exec (.registerWrite part true .pdeadline v) s = .next (setPart s { p with pdeadline := v.toNat % 2 ^ 32 })
        ∧ exec (.registerWrite part true .fdeadline v) s = .next (setPart s { p with fdeadline := v.toNat % 2 ^ 32 }))
      ∧ ((p.tdi = .locked ∨ p.tdi = .run) →
        ∃ t q, exec (.registerWrite part true .root v) s = .next t ∧ partOf t part = some q ∧ q.tdi = .error ∧ q.root = p.root
          ∧ ∀ l ∈ t.la.launches, l.key.part = part → l.state.live = false)
      ∧ (exec (.registerWrite part false .root v) s = .next s)
      ∧ ((v.setWidth 32 - p.fqrd).toNat ≤ (p.fqwr - p.fqrd).toNat →
        exec (.registerWrite part false .fqrd v) s = .next (setPart s { p with fqrd := v.setWidth 32 }))
      ∧ (∀ n, p.tdi = .run → n < 64 → v.toNat ≤ 4096 → (egressAt s ⟨part, n⟩).held = [] →
        exec (.registerWrite part false (.hold n) v) s = .next (setEgress s { egressAt s ⟨part, n⟩ with hold := v.toNat }))
      ∧ (∀ n, p.tdi = .run → n < 64 → exec (.registerWrite part false (.reqv n) 0) s = .next (setEgress s { egressAt s ⟨part, n⟩ with reqv := false })))
  ∧ (∀ s part p, partOf s part = some p → s.host.up = true →
      (∃ t q, exec (.spdmRequest part .openSession) s = .next t ∧ partOf t part = some q ∧ q.session = true ∧ q.tdi = p.tdi
        ∧ q.ideKey ≠ none ∧ part ∉ t.host.ideLost
        ∧ t.host.answers = s.host.answers ++ [(part, Config.mldsa (leBytes 64 (sha3 (Config.spdmBytes .openSession)).toNat))])
      ∧ (∃ t, exec (.spdmRequest part .closeSession) s = .next t ∧ (partOf t part).map (·.session) = some false)
      ∧ (∀ i, 1 ≤ i → i ≤ 4 →
        let said := p.transcript ++ Config.spdmBytes (.measure i)
        let m := leBytes 64 (measure p i).toNat
        let body := m ++ Config.mldsa (leBytes 64 (sha3 (said ++ m)).toNat)
        ∃ t, exec (.spdmRequest part (.measure i)) s = .next t ∧ partOf t part = some { p with transcript := said ++ body }
          ∧ t.host.answers = s.host.answers ++ [(part, body)])
      ∧ (s.ctl.focus = .subject (.num part) → p.session = true →
        (p.tdi = .unlocked → ∃ t q, exec .lockInterface s = .next t ∧ partOf t part = some q ∧ q.tdi = .locked ∧ q.root = p.root
            ∧ q.keys.map (·.1) = (List.range p.keyn).map fun i => p.keyb + i)
        ∧ (p.tdi ≠ .unlocked → exec .lockInterface s = .next s)
        ∧ (p.tdi = .locked → exec .startInterface s = .next (setPart s { p with tdi := .run }))
        ∧ (p.tdi ≠ .locked → exec .startInterface s = .next s)
        ∧ (controlFree s part = false → exec .stopInterface s = .next s)
        ∧ (controlFree s part = true → (∀ l ∈ s.la.launches, l.key.part = part → l.state ≠ .draining) →
          ∃ t q, exec .stopInterface s = .next t ∧ partOf t part = some q ∧ q.tdi = .unlocked ∧ q.keys = []
            ∧ (∀ l ∈ t.la.launches, l.key.part = part → l.state.live = false) ∧ ∀ e ∈ t.la.cache, e.part ≠ part)
        ∧ (controlFree s part = true → ∀ l ∈ s.la.launches, l.key.part = part → l.state = .draining → (s.la.launches.map (·.key)).Nodup →
          ∃ t q, exec .stopInterface s = .next t ∧ partOf t part = some q ∧ q.tdi = p.tdi ∧ q.stopping = true
            ∧ launchOf t l.key = some { l with killed := true })))
  ∧ (∀ s part p, partOf s part = some p → s.ctl.focus = .subject (.num part) →
      ∃ t, exec .ideIntegrityFailure s = .next t ∧ (partOf t part).map (·.tdi) = some .error ∧ (partOf t part).bind (·.ideKey) = none
        ∧ part ∈ t.host.ideLost)
  ∧ (∀ s, ∃ t, exec .ucieLoss s = .next t ∧ ∀ q ∈ t.host.parts, q.tdi = .error)
  ∧ (∀ s port x (g : LinkGroup), linkOf s port = some x → x.up = true →
      let due := x.replay.filter fun n => decide (g.acked < n)
      (x.lastRx < g.counter → g.sealOk = true → g.crcOk = true →
        (g.again = none → exec (.linkGroupReceive port g) s = .next (setLink s { x with lastRx := g.counter, failures := 0, replay := due }))
        ∧ ∀ n, g.again = some n →
          let k := (due.filter fun m => decide (n ≤ m)).length
          x.tx + k < 2 ^ 48 → exec (.linkGroupReceive port g) s = .next (setLink s { x with
            lastRx := g.counter, failures := 0, tx := x.tx + k
            replay := (due.filter fun m => decide (m < n)) ++ (List.range k).map fun i => x.tx + 1 + i }))
      ∧ ((g.counter ≤ x.lastRx ∨ g.sealOk = false ∨ g.crcOk = false) →
        (x.tx + 1 < 2 ^ 48 → exec (.linkGroupReceive port g) s
          = .next (setLink s { x with failures := x.failures + 1, tx := x.tx + 1, replay := x.replay ++ [x.tx + 1] }))
        ∧ (2 ^ 48 ≤ x.tx + 1 → exec (.linkGroupReceive port g) s = .next (setLink s { x with failures := x.failures + 1 })))
      ∧ (∀ part, (partOf s part).isSome = true → s.host.up = true → x.replay.length < 2 ^ 48 →
        exec (.spdmRequest part (.linkKey port)) s = .next (setLink s { x with
          keys := x.keys + 1, lastRx := 0, tx := x.replay.length, replay := (List.range x.replay.length).map fun i => 1 + i }))
      ∧ (s.ctl.focus = .subject (.num port) →
        (16 ≤ x.failures → ∃ t, exec .linkDown s = .next t ∧ (t = s ∨ (linkOf t port).map (·.up) = some false)
          ∧ ((∀ c ∈ s.eng.commands, c.eng.elem ≠ 0x1FC) → (∀ n ∈ s.ord.nodes, peerPort n.key.stand ≠ port) →
              (∀ l ∈ s.la.launches, ∀ st ∈ l.stands, st < 512) → unitsFit s = true → (linkOf t port).map (·.up) = some false))
        ∧ (x.failures < 16 → exec .linkDown s = .next s)))
  ∧ ∀ s, exec .thermalLimit s = .next { s with host := { s.host with hot := true } }
      ∧ exec .thermalRecover s = .next { s with host := { s.host with hot := false } }
      ∧ (s.host.up = false → ∀ v, exec (.bringUp v) s = .next { s with host := { s.host with up := v, bootFailed := !v } })
      ∧ (∃ t, exec .deviceReset s = .next t ∧ t.cfg = State.reset.cfg ∧ t.q = State.reset.q ∧ t.regs = [] ∧ t.firings = []
          ∧ t.tiles = State.reset.tiles ∧ t.la = State.reset.la ∧ t.eng = State.reset.eng ∧ t.fr = State.reset.fr
          ∧ t.ctl.clock = 0 ∧ t.host.up = false ∧ ∀ p ∈ t.host.parts, p.tdi = .unlocked)

namespace Sys2Proof.Slice0
open Sys2Proof Sys2Proof.Machine

/-! ### Words about encodings and about every state -/

/-- Operand fields of words written out below: no FT, rounding to nearest, every lane. -/
def sw (ft : Option Fmt) (a b c : Src) (d : Dst) (imm : BitVec 20) : SWord := ⟨ft, .rne, .all, a, b, c, d, imm⟩
def bw (t0 : Target) (w : Width) (imm : BitVec 24) : BWord := ⟨t0, .nowhere, .always, none, .rne, w, imm⟩
/-- The three byte memories are in their canonical form: addresses rising, no byte listed that an unlisted address reads as. -/
def MemOk (s : State) : Prop := s.mem.hbm.wf = true ∧ s.mem.scratch.wf = true ∧ s.mem.host.wf = true

end Sys2Proof.Slice0

/-- R66 to R68, R74, R75: every legal stage instruction has one word, and that word decodes to it; a word that decodes is legal and is
the one its instruction encodes to, so no bit is dropped. -/
def Obligations.StageRoundTrip : Prop :=
  (∀ i, wfStage i = true → ∃ x, encodeStage i = some x ∧ decodeStage x = .ok i)
  ∧ ∀ x i, decodeStage x = .ok i → wfStage i = true ∧ encodeStage i = some x

/-- R58, R60, R69 to R72, R74, R75: the same for the block words of the B, M and E layouts and for configuration commands, where every
word decodes. -/
def Obligations.BlockRoundTrip : Prop :=
  (∀ i, wfBlock i = true → ∃ x, encodeBlock i = some x ∧ decodeBlock x = .ok i)
  ∧ (∀ x i, decodeBlock x = .ok i → wfBlock i = true ∧ encodeBlock i = some x)
  ∧ (∀ i, wfConfig i = true → ∃ x, encodeConfig i = some x ∧ decodeConfig x = i)
  ∧ ∀ x, wfConfig (decodeConfig x) = true ∧ encodeConfig (decodeConfig x) = some x

/-- Words written out bit by bit from R66 to R72 and the entries' encodings decode to the instructions they stand for. -/
def Obligations.DecodeWords : Prop :=
  decodeStage 0x0200008D02100000#64 = .ok (.ffma (sw (some .f32) (.inp 0) (.k 2) (.l 1) (.l 1) 0))
  ∧ decodeStage 0x180E02271C400000#64 = .ok (.mov (sw none (.s 1) .zero .zero .out0 0))
  ∧ decodeStage 0x200800029C080000#64 = .ok (.iadd (sw (some .i32) (.l 0) (.inp 1) .zero (.l 0) 0x80000#20))
  ∧ decodeStage 0x590E02029C700000#64 = .ok (.ddot (sw none (.s 0) (.inp 1) .zero .nowhere 0))
  ∧ decodeStage 0x720E01C71C500802#64 = .ok (.notify (sw none .zero .zero .zero .out1 0x00802#20))
  ∧ decodeStage 0xE008004226400001#64 = .ok (.gnoiseNoise (sw (some .i32) (.l 2) (.inp 0) (.s 3) .out0 1))
  ∧ decodeBlock 0x20001FFCE0000000#64 = .ok (.iaddBlock (bw (.w 0) .w64 0))
  ∧ decodeBlock 0x81003FFCE0000100#64 = .ok (.call (bw (.w 1) .w64 0x100#24))
  ∧ decodeBlock 0x840FFFFCE0000000#64 = .ok (.halt (bw .nowhere .w64 0))
  ∧ decodeBlock 0xA00047FC23000008#64 = .ok (.ld ⟨.a 2, .nowhere, .always, .acq, .stand, 3, false, 0, 8⟩)
  ∧ decodeBlock 0xA60FFFFC18000101#64 = .ok (.fence ⟨.nowhere, .nowhere, .always, .plain, .sys, 0, false, 0, 0x0101#16⟩)
  ∧ decodeBlock 0xDB1037FC50320000#64 = .ok (.rnmax ⟨.p 1, .nowhere, .always, 5, 3, 0x20000#20⟩)
  ∧ decodeConfig 0xFF004003#32 = .sel 1 3
  ∧ decodeConfig 0x20010ABC#32 = .configCommand 0x20 1 0x0ABC

/-- A step runs the instruction it fetches (log entry 1): a firing's stage word, an execution's block word, a command or an event, with
its subject in focus, after the clocks of the pick have passed; where nothing is fetched it only passes them. While a launch loads, its
stream is what is sent (R24, R27), once the image of one that resumes is checked (R335), and a pick of another word is no command. -/
def Obligations.StepRunsDecoded : Prop :=
  ∀ s : State, let p := (ready s).1; let u := (ready s).2
    u.ctl.clock = s.ctl.clock + p.dt
    ∧ (∀ q rest, s.ctl.sched = q :: rest → p.dt = q.dt ∧ u.ctl.sched = rest
        ∧ ((∀ lk w, q.what ≠ .command lk w) → p = q)
        ∧ ∀ lk w, q.what = .command lk w → (launchOf s lk = none → p = q)
          ∧ ∀ l, launchOf s lk = some l → ((l.state = .loading → l.todo.head? = some w ∧ ((imageOf s lk).isSome = true → l.checked = true)) → p = q)
            ∧ (l.state = .loading → (l.todo.head? ≠ some w ∨ ((imageOf s lk).isSome = true ∧ l.checked = false)) → p.what = .idle))
    ∧ (∀ id f i, p.what = .stage id → firingOf u id = some f → f.stage < (vpeCfg u f.vpe).stages →
        decodeStage (slotWord (vpeCfg u f.vpe) f.stage) = .ok i → step s = exec i (focusOn u (.firing id)))
    ∧ (∀ id idx x h i, p.what = .block id idx → execOf u id = some x → headerOf u x.tile x.block = some h → idx < h.icount →
        decodeBlock (imemWord u x.tile (x.block + 4 + idx)) = .ok i → step s = exec i (focusOn u (.exec id idx)))
    ∧ (∀ lk w, p.what = .command lk w → u.cfg.stream.launch = lk ∧ step s = exec (decodeConfig w) (focusOn u .nothing))
    ∧ (∀ i x, p.what = .event i x → step s = exec i (focusOn u (.subject x)))
    ∧ (p.what = .idle → step s = .next u) ∧ ∀ id, p.what = .stage id → firingOf u id = none → step s = .next u

/-- Every step keeps HBM, scratch and the host's memory in their canonical form, so that equal memories are equal data. -/
def Obligations.MemoryStaysCanonical : Prop :=
  ∀ s t, MemOk s → step s = .next t → MemOk t

/-- R66, R86, R87, R96, R153, R202, R218, R344, R348 and the state cards: what the machine holds after device reset. L, M, D and system registers of a context
stand at the values of a context load (log entry 14), control fields at 0 (15), configuration and slot words as log entries 4 and 5 say. -/
def Obligations.ResetState : Prop :=
  MemOk State.reset ∧ State.reset.ctl.clock = 0
  ∧ (∀ p ∈ State.reset.host.parts, p.tdi = .unlocked) ∧ (∀ n, partRuns State.reset n = false)
  ∧ (∀ k i, decodeStage (slotWord (vpeCfg State.reset k) i) = .ok (.nop (sw none .zero .zero .zero .nowhere 0)))
  ∧ (∀ k (n : Fin 4), (laneRegs State.reset k).l.get n.val = 0 ∧ (laneRegs State.reset k).m.get n.val = 0xFFFF#16)
  ∧ (∀ k h, (handleOf State.reset k h).size = 0 ∧ (handleOf State.reset k h).fill = 0)
  ∧ (∀ st c, fpmOf State.reset st c = 0 ∧ fpfOf State.reset st c = 0 ∧ xwcOf State.reset st c = 0)
  ∧ (∀ st i, perfOf State.reset st i = 0)
  ∧ ∀ k, (ingressAt State.reset k).epoch = 0 ∧ (ingressAt State.reset k).ended = false ∧ (ingressAt State.reset k).err = 0
end

