-- ==== Sys2Proof/Laws/Lists.lean ====
section
/-! SUPPORT. Association lists, keyed updates and the four lane registers read back what was written. -/

namespace Sys2Proof.Machine

/-! ### Association lists -/

section
variable {κ υ : Type} [DecidableEq κ]

theorem aget_cons (x : κ × υ) (xs : List (κ × υ)) (k : κ) : aget (x :: xs) k = if x.1 = k then some x.2 else aget xs k := by
  by_cases h : x.1 = k <;> simp [aget, h]

theorem aget_map (xs : List (κ × υ)) (k j : κ) (v : υ) :
    aget (xs.map fun x => if x.1 = k then (k, v) else x) j
      = if j = k then (if xs.any fun x => decide (x.1 = k) then some v else none) else aget xs j := by
  induction xs with
  | nil => simp [aget]
  | cons x xs ih =>
    rw [List.map_cons, aget_cons, ih, aget_cons]
    by_cases hx : x.1 = k
    · by_cases hj : j = k
      · subst hj; simp [hx]
      · have : k ≠ j := fun h => hj h.symm
        simp [hx, hj, this]
    · by_cases hj : j = k
      · subst hj; simp only [hx, if_false, if_true, List.any_cons, decide_false, Bool.false_or]
      · simp [hx, hj]

theorem aget_append (xs ys : List (κ × υ)) (j : κ) : aget (xs ++ ys) j = (aget xs j).or (aget ys j) := by
  induction xs with
  | nil => simp [aget]
  | cons x xs ih =>
    rw [List.cons_append, aget_cons, ih, aget_cons]
    by_cases hx : x.1 = j <;> simp [hx]

theorem aget_none_of_not_any (xs : List (κ × υ)) (k : κ) (h : (xs.any fun x => decide (x.1 = k)) = false) : aget xs k = none := by
  induction xs with
  | nil => rfl
  | cons x xs ih =>
    rw [List.any_cons, Bool.or_eq_false_iff] at h
    rw [aget_cons, if_neg (by simpa using h.1), ih h.2]

/-- A key set reads back its value; every other key reads as before. -/
@[simp] theorem aget_aset (xs : List (κ × υ)) (k j : κ) (v : υ) : aget (aset xs k v) j = if j = k then some v else aget xs j := by
  unfold aset
  by_cases h : xs.any fun x => decide (x.1 = k)
  · rw [if_pos h, aget_map]; simp [h]
  · rw [if_neg h, aget_append]
    have hn := aget_none_of_not_any xs k (Bool.not_eq_true _ ▸ h)
    rw [aget_cons]
    by_cases hj : j = k
    · subst hj; rw [hn, if_pos rfl, if_pos rfl]; rfl
    · have hk : k ≠ j := fun h => hj h.symm
      rw [if_neg hk, if_neg hj]; simp [aget]

@[simp] theorem agetD_aset (xs : List (κ × υ)) (k j : κ) (v d : υ) : agetD (aset xs k v) j d = if j = k then v else agetD xs j d := by
  unfold agetD
  rw [aget_aset]
  by_cases h : j = k <;> simp [h]

theorem aget_adel (xs : List (κ × υ)) (k j : κ) : aget (adel xs k) j = if j = k then none else aget xs j := by
  induction xs with
  | nil => simp [adel, aget]
  | cons x xs ih =>
    have hc : adel (x :: xs) k = if x.1 = k then adel xs k else x :: adel xs k := by
      by_cases hx : x.1 = k <;> simp [adel, hx]
    rw [hc, aget_cons]
    by_cases hx : x.1 = k
    · rw [if_pos hx, ih, hx]
      by_cases hj : j = k
      · simp [hj]
      · have hk : k ≠ j := fun h => hj h.symm
        rw [if_neg hj, if_neg hj, if_neg hk]
    · rw [if_neg hx, aget_cons, ih]
      by_cases hj : j = k
      · subst hj; simp [hx]
      · simp [hj]
end

/-! ### Elements found by a number and replaced -/

/-- Replacing what a key finds leaves that element found. -/
theorem find_updIf_same {α : Type} {xs : List α} {p : α → Bool} {x y : α} (h : xs.find? p = some x) (hy : p y = true) :
    (updIf xs p fun _ => y).find? p = some y := by
  unfold updIf
  induction xs with
  | nil => simp at h
  | cons z zs ih =>
    by_cases hz : p z
    · simp [hz, hy]
    · rw [List.find?_cons_of_neg hz] at h
      simp [hz, ih h]

/-- Replacing what one key finds leaves what a disjoint key finds. -/
theorem find_updIf_other {α : Type} (xs : List α) (p q : α → Bool) (f : α → α)
    (h1 : ∀ x, p x = true → q x = false) (h2 : ∀ x, p x = true → q (f x) = false) :
    (updIf xs p f).find? q = xs.find? q := by
  unfold updIf
  induction xs with
  | nil => rfl
  | cons z zs ih =>
    by_cases hz : p z
    · simp only [List.map_cons, hz, if_true, List.find?_cons, h1 z hz, h2 z hz]
      exact ih
    · simp only [List.map_cons, hz, Bool.false_eq_true, if_false, List.find?_cons, ih]

/-- An update that keeps what the key looks at changes only the element found. -/
theorem find_updIf_keep {α : Type} (xs : List α) (p : α → Bool) (f : α → α) (h : ∀ x, p (f x) = p x) :
    (updIf xs p f).find? p = (xs.find? p).map f := by
  unfold updIf
  induction xs with
  | nil => rfl
  | cons z zs ih =>
    by_cases hz : p z
    · simp [hz, h]
    · simp [hz, ih]

theorem mem_of_find {α : Type} {xs : List α} {p : α → Bool} {x : α} (h : xs.find? p = some x) : p x = true :=
  List.find?_some h

/-! ### Four registers -/

@[simp] theorem Four.get_set {α : Type} (q : Four α) (n m : Nat) (x : α) (hn : n < 4) (hm : m < 4) :
    (q.set n x).get m = if m = n then x else q.get m := by
  match n, m, hn, hm with
  | 0, 0, _, _ | 0, 1, _, _ | 0, 2, _, _ | 0, 3, _, _ | 1, 0, _, _ | 1, 1, _, _ | 1, 2, _, _ | 1, 3, _, _
  | 2, 0, _, _ | 2, 1, _, _ | 2, 2, _, _ | 2, 3, _, _ | 3, 0, _, _ | 3, 1, _, _ | 3, 2, _, _ | 3, 3, _, _ =>
    simp [Four.set, Four.get]

@[simp] theorem getAt_setAt {α : Type} (xs : List α) (n m : Nat) (x d : α) (hn : n < xs.length) :
    getAt (setAt xs n x) m d = if m = n then x else getAt xs m d := by
  unfold getAt setAt
  by_cases h : m = n
  · subst h; simp [hn]
  · rw [List.getElem?_set_ne (fun e => h e.symm)]; simp [h]

end Sys2Proof.Machine
end

