-- ==== Sys2Proof/Laws/Words.lean ====
section
/-! SUPPORT. Lanes and masks read back what they were built from. -/

namespace Sys2Proof

/-- Bit j of the payload built from f is bit j mod 32 of its lane (R10). -/
theorem lanesFrom_bit (f : Nat → Lane) (j : Nat) :
    (lanesFrom f).getLsbD j = (decide (j < 512) && (f (j / 32)).getLsbD (j % 32)) := by
  have step : ∀ (n : Nat) (acc : Lanes), (∀ j, acc.getLsbD j = (decide (j < 32 * n) && decide (j < 512) && (f (j / 32)).getLsbD (j % 32))) →
      ∀ j, (acc ||| ((f n).setWidth 512 <<< (32 * n))).getLsbD j
        = (decide (j < 32 * (n + 1)) && decide (j < 512) && (f (j / 32)).getLsbD (j % 32)) := by
    intro n acc h j
    simp only [BitVec.getLsbD_or, h, BitVec.getLsbD_shiftLeft, BitVec.getLsbD_setWidth]
    by_cases h1 : j < 32 * n
    · have : j < 32 * (n + 1) := by omega
      simp [h1, this]
    · by_cases h2 : j < 32 * (n + 1)
      · have hd : j / 32 = n := by omega
        have hm : j - 32 * n = j % 32 := by omega
        have h3 : j % 32 < 512 := by omega
        simp [h1, h2, hd, hm, h3]
      · have hn : 32 ≤ j - 32 * n := by omega
        simp [h1, h2, BitVec.getLsbD_of_ge _ _ hn]
  have all : ∀ n, n ≤ 16 → ∀ j, ((List.range n).foldl (fun acc i => acc ||| ((f i).setWidth 512 <<< (32 * i))) (0 : Lanes)).getLsbD j
      = (decide (j < 32 * n) && decide (j < 512) && (f (j / 32)).getLsbD (j % 32)) := by
    intro n
    induction n with
    | zero => intro _ j; simp
    | succ n ih =>
      intro hn j
      rw [List.range_succ, List.foldl_append]
      exact step n _ (ih (by omega)) j
  have := all 16 (Nat.le_refl _) j
  unfold lanesFrom
  rw [this]
  by_cases h : j < 512 <;> simp [h]

/-- Lane i of a payload built from f (R10). -/
@[simp] theorem laneOf_lanesFrom (f : Nat → Lane) (i : Nat) : laneOf (lanesFrom f) i = if i < 16 then f i else 0 := by
  ext j hj
  simp only [laneOf, BitVec.getElem_extractLsb', lanesFrom_bit]
  by_cases h : i < 16
  · have h1 : 32 * i + j < 512 := by omega
    have h2 : (32 * i + j) / 32 = i := by omega
    have h3 : (32 * i + j) % 32 = j := by omega
    simp [h, h1, h2, h3, hj, BitVec.getLsbD_eq_getElem]
  · have h1 : ¬ 32 * i + j < 512 := by omega
    simp [h, h1]

/-- A payload is what its lanes say. -/
theorem lanes_ext {x y : Lanes} (h : ∀ i < 16, laneOf x i = laneOf y i) : x = y := by
  ext j hj
  have hi := h (j / 32) (by omega)
  have hk : 32 * (j / 32) + j % 32 = j := by omega
  have := congrArg (fun v => v.getLsbD (j % 32)) hi
  have hm : j % 32 < 32 := Nat.mod_lt _ (by decide)
  simpa [laneOf, BitVec.getLsbD_extractLsb', hm, hk, BitVec.getLsbD_eq_getElem hj] using this

/-- Bit i of the mask built from f. -/
@[simp] theorem bitAt_maskFrom (f : Nat → Bool) (i : Nat) : (maskFrom f).getLsbD i = (decide (i < 16) && f i) := by
  have all : ∀ n, n ≤ 16 → ((List.range n).foldl (fun acc i => if f i then acc ||| (1#16 <<< i) else acc) (0 : Half)).getLsbD i
      = (decide (i < n) && decide (i < 16) && f i) := by
    intro n
    induction n with
    | zero => intro _; simp
    | succ n ih =>
      intro hn
      have one : (1#16 <<< n).getLsbD i = decide (i = n) := by
        rw [BitVec.getLsbD_shiftLeft, BitVec.getLsbD_one]
        by_cases h1 : i < n
        · have : i ≠ n := by omega
          simp [h1, this]
        · by_cases h2 : i = n
          · subst h2; simp; omega
          · have : i - n ≠ 0 := by omega
            simp [h2, this]
      rw [List.range_succ, List.foldl_append]
      simp only [List.foldl_cons, List.foldl_nil]
      by_cases hf : f n
      · rw [if_pos hf, BitVec.getLsbD_or, ih (by omega), one]
        by_cases h2 : i = n
        · subst h2; simp [hf]; omega
        · by_cases h1 : i < n
          · have : i < n + 1 := by omega
            simp [h1, h2, this]
          · have : ¬ i < n + 1 := by omega
            simp [h1, h2, this]
      · rw [if_neg hf, ih (by omega)]
        by_cases h2 : i = n
        · subst h2; simp [hf]
        · by_cases h1 : i < n
          · have : i < n + 1 := by omega
            simp [h1, this]
          · have : ¬ i < n + 1 := by omega
            simp [h1, this]
  have := all 16 (Nat.le_refl _)
  unfold maskFrom
  rw [this]
  by_cases h : i < 16 <;> simp [h]

@[simp] theorem maskFrom_getElem (f : Nat → Bool) (i : Nat) (h : i < 16) : (maskFrom f)[i] = f i := by
  rw [← BitVec.getLsbD_eq_getElem h, bitAt_maskFrom]; simp [h]

theorem bitAt_or {n : Nat} (x y : BitVec n) (i : Nat) : bitAt (x ||| y) i = (bitAt x i || bitAt y i) := BitVec.getLsbD_or

end Sys2Proof
end

