-- ==== Sys2Proof/Laws/Stages.lean ====
section
/-! SUPPORT. What a committed stage leaves: one lemma per shared operation of a stage. -/

namespace Sys2Proof.Machine
open Sys2Proof.Slice0

/-! ### Flags -/

theorem flagsIn_raise (s : State) (st c ep : Nat) (fl : FlagSet) :
    flagsIn (raiseFlags s st c ep fl) st c ep = flagsIn s st c ep ||| fl := by
  have keep := fun xs => find_updIf_keep xs (shadowMine st c ep) (fun h : Shadow => { h with fl := h.fl ||| fl }) (fun _ => rfl)
  unfold raiseFlags
  by_cases h : fl = 0
  · simp [h, flagsIn]
  · rw [if_neg h]
    unfold flagsIn openShadow setShadows
    by_cases ha : s.fr.shadows.any (shadowMine st c ep)
    · simp only [ha, if_true]
      rw [keep]
      obtain ⟨x, hx⟩ := List.any_eq_true.mp ha
      cases hf : s.fr.shadows.find? (shadowMine st c ep) with
      | none => exact absurd hx.2 (by simpa using List.find?_eq_none.mp hf x hx.1)
      | some y => simp
    · simp only [ha, Bool.false_eq_true, if_false]
      rw [keep, List.find?_append]
      have hn : s.fr.shadows.find? (shadowMine st c ep) = none := by
        rw [List.find?_eq_none]; intro x hx hp; exact ha (List.any_eq_true.mpr ⟨x, hx, hp⟩)
      simp [hn, shadowMine]

theorem flagsIn_raise_other (s : State) (st c ep st' c' ep' : Nat) (fl : FlagSet)
    (h : ¬ (st' = st ∧ c' = c ∧ ep' = ep)) : flagsIn (raiseFlags s st c ep fl) st' c' ep' = flagsIn s st' c' ep' := by
  have key : ∀ x : Shadow, shadowMine st c ep x = true → shadowMine st' c' ep' x = false := by
    intro x hx
    simp only [shadowMine, Bool.and_eq_true, beq_iff_eq] at hx
    obtain ⟨⟨rfl, rfl⟩, rfl⟩ := hx
    by_contra hc
    simp only [shadowMine, Bool.not_eq_false, Bool.and_eq_true, beq_iff_eq] at hc
    exact h ⟨hc.1.1.symm, hc.1.2.symm, hc.2.symm⟩
  have other := fun xs => find_updIf_other xs (shadowMine st c ep) (shadowMine st' c' ep')
    (fun h : Shadow => { h with fl := h.fl ||| fl }) key (fun x hx => key _ hx)
  unfold raiseFlags
  by_cases hf : fl = 0
  · simp [hf]
  · rw [if_neg hf]
    unfold flagsIn openShadow setShadows
    by_cases ha : s.fr.shadows.any (shadowMine st c ep)
    · simp only [ha, if_true]
      rw [other]
    · simp only [ha, Bool.false_eq_true, if_false]
      rw [other, List.find?_append]
      have hx : shadowMine st' c' ep' ⟨st, c, ep, 0, [], []⟩ = false := key _ (by simp [shadowMine])
      rw [show [(⟨st, c, ep, 0, [], []⟩ : Shadow)].find? (shadowMine st' c' ep') = none by rw [List.find?_cons_of_neg (by rw [hx]; exact Bool.false_ne_true)]; rfl]
      simp

/-- Raising flags touches the shadows alone. -/
theorem raiseFlags_rest (s : State) (st c ep : Nat) (fl : FlagSet) :
    ∃ hs, raiseFlags s st c ep fl = { s with fr := { s.fr with shadows := hs } } := by
  unfold raiseFlags
  by_cases h : fl = 0
  · exact ⟨s.fr.shadows, by simp [h]⟩
  · rw [if_neg h]
    unfold openShadow setShadows
    by_cases ha : s.fr.shadows.any (shadowMine st c ep)
    · simp only [ha, if_true]; exact ⟨_, rfl⟩
    · simp only [ha, Bool.false_eq_true, if_false]; exact ⟨_, rfl⟩

theorem raiseFlags_zero (s : State) (st c ep : Nat) : raiseFlags s st c ep 0 = s := by simp [raiseFlags]

theorem flagsWait_false {s : State} {st c ep : Nat} {fl : FlagSet} (h : fl = 0 ∨ shadowRoom s st c ep = true) :
    flagsWait s st c ep fl = false := by
  rcases h with h | h <;> simp [flagsWait, h]

/-- A bit of a union of flag sets. -/
theorem bitAt_foldl_or {α : Type} (xs : List α) (f : α → FlagSet) (acc : FlagSet) (b : Nat) :
    bitAt (xs.foldl (fun fl x => fl ||| f x) acc) b = (bitAt acc b || xs.any fun x => bitAt (f x) b) := by
  induction xs generalizing acc with
  | nil => simp
  | cons x xs ih => rw [List.foldl_cons, ih, bitAt_or]; simp [Bool.or_assoc]

theorem bitAt_foldl_act {α : Type} (xs : List α) (a : α → Bool) (f : α → FlagSet) (acc : FlagSet) (b : Nat) :
    bitAt (xs.foldl (fun fl x => if a x then fl ||| f x else fl) acc) b = (bitAt acc b || xs.any fun x => a x && bitAt (f x) b) := by
  induction xs generalizing acc with
  | nil => simp
  | cons x xs ih =>
    rw [List.foldl_cons, ih]
    by_cases h : a x
    · rw [if_pos h, bitAt_or]; simp [h, Bool.or_assoc]
    · rw [if_neg h]; simp [h]

theorem foldl_act_zero {α : Type} (xs : List α) (a : α → Bool) (f : α → FlagSet) (h : ∀ x ∈ xs, a x = true → f x = 0) :
    xs.foldl (fun fl x => if a x then fl ||| f x else fl) (0 : FlagSet) = 0 := by
  induction xs with
  | nil => rfl
  | cons x xs ih =>
    rw [List.foldl_cons]
    have : (if a x = true then (0 : FlagSet) ||| f x else 0) = 0 := by
      by_cases hx : a x
      · rw [if_pos hx, h x (by simp) hx]; rfl
      · rw [if_neg hx]
    rw [this]
    exact ih fun y hy => h y (by simp [hy])

/-! ### The firing in focus -/

theorem stageEnv_some {s : State} {i : Instr} {w : SWord} {e : SEnv} (h : stageEnv s i w = some e) :
    firingOf s e.f.id = some e.f ∧ e.k = e.f.stage ∧ e.regs = laneRegs s e.f.vpe ∧ e.cfg = vpeCfg s e.f.vpe ∧ e.w = w := by
  unfold stageEnv at h
  split at h
  · split at h
    · rename_i n _ _ f hf
      simp only at h
      split at h
      · cases h
        have hid : f.id = n := by simpa using mem_of_find hf
        exact ⟨by rw [hid]; exact hf, rfl, rfl, rfl, rfl⟩
      · cases h
    · cases h
  · cases h

theorem firingOf_setFiring {s : State} {f g : Firing} (h : firingOf s f.id = some f) (hid : g.id = f.id) :
    firingOf (setFiring s g) f.id = some g := by
  unfold firingOf setFiring at *
  rw [hid]
  exact find_updIf_same h (by simp [hid])

theorem firingOf_setFiring_other (s : State) (g : Firing) (id : Nat) {n : Nat} (hg : g.id = n) (h : id ≠ n) :
    firingOf (setFiring s g) id = firingOf s id := by
  subst hg
  unfold firingOf setFiring
  refine find_updIf_other _ _ _ _ ?_ ?_
  · intro x hx
    rw [beq_iff_eq] at hx
    exact beq_false_of_ne (hx ▸ Ne.symm h)
  · intro x _
    exact beq_false_of_ne (Ne.symm h)

theorem laneRegs_set (s : State) (k : EKey) (r : LaneRegs) (j : EKey) :
    laneRegs (setLaneRegs s k r) j = if j = k then r else laneRegs s j := by
  unfold laneRegs setLaneRegs
  exact agetD_aset _ _ _ _ _

/-! ### stageCommit -/

/-- No condition of R205 or R206 stops the outcome. -/
def Commits (e : SEnv) (o : SOut) : Prop :=
  o.poison = none ∧ (o.ports = true → match o.dir with
    | some d => ∀ p ∈ portsOf e.w.d, outFmt e.cfg p = .dir ∧ outBurst e.cfg p = d.dim / 32
    | none => ∀ p ∈ portsOf e.w.d, outBurst e.cfg p = 1)

/-- A committed outcome: flags, then registers, then the firing. -/
theorem stageCommit_eq {s : State} {e : SEnv} {o : SOut} (h : Commits e o) :
    stageCommit s e o =
      setFiring (setLaneRegs (raiseFlags s e.f.vpe.stand e.f.vpe.ctx e.epoch o.fl) e.f.vpe
          (regsAfter (laneRegs (raiseFlags s e.f.vpe.stand e.f.vpe.ctx e.epoch o.fl) e.f.vpe) e o))
        { e.f with stage := e.f.stage + 1, results := e.f.results ++ [⟨o.lanes, o.v, o.dir⟩], out := e.f.out ++ sentOf e o,
                   notes := e.f.notes ++ (o.note.map fun loc => ⟨loc, getAt e.cfg.outloc ((portsOf e.w.d).headD 0) 0⟩).toList,
                   issued := false, nodes := [] } := by
  obtain ⟨hp, hports⟩ := h
  have hstop : o.stop e = none := by
    unfold SOut.stop
    rw [hp]
    by_cases hpo : o.ports = true
    · have := hports hpo
      cases hd : o.dir with
      | none =>
        rw [hd] at this
        simp only [hpo, Bool.not_true, Bool.false_eq_true, if_false, List.findSome?_eq_none_iff]
        intro p hp'; simp [this p hp']
      | some d =>
        rw [hd] at this
        simp only [hpo, Bool.not_true, Bool.false_eq_true, if_false, List.findSome?_eq_none_iff]
        intro p hp'; simp [(this p hp').1, (this p hp').2]
    · simp [hpo]
  unfold stageCommit
  simp only [hstop]
  rfl

/-- The frame of a committed outcome. -/
theorem stageCommit_frame {s : State} {e : SEnv} {o : SOut} (h : Commits e o) : StageFrame s (stageCommit s e o) e := by
  rw [stageCommit_eq h]
  obtain ⟨hs, hr⟩ := raiseFlags_rest s e.f.vpe.stand e.f.vpe.ctx e.epoch o.fl
  constructor
  · intro id hid
    refine Eq.trans (firingOf_setFiring_other _ _ id (n := e.f.id) rfl hid) ?_
    show firingOf (setLaneRegs (raiseFlags s _ _ _ _) _ _) id = _
    rw [hr]; rfl
  · intro k hk
    show laneRegs (setLaneRegs _ _ _) k = _
    rw [laneRegs_set, if_neg hk, hr]; rfl
  · intro st c ep hne
    exact flagsIn_raise_other s _ _ _ st c ep o.fl hne
  · simp only [setFiring, setLaneRegs, hr]
  · simp only [setFiring, setLaneRegs, hr]

theorem stageCommit_moved {s : State} {e : SEnv} {o : SOut} (h : Commits e o) (hf : firingOf s e.f.id = some e.f) :
    MovedOn (stageCommit s e o) e ⟨o.lanes, o.v, o.dir⟩ (sentOf e o)
      (o.note.map fun loc => ⟨loc, getAt e.cfg.outloc ((portsOf e.w.d).headD 0) 0⟩).toList := by
  rw [stageCommit_eq h]
  unfold MovedOn
  obtain ⟨hs, hr⟩ := raiseFlags_rest s e.f.vpe.stand e.f.vpe.ctx e.epoch o.fl
  exact firingOf_setFiring (f := e.f) (by rw [hr]; exact hf) rfl

theorem stageCommit_regs {s : State} {e : SEnv} {o : SOut} (h : Commits e o) :
    laneRegs (stageCommit s e o) e.f.vpe = regsAfter (laneRegs s e.f.vpe) e o := by
  rw [stageCommit_eq h]
  show laneRegs (setLaneRegs _ _ _) _ = _
  rw [laneRegs_set, if_pos rfl]
  obtain ⟨hs, hr⟩ := raiseFlags_rest s e.f.vpe.stand e.f.vpe.ctx e.epoch o.fl
  rw [hr]; rfl

theorem stageCommit_flags {s : State} {e : SEnv} {o : SOut} (h : Commits e o) :
    flagsIn (stageCommit s e o) e.f.vpe.stand e.f.vpe.ctx e.epoch = flagsIn s e.f.vpe.stand e.f.vpe.ctx e.epoch ||| o.fl := by
  rw [stageCommit_eq h]
  exact flagsIn_raise s _ _ _ o.fl

/-- A stage without memory runs when its environment stands and its flags find a shadow. -/
theorem runStage_some {i : Instr} {w : SWord} {s : State} {e : SEnv} {body : SEnv → SOut} (h : stageEnv s i w = some e)
    (hfl : FlagRoom s e (body e).fl) : runStage i w s body = .next (stageCommit s e (body e)) := by
  unfold runStage
  rw [h]
  have := flagsWait_false hfl
  simp only [SEnv.epoch] at this
  simp [this]

/-- DS of a lane outcome. -/
theorem regsAfter_dest {s t : State} {e : SEnv} {o : SOut} (val : Nat → Lane) (hset : o.lset = [])
    (hval : ∀ i, i < 16 → e.act i = true → laneOf o.lanes i = val i)
    (hr : laneRegs t e.f.vpe = regsAfter (laneRegs s e.f.vpe) e o) : DestTakes s t e val := by
  have hact : ∀ i, i < 16 → bitAt (actMask e) i = e.act i := by
    intro i hi; simp [actMask, hi]
  unfold DestTakes
  rw [hr]
  unfold regsAfter
  rw [hset]
  constructor
  · intro n i hi
    cases hd : e.w.d with
    | l m =>
      simp only [List.foldl_nil]
      rw [Four.get_set _ _ _ _ m.isLt n.isLt]
      by_cases hnm : n = m
      · subst hnm
        simp only [if_true, mergeLanes, laneOf_lanesFrom, hi, hact i hi]
        by_cases ha : e.act i
        · simp [ha, hval i hi ha]
        · simp [ha]
      · have h1 : n.val ≠ m.val := fun h => hnm (Fin.ext h)
        have h2 : ¬ (Dst.l m = Dst.l n ∧ e.act i = true) := fun h => hnm (Dst.l.inj h.1).symm
        rw [if_neg h1, if_neg h2]
    | _ => simp
  · intro n i hi
    cases hd : e.w.d with
    | m k =>
      simp only [List.foldl_nil]
      rw [Four.get_set _ _ _ _ k.isLt n.isLt]
      by_cases hnm : n = k
      · subst hnm
        simp only [if_true, bitAt_maskFrom, hi, hact i hi]
        by_cases ha : e.act i
        · by_cases hv : val i = 0
          · simp [ha, hval i hi ha, hv]
          · have hb : (val i != 0) = true := bne_iff_ne.mpr hv
            rw [if_pos (by simp [ha]), if_pos (by simp [ha]), hval i hi ha, hb, decide_eq_true hv]
            simp
        · simp [ha]
      · have h1 : n.val ≠ k.val := fun h => hnm (Fin.ext h)
        have h2 : ¬ (Dst.m k = Dst.m n ∧ e.act i = true) := fun h => hnm (Dst.m.inj h.1).symm
        rw [if_neg h1, if_neg h2]
    | _ => simp

/-- The tokens of a lane outcome, as R205 gives them. -/
theorem laneTokens_eq (e : SEnv) (fwd : Bool) (tag : Tag) (r : StageRes) :
    ((portsOf e.w.d).flatMap fun p => laneTokens e fwd tag p r.lanes r.v) = laneSends e fwd tag r := by
  unfold laneSends
  congr 1
  funext p
  unfold laneTokens portSends headFor
  cases fwd <;> cases hh : e.firstHead <;> simp

/-- The same of an operation that shapes the stream (R195, R232). -/
theorem validTokens_eq (e : SEnv) (fwd : Bool) (tag : Tag) (r : StageRes) :
    ((portsOf e.w.d).flatMap fun p => validTokens e fwd tag p r.lanes r.v) = shownSends e fwd tag r := by
  unfold shownSends
  by_cases hv : r.v = 0
  · simp [validTokens, hv]
  · rw [if_neg hv, ← laneTokens_eq]
    simp only [validTokens, if_neg hv]

/-- A lane outcome committed, whatever it sends: the whole of R204 and R207. -/
theorem lane_left {i : Instr} {w : SWord} {s : State} {e : SEnv} {body : SEnv → SOut} {val : Nat → Val} {ok : Nat → Bool}
    {sends : StageRes → List (Nat × Token)} (h : stageEnv s i w = some e) (free : LaneFree s e val)
    (hp : (body e).poison = none) (hd : (body e).dir = none) (hset : (body e).lset = [])
    (hn : (body e).note = none) (hs : sentOf e (body e) = sends ⟨(body e).lanes, (body e).v, none⟩)
    (hl : ∀ l, l < 16 → laneOf (body e).lanes l = if e.act l then (val l).bits else 0)
    (hv : ∀ l, l < 16 → bitAt (body e).v l = ok l)
    (hfl : (body e).fl = (List.range 16).foldl (fun fl l => if e.act l then fl ||| (val l).fl else fl) 0) :
    ∃ t, runStage i w s body = .next t ∧ LaneLeft s t e val ok sends := by
  have hc : Commits e (body e) := ⟨hp, fun _ => by rw [hd]; exact free.ports⟩
  have hfr : FlagRoom s e (body e).fl := by
    rcases free.shadow with h0 | h0
    · left
      rw [hfl]
      exact foldl_act_zero _ _ _ fun x hx ha => h0 x (List.mem_range.mp hx) ha
    · right; exact h0
  refine ⟨_, runStage_some h hfr, ?_⟩
  have henv := stageEnv_some h
  constructor
  · refine ⟨⟨(body e).lanes, (body e).v, none⟩, rfl, hl, hv, ?_⟩
    have := stageCommit_moved hc henv.1
    rw [hn, hd, hs] at this
    exact this
  · exact regsAfter_dest _ hset (fun l hl' ha => by rw [hl l hl', if_pos ha]) (stageCommit_regs hc)
  · intro b
    rw [stageCommit_flags hc, bitAt_or, hfl, bitAt_foldl_act]
    simp
  · exact stageCommit_frame hc

/-- What a lane outcome on the ports sends (R205). -/
theorem sentOf_lanes {e : SEnv} {o : SOut} (hpo : o.ports = true) (hd : o.dir = none) (hsh : o.shrink = false) :
    sentOf e o = laneSends e o.fwd (o.tag.getD e.f.tag) ⟨o.lanes, o.v, none⟩ := by
  unfold sentOf
  simp only [hpo, hd, hsh, Bool.not_true, Bool.false_eq_true, if_false]
  exact laneTokens_eq e o.fwd (o.tag.getD e.f.tag) ⟨o.lanes, o.v, none⟩

/-- The same of an operation that shapes the stream (R195, R232). -/
theorem sentOf_shown {e : SEnv} {o : SOut} (hpo : o.ports = true) (hd : o.dir = none) (hsh : o.shrink = true) :
    sentOf e o = shownSends e o.fwd (o.tag.getD e.f.tag) ⟨o.lanes, o.v, none⟩ := by
  unfold sentOf
  simp only [hpo, hd, hsh, Bool.not_true, Bool.false_eq_true, if_false, if_true]
  exact validTokens_eq e o.fwd (o.tag.getD e.f.tag) ⟨o.lanes, o.v, none⟩

/-- A lane outcome committed that sends a token on every port: the whole of R204, R205 and R207. -/
theorem lane_committed {i : Instr} {w : SWord} {s : State} {e : SEnv} {body : SEnv → SOut} {val : Nat → Val} {ok : Nat → Bool}
    {fwd : Bool} {tag : Tag} (h : stageEnv s i w = some e) (free : LaneFree s e val)
    (hp : (body e).poison = none) (hpo : (body e).ports = true) (hsh : (body e).shrink = false) (hd : (body e).dir = none)
    (hset : (body e).lset = []) (hn : (body e).note = none) (hfw : (body e).fwd = fwd) (htag : (body e).tag.getD e.f.tag = tag)
    (hl : ∀ l, l < 16 → laneOf (body e).lanes l = if e.act l then (val l).bits else 0)
    (hv : ∀ l, l < 16 → bitAt (body e).v l = ok l)
    (hfl : (body e).fl = (List.range 16).foldl (fun fl l => if e.act l then fl ||| (val l).fl else fl) 0) :
    ∃ t, runStage i w s body = .next t ∧ LaneDone s t e val ok fwd tag :=
  lane_left h free hp hd hset hn (by rw [sentOf_lanes hpo hd hsh, hfw, htag]) hl hv hfl

/-- A lane result of values and flags (R205, R207). -/
theorem lanewise_committed {i : Instr} {w : SWord} {s : State} {e : SEnv} {body : SEnv → SOut} {val : Nat → Val}
    (h : stageEnv s i w = some e) (free : LaneFree s e val) (hb : body e = e.lanewise val) :
    ∃ t, runStage i w s body = .next t ∧ LaneDone s t e val e.v false e.f.tag := by
  refine lane_committed h free (by rw [hb]; rfl) (by rw [hb]; rfl) (by rw [hb]; rfl) (by rw [hb]; rfl) (by rw [hb]; rfl)
    (by rw [hb]; rfl) (by rw [hb]; rfl) (by rw [hb]; rfl) ?_ ?_ (by rw [hb]; rfl)
  · intro l hl; rw [hb]; simp [SEnv.lanewise, hl]
  · intro l hl; rw [hb]; simp [SEnv.lanewise, SEnv.vMask, hl]

end Sys2Proof.Machine
end

