-- ==== Sys2Proof/Laws/Blocks.lean ====
section
/-! SUPPORT. What firing a block instruction does, said once: a value delivered to a free target, both targets, and a whole firing. -/

namespace Sys2Proof.Machine
open Sys2Proof Sys2Proof.Slice0

theorem targetSlot_w (k : Fin 8) : targetSlot (.w k) = none := rfl

/-- A free target takes its value and nothing else of the execution changes (R69, R242). -/
theorem deliver1_free {x : Exec} {t : Target} (n : Nat) (v : Lanes) (ft : Option (Fmt × Nat)) (h : targetFree x t) :
    ∃ y, deliver1 x t n v ft = (y, true) ∧ y = { x with vals := y.vals, writes := y.writes }
      ∧ (∀ sl, slotVal y sl = if targetSlot t = some sl then some ⟨sl.1, sl.2, v, ft⟩ else slotVal x sl)
      ∧ ∀ k : Fin 8, y.writes.find? (fun w => w.1 == k.val) = if t = .w k then some (k.val, n, v)
          else x.writes.find? fun w => w.1 == k.val := by
  have slot : ∀ sl, targetSlot t = some sl → (∀ k, t ≠ .w k) → ∀ j : Nat × Nat,
      slotVal { x with vals := x.vals ++ [⟨sl.1, sl.2, v, ft⟩] } j
        = if targetSlot t = some j then some ⟨j.1, j.2, v, ft⟩ else slotVal x j := by
    intro sl hs _ j
    have h0 := h.1 sl hs
    unfold slotVal at *
    rw [List.find?_append, hs]
    by_cases hj : sl = j
    · subst hj; simp [h0]
    · have : ¬ (sl.1 = j.1 ∧ sl.2 = j.2) := fun e => hj (Prod.ext e.1 e.2)
      rw [if_neg (by simpa using hj)]
      have hb : (sl.1 == j.1 && sl.2 == j.2) = false := by
        rw [← Bool.not_eq_true]; simpa using this
      simp [hb]
  cases t with
  | nowhere => exact ⟨x, rfl, rfl, fun sl => by simp [targetSlot], fun k => by simp⟩
  | w k =>
    have hk := h.2 k rfl
    have hany : (x.writes.any fun w => w.1 == k.val) = false := by
      rw [← Bool.not_eq_true]; intro hc
      obtain ⟨w, hw, hp⟩ := List.any_eq_true.1 hc
      exact absurd hp (by simpa using List.find?_eq_none.1 hk w hw)
    refine ⟨{ x with writes := x.writes ++ [(k.val, n, v)] }, by simp [deliver1, hany], rfl, fun sl => ?_, fun j => ?_⟩
    · simp [targetSlot, slotVal]
    · rw [List.find?_append]
      by_cases hj : k = j
      · subst hj; simp [hk]
      · have hne : (k.val == j.val) = false := by simpa using fun e => hj (Fin.ext e)
        simp only [List.find?_cons, hne, List.find?_nil, Option.or_none]
        rw [if_neg (by simpa using hj)]
  | a i =>
    have hs : targetSlot (.a i) = some (i.val, 0) := rfl
    have h0 := h.1 _ hs
    exact ⟨_, by simp [deliver1, hs, h0], rfl, slot _ hs (by simp), fun k => by simp⟩
  | b i =>
    have hs : targetSlot (.b i) = some (i.val, 1) := rfl
    have h0 := h.1 _ hs
    exact ⟨_, by simp [deliver1, hs, h0], rfl, slot _ hs (by simp), fun k => by simp⟩
  | p i =>
    have hs : targetSlot (.p i) = some (i.val, 2) := rfl
    have h0 := h.1 _ hs
    exact ⟨_, by simp [deliver1, hs, h0], rfl, slot _ hs (by simp), fun k => by simp⟩

/-- A slot is named by one target. -/
theorem targetSlot_inj {t u : Target} {sl : Nat × Nat} (h : targetSlot t = some sl) (g : targetSlot u = some sl) : t = u := by
  rcases sl with ⟨i, j⟩
  cases t <;> cases u <;> simp only [targetSlot, Option.some.injEq, Prod.mk.injEq, reduceCtorEq] at h g
  all_goals (try omega)
  all_goals (congr 1; exact Fin.ext (h.1.trans g.1.symm))

/-- Both targets take their values (R242). -/
theorem deliver_free {x : Exec} {f : BInfo} (v0 v1 : Lanes) (ft : Option (Fmt × Nat)) (h0 : targetFree x f.t0) (h1 : targetFree x f.t1)
    (hne : f.t0 = f.t1 → f.t0 = .nowhere) :
    ∃ y, deliver x f v0 v1 ft = (y, true) ∧ y = { x with vals := y.vals, writes := y.writes } ∧ Delivered x y f v0 v1 ft := by
  obtain ⟨a, ha, hae, has, haw⟩ := deliver1_free f.n0 v0 ft h0
  have hfree : targetFree a f.t1 := by
    constructor
    · intro sl hsl
      rw [has]
      split
      · rename_i h
        exfalso
        have := hne (targetSlot_inj h hsl)
        simp [this, targetSlot] at h
      · exact h1.1 sl hsl
    · intro k hk
      rw [haw]
      split
      · rename_i h; have := hne (h.trans hk.symm); simp [this] at h
      · exact h1.2 k hk
  obtain ⟨b, hb, hbe, hbs, hbw⟩ := deliver1_free f.n1 v1 none hfree
  refine ⟨b, by simp [deliver, ha, hb], ?_, ?_, ?_⟩
  · rw [hbe, hae]
  · intro sl
    rw [hbs, has]
    by_cases e1 : targetSlot f.t1 = some sl <;> by_cases e0 : targetSlot f.t0 = some sl <;> simp [e0, e1]
    exfalso
    have := hne (targetSlot_inj e0 e1)
    simp [this, targetSlot] at e0
  · intro k
    rw [hbw, haw]
    by_cases e1 : f.t1 = .w k <;> by_cases e0 : f.t0 = .w k <;> simp [e0, e1]
    exfalso
    have := hne (e0.trans e1.symm)
    simp [this] at e0

theorem targetFree_of {x y : Exec} {t : Target} (hv : y.vals = x.vals) (hw : y.writes = x.writes) (h : targetFree x t) :
    targetFree y t := by
  unfold targetFree slotVal at *
  rw [hv, hw]; exact h

/-- What an instruction in focus sees is in the state (R242, R244). -/
theorem blockEnv_some {s : State} {i : Instr} {e : BEnv} (h : blockEnv s i = some e) :
    execOf s e.x.id = some e.x ∧ threadOf s e.x.thread = some e.th ∧ loadBlock s e.x.tile e.x.block = .ok e.b ∧ binfo i = some e.inf
      ∧ e.b.instrs[e.idx]? = some i ∧ e.x.abort = none ∧ e.x.fired.contains e.idx = false
      ∧ s.ctl.focus = .exec e.x.id e.idx ∧ ∀ k ∈ e.b.used e.idx, (slotVal e.x (e.idx, k)).isSome = true := by
  obtain ⟨h, -⟩ := Option.filter_eq_some_iff.1 h
  unfold readyEnv at h
  split at h
  · rename_i id idx hfoc
    split at h
    · cases h
    · rename_i x hx
      have hid : x.id = id := by simpa [execOf] using List.find?_some hx
      split at h
      · rename_i t b f ht hb hf
        split at h
        · rename_i hc
          cases h
          simp only [Bool.and_eq_true, Bool.not_eq_true', beq_iff_eq, List.all_eq_true] at hc
          exact ⟨hid ▸ hx, ht, hb, hf, hc.1.1.1.2, by simpa using hc.1.1.1.1, hc.1.1.2, hid ▸ hfoc, hc.2⟩
        · cases h
      · cases h
  · cases h

/-- No input of another format (R248). -/
theorem badInput_none {e : BEnv} (h : e.badFormat = false) : e.badInput = none := by
  simpa [BEnv.badFormat] using h

/-- A block instruction that may fire, whose meaning sends values and changes its execution by `own`, fires (R242). -/
theorem fired_of_send {i : Instr} {s : State} {e : BEnv} {body : BEnv → BRes} {v0 v1 : Lanes} {fl : FlagSet} {own : Exec → Exec}
    (hm : MayFire s i e) (hs : ShadowFor s e fl) (hb : body e = .send v0 v1 fl (own e.x)) (hid : (own e.x).id = e.x.id)
    (hf : (own e.x).fired = e.x.fired) (hv : (own e.x).vals = e.x.vals) (hw : (own e.x).writes = e.x.writes) :
    ∃ t, runBlock i s body = .next t ∧ Fired s t e v0 v1 fl own := by
  obtain ⟨he, hbad, h0, h1, hne⟩ := hm
  have hx := (blockEnv_some he).1
  obtain ⟨y, hy, hye, hyd⟩ := deliver_free (x := e.mark (own e.x)) (f := e.inf) v0 v1 none
    (targetFree_of (by simpa [BEnv.mark] using hv) (by simpa [BEnv.mark] using hw) h0)
    (targetFree_of (by simpa [BEnv.mark] using hv) (by simpa [BEnv.mark] using hw) h1) hne
  refine ⟨_, by
    simp only [runBlock, he, badInput_none hbad, hb, flagsWait_false hs]
    simp [fireInto, hy]
    rfl, ?_⟩
  have hyid : y.id = e.x.id := by rw [hye]; exact hid
  obtain ⟨hs', hr⟩ := raiseFlags_rest s e.x.tile.stand e.x.tile.ctx e.epoch fl
  have hex : ∀ id, execOf (raiseFlags s e.x.tile.stand e.x.tile.ctx e.epoch fl) id = execOf s id := by
    intro id; rw [hr]; rfl
  have hfl : ∀ st c ep, flagsIn (setExec (raiseFlags s e.x.tile.stand e.x.tile.ctx e.epoch fl) y) st c ep
      = flagsIn (raiseFlags s e.x.tile.stand e.x.tile.ctx e.epoch fl) st c ep := fun _ _ _ => rfl
  refine ⟨⟨y, ?_, ?_, ?_, ?_⟩, ?_, ?_, ?_, ?_⟩
  · have hp : (fun z : Exec => z.id == y.id) = fun z => z.id == e.x.id := by rw [hyid]
    show (updIf _ (fun z => z.id == y.id) fun _ => y).find? (fun z => z.id == e.x.id) = some y
    rw [hp]
    exact find_updIf_same ((hex e.x.id).trans hx) (by simp [hyid])
  · rw [hye]; simp [BEnv.mark, hf]
  · refine ⟨fun sl => (hyd.slots sl).trans ?_, fun k => (hyd.writes k).trans ?_⟩
    · simp [slotVal, BEnv.mark, hv]
    · simp [BEnv.mark, hw]
  · rw [hye]; rfl
  · rw [hfl]; exact flagsIn_raise ..
  · intro id hne'
    refine (find_updIf_other _ _ _ _ ?_ ?_).trans (hex id)
    · intro z hz; simp only [beq_iff_eq] at hz; simp [hz, hyid, Ne.symm hne']
    · intro z _; simp [hyid, Ne.symm hne']
  · intro st c ep h
    rw [hfl]; exact flagsIn_raise_other _ _ _ _ _ _ _ _ h
  · rw [hr]; rfl

end Sys2Proof.Machine
end

