-- ==== Sys2Proof/Laws/Memory.lean ====
section
/-! SUPPORT. Byte memories (R105, R106): a read after a write, and the canonical form that every operation keeps. -/

namespace Sys2Proof.Machine

/-- A form above a bound is one above any lower bound. -/
theorem Memory.wfFrom_mono {lo hi : Nat} (h : lo ≤ hi) {m : Memory} (w : Memory.wfFrom hi m = true) : Memory.wfFrom lo m = true := by
  cases m with
  | nil => rfl
  | cons x rest =>
    simp only [Memory.wfFrom, Bool.and_eq_true, decide_eq_true_eq] at w ⊢
    exact ⟨⟨le_trans h w.1.1, w.1.2⟩, w.2⟩

/-- An address below every listed one reads as unlisted. -/
theorem Memory.read_below {lo a : Nat} {m : Memory} (w : Memory.wfFrom lo m = true) (h : a < lo) : Memory.read m a = Memory.default := by
  cases m with
  | nil => rfl
  | cons x rest =>
    simp only [Memory.wfFrom, Bool.and_eq_true, decide_eq_true_eq] at w
    have h1 : x.1 ≠ a := by omega
    have h2 : a < x.1 := by omega
    simp [Memory.read, h1, h2]

/-- A write keeps the canonical form. -/
theorem Memory.write_wfFrom {m : Memory} {lo a : Nat} (v : Byte) (w : Memory.wfFrom lo m = true) (h : lo ≤ a) :
    Memory.wfFrom lo (Memory.write m a v) = true := by
  induction m generalizing lo with
  | nil =>
    by_cases hv : v = Memory.default
    · simp [Memory.write, hv, Memory.wfFrom]
    · simp [Memory.write, hv, Memory.wfFrom, h]
  | cons x rest ih =>
    obtain ⟨b, u⟩ := x
    simp only [Memory.wfFrom, Bool.and_eq_true, decide_eq_true_eq] at w
    obtain ⟨⟨w1, w2⟩, w3⟩ := w
    unfold Memory.write
    by_cases hab : a = b
    · subst hab
      by_cases hv : v = Memory.default
      · simp only [hv, if_true]
        exact Memory.wfFrom_mono (by omega) w3
      · simp [hv, Memory.wfFrom, h, w3]
    · by_cases hlt : a < b
      · by_cases hv : v = Memory.default
        · simp [hab, hlt, hv, Memory.wfFrom, w1, w2, w3]
        · have : a + 1 ≤ b := hlt
          simp [hab, hlt, hv, Memory.wfFrom, h, this, w2, w3]
      · have hgt : b + 1 ≤ a := by omega
        simp [hab, hlt, Memory.wfFrom, w1, w2, ih w3 hgt]

theorem Memory.write_wf {m : Memory} (a : Nat) (v : Byte) (w : Memory.wf m = true) : Memory.wf (Memory.write m a v) = true :=
  Memory.write_wfFrom v w (Nat.zero_le a)

theorem Memory.writeN_wf {m : Memory} (a : Nat) (bs : List Byte) (w : Memory.wf m = true) : Memory.wf (Memory.writeN m a bs) = true := by
  induction bs generalizing m a with
  | nil => exact w
  | cons b bs ih => exact ih (a + 1) (Memory.write_wf a b w)

/-- A written byte reads back; every other byte reads as before. -/
theorem Memory.read_write_from {m : Memory} {lo : Nat} (a : Nat) (v : Byte) (c : Nat) (w : Memory.wfFrom lo m = true) :
    Memory.read (Memory.write m a v) c = if c = a then v else Memory.read m c := by
  induction m generalizing lo with
  | nil =>
    by_cases hv : v = Memory.default
    · simp [Memory.write, hv, Memory.read]
    · by_cases hc : c = a
      · subst hc; simp [Memory.write, hv, Memory.read]
      · have : a ≠ c := fun e => hc e.symm
        simp [Memory.write, hv, Memory.read, hc, this]
  | cons x rest ih =>
    obtain ⟨b, u⟩ := x
    simp only [Memory.wfFrom, Bool.and_eq_true, decide_eq_true_eq] at w
    obtain ⟨⟨w1, w2⟩, w3⟩ := w
    unfold Memory.write
    by_cases hab : a = b
    · subst hab
      by_cases hv : v = Memory.default
      · by_cases hc : c = a
        · subst hc
          simp [hv, Memory.read_below w3 (Nat.lt_succ_self c)]
        · have hac : a ≠ c := fun e => hc e.symm
          by_cases hlt : c < a
          · simp [hv, hc, Memory.read, hac, hlt, Memory.read_below w3 (by omega : c < a + 1)]
          · simp [hv, hc, Memory.read, hac, hlt]
      · by_cases hc : c = a
        · subst hc; simp [hv, Memory.read]
        · have hac : a ≠ c := fun e => hc e.symm
          simp [hv, hc, Memory.read, hac]
    · by_cases hlt : a < b
      · by_cases hv : v = Memory.default
        · by_cases hc : c = a
          · subst hc
            have : b ≠ c := fun e => hab e.symm
            simp [hab, hlt, hv, Memory.read, this]
          · simp [hab, hlt, hv, hc]
        · by_cases hc : c = a
          · subst hc; simp [hab, hlt, hv, Memory.read]
          · have hac : a ≠ c := fun e => hc e.symm
            by_cases hca : c < a
            · have h1 : b ≠ c := by omega
              have h2 : c < b := by omega
              simp [hab, hlt, hv, hc, Memory.read, hac, hca, h1, h2]
            · simp [hab, hlt, hv, hc, Memory.read, hac, hca]
      · by_cases hc : b = c
        · subst hc
          have : b ≠ a := fun e => hab e.symm
          simp [hab, hlt, Memory.read, this]
        · by_cases hcb : c < b
          · have : c ≠ a := by omega
            simp [hab, hlt, Memory.read, hc, hcb, this]
          · simp [hab, hlt, Memory.read, hc, hcb, ih w3]

theorem Memory.read_write {m : Memory} (a : Nat) (v : Byte) (c : Nat) (w : Memory.wf m = true) :
    Memory.read (Memory.write m a v) c = if c = a then v else Memory.read m c :=
  Memory.read_write_from a v c w

/-- A run of bytes written reads back; every byte outside it reads as before. -/
theorem Memory.read_writeN {m : Memory} (a : Nat) (bs : List Byte) (c : Nat) (w : Memory.wf m = true) :
    Memory.read (Memory.writeN m a bs) c = if a ≤ c ∧ c < a + bs.length then getAt bs (c - a) 0 else Memory.read m c := by
  induction bs generalizing m a with
  | nil => 
    simp [Memory.writeN]
  | cons b bs ih =>
    rw [Memory.writeN, ih (a + 1) (Memory.write_wf a b w), Memory.read_write a b c w]
    by_cases h1 : c = a
    · subst h1
      simp [getAt]
    · by_cases h2 : a + 1 ≤ c ∧ c < a + 1 + bs.length
      · have h3 : a ≤ c ∧ c < a + (b :: bs).length := by simp only [List.length_cons]; omega
        have h4 : c - a = (c - (a + 1)) + 1 := by omega
        rw [if_pos h2, if_pos h3, h4]
        simp [getAt]
      · have h3 : ¬ (a ≤ c ∧ c < a + (b :: bs).length) := by simp only [List.length_cons]; omega
        rw [if_neg h2, if_neg h1, if_neg h3]

/-- Equal reads of canonical memories: equal data. -/
theorem Memory.ext_from {lo : Nat} {m m' : Memory} (w : Memory.wfFrom lo m = true) (w' : Memory.wfFrom lo m' = true)
    (h : ∀ a, Memory.read m a = Memory.read m' a) : m = m' := by
  induction m generalizing lo m' with
  | nil =>
    cases m' with
    | nil => rfl
    | cons y rest' =>
      simp only [Memory.wfFrom, Bool.and_eq_true, decide_eq_true_eq] at w'
      have := h y.1
      simp only [Memory.read, if_true] at this
      exact absurd this.symm (by simpa using w'.1.2)
  | cons x rest ih =>
    obtain ⟨a, v⟩ := x
    simp only [Memory.wfFrom, Bool.and_eq_true, decide_eq_true_eq] at w
    cases m' with
    | nil =>
      have := h a
      simp only [Memory.read, if_true] at this
      exact absurd this (by simpa using w.1.2)
    | cons y rest' =>
      obtain ⟨b, u⟩ := y
      simp only [Memory.wfFrom, Bool.and_eq_true, decide_eq_true_eq] at w'
      have hv : v ≠ Memory.default := by simpa using w.1.2
      have hu : u ≠ Memory.default := by simpa using w'.1.2
      have hab : a = b := by
        rcases Nat.lt_trichotomy a b with hlt | heq | hgt
        · have := h a
          have hne : b ≠ a := by omega
          simp only [Memory.read, if_true, hne, if_false, hlt] at this
          exact absurd this hv
        · exact heq
        · have := h b
          have hne : a ≠ b := by omega
          simp only [Memory.read, if_true, hne, if_false, hgt] at this
          exact absurd this.symm hu
      subst hab
      have hvu : v = u := by
        have := h a
        simpa [Memory.read] using this
      subst hvu
      congr 1
      refine ih w.2 w'.2 fun c => ?_
      have := h c
      by_cases hc : c ≤ a
      · rw [Memory.read_below w.2 (by omega), Memory.read_below w'.2 (by omega)]
      · have h1 : a ≠ c := by omega
        have h2 : ¬ c < a := by omega
        simpa [Memory.read, h1, h2] using this

/-- Canonical memories that read alike are equal data. -/
theorem Memory.ext {m m' : Memory} (w : Memory.wf m = true) (w' : Memory.wf m' = true)
    (h : ∀ a, Memory.read m a = Memory.read m' a) : m = m' :=
  Memory.ext_from w w' h

end Sys2Proof.Machine
end

