-- ==== Sys2Proof/Laws/State.lean ====
section
/-! SUPPORT. What each update of the state leaves as it is and what it sets, so that no proof unfolds a record update. -/

namespace Sys2Proof.Machine

@[simp] theorem setExecs_ctl (s : State) (xs : List Exec) : (setExecs s xs).ctl = s.ctl := rfl
@[simp] theorem setExecs_cfg (s : State) (xs : List Exec) : (setExecs s xs).cfg = s.cfg := rfl
@[simp] theorem setExecs_q (s : State) (xs : List Exec) : (setExecs s xs).q = s.q := rfl
@[simp] theorem setExecs_regs (s : State) (xs : List Exec) : (setExecs s xs).regs = s.regs := rfl
@[simp] theorem setExecs_firings (s : State) (xs : List Exec) : (setExecs s xs).firings = s.firings := rfl
@[simp] theorem setExecs_tiles (s : State) (xs : List Exec) : (setExecs s xs).tiles = { s.tiles with execs := xs } := rfl
@[simp] theorem setExecs_mem (s : State) (xs : List Exec) : (setExecs s xs).mem = s.mem := rfl
@[simp] theorem setExecs_ord (s : State) (xs : List Exec) : (setExecs s xs).ord = s.ord := rfl
@[simp] theorem setExecs_fr (s : State) (xs : List Exec) : (setExecs s xs).fr = s.fr := rfl
@[simp] theorem setExecs_eng (s : State) (xs : List Exec) : (setExecs s xs).eng = s.eng := rfl
@[simp] theorem setExecs_la (s : State) (xs : List Exec) : (setExecs s xs).la = s.la := rfl
@[simp] theorem setExecs_host (s : State) (xs : List Exec) : (setExecs s xs).host = s.host := rfl
@[simp] theorem setExec_ctl (s : State) (x : Exec) : (setExec s x).ctl = s.ctl := rfl
@[simp] theorem setExec_cfg (s : State) (x : Exec) : (setExec s x).cfg = s.cfg := rfl
@[simp] theorem setExec_q (s : State) (x : Exec) : (setExec s x).q = s.q := rfl
@[simp] theorem setExec_regs (s : State) (x : Exec) : (setExec s x).regs = s.regs := rfl
@[simp] theorem setExec_firings (s : State) (x : Exec) : (setExec s x).firings = s.firings := rfl
@[simp] theorem setExec_mem (s : State) (x : Exec) : (setExec s x).mem = s.mem := rfl
@[simp] theorem setExec_ord (s : State) (x : Exec) : (setExec s x).ord = s.ord := rfl
@[simp] theorem setExec_fr (s : State) (x : Exec) : (setExec s x).fr = s.fr := rfl
@[simp] theorem setExec_eng (s : State) (x : Exec) : (setExec s x).eng = s.eng := rfl
@[simp] theorem setExec_la (s : State) (x : Exec) : (setExec s x).la = s.la := rfl
@[simp] theorem setExec_host (s : State) (x : Exec) : (setExec s x).host = s.host := rfl
@[simp] theorem dropExec_ctl (s : State) (id : Nat) : (dropExec s id).ctl = s.ctl := rfl
@[simp] theorem dropExec_cfg (s : State) (id : Nat) : (dropExec s id).cfg = s.cfg := rfl
@[simp] theorem dropExec_q (s : State) (id : Nat) : (dropExec s id).q = s.q := rfl
@[simp] theorem dropExec_regs (s : State) (id : Nat) : (dropExec s id).regs = s.regs := rfl
@[simp] theorem dropExec_firings (s : State) (id : Nat) : (dropExec s id).firings = s.firings := rfl
@[simp] theorem dropExec_mem (s : State) (id : Nat) : (dropExec s id).mem = s.mem := rfl
@[simp] theorem dropExec_ord (s : State) (id : Nat) : (dropExec s id).ord = s.ord := rfl
@[simp] theorem dropExec_fr (s : State) (id : Nat) : (dropExec s id).fr = s.fr := rfl
@[simp] theorem dropExec_eng (s : State) (id : Nat) : (dropExec s id).eng = s.eng := rfl
@[simp] theorem dropExec_la (s : State) (id : Nat) : (dropExec s id).la = s.la := rfl
@[simp] theorem dropExec_host (s : State) (id : Nat) : (dropExec s id).host = s.host := rfl
@[simp] theorem setThreads_ctl (s : State) (ts : List Thread) : (setThreads s ts).ctl = s.ctl := rfl
@[simp] theorem setThreads_cfg (s : State) (ts : List Thread) : (setThreads s ts).cfg = s.cfg := rfl
@[simp] theorem setThreads_q (s : State) (ts : List Thread) : (setThreads s ts).q = s.q := rfl
@[simp] theorem setThreads_regs (s : State) (ts : List Thread) : (setThreads s ts).regs = s.regs := rfl
@[simp] theorem setThreads_firings (s : State) (ts : List Thread) : (setThreads s ts).firings = s.firings := rfl
@[simp] theorem setThreads_tiles (s : State) (ts : List Thread) : (setThreads s ts).tiles = { s.tiles with threads := ts } := rfl
@[simp] theorem setThreads_mem (s : State) (ts : List Thread) : (setThreads s ts).mem = s.mem := rfl
@[simp] theorem setThreads_ord (s : State) (ts : List Thread) : (setThreads s ts).ord = s.ord := rfl
@[simp] theorem setThreads_fr (s : State) (ts : List Thread) : (setThreads s ts).fr = s.fr := rfl
@[simp] theorem setThreads_eng (s : State) (ts : List Thread) : (setThreads s ts).eng = s.eng := rfl
@[simp] theorem setThreads_la (s : State) (ts : List Thread) : (setThreads s ts).la = s.la := rfl
@[simp] theorem setThreads_host (s : State) (ts : List Thread) : (setThreads s ts).host = s.host := rfl
@[simp] theorem setThread_ctl (s : State) (t : Thread) : (setThread s t).ctl = s.ctl := rfl
@[simp] theorem setThread_cfg (s : State) (t : Thread) : (setThread s t).cfg = s.cfg := rfl
@[simp] theorem setThread_q (s : State) (t : Thread) : (setThread s t).q = s.q := rfl
@[simp] theorem setThread_regs (s : State) (t : Thread) : (setThread s t).regs = s.regs := rfl
@[simp] theorem setThread_firings (s : State) (t : Thread) : (setThread s t).firings = s.firings := rfl
@[simp] theorem setThread_mem (s : State) (t : Thread) : (setThread s t).mem = s.mem := rfl
@[simp] theorem setThread_ord (s : State) (t : Thread) : (setThread s t).ord = s.ord := rfl
@[simp] theorem setThread_fr (s : State) (t : Thread) : (setThread s t).fr = s.fr := rfl
@[simp] theorem setThread_eng (s : State) (t : Thread) : (setThread s t).eng = s.eng := rfl
@[simp] theorem setThread_la (s : State) (t : Thread) : (setThread s t).la = s.la := rfl
@[simp] theorem setThread_host (s : State) (t : Thread) : (setThread s t).host = s.host := rfl
@[simp] theorem dropThread_ctl (s : State) (uid : Nat) : (dropThread s uid).ctl = s.ctl := rfl
@[simp] theorem dropThread_cfg (s : State) (uid : Nat) : (dropThread s uid).cfg = s.cfg := rfl
@[simp] theorem dropThread_q (s : State) (uid : Nat) : (dropThread s uid).q = s.q := rfl
@[simp] theorem dropThread_regs (s : State) (uid : Nat) : (dropThread s uid).regs = s.regs := rfl
@[simp] theorem dropThread_firings (s : State) (uid : Nat) : (dropThread s uid).firings = s.firings := rfl
@[simp] theorem dropThread_mem (s : State) (uid : Nat) : (dropThread s uid).mem = s.mem := rfl
@[simp] theorem dropThread_ord (s : State) (uid : Nat) : (dropThread s uid).ord = s.ord := rfl
@[simp] theorem dropThread_fr (s : State) (uid : Nat) : (dropThread s uid).fr = s.fr := rfl
@[simp] theorem dropThread_eng (s : State) (uid : Nat) : (dropThread s uid).eng = s.eng := rfl
@[simp] theorem dropThread_la (s : State) (uid : Nat) : (dropThread s uid).la = s.la := rfl
@[simp] theorem dropThread_host (s : State) (uid : Nat) : (dropThread s uid).host = s.host := rfl
@[simp] theorem setHandleRecs_ctl (s : State) (hs : List HandleRec) : (setHandleRecs s hs).ctl = s.ctl := rfl
@[simp] theorem setHandleRecs_cfg (s : State) (hs : List HandleRec) : (setHandleRecs s hs).cfg = s.cfg := rfl
@[simp] theorem setHandleRecs_q (s : State) (hs : List HandleRec) : (setHandleRecs s hs).q = s.q := rfl
@[simp] theorem setHandleRecs_regs (s : State) (hs : List HandleRec) : (setHandleRecs s hs).regs = s.regs := rfl
@[simp] theorem setHandleRecs_firings (s : State) (hs : List HandleRec) : (setHandleRecs s hs).firings = s.firings := rfl
@[simp] theorem setHandleRecs_tiles (s : State) (hs : List HandleRec) : (setHandleRecs s hs).tiles = { s.tiles with handles := hs } := rfl
@[simp] theorem setHandleRecs_mem (s : State) (hs : List HandleRec) : (setHandleRecs s hs).mem = s.mem := rfl
@[simp] theorem setHandleRecs_ord (s : State) (hs : List HandleRec) : (setHandleRecs s hs).ord = s.ord := rfl
@[simp] theorem setHandleRecs_fr (s : State) (hs : List HandleRec) : (setHandleRecs s hs).fr = s.fr := rfl
@[simp] theorem setHandleRecs_eng (s : State) (hs : List HandleRec) : (setHandleRecs s hs).eng = s.eng := rfl
@[simp] theorem setHandleRecs_la (s : State) (hs : List HandleRec) : (setHandleRecs s hs).la = s.la := rfl
@[simp] theorem setHandleRecs_host (s : State) (hs : List HandleRec) : (setHandleRecs s hs).host = s.host := rfl
@[simp] theorem setSched_ctl (s : State) (k : EKey) (c : Sched) : (setSched s k c).ctl = s.ctl := rfl
@[simp] theorem setSched_cfg (s : State) (k : EKey) (c : Sched) : (setSched s k c).cfg = s.cfg := rfl
@[simp] theorem setSched_q (s : State) (k : EKey) (c : Sched) : (setSched s k c).q = s.q := rfl
@[simp] theorem setSched_regs (s : State) (k : EKey) (c : Sched) : (setSched s k c).regs = s.regs := rfl
@[simp] theorem setSched_firings (s : State) (k : EKey) (c : Sched) : (setSched s k c).firings = s.firings := rfl
@[simp] theorem setSched_tiles (s : State) (k : EKey) (c : Sched) : (setSched s k c).tiles = { s.tiles with sched := aset s.tiles.sched k c } := rfl
@[simp] theorem setSched_mem (s : State) (k : EKey) (c : Sched) : (setSched s k c).mem = s.mem := rfl
@[simp] theorem setSched_ord (s : State) (k : EKey) (c : Sched) : (setSched s k c).ord = s.ord := rfl
@[simp] theorem setSched_fr (s : State) (k : EKey) (c : Sched) : (setSched s k c).fr = s.fr := rfl
@[simp] theorem setSched_eng (s : State) (k : EKey) (c : Sched) : (setSched s k c).eng = s.eng := rfl
@[simp] theorem setSched_la (s : State) (k : EKey) (c : Sched) : (setSched s k c).la = s.la := rfl
@[simp] theorem setSched_host (s : State) (k : EKey) (c : Sched) : (setSched s k c).host = s.host := rfl
@[simp] theorem setSite_ctl (s : State) (lk : LKey) (d n q : Nat) : (setSite s lk d n q).ctl = s.ctl := rfl
@[simp] theorem setSite_cfg (s : State) (lk : LKey) (d n q : Nat) : (setSite s lk d n q).cfg = s.cfg := rfl
@[simp] theorem setSite_q (s : State) (lk : LKey) (d n q : Nat) : (setSite s lk d n q).q = s.q := rfl
@[simp] theorem setSite_regs (s : State) (lk : LKey) (d n q : Nat) : (setSite s lk d n q).regs = s.regs := rfl
@[simp] theorem setSite_firings (s : State) (lk : LKey) (d n q : Nat) : (setSite s lk d n q).firings = s.firings := rfl
@[simp] theorem setSite_mem (s : State) (lk : LKey) (d n q : Nat) : (setSite s lk d n q).mem = s.mem := rfl
@[simp] theorem setSite_ord (s : State) (lk : LKey) (d n q : Nat) : (setSite s lk d n q).ord = s.ord := rfl
@[simp] theorem setSite_fr (s : State) (lk : LKey) (d n q : Nat) : (setSite s lk d n q).fr = s.fr := rfl
@[simp] theorem setSite_eng (s : State) (lk : LKey) (d n q : Nat) : (setSite s lk d n q).eng = s.eng := rfl
@[simp] theorem setSite_la (s : State) (lk : LKey) (d n q : Nat) : (setSite s lk d n q).la = s.la := rfl
@[simp] theorem setSite_host (s : State) (lk : LKey) (d n q : Nat) : (setSite s lk d n q).host = s.host := rfl
@[simp] theorem setStream_ctl (s : State) (x : Stream) : (setStream s x).ctl = s.ctl := rfl
@[simp] theorem setStream_cfg (s : State) (x : Stream) : (setStream s x).cfg = { s.cfg with stream := x } := rfl
@[simp] theorem setStream_q (s : State) (x : Stream) : (setStream s x).q = s.q := rfl
@[simp] theorem setStream_regs (s : State) (x : Stream) : (setStream s x).regs = s.regs := rfl
@[simp] theorem setStream_firings (s : State) (x : Stream) : (setStream s x).firings = s.firings := rfl
@[simp] theorem setStream_tiles (s : State) (x : Stream) : (setStream s x).tiles = s.tiles := rfl
@[simp] theorem setStream_mem (s : State) (x : Stream) : (setStream s x).mem = s.mem := rfl
@[simp] theorem setStream_ord (s : State) (x : Stream) : (setStream s x).ord = s.ord := rfl
@[simp] theorem setStream_fr (s : State) (x : Stream) : (setStream s x).fr = s.fr := rfl
@[simp] theorem setStream_eng (s : State) (x : Stream) : (setStream s x).eng = s.eng := rfl
@[simp] theorem setStream_la (s : State) (x : Stream) : (setStream s x).la = s.la := rfl
@[simp] theorem setStream_host (s : State) (x : Stream) : (setStream s x).host = s.host := rfl
@[simp] theorem setVpeCfg_ctl (s : State) (k : EKey) (c : VpeCfg) : (setVpeCfg s k c).ctl = s.ctl := rfl
@[simp] theorem setVpeCfg_cfg (s : State) (k : EKey) (c : VpeCfg) : (setVpeCfg s k c).cfg = { s.cfg with vpe := aset s.cfg.vpe k c } := rfl
@[simp] theorem setVpeCfg_q (s : State) (k : EKey) (c : VpeCfg) : (setVpeCfg s k c).q = s.q := rfl
@[simp] theorem setVpeCfg_regs (s : State) (k : EKey) (c : VpeCfg) : (setVpeCfg s k c).regs = s.regs := rfl
@[simp] theorem setVpeCfg_firings (s : State) (k : EKey) (c : VpeCfg) : (setVpeCfg s k c).firings = s.firings := rfl
@[simp] theorem setVpeCfg_tiles (s : State) (k : EKey) (c : VpeCfg) : (setVpeCfg s k c).tiles = s.tiles := rfl
@[simp] theorem setVpeCfg_mem (s : State) (k : EKey) (c : VpeCfg) : (setVpeCfg s k c).mem = s.mem := rfl
@[simp] theorem setVpeCfg_ord (s : State) (k : EKey) (c : VpeCfg) : (setVpeCfg s k c).ord = s.ord := rfl
@[simp] theorem setVpeCfg_fr (s : State) (k : EKey) (c : VpeCfg) : (setVpeCfg s k c).fr = s.fr := rfl
@[simp] theorem setVpeCfg_eng (s : State) (k : EKey) (c : VpeCfg) : (setVpeCfg s k c).eng = s.eng := rfl
@[simp] theorem setVpeCfg_la (s : State) (k : EKey) (c : VpeCfg) : (setVpeCfg s k c).la = s.la := rfl
@[simp] theorem setVpeCfg_host (s : State) (k : EKey) (c : VpeCfg) : (setVpeCfg s k c).host = s.host := rfl
@[simp] theorem setSceCfg_ctl (s : State) (k : EKey) (c : SceCfg) : (setSceCfg s k c).ctl = s.ctl := rfl
@[simp] theorem setSceCfg_cfg (s : State) (k : EKey) (c : SceCfg) : (setSceCfg s k c).cfg = { s.cfg with sce := aset s.cfg.sce k c } := rfl
@[simp] theorem setSceCfg_q (s : State) (k : EKey) (c : SceCfg) : (setSceCfg s k c).q = s.q := rfl
@[simp] theorem setSceCfg_regs (s : State) (k : EKey) (c : SceCfg) : (setSceCfg s k c).regs = s.regs := rfl
@[simp] theorem setSceCfg_firings (s : State) (k : EKey) (c : SceCfg) : (setSceCfg s k c).firings = s.firings := rfl
@[simp] theorem setSceCfg_tiles (s : State) (k : EKey) (c : SceCfg) : (setSceCfg s k c).tiles = s.tiles := rfl
@[simp] theorem setSceCfg_mem (s : State) (k : EKey) (c : SceCfg) : (setSceCfg s k c).mem = s.mem := rfl
@[simp] theorem setSceCfg_ord (s : State) (k : EKey) (c : SceCfg) : (setSceCfg s k c).ord = s.ord := rfl
@[simp] theorem setSceCfg_fr (s : State) (k : EKey) (c : SceCfg) : (setSceCfg s k c).fr = s.fr := rfl
@[simp] theorem setSceCfg_eng (s : State) (k : EKey) (c : SceCfg) : (setSceCfg s k c).eng = s.eng := rfl
@[simp] theorem setSceCfg_la (s : State) (k : EKey) (c : SceCfg) : (setSceCfg s k c).la = s.la := rfl
@[simp] theorem setSceCfg_host (s : State) (k : EKey) (c : SceCfg) : (setSceCfg s k c).host = s.host := rfl
@[simp] theorem setTileCfg_ctl (s : State) (k : EKey) (c : TileCfg) : (setTileCfg s k c).ctl = s.ctl := rfl
@[simp] theorem setTileCfg_cfg (s : State) (k : EKey) (c : TileCfg) : (setTileCfg s k c).cfg = { s.cfg with tile := aset s.cfg.tile k c } := rfl
@[simp] theorem setTileCfg_q (s : State) (k : EKey) (c : TileCfg) : (setTileCfg s k c).q = s.q := rfl
@[simp] theorem setTileCfg_regs (s : State) (k : EKey) (c : TileCfg) : (setTileCfg s k c).regs = s.regs := rfl
@[simp] theorem setTileCfg_firings (s : State) (k : EKey) (c : TileCfg) : (setTileCfg s k c).firings = s.firings := rfl
@[simp] theorem setTileCfg_tiles (s : State) (k : EKey) (c : TileCfg) : (setTileCfg s k c).tiles = s.tiles := rfl
@[simp] theorem setTileCfg_mem (s : State) (k : EKey) (c : TileCfg) : (setTileCfg s k c).mem = s.mem := rfl
@[simp] theorem setTileCfg_ord (s : State) (k : EKey) (c : TileCfg) : (setTileCfg s k c).ord = s.ord := rfl
@[simp] theorem setTileCfg_fr (s : State) (k : EKey) (c : TileCfg) : (setTileCfg s k c).fr = s.fr := rfl
@[simp] theorem setTileCfg_eng (s : State) (k : EKey) (c : TileCfg) : (setTileCfg s k c).eng = s.eng := rfl
@[simp] theorem setTileCfg_la (s : State) (k : EKey) (c : TileCfg) : (setTileCfg s k c).la = s.la := rfl
@[simp] theorem setTileCfg_host (s : State) (k : EKey) (c : TileCfg) : (setTileCfg s k c).host = s.host := rfl
@[simp] theorem setMxCfg_ctl (s : State) (k : EKey) (c : MxCfg) : (setMxCfg s k c).ctl = s.ctl := rfl
@[simp] theorem setMxCfg_cfg (s : State) (k : EKey) (c : MxCfg) : (setMxCfg s k c).cfg = { s.cfg with mx := aset s.cfg.mx k c } := rfl
@[simp] theorem setMxCfg_q (s : State) (k : EKey) (c : MxCfg) : (setMxCfg s k c).q = s.q := rfl
@[simp] theorem setMxCfg_regs (s : State) (k : EKey) (c : MxCfg) : (setMxCfg s k c).regs = s.regs := rfl
@[simp] theorem setMxCfg_firings (s : State) (k : EKey) (c : MxCfg) : (setMxCfg s k c).firings = s.firings := rfl
@[simp] theorem setMxCfg_tiles (s : State) (k : EKey) (c : MxCfg) : (setMxCfg s k c).tiles = s.tiles := rfl
@[simp] theorem setMxCfg_mem (s : State) (k : EKey) (c : MxCfg) : (setMxCfg s k c).mem = s.mem := rfl
@[simp] theorem setMxCfg_ord (s : State) (k : EKey) (c : MxCfg) : (setMxCfg s k c).ord = s.ord := rfl
@[simp] theorem setMxCfg_fr (s : State) (k : EKey) (c : MxCfg) : (setMxCfg s k c).fr = s.fr := rfl
@[simp] theorem setMxCfg_eng (s : State) (k : EKey) (c : MxCfg) : (setMxCfg s k c).eng = s.eng := rfl
@[simp] theorem setMxCfg_la (s : State) (k : EKey) (c : MxCfg) : (setMxCfg s k c).la = s.la := rfl
@[simp] theorem setMxCfg_host (s : State) (k : EKey) (c : MxCfg) : (setMxCfg s k c).host = s.host := rfl
@[simp] theorem setStrmCfg_ctl (s : State) (k : EKey) (c : StrmCfg) : (setStrmCfg s k c).ctl = s.ctl := rfl
@[simp] theorem setStrmCfg_cfg (s : State) (k : EKey) (c : StrmCfg) : (setStrmCfg s k c).cfg = { s.cfg with strm := aset s.cfg.strm k c } := rfl
@[simp] theorem setStrmCfg_q (s : State) (k : EKey) (c : StrmCfg) : (setStrmCfg s k c).q = s.q := rfl
@[simp] theorem setStrmCfg_regs (s : State) (k : EKey) (c : StrmCfg) : (setStrmCfg s k c).regs = s.regs := rfl
@[simp] theorem setStrmCfg_firings (s : State) (k : EKey) (c : StrmCfg) : (setStrmCfg s k c).firings = s.firings := rfl
@[simp] theorem setStrmCfg_tiles (s : State) (k : EKey) (c : StrmCfg) : (setStrmCfg s k c).tiles = s.tiles := rfl
@[simp] theorem setStrmCfg_mem (s : State) (k : EKey) (c : StrmCfg) : (setStrmCfg s k c).mem = s.mem := rfl
@[simp] theorem setStrmCfg_ord (s : State) (k : EKey) (c : StrmCfg) : (setStrmCfg s k c).ord = s.ord := rfl
@[simp] theorem setStrmCfg_fr (s : State) (k : EKey) (c : StrmCfg) : (setStrmCfg s k c).fr = s.fr := rfl
@[simp] theorem setStrmCfg_eng (s : State) (k : EKey) (c : StrmCfg) : (setStrmCfg s k c).eng = s.eng := rfl
@[simp] theorem setStrmCfg_la (s : State) (k : EKey) (c : StrmCfg) : (setStrmCfg s k c).la = s.la := rfl
@[simp] theorem setStrmCfg_host (s : State) (k : EKey) (c : StrmCfg) : (setStrmCfg s k c).host = s.host := rfl
@[simp] theorem setHandle_ctl (s : State) (k : EKey) (h : Nat) (v : Handle) : (setHandle s k h v).ctl = s.ctl := rfl
@[simp] theorem setHandle_q (s : State) (k : EKey) (h : Nat) (v : Handle) : (setHandle s k h v).q = s.q := rfl
@[simp] theorem setHandle_regs (s : State) (k : EKey) (h : Nat) (v : Handle) : (setHandle s k h v).regs = s.regs := rfl
@[simp] theorem setHandle_firings (s : State) (k : EKey) (h : Nat) (v : Handle) : (setHandle s k h v).firings = s.firings := rfl
@[simp] theorem setHandle_tiles (s : State) (k : EKey) (h : Nat) (v : Handle) : (setHandle s k h v).tiles = s.tiles := rfl
@[simp] theorem setHandle_mem (s : State) (k : EKey) (h : Nat) (v : Handle) : (setHandle s k h v).mem = s.mem := rfl
@[simp] theorem setHandle_ord (s : State) (k : EKey) (h : Nat) (v : Handle) : (setHandle s k h v).ord = s.ord := rfl
@[simp] theorem setHandle_fr (s : State) (k : EKey) (h : Nat) (v : Handle) : (setHandle s k h v).fr = s.fr := rfl
@[simp] theorem setHandle_eng (s : State) (k : EKey) (h : Nat) (v : Handle) : (setHandle s k h v).eng = s.eng := rfl
@[simp] theorem setHandle_la (s : State) (k : EKey) (h : Nat) (v : Handle) : (setHandle s k h v).la = s.la := rfl
@[simp] theorem setHandle_host (s : State) (k : EKey) (h : Nat) (v : Handle) : (setHandle s k h v).host = s.host := rfl
@[simp] theorem setFlush_ctl (s : State) (st : Nat) (v : Nat × Nat) : (setFlush s st v).ctl = s.ctl := rfl
@[simp] theorem setFlush_q (s : State) (st : Nat) (v : Nat × Nat) : (setFlush s st v).q = s.q := rfl
@[simp] theorem setFlush_regs (s : State) (st : Nat) (v : Nat × Nat) : (setFlush s st v).regs = s.regs := rfl
@[simp] theorem setFlush_firings (s : State) (st : Nat) (v : Nat × Nat) : (setFlush s st v).firings = s.firings := rfl
@[simp] theorem setFlush_tiles (s : State) (st : Nat) (v : Nat × Nat) : (setFlush s st v).tiles = s.tiles := rfl
@[simp] theorem setFlush_mem (s : State) (st : Nat) (v : Nat × Nat) : (setFlush s st v).mem = s.mem := rfl
@[simp] theorem setFlush_ord (s : State) (st : Nat) (v : Nat × Nat) : (setFlush s st v).ord = s.ord := rfl
@[simp] theorem setFlush_fr (s : State) (st : Nat) (v : Nat × Nat) : (setFlush s st v).fr = s.fr := rfl
@[simp] theorem setFlush_eng (s : State) (st : Nat) (v : Nat × Nat) : (setFlush s st v).eng = s.eng := rfl
@[simp] theorem setFlush_la (s : State) (st : Nat) (v : Nat × Nat) : (setFlush s st v).la = s.la := rfl
@[simp] theorem setFlush_host (s : State) (st : Nat) (v : Nat × Nat) : (setFlush s st v).host = s.host := rfl
@[simp] theorem setSlotTable_ctl (s : State) (st i : Nat) (t : SlotTable) : (setSlotTable s st i t).ctl = s.ctl := rfl
@[simp] theorem setSlotTable_q (s : State) (st i : Nat) (t : SlotTable) : (setSlotTable s st i t).q = s.q := rfl
@[simp] theorem setSlotTable_regs (s : State) (st i : Nat) (t : SlotTable) : (setSlotTable s st i t).regs = s.regs := rfl
@[simp] theorem setSlotTable_firings (s : State) (st i : Nat) (t : SlotTable) : (setSlotTable s st i t).firings = s.firings := rfl
@[simp] theorem setSlotTable_tiles (s : State) (st i : Nat) (t : SlotTable) : (setSlotTable s st i t).tiles = s.tiles := rfl
@[simp] theorem setSlotTable_mem (s : State) (st i : Nat) (t : SlotTable) : (setSlotTable s st i t).mem = s.mem := rfl
@[simp] theorem setSlotTable_ord (s : State) (st i : Nat) (t : SlotTable) : (setSlotTable s st i t).ord = s.ord := rfl
@[simp] theorem setSlotTable_fr (s : State) (st i : Nat) (t : SlotTable) : (setSlotTable s st i t).fr = s.fr := rfl
@[simp] theorem setSlotTable_eng (s : State) (st i : Nat) (t : SlotTable) : (setSlotTable s st i t).eng = s.eng := rfl
@[simp] theorem setSlotTable_la (s : State) (st i : Nat) (t : SlotTable) : (setSlotTable s st i t).la = s.la := rfl
@[simp] theorem setSlotTable_host (s : State) (st i : Nat) (t : SlotTable) : (setSlotTable s st i t).host = s.host := rfl
@[simp] theorem setLaneRegs_ctl (s : State) (k : EKey) (r : LaneRegs) : (setLaneRegs s k r).ctl = s.ctl := rfl
@[simp] theorem setLaneRegs_cfg (s : State) (k : EKey) (r : LaneRegs) : (setLaneRegs s k r).cfg = s.cfg := rfl
@[simp] theorem setLaneRegs_q (s : State) (k : EKey) (r : LaneRegs) : (setLaneRegs s k r).q = s.q := rfl
@[simp] theorem setLaneRegs_regs (s : State) (k : EKey) (r : LaneRegs) : (setLaneRegs s k r).regs = aset s.regs k r := rfl
@[simp] theorem setLaneRegs_firings (s : State) (k : EKey) (r : LaneRegs) : (setLaneRegs s k r).firings = s.firings := rfl
@[simp] theorem setLaneRegs_tiles (s : State) (k : EKey) (r : LaneRegs) : (setLaneRegs s k r).tiles = s.tiles := rfl
@[simp] theorem setLaneRegs_mem (s : State) (k : EKey) (r : LaneRegs) : (setLaneRegs s k r).mem = s.mem := rfl
@[simp] theorem setLaneRegs_ord (s : State) (k : EKey) (r : LaneRegs) : (setLaneRegs s k r).ord = s.ord := rfl
@[simp] theorem setLaneRegs_fr (s : State) (k : EKey) (r : LaneRegs) : (setLaneRegs s k r).fr = s.fr := rfl
@[simp] theorem setLaneRegs_eng (s : State) (k : EKey) (r : LaneRegs) : (setLaneRegs s k r).eng = s.eng := rfl
@[simp] theorem setLaneRegs_la (s : State) (k : EKey) (r : LaneRegs) : (setLaneRegs s k r).la = s.la := rfl
@[simp] theorem setLaneRegs_host (s : State) (k : EKey) (r : LaneRegs) : (setLaneRegs s k r).host = s.host := rfl
@[simp] theorem setFiring_ctl (s : State) (f : Firing) : (setFiring s f).ctl = s.ctl := rfl
@[simp] theorem setFiring_cfg (s : State) (f : Firing) : (setFiring s f).cfg = s.cfg := rfl
@[simp] theorem setFiring_q (s : State) (f : Firing) : (setFiring s f).q = s.q := rfl
@[simp] theorem setFiring_regs (s : State) (f : Firing) : (setFiring s f).regs = s.regs := rfl
@[simp] theorem setFiring_firings (s : State) (f : Firing) : (setFiring s f).firings = updIf s.firings (fun g => g.id == f.id) fun _ => f := rfl
@[simp] theorem setFiring_tiles (s : State) (f : Firing) : (setFiring s f).tiles = s.tiles := rfl
@[simp] theorem setFiring_mem (s : State) (f : Firing) : (setFiring s f).mem = s.mem := rfl
@[simp] theorem setFiring_ord (s : State) (f : Firing) : (setFiring s f).ord = s.ord := rfl
@[simp] theorem setFiring_fr (s : State) (f : Firing) : (setFiring s f).fr = s.fr := rfl
@[simp] theorem setFiring_eng (s : State) (f : Firing) : (setFiring s f).eng = s.eng := rfl
@[simp] theorem setFiring_la (s : State) (f : Firing) : (setFiring s f).la = s.la := rfl
@[simp] theorem setFiring_host (s : State) (f : Firing) : (setFiring s f).host = s.host := rfl
@[simp] theorem setFlights_ctl (s : State) (fs : List Flight) : (setFlights s fs).ctl = s.ctl := rfl
@[simp] theorem setFlights_cfg (s : State) (fs : List Flight) : (setFlights s fs).cfg = s.cfg := rfl
@[simp] theorem setFlights_q (s : State) (fs : List Flight) : (setFlights s fs).q = { s.q with flights := fs } := rfl
@[simp] theorem setFlights_regs (s : State) (fs : List Flight) : (setFlights s fs).regs = s.regs := rfl
@[simp] theorem setFlights_firings (s : State) (fs : List Flight) : (setFlights s fs).firings = s.firings := rfl
@[simp] theorem setFlights_tiles (s : State) (fs : List Flight) : (setFlights s fs).tiles = s.tiles := rfl
@[simp] theorem setFlights_mem (s : State) (fs : List Flight) : (setFlights s fs).mem = s.mem := rfl
@[simp] theorem setFlights_ord (s : State) (fs : List Flight) : (setFlights s fs).ord = s.ord := rfl
@[simp] theorem setFlights_fr (s : State) (fs : List Flight) : (setFlights s fs).fr = s.fr := rfl
@[simp] theorem setFlights_eng (s : State) (fs : List Flight) : (setFlights s fs).eng = s.eng := rfl
@[simp] theorem setFlights_la (s : State) (fs : List Flight) : (setFlights s fs).la = s.la := rfl
@[simp] theorem setFlights_host (s : State) (fs : List Flight) : (setFlights s fs).host = s.host := rfl
@[simp] theorem landFlight_ctl (s : State) (f : Flight) : (landFlight s f).ctl = s.ctl := rfl
@[simp] theorem landFlight_cfg (s : State) (f : Flight) : (landFlight s f).cfg = s.cfg := rfl
@[simp] theorem landFlight_q (s : State) (f : Flight) : (landFlight s f).q = { s.q with flights := s.q.flights.filter fun g => !(g.id == f.id) } := rfl
@[simp] theorem landFlight_regs (s : State) (f : Flight) : (landFlight s f).regs = s.regs := rfl
@[simp] theorem landFlight_firings (s : State) (f : Flight) : (landFlight s f).firings = s.firings := rfl
@[simp] theorem landFlight_tiles (s : State) (f : Flight) : (landFlight s f).tiles = s.tiles := rfl
@[simp] theorem landFlight_mem (s : State) (f : Flight) : (landFlight s f).mem = s.mem := rfl
@[simp] theorem landFlight_ord (s : State) (f : Flight) : (landFlight s f).ord = s.ord := rfl
@[simp] theorem landFlight_fr (s : State) (f : Flight) : (landFlight s f).fr = s.fr := rfl
@[simp] theorem landFlight_eng (s : State) (f : Flight) : (landFlight s f).eng = s.eng := rfl
@[simp] theorem landFlight_la (s : State) (f : Flight) : (landFlight s f).la = s.la := rfl
@[simp] theorem landFlight_host (s : State) (f : Flight) : (landFlight s f).host = s.host := rfl
@[simp] theorem setOwed_ctl (s : State) (os : List Owed) : (setOwed s os).ctl = s.ctl := rfl
@[simp] theorem setOwed_cfg (s : State) (os : List Owed) : (setOwed s os).cfg = s.cfg := rfl
@[simp] theorem setOwed_q (s : State) (os : List Owed) : (setOwed s os).q = { s.q with owed := os } := rfl
@[simp] theorem setOwed_regs (s : State) (os : List Owed) : (setOwed s os).regs = s.regs := rfl
@[simp] theorem setOwed_firings (s : State) (os : List Owed) : (setOwed s os).firings = s.firings := rfl
@[simp] theorem setOwed_tiles (s : State) (os : List Owed) : (setOwed s os).tiles = s.tiles := rfl
@[simp] theorem setOwed_mem (s : State) (os : List Owed) : (setOwed s os).mem = s.mem := rfl
@[simp] theorem setOwed_ord (s : State) (os : List Owed) : (setOwed s os).ord = s.ord := rfl
@[simp] theorem setOwed_fr (s : State) (os : List Owed) : (setOwed s os).fr = s.fr := rfl
@[simp] theorem setOwed_eng (s : State) (os : List Owed) : (setOwed s os).eng = s.eng := rfl
@[simp] theorem setOwed_la (s : State) (os : List Owed) : (setOwed s os).la = s.la := rfl
@[simp] theorem setOwed_host (s : State) (os : List Owed) : (setOwed s os).host = s.host := rfl
@[simp] theorem setBursts_ctl (s : State) (bs : List OpenBurst) : (setBursts s bs).ctl = s.ctl := rfl
@[simp] theorem setBursts_cfg (s : State) (bs : List OpenBurst) : (setBursts s bs).cfg = s.cfg := rfl
@[simp] theorem setBursts_q (s : State) (bs : List OpenBurst) : (setBursts s bs).q = { s.q with bursts := bs } := rfl
@[simp] theorem setBursts_regs (s : State) (bs : List OpenBurst) : (setBursts s bs).regs = s.regs := rfl
@[simp] theorem setBursts_firings (s : State) (bs : List OpenBurst) : (setBursts s bs).firings = s.firings := rfl
@[simp] theorem setBursts_tiles (s : State) (bs : List OpenBurst) : (setBursts s bs).tiles = s.tiles := rfl
@[simp] theorem setBursts_mem (s : State) (bs : List OpenBurst) : (setBursts s bs).mem = s.mem := rfl
@[simp] theorem setBursts_ord (s : State) (bs : List OpenBurst) : (setBursts s bs).ord = s.ord := rfl
@[simp] theorem setBursts_fr (s : State) (bs : List OpenBurst) : (setBursts s bs).fr = s.fr := rfl
@[simp] theorem setBursts_eng (s : State) (bs : List OpenBurst) : (setBursts s bs).eng = s.eng := rfl
@[simp] theorem setBursts_la (s : State) (bs : List OpenBurst) : (setBursts s bs).la = s.la := rfl
@[simp] theorem setBursts_host (s : State) (bs : List OpenBurst) : (setBursts s bs).host = s.host := rfl
@[simp] theorem setBuffers_ctl (s : State) (bs : List Buffered) : (setBuffers s bs).ctl = s.ctl := rfl
@[simp] theorem setBuffers_cfg (s : State) (bs : List Buffered) : (setBuffers s bs).cfg = s.cfg := rfl
@[simp] theorem setBuffers_q (s : State) (bs : List Buffered) : (setBuffers s bs).q = { s.q with buffers := bs } := rfl
@[simp] theorem setBuffers_regs (s : State) (bs : List Buffered) : (setBuffers s bs).regs = s.regs := rfl
@[simp] theorem setBuffers_firings (s : State) (bs : List Buffered) : (setBuffers s bs).firings = s.firings := rfl
@[simp] theorem setBuffers_tiles (s : State) (bs : List Buffered) : (setBuffers s bs).tiles = s.tiles := rfl
@[simp] theorem setBuffers_mem (s : State) (bs : List Buffered) : (setBuffers s bs).mem = s.mem := rfl
@[simp] theorem setBuffers_ord (s : State) (bs : List Buffered) : (setBuffers s bs).ord = s.ord := rfl
@[simp] theorem setBuffers_fr (s : State) (bs : List Buffered) : (setBuffers s bs).fr = s.fr := rfl
@[simp] theorem setBuffers_eng (s : State) (bs : List Buffered) : (setBuffers s bs).eng = s.eng := rfl
@[simp] theorem setBuffers_la (s : State) (bs : List Buffered) : (setBuffers s bs).la = s.la := rfl
@[simp] theorem setBuffers_host (s : State) (bs : List Buffered) : (setBuffers s bs).host = s.host := rfl
@[simp] theorem setBrakes_ctl (s : State) (bs : List BrakeMark) : (setBrakes s bs).ctl = s.ctl := rfl
@[simp] theorem setBrakes_cfg (s : State) (bs : List BrakeMark) : (setBrakes s bs).cfg = s.cfg := rfl
@[simp] theorem setBrakes_q (s : State) (bs : List BrakeMark) : (setBrakes s bs).q = { s.q with brakes := bs } := rfl
@[simp] theorem setBrakes_regs (s : State) (bs : List BrakeMark) : (setBrakes s bs).regs = s.regs := rfl
@[simp] theorem setBrakes_firings (s : State) (bs : List BrakeMark) : (setBrakes s bs).firings = s.firings := rfl
@[simp] theorem setBrakes_tiles (s : State) (bs : List BrakeMark) : (setBrakes s bs).tiles = s.tiles := rfl
@[simp] theorem setBrakes_mem (s : State) (bs : List BrakeMark) : (setBrakes s bs).mem = s.mem := rfl
@[simp] theorem setBrakes_ord (s : State) (bs : List BrakeMark) : (setBrakes s bs).ord = s.ord := rfl
@[simp] theorem setBrakes_fr (s : State) (bs : List BrakeMark) : (setBrakes s bs).fr = s.fr := rfl
@[simp] theorem setBrakes_eng (s : State) (bs : List BrakeMark) : (setBrakes s bs).eng = s.eng := rfl
@[simp] theorem setBrakes_la (s : State) (bs : List BrakeMark) : (setBrakes s bs).la = s.la := rfl
@[simp] theorem setBrakes_host (s : State) (bs : List BrakeMark) : (setBrakes s bs).host = s.host := rfl
@[simp] theorem setReqs_ctl (s : State) (ek : EdgeKey) (n : Nat) : (setReqs s ek n).ctl = s.ctl := rfl
@[simp] theorem setReqs_cfg (s : State) (ek : EdgeKey) (n : Nat) : (setReqs s ek n).cfg = s.cfg := rfl
@[simp] theorem setReqs_q (s : State) (ek : EdgeKey) (n : Nat) : (setReqs s ek n).q = { s.q with reqs := aset s.q.reqs ek n } := rfl
@[simp] theorem setReqs_regs (s : State) (ek : EdgeKey) (n : Nat) : (setReqs s ek n).regs = s.regs := rfl
@[simp] theorem setReqs_firings (s : State) (ek : EdgeKey) (n : Nat) : (setReqs s ek n).firings = s.firings := rfl
@[simp] theorem setReqs_tiles (s : State) (ek : EdgeKey) (n : Nat) : (setReqs s ek n).tiles = s.tiles := rfl
@[simp] theorem setReqs_mem (s : State) (ek : EdgeKey) (n : Nat) : (setReqs s ek n).mem = s.mem := rfl
@[simp] theorem setReqs_ord (s : State) (ek : EdgeKey) (n : Nat) : (setReqs s ek n).ord = s.ord := rfl
@[simp] theorem setReqs_fr (s : State) (ek : EdgeKey) (n : Nat) : (setReqs s ek n).fr = s.fr := rfl
@[simp] theorem setReqs_eng (s : State) (ek : EdgeKey) (n : Nat) : (setReqs s ek n).eng = s.eng := rfl
@[simp] theorem setReqs_la (s : State) (ek : EdgeKey) (n : Nat) : (setReqs s ek n).la = s.la := rfl
@[simp] theorem setReqs_host (s : State) (ek : EdgeKey) (n : Nat) : (setReqs s ek n).host = s.host := rfl
@[simp] theorem setCount_ctl (s : State) (k : EKey) (i : Nat) (tag : Tag) (g : BitVec 12) (n : Nat) : (setCount s k i tag g n).ctl = s.ctl := rfl
@[simp] theorem setCount_cfg (s : State) (k : EKey) (i : Nat) (tag : Tag) (g : BitVec 12) (n : Nat) : (setCount s k i tag g n).cfg = s.cfg := rfl
@[simp] theorem setCount_regs (s : State) (k : EKey) (i : Nat) (tag : Tag) (g : BitVec 12) (n : Nat) : (setCount s k i tag g n).regs = s.regs := rfl
@[simp] theorem setCount_firings (s : State) (k : EKey) (i : Nat) (tag : Tag) (g : BitVec 12) (n : Nat) : (setCount s k i tag g n).firings = s.firings := rfl
@[simp] theorem setCount_tiles (s : State) (k : EKey) (i : Nat) (tag : Tag) (g : BitVec 12) (n : Nat) : (setCount s k i tag g n).tiles = s.tiles := rfl
@[simp] theorem setCount_mem (s : State) (k : EKey) (i : Nat) (tag : Tag) (g : BitVec 12) (n : Nat) : (setCount s k i tag g n).mem = s.mem := rfl
@[simp] theorem setCount_ord (s : State) (k : EKey) (i : Nat) (tag : Tag) (g : BitVec 12) (n : Nat) : (setCount s k i tag g n).ord = s.ord := rfl
@[simp] theorem setCount_fr (s : State) (k : EKey) (i : Nat) (tag : Tag) (g : BitVec 12) (n : Nat) : (setCount s k i tag g n).fr = s.fr := rfl
@[simp] theorem setCount_eng (s : State) (k : EKey) (i : Nat) (tag : Tag) (g : BitVec 12) (n : Nat) : (setCount s k i tag g n).eng = s.eng := rfl
@[simp] theorem setCount_la (s : State) (k : EKey) (i : Nat) (tag : Tag) (g : BitVec 12) (n : Nat) : (setCount s k i tag g n).la = s.la := rfl
@[simp] theorem setCount_host (s : State) (k : EKey) (i : Nat) (tag : Tag) (g : BitVec 12) (n : Nat) : (setCount s k i tag g n).host = s.host := rfl
@[simp] theorem setArriving_ctl (s : State) (ek : EdgeKey) (x : Nat × Bool × BitVec 12) : (setArriving s ek x).ctl = s.ctl := rfl
@[simp] theorem setArriving_cfg (s : State) (ek : EdgeKey) (x : Nat × Bool × BitVec 12) : (setArriving s ek x).cfg = s.cfg := rfl
@[simp] theorem setArriving_regs (s : State) (ek : EdgeKey) (x : Nat × Bool × BitVec 12) : (setArriving s ek x).regs = s.regs := rfl
@[simp] theorem setArriving_firings (s : State) (ek : EdgeKey) (x : Nat × Bool × BitVec 12) : (setArriving s ek x).firings = s.firings := rfl
@[simp] theorem setArriving_tiles (s : State) (ek : EdgeKey) (x : Nat × Bool × BitVec 12) : (setArriving s ek x).tiles = s.tiles := rfl
@[simp] theorem setArriving_mem (s : State) (ek : EdgeKey) (x : Nat × Bool × BitVec 12) : (setArriving s ek x).mem = s.mem := rfl
@[simp] theorem setArriving_ord (s : State) (ek : EdgeKey) (x : Nat × Bool × BitVec 12) : (setArriving s ek x).ord = s.ord := rfl
@[simp] theorem setArriving_fr (s : State) (ek : EdgeKey) (x : Nat × Bool × BitVec 12) : (setArriving s ek x).fr = s.fr := rfl
@[simp] theorem setArriving_eng (s : State) (ek : EdgeKey) (x : Nat × Bool × BitVec 12) : (setArriving s ek x).eng = s.eng := rfl
@[simp] theorem setArriving_la (s : State) (ek : EdgeKey) (x : Nat × Bool × BitVec 12) : (setArriving s ek x).la = s.la := rfl
@[simp] theorem setArriving_host (s : State) (ek : EdgeKey) (x : Nat × Bool × BitVec 12) : (setArriving s ek x).host = s.host := rfl
@[simp] theorem bindHead_ctl (s : State) (k : EKey) (i : Nat) (src : EKey) (t : Token) : (bindHead s k i src t).ctl = s.ctl := rfl
@[simp] theorem bindHead_cfg (s : State) (k : EKey) (i : Nat) (src : EKey) (t : Token) : (bindHead s k i src t).cfg = s.cfg := rfl
@[simp] theorem bindHead_regs (s : State) (k : EKey) (i : Nat) (src : EKey) (t : Token) : (bindHead s k i src t).regs = s.regs := rfl
@[simp] theorem bindHead_firings (s : State) (k : EKey) (i : Nat) (src : EKey) (t : Token) : (bindHead s k i src t).firings = s.firings := rfl
@[simp] theorem bindHead_tiles (s : State) (k : EKey) (i : Nat) (src : EKey) (t : Token) : (bindHead s k i src t).tiles = s.tiles := rfl
@[simp] theorem bindHead_mem (s : State) (k : EKey) (i : Nat) (src : EKey) (t : Token) : (bindHead s k i src t).mem = s.mem := rfl
@[simp] theorem bindHead_ord (s : State) (k : EKey) (i : Nat) (src : EKey) (t : Token) : (bindHead s k i src t).ord = s.ord := rfl
@[simp] theorem bindHead_fr (s : State) (k : EKey) (i : Nat) (src : EKey) (t : Token) : (bindHead s k i src t).fr = s.fr := rfl
@[simp] theorem bindHead_eng (s : State) (k : EKey) (i : Nat) (src : EKey) (t : Token) : (bindHead s k i src t).eng = s.eng := rfl
@[simp] theorem bindHead_la (s : State) (k : EKey) (i : Nat) (src : EKey) (t : Token) : (bindHead s k i src t).la = s.la := rfl
@[simp] theorem bindHead_host (s : State) (k : EKey) (i : Nat) (src : EKey) (t : Token) : (bindHead s k i src t).host = s.host := rfl
@[simp] theorem unbindHead_ctl (s : State) (k : EKey) (i : Nat) (src : EKey) : (unbindHead s k i src).ctl = s.ctl := rfl
@[simp] theorem unbindHead_cfg (s : State) (k : EKey) (i : Nat) (src : EKey) : (unbindHead s k i src).cfg = s.cfg := rfl
@[simp] theorem unbindHead_regs (s : State) (k : EKey) (i : Nat) (src : EKey) : (unbindHead s k i src).regs = s.regs := rfl
@[simp] theorem unbindHead_firings (s : State) (k : EKey) (i : Nat) (src : EKey) : (unbindHead s k i src).firings = s.firings := rfl
@[simp] theorem unbindHead_tiles (s : State) (k : EKey) (i : Nat) (src : EKey) : (unbindHead s k i src).tiles = s.tiles := rfl
@[simp] theorem unbindHead_mem (s : State) (k : EKey) (i : Nat) (src : EKey) : (unbindHead s k i src).mem = s.mem := rfl
@[simp] theorem unbindHead_ord (s : State) (k : EKey) (i : Nat) (src : EKey) : (unbindHead s k i src).ord = s.ord := rfl
@[simp] theorem unbindHead_fr (s : State) (k : EKey) (i : Nat) (src : EKey) : (unbindHead s k i src).fr = s.fr := rfl
@[simp] theorem unbindHead_eng (s : State) (k : EKey) (i : Nat) (src : EKey) : (unbindHead s k i src).eng = s.eng := rfl
@[simp] theorem unbindHead_la (s : State) (k : EKey) (i : Nat) (src : EKey) : (unbindHead s k i src).la = s.la := rfl
@[simp] theorem unbindHead_host (s : State) (k : EKey) (i : Nat) (src : EKey) : (unbindHead s k i src).host = s.host := rfl
@[simp] theorem setMxBound_ctl (s : State) (k : EKey) (h : Option BoundHead) : (setMxBound s k h).ctl = s.ctl := rfl
@[simp] theorem setMxBound_cfg (s : State) (k : EKey) (h : Option BoundHead) : (setMxBound s k h).cfg = s.cfg := rfl
@[simp] theorem setMxBound_regs (s : State) (k : EKey) (h : Option BoundHead) : (setMxBound s k h).regs = s.regs := rfl
@[simp] theorem setMxBound_firings (s : State) (k : EKey) (h : Option BoundHead) : (setMxBound s k h).firings = s.firings := rfl
@[simp] theorem setMxBound_tiles (s : State) (k : EKey) (h : Option BoundHead) : (setMxBound s k h).tiles = s.tiles := rfl
@[simp] theorem setMxBound_mem (s : State) (k : EKey) (h : Option BoundHead) : (setMxBound s k h).mem = s.mem := rfl
@[simp] theorem setMxBound_ord (s : State) (k : EKey) (h : Option BoundHead) : (setMxBound s k h).ord = s.ord := rfl
@[simp] theorem setMxBound_fr (s : State) (k : EKey) (h : Option BoundHead) : (setMxBound s k h).fr = s.fr := rfl
@[simp] theorem setMxBound_eng (s : State) (k : EKey) (h : Option BoundHead) : (setMxBound s k h).eng = s.eng := rfl
@[simp] theorem setMxBound_la (s : State) (k : EKey) (h : Option BoundHead) : (setMxBound s k h).la = s.la := rfl
@[simp] theorem setMxBound_host (s : State) (k : EKey) (h : Option BoundHead) : (setMxBound s k h).host = s.host := rfl
@[simp] theorem setMem_ctl (s : State) (m : Mems) : (setMem s m).ctl = s.ctl := rfl
@[simp] theorem setMem_cfg (s : State) (m : Mems) : (setMem s m).cfg = s.cfg := rfl
@[simp] theorem setMem_q (s : State) (m : Mems) : (setMem s m).q = s.q := rfl
@[simp] theorem setMem_regs (s : State) (m : Mems) : (setMem s m).regs = s.regs := rfl
@[simp] theorem setMem_firings (s : State) (m : Mems) : (setMem s m).firings = s.firings := rfl
@[simp] theorem setMem_tiles (s : State) (m : Mems) : (setMem s m).tiles = s.tiles := rfl
@[simp] theorem setMem_mem (s : State) (m : Mems) : (setMem s m).mem = m := rfl
@[simp] theorem setMem_ord (s : State) (m : Mems) : (setMem s m).ord = s.ord := rfl
@[simp] theorem setMem_fr (s : State) (m : Mems) : (setMem s m).fr = s.fr := rfl
@[simp] theorem setMem_eng (s : State) (m : Mems) : (setMem s m).eng = s.eng := rfl
@[simp] theorem setMem_la (s : State) (m : Mems) : (setMem s m).la = s.la := rfl
@[simp] theorem setMem_host (s : State) (m : Mems) : (setMem s m).host = s.host := rfl
@[simp] theorem withL2_ctl (s : State) (x : List L2Line) : (withL2 s x).ctl = s.ctl := rfl
@[simp] theorem withL2_cfg (s : State) (x : List L2Line) : (withL2 s x).cfg = s.cfg := rfl
@[simp] theorem withL2_q (s : State) (x : List L2Line) : (withL2 s x).q = s.q := rfl
@[simp] theorem withL2_regs (s : State) (x : List L2Line) : (withL2 s x).regs = s.regs := rfl
@[simp] theorem withL2_firings (s : State) (x : List L2Line) : (withL2 s x).firings = s.firings := rfl
@[simp] theorem withL2_tiles (s : State) (x : List L2Line) : (withL2 s x).tiles = s.tiles := rfl
@[simp] theorem withL2_mem (s : State) (x : List L2Line) : (withL2 s x).mem = { s.mem with l2 := x } := rfl
@[simp] theorem withL2_ord (s : State) (x : List L2Line) : (withL2 s x).ord = s.ord := rfl
@[simp] theorem withL2_fr (s : State) (x : List L2Line) : (withL2 s x).fr = s.fr := rfl
@[simp] theorem withL2_eng (s : State) (x : List L2Line) : (withL2 s x).eng = s.eng := rfl
@[simp] theorem withL2_la (s : State) (x : List L2Line) : (withL2 s x).la = s.la := rfl
@[simp] theorem withL2_host (s : State) (x : List L2Line) : (withL2 s x).host = s.host := rfl
@[simp] theorem withL1_ctl (s : State) (x : List L1Line) : (withL1 s x).ctl = s.ctl := rfl
@[simp] theorem withL1_cfg (s : State) (x : List L1Line) : (withL1 s x).cfg = s.cfg := rfl
@[simp] theorem withL1_q (s : State) (x : List L1Line) : (withL1 s x).q = s.q := rfl
@[simp] theorem withL1_regs (s : State) (x : List L1Line) : (withL1 s x).regs = s.regs := rfl
@[simp] theorem withL1_firings (s : State) (x : List L1Line) : (withL1 s x).firings = s.firings := rfl
@[simp] theorem withL1_tiles (s : State) (x : List L1Line) : (withL1 s x).tiles = s.tiles := rfl
@[simp] theorem withL1_mem (s : State) (x : List L1Line) : (withL1 s x).mem = { s.mem with l1 := x } := rfl
@[simp] theorem withL1_ord (s : State) (x : List L1Line) : (withL1 s x).ord = s.ord := rfl
@[simp] theorem withL1_fr (s : State) (x : List L1Line) : (withL1 s x).fr = s.fr := rfl
@[simp] theorem withL1_eng (s : State) (x : List L1Line) : (withL1 s x).eng = s.eng := rfl
@[simp] theorem withL1_la (s : State) (x : List L1Line) : (withL1 s x).la = s.la := rfl
@[simp] theorem withL1_host (s : State) (x : List L1Line) : (withL1 s x).host = s.host := rfl
@[simp] theorem withScratch_ctl (s : State) (x : Memory) : (withScratch s x).ctl = s.ctl := rfl
@[simp] theorem withScratch_cfg (s : State) (x : Memory) : (withScratch s x).cfg = s.cfg := rfl
@[simp] theorem withScratch_q (s : State) (x : Memory) : (withScratch s x).q = s.q := rfl
@[simp] theorem withScratch_regs (s : State) (x : Memory) : (withScratch s x).regs = s.regs := rfl
@[simp] theorem withScratch_firings (s : State) (x : Memory) : (withScratch s x).firings = s.firings := rfl
@[simp] theorem withScratch_tiles (s : State) (x : Memory) : (withScratch s x).tiles = s.tiles := rfl
@[simp] theorem withScratch_mem (s : State) (x : Memory) : (withScratch s x).mem = { s.mem with scratch := x } := rfl
@[simp] theorem withScratch_ord (s : State) (x : Memory) : (withScratch s x).ord = s.ord := rfl
@[simp] theorem withScratch_fr (s : State) (x : Memory) : (withScratch s x).fr = s.fr := rfl
@[simp] theorem withScratch_eng (s : State) (x : Memory) : (withScratch s x).eng = s.eng := rfl
@[simp] theorem withScratch_la (s : State) (x : Memory) : (withScratch s x).la = s.la := rfl
@[simp] theorem withScratch_host (s : State) (x : Memory) : (withScratch s x).host = s.host := rfl
@[simp] theorem withHost_ctl (s : State) (x : Memory) : (withHost s x).ctl = s.ctl := rfl
@[simp] theorem withHost_cfg (s : State) (x : Memory) : (withHost s x).cfg = s.cfg := rfl
@[simp] theorem withHost_q (s : State) (x : Memory) : (withHost s x).q = s.q := rfl
@[simp] theorem withHost_regs (s : State) (x : Memory) : (withHost s x).regs = s.regs := rfl
@[simp] theorem withHost_firings (s : State) (x : Memory) : (withHost s x).firings = s.firings := rfl
@[simp] theorem withHost_tiles (s : State) (x : Memory) : (withHost s x).tiles = s.tiles := rfl
@[simp] theorem withHost_mem (s : State) (x : Memory) : (withHost s x).mem = { s.mem with host := x } := rfl
@[simp] theorem withHost_ord (s : State) (x : Memory) : (withHost s x).ord = s.ord := rfl
@[simp] theorem withHost_fr (s : State) (x : Memory) : (withHost s x).fr = s.fr := rfl
@[simp] theorem withHost_eng (s : State) (x : Memory) : (withHost s x).eng = s.eng := rfl
@[simp] theorem withHost_la (s : State) (x : Memory) : (withHost s x).la = s.la := rfl
@[simp] theorem withHost_host (s : State) (x : Memory) : (withHost s x).host = s.host := rfl
@[simp] theorem withSectors_ctl (s : State) (x : List Sector) : (withSectors s x).ctl = s.ctl := rfl
@[simp] theorem withSectors_cfg (s : State) (x : List Sector) : (withSectors s x).cfg = s.cfg := rfl
@[simp] theorem withSectors_q (s : State) (x : List Sector) : (withSectors s x).q = s.q := rfl
@[simp] theorem withSectors_regs (s : State) (x : List Sector) : (withSectors s x).regs = s.regs := rfl
@[simp] theorem withSectors_firings (s : State) (x : List Sector) : (withSectors s x).firings = s.firings := rfl
@[simp] theorem withSectors_tiles (s : State) (x : List Sector) : (withSectors s x).tiles = s.tiles := rfl
@[simp] theorem withSectors_mem (s : State) (x : List Sector) : (withSectors s x).mem = { s.mem with sectors := x } := rfl
@[simp] theorem withSectors_ord (s : State) (x : List Sector) : (withSectors s x).ord = s.ord := rfl
@[simp] theorem withSectors_fr (s : State) (x : List Sector) : (withSectors s x).fr = s.fr := rfl
@[simp] theorem withSectors_eng (s : State) (x : List Sector) : (withSectors s x).eng = s.eng := rfl
@[simp] theorem withSectors_la (s : State) (x : List Sector) : (withSectors s x).la = s.la := rfl
@[simp] theorem withSectors_host (s : State) (x : List Sector) : (withSectors s x).host = s.host := rfl
@[simp] theorem withTrans_ctl (s : State) (x : List Trans) : (withTrans s x).ctl = s.ctl := rfl
@[simp] theorem withTrans_cfg (s : State) (x : List Trans) : (withTrans s x).cfg = s.cfg := rfl
@[simp] theorem withTrans_q (s : State) (x : List Trans) : (withTrans s x).q = s.q := rfl
@[simp] theorem withTrans_regs (s : State) (x : List Trans) : (withTrans s x).regs = s.regs := rfl
@[simp] theorem withTrans_firings (s : State) (x : List Trans) : (withTrans s x).firings = s.firings := rfl
@[simp] theorem withTrans_tiles (s : State) (x : List Trans) : (withTrans s x).tiles = s.tiles := rfl
@[simp] theorem withTrans_mem (s : State) (x : List Trans) : (withTrans s x).mem = { s.mem with trans := x } := rfl
@[simp] theorem withTrans_ord (s : State) (x : List Trans) : (withTrans s x).ord = s.ord := rfl
@[simp] theorem withTrans_fr (s : State) (x : List Trans) : (withTrans s x).fr = s.fr := rfl
@[simp] theorem withTrans_eng (s : State) (x : List Trans) : (withTrans s x).eng = s.eng := rfl
@[simp] theorem withTrans_la (s : State) (x : List Trans) : (withTrans s x).la = s.la := rfl
@[simp] theorem withTrans_host (s : State) (x : List Trans) : (withTrans s x).host = s.host := rfl
@[simp] theorem setLine_ctl (s : State) (l : L2Line) : (setLine s l).ctl = s.ctl := rfl
@[simp] theorem setLine_cfg (s : State) (l : L2Line) : (setLine s l).cfg = s.cfg := rfl
@[simp] theorem setLine_q (s : State) (l : L2Line) : (setLine s l).q = s.q := rfl
@[simp] theorem setLine_regs (s : State) (l : L2Line) : (setLine s l).regs = s.regs := rfl
@[simp] theorem setLine_firings (s : State) (l : L2Line) : (setLine s l).firings = s.firings := rfl
@[simp] theorem setLine_tiles (s : State) (l : L2Line) : (setLine s l).tiles = s.tiles := rfl
@[simp] theorem setLine_ord (s : State) (l : L2Line) : (setLine s l).ord = s.ord := rfl
@[simp] theorem setLine_fr (s : State) (l : L2Line) : (setLine s l).fr = s.fr := rfl
@[simp] theorem setLine_eng (s : State) (l : L2Line) : (setLine s l).eng = s.eng := rfl
@[simp] theorem setLine_la (s : State) (l : L2Line) : (setLine s l).la = s.la := rfl
@[simp] theorem setLine_host (s : State) (l : L2Line) : (setLine s l).host = s.host := rfl
@[simp] theorem dropLine_ctl (s : State) (n : Nat) : (dropLine s n).ctl = s.ctl := rfl
@[simp] theorem dropLine_cfg (s : State) (n : Nat) : (dropLine s n).cfg = s.cfg := rfl
@[simp] theorem dropLine_q (s : State) (n : Nat) : (dropLine s n).q = s.q := rfl
@[simp] theorem dropLine_regs (s : State) (n : Nat) : (dropLine s n).regs = s.regs := rfl
@[simp] theorem dropLine_firings (s : State) (n : Nat) : (dropLine s n).firings = s.firings := rfl
@[simp] theorem dropLine_tiles (s : State) (n : Nat) : (dropLine s n).tiles = s.tiles := rfl
@[simp] theorem dropLine_ord (s : State) (n : Nat) : (dropLine s n).ord = s.ord := rfl
@[simp] theorem dropLine_fr (s : State) (n : Nat) : (dropLine s n).fr = s.fr := rfl
@[simp] theorem dropLine_eng (s : State) (n : Nat) : (dropLine s n).eng = s.eng := rfl
@[simp] theorem dropLine_la (s : State) (n : Nat) : (dropLine s n).la = s.la := rfl
@[simp] theorem dropLine_host (s : State) (n : Nat) : (dropLine s n).host = s.host := rfl
@[simp] theorem setSector_ctl (s : State) (x : Sector) : (setSector s x).ctl = s.ctl := rfl
@[simp] theorem setSector_cfg (s : State) (x : Sector) : (setSector s x).cfg = s.cfg := rfl
@[simp] theorem setSector_q (s : State) (x : Sector) : (setSector s x).q = s.q := rfl
@[simp] theorem setSector_regs (s : State) (x : Sector) : (setSector s x).regs = s.regs := rfl
@[simp] theorem setSector_firings (s : State) (x : Sector) : (setSector s x).firings = s.firings := rfl
@[simp] theorem setSector_tiles (s : State) (x : Sector) : (setSector s x).tiles = s.tiles := rfl
@[simp] theorem setSector_ord (s : State) (x : Sector) : (setSector s x).ord = s.ord := rfl
@[simp] theorem setSector_fr (s : State) (x : Sector) : (setSector s x).fr = s.fr := rfl
@[simp] theorem setSector_eng (s : State) (x : Sector) : (setSector s x).eng = s.eng := rfl
@[simp] theorem setSector_la (s : State) (x : Sector) : (setSector s x).la = s.la := rfl
@[simp] theorem setSector_host (s : State) (x : Sector) : (setSector s x).host = s.host := rfl
@[simp] theorem setSync_ctl (s : State) (m : SyncMark) : (setSync s m).ctl = s.ctl := rfl
@[simp] theorem setSync_cfg (s : State) (m : SyncMark) : (setSync s m).cfg = s.cfg := rfl
@[simp] theorem setSync_q (s : State) (m : SyncMark) : (setSync s m).q = s.q := rfl
@[simp] theorem setSync_regs (s : State) (m : SyncMark) : (setSync s m).regs = s.regs := rfl
@[simp] theorem setSync_firings (s : State) (m : SyncMark) : (setSync s m).firings = s.firings := rfl
@[simp] theorem setSync_tiles (s : State) (m : SyncMark) : (setSync s m).tiles = s.tiles := rfl
@[simp] theorem setSync_ord (s : State) (m : SyncMark) : (setSync s m).ord = s.ord := rfl
@[simp] theorem setSync_fr (s : State) (m : SyncMark) : (setSync s m).fr = s.fr := rfl
@[simp] theorem setSync_eng (s : State) (m : SyncMark) : (setSync s m).eng = s.eng := rfl
@[simp] theorem setSync_la (s : State) (m : SyncMark) : (setSync s m).la = s.la := rfl
@[simp] theorem setSync_host (s : State) (m : SyncMark) : (setSync s m).host = s.host := rfl
@[simp] theorem setBar_ctl (s : State) (b : Bar) : (setBar s b).ctl = s.ctl := rfl
@[simp] theorem setBar_cfg (s : State) (b : Bar) : (setBar s b).cfg = s.cfg := rfl
@[simp] theorem setBar_q (s : State) (b : Bar) : (setBar s b).q = s.q := rfl
@[simp] theorem setBar_regs (s : State) (b : Bar) : (setBar s b).regs = s.regs := rfl
@[simp] theorem setBar_firings (s : State) (b : Bar) : (setBar s b).firings = s.firings := rfl
@[simp] theorem setBar_tiles (s : State) (b : Bar) : (setBar s b).tiles = s.tiles := rfl
@[simp] theorem setBar_ord (s : State) (b : Bar) : (setBar s b).ord = s.ord := rfl
@[simp] theorem setBar_fr (s : State) (b : Bar) : (setBar s b).fr = s.fr := rfl
@[simp] theorem setBar_eng (s : State) (b : Bar) : (setBar s b).eng = s.eng := rfl
@[simp] theorem setBar_la (s : State) (b : Bar) : (setBar s b).la = s.la := rfl
@[simp] theorem setBar_host (s : State) (b : Bar) : (setBar s b).host = s.host := rfl
@[simp] theorem setNodes_ctl (s : State) (ns : List MNode) : (setNodes s ns).ctl = s.ctl := rfl
@[simp] theorem setNodes_cfg (s : State) (ns : List MNode) : (setNodes s ns).cfg = s.cfg := rfl
@[simp] theorem setNodes_q (s : State) (ns : List MNode) : (setNodes s ns).q = s.q := rfl
@[simp] theorem setNodes_regs (s : State) (ns : List MNode) : (setNodes s ns).regs = s.regs := rfl
@[simp] theorem setNodes_firings (s : State) (ns : List MNode) : (setNodes s ns).firings = s.firings := rfl
@[simp] theorem setNodes_tiles (s : State) (ns : List MNode) : (setNodes s ns).tiles = s.tiles := rfl
@[simp] theorem setNodes_mem (s : State) (ns : List MNode) : (setNodes s ns).mem = s.mem := rfl
@[simp] theorem setNodes_ord (s : State) (ns : List MNode) : (setNodes s ns).ord = { s.ord with nodes := ns } := rfl
@[simp] theorem setNodes_fr (s : State) (ns : List MNode) : (setNodes s ns).fr = s.fr := rfl
@[simp] theorem setNodes_eng (s : State) (ns : List MNode) : (setNodes s ns).eng = s.eng := rfl
@[simp] theorem setNodes_la (s : State) (ns : List MNode) : (setNodes s ns).la = s.la := rfl
@[simp] theorem setNodes_host (s : State) (ns : List MNode) : (setNodes s ns).host = s.host := rfl
@[simp] theorem setNode_ctl (s : State) (n : MNode) : (setNode s n).ctl = s.ctl := rfl
@[simp] theorem setNode_cfg (s : State) (n : MNode) : (setNode s n).cfg = s.cfg := rfl
@[simp] theorem setNode_q (s : State) (n : MNode) : (setNode s n).q = s.q := rfl
@[simp] theorem setNode_regs (s : State) (n : MNode) : (setNode s n).regs = s.regs := rfl
@[simp] theorem setNode_firings (s : State) (n : MNode) : (setNode s n).firings = s.firings := rfl
@[simp] theorem setNode_tiles (s : State) (n : MNode) : (setNode s n).tiles = s.tiles := rfl
@[simp] theorem setNode_mem (s : State) (n : MNode) : (setNode s n).mem = s.mem := rfl
@[simp] theorem setNode_fr (s : State) (n : MNode) : (setNode s n).fr = s.fr := rfl
@[simp] theorem setNode_eng (s : State) (n : MNode) : (setNode s n).eng = s.eng := rfl
@[simp] theorem setNode_la (s : State) (n : MNode) : (setNode s n).la = s.la := rfl
@[simp] theorem setNode_host (s : State) (n : MNode) : (setNode s n).host = s.host := rfl
@[simp] theorem dropNode_ctl (s : State) (id : Nat) : (dropNode s id).ctl = s.ctl := rfl
@[simp] theorem dropNode_cfg (s : State) (id : Nat) : (dropNode s id).cfg = s.cfg := rfl
@[simp] theorem dropNode_q (s : State) (id : Nat) : (dropNode s id).q = s.q := rfl
@[simp] theorem dropNode_regs (s : State) (id : Nat) : (dropNode s id).regs = s.regs := rfl
@[simp] theorem dropNode_firings (s : State) (id : Nat) : (dropNode s id).firings = s.firings := rfl
@[simp] theorem dropNode_tiles (s : State) (id : Nat) : (dropNode s id).tiles = s.tiles := rfl
@[simp] theorem dropNode_mem (s : State) (id : Nat) : (dropNode s id).mem = s.mem := rfl
@[simp] theorem dropNode_fr (s : State) (id : Nat) : (dropNode s id).fr = s.fr := rfl
@[simp] theorem dropNode_eng (s : State) (id : Nat) : (dropNode s id).eng = s.eng := rfl
@[simp] theorem dropNode_la (s : State) (id : Nat) : (dropNode s id).la = s.la := rfl
@[simp] theorem dropNode_host (s : State) (id : Nat) : (dropNode s id).host = s.host := rfl
@[simp] theorem setLclk_ctl (s : State) (st c v : Nat) : (setLclk s st c v).ctl = s.ctl := rfl
@[simp] theorem setLclk_cfg (s : State) (st c v : Nat) : (setLclk s st c v).cfg = s.cfg := rfl
@[simp] theorem setLclk_q (s : State) (st c v : Nat) : (setLclk s st c v).q = s.q := rfl
@[simp] theorem setLclk_regs (s : State) (st c v : Nat) : (setLclk s st c v).regs = s.regs := rfl
@[simp] theorem setLclk_firings (s : State) (st c v : Nat) : (setLclk s st c v).firings = s.firings := rfl
@[simp] theorem setLclk_tiles (s : State) (st c v : Nat) : (setLclk s st c v).tiles = s.tiles := rfl
@[simp] theorem setLclk_mem (s : State) (st c v : Nat) : (setLclk s st c v).mem = s.mem := rfl
@[simp] theorem setLclk_fr (s : State) (st c v : Nat) : (setLclk s st c v).fr = s.fr := rfl
@[simp] theorem setLclk_eng (s : State) (st c v : Nat) : (setLclk s st c v).eng = s.eng := rfl
@[simp] theorem setLclk_la (s : State) (st c v : Nat) : (setLclk s st c v).la = s.la := rfl
@[simp] theorem setLclk_host (s : State) (st c v : Nat) : (setLclk s st c v).host = s.host := rfl
@[simp] theorem setShadows_ctl (s : State) (hs : List Shadow) : (setShadows s hs).ctl = s.ctl := rfl
@[simp] theorem setShadows_cfg (s : State) (hs : List Shadow) : (setShadows s hs).cfg = s.cfg := rfl
@[simp] theorem setShadows_q (s : State) (hs : List Shadow) : (setShadows s hs).q = s.q := rfl
@[simp] theorem setShadows_regs (s : State) (hs : List Shadow) : (setShadows s hs).regs = s.regs := rfl
@[simp] theorem setShadows_firings (s : State) (hs : List Shadow) : (setShadows s hs).firings = s.firings := rfl
@[simp] theorem setShadows_tiles (s : State) (hs : List Shadow) : (setShadows s hs).tiles = s.tiles := rfl
@[simp] theorem setShadows_mem (s : State) (hs : List Shadow) : (setShadows s hs).mem = s.mem := rfl
@[simp] theorem setShadows_ord (s : State) (hs : List Shadow) : (setShadows s hs).ord = s.ord := rfl
@[simp] theorem setShadows_fr (s : State) (hs : List Shadow) : (setShadows s hs).fr = { s.fr with shadows := hs } := rfl
@[simp] theorem setShadows_eng (s : State) (hs : List Shadow) : (setShadows s hs).eng = s.eng := rfl
@[simp] theorem setShadows_la (s : State) (hs : List Shadow) : (setShadows s hs).la = s.la := rfl
@[simp] theorem setShadows_host (s : State) (hs : List Shadow) : (setShadows s hs).host = s.host := rfl
@[simp] theorem setFront_ctl (s : State) (f : Front) : (setFront s f).ctl = s.ctl := rfl
@[simp] theorem setFront_cfg (s : State) (f : Front) : (setFront s f).cfg = s.cfg := rfl
@[simp] theorem setFront_q (s : State) (f : Front) : (setFront s f).q = s.q := rfl
@[simp] theorem setFront_regs (s : State) (f : Front) : (setFront s f).regs = s.regs := rfl
@[simp] theorem setFront_firings (s : State) (f : Front) : (setFront s f).firings = s.firings := rfl
@[simp] theorem setFront_tiles (s : State) (f : Front) : (setFront s f).tiles = s.tiles := rfl
@[simp] theorem setFront_mem (s : State) (f : Front) : (setFront s f).mem = s.mem := rfl
@[simp] theorem setFront_ord (s : State) (f : Front) : (setFront s f).ord = s.ord := rfl
@[simp] theorem setFront_fr (s : State) (f : Front) : (setFront s f).fr = f := rfl
@[simp] theorem setFront_eng (s : State) (f : Front) : (setFront s f).eng = s.eng := rfl
@[simp] theorem setFront_la (s : State) (f : Front) : (setFront s f).la = s.la := rfl
@[simp] theorem setFront_host (s : State) (f : Front) : (setFront s f).host = s.host := rfl
@[simp] theorem setHub_ctl (s : State) (h : Hub) : (setHub s h).ctl = s.ctl := rfl
@[simp] theorem setHub_cfg (s : State) (h : Hub) : (setHub s h).cfg = s.cfg := rfl
@[simp] theorem setHub_q (s : State) (h : Hub) : (setHub s h).q = s.q := rfl
@[simp] theorem setHub_regs (s : State) (h : Hub) : (setHub s h).regs = s.regs := rfl
@[simp] theorem setHub_firings (s : State) (h : Hub) : (setHub s h).firings = s.firings := rfl
@[simp] theorem setHub_tiles (s : State) (h : Hub) : (setHub s h).tiles = s.tiles := rfl
@[simp] theorem setHub_mem (s : State) (h : Hub) : (setHub s h).mem = s.mem := rfl
@[simp] theorem setHub_ord (s : State) (h : Hub) : (setHub s h).ord = s.ord := rfl
@[simp] theorem setHub_eng (s : State) (h : Hub) : (setHub s h).eng = s.eng := rfl
@[simp] theorem setHub_la (s : State) (h : Hub) : (setHub s h).la = s.la := rfl
@[simp] theorem setHub_host (s : State) (h : Hub) : (setHub s h).host = s.host := rfl
@[simp] theorem setLanding_ctl (s : State) (x : Landing) : (setLanding s x).ctl = s.ctl := rfl
@[simp] theorem setLanding_cfg (s : State) (x : Landing) : (setLanding s x).cfg = s.cfg := rfl
@[simp] theorem setLanding_q (s : State) (x : Landing) : (setLanding s x).q = s.q := rfl
@[simp] theorem setLanding_regs (s : State) (x : Landing) : (setLanding s x).regs = s.regs := rfl
@[simp] theorem setLanding_firings (s : State) (x : Landing) : (setLanding s x).firings = s.firings := rfl
@[simp] theorem setLanding_tiles (s : State) (x : Landing) : (setLanding s x).tiles = s.tiles := rfl
@[simp] theorem setLanding_mem (s : State) (x : Landing) : (setLanding s x).mem = s.mem := rfl
@[simp] theorem setLanding_ord (s : State) (x : Landing) : (setLanding s x).ord = s.ord := rfl
@[simp] theorem setLanding_eng (s : State) (x : Landing) : (setLanding s x).eng = s.eng := rfl
@[simp] theorem setLanding_la (s : State) (x : Landing) : (setLanding s x).la = s.la := rfl
@[simp] theorem setLanding_host (s : State) (x : Landing) : (setLanding s x).host = s.host := rfl
@[simp] theorem setFpm_ctl (s : State) (st c : Nat) (v : Lane) : (setFpm s st c v).ctl = s.ctl := rfl
@[simp] theorem setFpm_cfg (s : State) (st c : Nat) (v : Lane) : (setFpm s st c v).cfg = s.cfg := rfl
@[simp] theorem setFpm_q (s : State) (st c : Nat) (v : Lane) : (setFpm s st c v).q = s.q := rfl
@[simp] theorem setFpm_regs (s : State) (st c : Nat) (v : Lane) : (setFpm s st c v).regs = s.regs := rfl
@[simp] theorem setFpm_firings (s : State) (st c : Nat) (v : Lane) : (setFpm s st c v).firings = s.firings := rfl
@[simp] theorem setFpm_tiles (s : State) (st c : Nat) (v : Lane) : (setFpm s st c v).tiles = s.tiles := rfl
@[simp] theorem setFpm_mem (s : State) (st c : Nat) (v : Lane) : (setFpm s st c v).mem = s.mem := rfl
@[simp] theorem setFpm_ord (s : State) (st c : Nat) (v : Lane) : (setFpm s st c v).ord = s.ord := rfl
@[simp] theorem setFpm_eng (s : State) (st c : Nat) (v : Lane) : (setFpm s st c v).eng = s.eng := rfl
@[simp] theorem setFpm_la (s : State) (st c : Nat) (v : Lane) : (setFpm s st c v).la = s.la := rfl
@[simp] theorem setFpm_host (s : State) (st c : Nat) (v : Lane) : (setFpm s st c v).host = s.host := rfl
@[simp] theorem setFpf_ctl (s : State) (st c : Nat) (v : Lane) : (setFpf s st c v).ctl = s.ctl := rfl
@[simp] theorem setFpf_cfg (s : State) (st c : Nat) (v : Lane) : (setFpf s st c v).cfg = s.cfg := rfl
@[simp] theorem setFpf_q (s : State) (st c : Nat) (v : Lane) : (setFpf s st c v).q = s.q := rfl
@[simp] theorem setFpf_regs (s : State) (st c : Nat) (v : Lane) : (setFpf s st c v).regs = s.regs := rfl
@[simp] theorem setFpf_firings (s : State) (st c : Nat) (v : Lane) : (setFpf s st c v).firings = s.firings := rfl
@[simp] theorem setFpf_tiles (s : State) (st c : Nat) (v : Lane) : (setFpf s st c v).tiles = s.tiles := rfl
@[simp] theorem setFpf_mem (s : State) (st c : Nat) (v : Lane) : (setFpf s st c v).mem = s.mem := rfl
@[simp] theorem setFpf_ord (s : State) (st c : Nat) (v : Lane) : (setFpf s st c v).ord = s.ord := rfl
@[simp] theorem setFpf_eng (s : State) (st c : Nat) (v : Lane) : (setFpf s st c v).eng = s.eng := rfl
@[simp] theorem setFpf_la (s : State) (st c : Nat) (v : Lane) : (setFpf s st c v).la = s.la := rfl
@[simp] theorem setFpf_host (s : State) (st c : Nat) (v : Lane) : (setFpf s st c v).host = s.host := rfl
@[simp] theorem setEng_ctl (s : State) (e : Engines) : (setEng s e).ctl = s.ctl := rfl
@[simp] theorem setEng_cfg (s : State) (e : Engines) : (setEng s e).cfg = s.cfg := rfl
@[simp] theorem setEng_q (s : State) (e : Engines) : (setEng s e).q = s.q := rfl
@[simp] theorem setEng_regs (s : State) (e : Engines) : (setEng s e).regs = s.regs := rfl
@[simp] theorem setEng_firings (s : State) (e : Engines) : (setEng s e).firings = s.firings := rfl
@[simp] theorem setEng_tiles (s : State) (e : Engines) : (setEng s e).tiles = s.tiles := rfl
@[simp] theorem setEng_mem (s : State) (e : Engines) : (setEng s e).mem = s.mem := rfl
@[simp] theorem setEng_ord (s : State) (e : Engines) : (setEng s e).ord = s.ord := rfl
@[simp] theorem setEng_fr (s : State) (e : Engines) : (setEng s e).fr = s.fr := rfl
@[simp] theorem setEng_eng (s : State) (e : Engines) : (setEng s e).eng = e := rfl
@[simp] theorem setEng_la (s : State) (e : Engines) : (setEng s e).la = s.la := rfl
@[simp] theorem setEng_host (s : State) (e : Engines) : (setEng s e).host = s.host := rfl
@[simp] theorem setCommands_ctl (s : State) (cs : List Command) : (setCommands s cs).ctl = s.ctl := rfl
@[simp] theorem setCommands_cfg (s : State) (cs : List Command) : (setCommands s cs).cfg = s.cfg := rfl
@[simp] theorem setCommands_q (s : State) (cs : List Command) : (setCommands s cs).q = s.q := rfl
@[simp] theorem setCommands_regs (s : State) (cs : List Command) : (setCommands s cs).regs = s.regs := rfl
@[simp] theorem setCommands_firings (s : State) (cs : List Command) : (setCommands s cs).firings = s.firings := rfl
@[simp] theorem setCommands_tiles (s : State) (cs : List Command) : (setCommands s cs).tiles = s.tiles := rfl
@[simp] theorem setCommands_mem (s : State) (cs : List Command) : (setCommands s cs).mem = s.mem := rfl
@[simp] theorem setCommands_ord (s : State) (cs : List Command) : (setCommands s cs).ord = s.ord := rfl
@[simp] theorem setCommands_fr (s : State) (cs : List Command) : (setCommands s cs).fr = s.fr := rfl
@[simp] theorem setCommands_eng (s : State) (cs : List Command) : (setCommands s cs).eng = { s.eng with commands := cs } := rfl
@[simp] theorem setCommands_la (s : State) (cs : List Command) : (setCommands s cs).la = s.la := rfl
@[simp] theorem setCommands_host (s : State) (cs : List Command) : (setCommands s cs).host = s.host := rfl
@[simp] theorem setCommand_ctl (s : State) (c : Command) : (setCommand s c).ctl = s.ctl := rfl
@[simp] theorem setCommand_cfg (s : State) (c : Command) : (setCommand s c).cfg = s.cfg := rfl
@[simp] theorem setCommand_q (s : State) (c : Command) : (setCommand s c).q = s.q := rfl
@[simp] theorem setCommand_regs (s : State) (c : Command) : (setCommand s c).regs = s.regs := rfl
@[simp] theorem setCommand_firings (s : State) (c : Command) : (setCommand s c).firings = s.firings := rfl
@[simp] theorem setCommand_tiles (s : State) (c : Command) : (setCommand s c).tiles = s.tiles := rfl
@[simp] theorem setCommand_mem (s : State) (c : Command) : (setCommand s c).mem = s.mem := rfl
@[simp] theorem setCommand_ord (s : State) (c : Command) : (setCommand s c).ord = s.ord := rfl
@[simp] theorem setCommand_fr (s : State) (c : Command) : (setCommand s c).fr = s.fr := rfl
@[simp] theorem setCommand_la (s : State) (c : Command) : (setCommand s c).la = s.la := rfl
@[simp] theorem setCommand_host (s : State) (c : Command) : (setCommand s c).host = s.host := rfl
@[simp] theorem dropCommand_ctl (s : State) (id : Nat) : (dropCommand s id).ctl = s.ctl := rfl
@[simp] theorem dropCommand_cfg (s : State) (id : Nat) : (dropCommand s id).cfg = s.cfg := rfl
@[simp] theorem dropCommand_q (s : State) (id : Nat) : (dropCommand s id).q = s.q := rfl
@[simp] theorem dropCommand_regs (s : State) (id : Nat) : (dropCommand s id).regs = s.regs := rfl
@[simp] theorem dropCommand_firings (s : State) (id : Nat) : (dropCommand s id).firings = s.firings := rfl
@[simp] theorem dropCommand_tiles (s : State) (id : Nat) : (dropCommand s id).tiles = s.tiles := rfl
@[simp] theorem dropCommand_mem (s : State) (id : Nat) : (dropCommand s id).mem = s.mem := rfl
@[simp] theorem dropCommand_ord (s : State) (id : Nat) : (dropCommand s id).ord = s.ord := rfl
@[simp] theorem dropCommand_fr (s : State) (id : Nat) : (dropCommand s id).fr = s.fr := rfl
@[simp] theorem dropCommand_la (s : State) (id : Nat) : (dropCommand s id).la = s.la := rfl
@[simp] theorem dropCommand_host (s : State) (id : Nat) : (dropCommand s id).host = s.host := rfl
@[simp] theorem setIsland_ctl (s : State) (k : EKey) (i : Island) : (setIsland s k i).ctl = s.ctl := rfl
@[simp] theorem setIsland_cfg (s : State) (k : EKey) (i : Island) : (setIsland s k i).cfg = s.cfg := rfl
@[simp] theorem setIsland_q (s : State) (k : EKey) (i : Island) : (setIsland s k i).q = s.q := rfl
@[simp] theorem setIsland_regs (s : State) (k : EKey) (i : Island) : (setIsland s k i).regs = s.regs := rfl
@[simp] theorem setIsland_firings (s : State) (k : EKey) (i : Island) : (setIsland s k i).firings = s.firings := rfl
@[simp] theorem setIsland_tiles (s : State) (k : EKey) (i : Island) : (setIsland s k i).tiles = s.tiles := rfl
@[simp] theorem setIsland_mem (s : State) (k : EKey) (i : Island) : (setIsland s k i).mem = s.mem := rfl
@[simp] theorem setIsland_ord (s : State) (k : EKey) (i : Island) : (setIsland s k i).ord = s.ord := rfl
@[simp] theorem setIsland_fr (s : State) (k : EKey) (i : Island) : (setIsland s k i).fr = s.fr := rfl
@[simp] theorem setIsland_eng (s : State) (k : EKey) (i : Island) : (setIsland s k i).eng = { s.eng with islands := aset s.eng.islands k i } := rfl
@[simp] theorem setIsland_la (s : State) (k : EKey) (i : Island) : (setIsland s k i).la = s.la := rfl
@[simp] theorem setIsland_host (s : State) (k : EKey) (i : Island) : (setIsland s k i).host = s.host := rfl
@[simp] theorem setSpokes_ctl (s : State) (xs : List Contribution) : (setSpokes s xs).ctl = s.ctl := rfl
@[simp] theorem setSpokes_cfg (s : State) (xs : List Contribution) : (setSpokes s xs).cfg = s.cfg := rfl
@[simp] theorem setSpokes_q (s : State) (xs : List Contribution) : (setSpokes s xs).q = s.q := rfl
@[simp] theorem setSpokes_regs (s : State) (xs : List Contribution) : (setSpokes s xs).regs = s.regs := rfl
@[simp] theorem setSpokes_firings (s : State) (xs : List Contribution) : (setSpokes s xs).firings = s.firings := rfl
@[simp] theorem setSpokes_tiles (s : State) (xs : List Contribution) : (setSpokes s xs).tiles = s.tiles := rfl
@[simp] theorem setSpokes_mem (s : State) (xs : List Contribution) : (setSpokes s xs).mem = s.mem := rfl
@[simp] theorem setSpokes_ord (s : State) (xs : List Contribution) : (setSpokes s xs).ord = s.ord := rfl
@[simp] theorem setSpokes_fr (s : State) (xs : List Contribution) : (setSpokes s xs).fr = s.fr := rfl
@[simp] theorem setSpokes_eng (s : State) (xs : List Contribution) : (setSpokes s xs).eng = { s.eng with spokes := xs } := rfl
@[simp] theorem setSpokes_la (s : State) (xs : List Contribution) : (setSpokes s xs).la = s.la := rfl
@[simp] theorem setSpokes_host (s : State) (xs : List Contribution) : (setSpokes s xs).host = s.host := rfl
@[simp] theorem setSlots_ctl (s : State) (xs : List SwSlot) : (setSlots s xs).ctl = s.ctl := rfl
@[simp] theorem setSlots_cfg (s : State) (xs : List SwSlot) : (setSlots s xs).cfg = s.cfg := rfl
@[simp] theorem setSlots_q (s : State) (xs : List SwSlot) : (setSlots s xs).q = s.q := rfl
@[simp] theorem setSlots_regs (s : State) (xs : List SwSlot) : (setSlots s xs).regs = s.regs := rfl
@[simp] theorem setSlots_firings (s : State) (xs : List SwSlot) : (setSlots s xs).firings = s.firings := rfl
@[simp] theorem setSlots_tiles (s : State) (xs : List SwSlot) : (setSlots s xs).tiles = s.tiles := rfl
@[simp] theorem setSlots_mem (s : State) (xs : List SwSlot) : (setSlots s xs).mem = s.mem := rfl
@[simp] theorem setSlots_ord (s : State) (xs : List SwSlot) : (setSlots s xs).ord = s.ord := rfl
@[simp] theorem setSlots_fr (s : State) (xs : List SwSlot) : (setSlots s xs).fr = s.fr := rfl
@[simp] theorem setSlots_eng (s : State) (xs : List SwSlot) : (setSlots s xs).eng = { s.eng with slots := xs } := rfl
@[simp] theorem setSlots_la (s : State) (xs : List SwSlot) : (setSlots s xs).la = s.la := rfl
@[simp] theorem setSlots_host (s : State) (xs : List SwSlot) : (setSlots s xs).host = s.host := rfl
@[simp] theorem setBackfill_ctl (s : State) (es : List BfEntry) : (setBackfill s es).ctl = s.ctl := rfl
@[simp] theorem setBackfill_cfg (s : State) (es : List BfEntry) : (setBackfill s es).cfg = s.cfg := rfl
@[simp] theorem setBackfill_q (s : State) (es : List BfEntry) : (setBackfill s es).q = s.q := rfl
@[simp] theorem setBackfill_regs (s : State) (es : List BfEntry) : (setBackfill s es).regs = s.regs := rfl
@[simp] theorem setBackfill_firings (s : State) (es : List BfEntry) : (setBackfill s es).firings = s.firings := rfl
@[simp] theorem setBackfill_tiles (s : State) (es : List BfEntry) : (setBackfill s es).tiles = s.tiles := rfl
@[simp] theorem setBackfill_mem (s : State) (es : List BfEntry) : (setBackfill s es).mem = s.mem := rfl
@[simp] theorem setBackfill_ord (s : State) (es : List BfEntry) : (setBackfill s es).ord = s.ord := rfl
@[simp] theorem setBackfill_fr (s : State) (es : List BfEntry) : (setBackfill s es).fr = s.fr := rfl
@[simp] theorem setBackfill_eng (s : State) (es : List BfEntry) : (setBackfill s es).eng = { s.eng with backfill := es } := rfl
@[simp] theorem setBackfill_la (s : State) (es : List BfEntry) : (setBackfill s es).la = s.la := rfl
@[simp] theorem setBackfill_host (s : State) (es : List BfEntry) : (setBackfill s es).host = s.host := rfl
@[simp] theorem setBf_ctl (s : State) (e : BfEntry) : (setBf s e).ctl = s.ctl := rfl
@[simp] theorem setBf_cfg (s : State) (e : BfEntry) : (setBf s e).cfg = s.cfg := rfl
@[simp] theorem setBf_q (s : State) (e : BfEntry) : (setBf s e).q = s.q := rfl
@[simp] theorem setBf_regs (s : State) (e : BfEntry) : (setBf s e).regs = s.regs := rfl
@[simp] theorem setBf_firings (s : State) (e : BfEntry) : (setBf s e).firings = s.firings := rfl
@[simp] theorem setBf_tiles (s : State) (e : BfEntry) : (setBf s e).tiles = s.tiles := rfl
@[simp] theorem setBf_mem (s : State) (e : BfEntry) : (setBf s e).mem = s.mem := rfl
@[simp] theorem setBf_ord (s : State) (e : BfEntry) : (setBf s e).ord = s.ord := rfl
@[simp] theorem setBf_fr (s : State) (e : BfEntry) : (setBf s e).fr = s.fr := rfl
@[simp] theorem setBf_la (s : State) (e : BfEntry) : (setBf s e).la = s.la := rfl
@[simp] theorem setBf_host (s : State) (e : BfEntry) : (setBf s e).host = s.host := rfl
@[simp] theorem dropBf_ctl (s : State) (id : Nat) : (dropBf s id).ctl = s.ctl := rfl
@[simp] theorem dropBf_cfg (s : State) (id : Nat) : (dropBf s id).cfg = s.cfg := rfl
@[simp] theorem dropBf_q (s : State) (id : Nat) : (dropBf s id).q = s.q := rfl
@[simp] theorem dropBf_regs (s : State) (id : Nat) : (dropBf s id).regs = s.regs := rfl
@[simp] theorem dropBf_firings (s : State) (id : Nat) : (dropBf s id).firings = s.firings := rfl
@[simp] theorem dropBf_tiles (s : State) (id : Nat) : (dropBf s id).tiles = s.tiles := rfl
@[simp] theorem dropBf_mem (s : State) (id : Nat) : (dropBf s id).mem = s.mem := rfl
@[simp] theorem dropBf_ord (s : State) (id : Nat) : (dropBf s id).ord = s.ord := rfl
@[simp] theorem dropBf_fr (s : State) (id : Nat) : (dropBf s id).fr = s.fr := rfl
@[simp] theorem dropBf_la (s : State) (id : Nat) : (dropBf s id).la = s.la := rfl
@[simp] theorem dropBf_host (s : State) (id : Nat) : (dropBf s id).host = s.host := rfl
@[simp] theorem setLaunches_ctl (s : State) (ls : List Launch) : (setLaunches s ls).ctl = s.ctl := rfl
@[simp] theorem setLaunches_cfg (s : State) (ls : List Launch) : (setLaunches s ls).cfg = s.cfg := rfl
@[simp] theorem setLaunches_q (s : State) (ls : List Launch) : (setLaunches s ls).q = s.q := rfl
@[simp] theorem setLaunches_regs (s : State) (ls : List Launch) : (setLaunches s ls).regs = s.regs := rfl
@[simp] theorem setLaunches_firings (s : State) (ls : List Launch) : (setLaunches s ls).firings = s.firings := rfl
@[simp] theorem setLaunches_tiles (s : State) (ls : List Launch) : (setLaunches s ls).tiles = s.tiles := rfl
@[simp] theorem setLaunches_mem (s : State) (ls : List Launch) : (setLaunches s ls).mem = s.mem := rfl
@[simp] theorem setLaunches_ord (s : State) (ls : List Launch) : (setLaunches s ls).ord = s.ord := rfl
@[simp] theorem setLaunches_fr (s : State) (ls : List Launch) : (setLaunches s ls).fr = s.fr := rfl
@[simp] theorem setLaunches_eng (s : State) (ls : List Launch) : (setLaunches s ls).eng = s.eng := rfl
@[simp] theorem setLaunches_la (s : State) (ls : List Launch) : (setLaunches s ls).la = { s.la with launches := ls } := rfl
@[simp] theorem setLaunches_host (s : State) (ls : List Launch) : (setLaunches s ls).host = s.host := rfl
@[simp] theorem setLaunch_ctl (s : State) (l : Launch) : (setLaunch s l).ctl = s.ctl := rfl
@[simp] theorem setLaunch_cfg (s : State) (l : Launch) : (setLaunch s l).cfg = s.cfg := rfl
@[simp] theorem setLaunch_q (s : State) (l : Launch) : (setLaunch s l).q = s.q := rfl
@[simp] theorem setLaunch_regs (s : State) (l : Launch) : (setLaunch s l).regs = s.regs := rfl
@[simp] theorem setLaunch_firings (s : State) (l : Launch) : (setLaunch s l).firings = s.firings := rfl
@[simp] theorem setLaunch_tiles (s : State) (l : Launch) : (setLaunch s l).tiles = s.tiles := rfl
@[simp] theorem setLaunch_mem (s : State) (l : Launch) : (setLaunch s l).mem = s.mem := rfl
@[simp] theorem setLaunch_ord (s : State) (l : Launch) : (setLaunch s l).ord = s.ord := rfl
@[simp] theorem setLaunch_fr (s : State) (l : Launch) : (setLaunch s l).fr = s.fr := rfl
@[simp] theorem setLaunch_eng (s : State) (l : Launch) : (setLaunch s l).eng = s.eng := rfl
@[simp] theorem setLaunch_host (s : State) (l : Launch) : (setLaunch s l).host = s.host := rfl
@[simp] theorem dropImage_ctl (s : State) (lk : LKey) : (dropImage s lk).ctl = s.ctl := rfl
@[simp] theorem dropImage_cfg (s : State) (lk : LKey) : (dropImage s lk).cfg = s.cfg := rfl
@[simp] theorem dropImage_q (s : State) (lk : LKey) : (dropImage s lk).q = s.q := rfl
@[simp] theorem dropImage_regs (s : State) (lk : LKey) : (dropImage s lk).regs = s.regs := rfl
@[simp] theorem dropImage_firings (s : State) (lk : LKey) : (dropImage s lk).firings = s.firings := rfl
@[simp] theorem dropImage_tiles (s : State) (lk : LKey) : (dropImage s lk).tiles = s.tiles := rfl
@[simp] theorem dropImage_mem (s : State) (lk : LKey) : (dropImage s lk).mem = s.mem := rfl
@[simp] theorem dropImage_ord (s : State) (lk : LKey) : (dropImage s lk).ord = s.ord := rfl
@[simp] theorem dropImage_fr (s : State) (lk : LKey) : (dropImage s lk).fr = s.fr := rfl
@[simp] theorem dropImage_eng (s : State) (lk : LKey) : (dropImage s lk).eng = s.eng := rfl
@[simp] theorem dropImage_host (s : State) (lk : LKey) : (dropImage s lk).host = s.host := rfl
@[simp] theorem setHostSide_ctl (s : State) (h : HostSide) : (setHostSide s h).ctl = s.ctl := rfl
@[simp] theorem setHostSide_cfg (s : State) (h : HostSide) : (setHostSide s h).cfg = s.cfg := rfl
@[simp] theorem setHostSide_q (s : State) (h : HostSide) : (setHostSide s h).q = s.q := rfl
@[simp] theorem setHostSide_regs (s : State) (h : HostSide) : (setHostSide s h).regs = s.regs := rfl
@[simp] theorem setHostSide_firings (s : State) (h : HostSide) : (setHostSide s h).firings = s.firings := rfl
@[simp] theorem setHostSide_tiles (s : State) (h : HostSide) : (setHostSide s h).tiles = s.tiles := rfl
@[simp] theorem setHostSide_mem (s : State) (h : HostSide) : (setHostSide s h).mem = s.mem := rfl
@[simp] theorem setHostSide_ord (s : State) (h : HostSide) : (setHostSide s h).ord = s.ord := rfl
@[simp] theorem setHostSide_fr (s : State) (h : HostSide) : (setHostSide s h).fr = s.fr := rfl
@[simp] theorem setHostSide_eng (s : State) (h : HostSide) : (setHostSide s h).eng = s.eng := rfl
@[simp] theorem setHostSide_la (s : State) (h : HostSide) : (setHostSide s h).la = s.la := rfl
@[simp] theorem setHostSide_host (s : State) (h : HostSide) : (setHostSide s h).host = h := rfl
@[simp] theorem setPart_ctl (s : State) (p : Partition) : (setPart s p).ctl = s.ctl := rfl
@[simp] theorem setPart_cfg (s : State) (p : Partition) : (setPart s p).cfg = s.cfg := rfl
@[simp] theorem setPart_q (s : State) (p : Partition) : (setPart s p).q = s.q := rfl
@[simp] theorem setPart_regs (s : State) (p : Partition) : (setPart s p).regs = s.regs := rfl
@[simp] theorem setPart_firings (s : State) (p : Partition) : (setPart s p).firings = s.firings := rfl
@[simp] theorem setPart_tiles (s : State) (p : Partition) : (setPart s p).tiles = s.tiles := rfl
@[simp] theorem setPart_mem (s : State) (p : Partition) : (setPart s p).mem = s.mem := rfl
@[simp] theorem setPart_ord (s : State) (p : Partition) : (setPart s p).ord = s.ord := rfl
@[simp] theorem setPart_fr (s : State) (p : Partition) : (setPart s p).fr = s.fr := rfl
@[simp] theorem setPart_eng (s : State) (p : Partition) : (setPart s p).eng = s.eng := rfl
@[simp] theorem setPart_la (s : State) (p : Partition) : (setPart s p).la = s.la := rfl
@[simp] theorem record_ctl (s : State) (r : FaultRec) : (record s r).ctl = s.ctl := rfl
@[simp] theorem record_cfg (s : State) (r : FaultRec) : (record s r).cfg = s.cfg := rfl
@[simp] theorem record_q (s : State) (r : FaultRec) : (record s r).q = s.q := rfl
@[simp] theorem record_regs (s : State) (r : FaultRec) : (record s r).regs = s.regs := rfl
@[simp] theorem record_firings (s : State) (r : FaultRec) : (record s r).firings = s.firings := rfl
@[simp] theorem record_tiles (s : State) (r : FaultRec) : (record s r).tiles = s.tiles := rfl
@[simp] theorem record_mem (s : State) (r : FaultRec) : (record s r).mem = s.mem := rfl
@[simp] theorem record_ord (s : State) (r : FaultRec) : (record s r).ord = s.ord := rfl
@[simp] theorem record_fr (s : State) (r : FaultRec) : (record s r).fr = s.fr := rfl
@[simp] theorem record_eng (s : State) (r : FaultRec) : (record s r).eng = s.eng := rfl
@[simp] theorem record_la (s : State) (r : FaultRec) : (record s r).la = s.la := rfl
@[simp] theorem record_host (s : State) (r : FaultRec) : (record s r).host = { s.host with pendingFaults := s.host.pendingFaults ++ [r] } := rfl
@[simp] theorem setIngress_ctl (s : State) (p : Ingress) : (setIngress s p).ctl = s.ctl := rfl
@[simp] theorem setIngress_cfg (s : State) (p : Ingress) : (setIngress s p).cfg = s.cfg := rfl
@[simp] theorem setIngress_q (s : State) (p : Ingress) : (setIngress s p).q = s.q := rfl
@[simp] theorem setIngress_regs (s : State) (p : Ingress) : (setIngress s p).regs = s.regs := rfl
@[simp] theorem setIngress_firings (s : State) (p : Ingress) : (setIngress s p).firings = s.firings := rfl
@[simp] theorem setIngress_tiles (s : State) (p : Ingress) : (setIngress s p).tiles = s.tiles := rfl
@[simp] theorem setIngress_mem (s : State) (p : Ingress) : (setIngress s p).mem = s.mem := rfl
@[simp] theorem setIngress_ord (s : State) (p : Ingress) : (setIngress s p).ord = s.ord := rfl
@[simp] theorem setIngress_fr (s : State) (p : Ingress) : (setIngress s p).fr = s.fr := rfl
@[simp] theorem setIngress_eng (s : State) (p : Ingress) : (setIngress s p).eng = s.eng := rfl
@[simp] theorem setIngress_la (s : State) (p : Ingress) : (setIngress s p).la = s.la := rfl
@[simp] theorem setEgress_ctl (s : State) (p : Egress) : (setEgress s p).ctl = s.ctl := rfl
@[simp] theorem setEgress_cfg (s : State) (p : Egress) : (setEgress s p).cfg = s.cfg := rfl
@[simp] theorem setEgress_q (s : State) (p : Egress) : (setEgress s p).q = s.q := rfl
@[simp] theorem setEgress_regs (s : State) (p : Egress) : (setEgress s p).regs = s.regs := rfl
@[simp] theorem setEgress_firings (s : State) (p : Egress) : (setEgress s p).firings = s.firings := rfl
@[simp] theorem setEgress_tiles (s : State) (p : Egress) : (setEgress s p).tiles = s.tiles := rfl
@[simp] theorem setEgress_mem (s : State) (p : Egress) : (setEgress s p).mem = s.mem := rfl
@[simp] theorem setEgress_ord (s : State) (p : Egress) : (setEgress s p).ord = s.ord := rfl
@[simp] theorem setEgress_fr (s : State) (p : Egress) : (setEgress s p).fr = s.fr := rfl
@[simp] theorem setEgress_eng (s : State) (p : Egress) : (setEgress s p).eng = s.eng := rfl
@[simp] theorem setEgress_la (s : State) (p : Egress) : (setEgress s p).la = s.la := rfl
@[simp] theorem noteVa_ctl (s : State) (p va : Nat) : (noteVa s p va).ctl = s.ctl := rfl
@[simp] theorem noteVa_cfg (s : State) (p va : Nat) : (noteVa s p va).cfg = s.cfg := rfl
@[simp] theorem noteVa_q (s : State) (p va : Nat) : (noteVa s p va).q = s.q := rfl
@[simp] theorem noteVa_regs (s : State) (p va : Nat) : (noteVa s p va).regs = s.regs := rfl
@[simp] theorem noteVa_firings (s : State) (p va : Nat) : (noteVa s p va).firings = s.firings := rfl
@[simp] theorem noteVa_tiles (s : State) (p va : Nat) : (noteVa s p va).tiles = s.tiles := rfl
@[simp] theorem noteVa_mem (s : State) (p va : Nat) : (noteVa s p va).mem = s.mem := rfl
@[simp] theorem noteVa_ord (s : State) (p va : Nat) : (noteVa s p va).ord = s.ord := rfl
@[simp] theorem noteVa_fr (s : State) (p va : Nat) : (noteVa s p va).fr = s.fr := rfl
@[simp] theorem noteVa_eng (s : State) (p va : Nat) : (noteVa s p va).eng = s.eng := rfl
@[simp] theorem noteVa_la (s : State) (p va : Nat) : (noteVa s p va).la = s.la := rfl
@[simp] theorem setLink_ctl (s : State) (x : SyivoPort) : (setLink s x).ctl = s.ctl := rfl
@[simp] theorem setLink_cfg (s : State) (x : SyivoPort) : (setLink s x).cfg = s.cfg := rfl
@[simp] theorem setLink_q (s : State) (x : SyivoPort) : (setLink s x).q = s.q := rfl
@[simp] theorem setLink_regs (s : State) (x : SyivoPort) : (setLink s x).regs = s.regs := rfl
@[simp] theorem setLink_firings (s : State) (x : SyivoPort) : (setLink s x).firings = s.firings := rfl
@[simp] theorem setLink_tiles (s : State) (x : SyivoPort) : (setLink s x).tiles = s.tiles := rfl
@[simp] theorem setLink_mem (s : State) (x : SyivoPort) : (setLink s x).mem = s.mem := rfl
@[simp] theorem setLink_ord (s : State) (x : SyivoPort) : (setLink s x).ord = s.ord := rfl
@[simp] theorem setLink_fr (s : State) (x : SyivoPort) : (setLink s x).fr = s.fr := rfl
@[simp] theorem setLink_eng (s : State) (x : SyivoPort) : (setLink s x).eng = s.eng := rfl
@[simp] theorem setLink_la (s : State) (x : SyivoPort) : (setLink s x).la = s.la := rfl
@[simp] theorem setXwc_ctl (s : State) (st c : Nat) (v : Lane) : (setXwc s st c v).ctl = s.ctl := rfl
@[simp] theorem setXwc_cfg (s : State) (st c : Nat) (v : Lane) : (setXwc s st c v).cfg = s.cfg := rfl
@[simp] theorem setXwc_q (s : State) (st c : Nat) (v : Lane) : (setXwc s st c v).q = s.q := rfl
@[simp] theorem setXwc_regs (s : State) (st c : Nat) (v : Lane) : (setXwc s st c v).regs = s.regs := rfl
@[simp] theorem setXwc_firings (s : State) (st c : Nat) (v : Lane) : (setXwc s st c v).firings = s.firings := rfl
@[simp] theorem setXwc_tiles (s : State) (st c : Nat) (v : Lane) : (setXwc s st c v).tiles = s.tiles := rfl
@[simp] theorem setXwc_mem (s : State) (st c : Nat) (v : Lane) : (setXwc s st c v).mem = s.mem := rfl
@[simp] theorem setXwc_ord (s : State) (st c : Nat) (v : Lane) : (setXwc s st c v).ord = s.ord := rfl
@[simp] theorem setXwc_fr (s : State) (st c : Nat) (v : Lane) : (setXwc s st c v).fr = s.fr := rfl
@[simp] theorem setXwc_eng (s : State) (st c : Nat) (v : Lane) : (setXwc s st c v).eng = s.eng := rfl
@[simp] theorem setXwc_la (s : State) (st c : Nat) (v : Lane) : (setXwc s st c v).la = s.la := rfl
@[simp] theorem notePoison_ctl (s : State) (k : EKey) (tag : Tag) (p : PoisonInfo) : (notePoison s k tag p).ctl = s.ctl := rfl
@[simp] theorem notePoison_cfg (s : State) (k : EKey) (tag : Tag) (p : PoisonInfo) : (notePoison s k tag p).cfg = s.cfg := rfl
@[simp] theorem notePoison_q (s : State) (k : EKey) (tag : Tag) (p : PoisonInfo) : (notePoison s k tag p).q = s.q := rfl
@[simp] theorem notePoison_regs (s : State) (k : EKey) (tag : Tag) (p : PoisonInfo) : (notePoison s k tag p).regs = s.regs := rfl
@[simp] theorem notePoison_firings (s : State) (k : EKey) (tag : Tag) (p : PoisonInfo) : (notePoison s k tag p).firings = s.firings := rfl
@[simp] theorem notePoison_tiles (s : State) (k : EKey) (tag : Tag) (p : PoisonInfo) : (notePoison s k tag p).tiles = s.tiles := rfl
@[simp] theorem notePoison_mem (s : State) (k : EKey) (tag : Tag) (p : PoisonInfo) : (notePoison s k tag p).mem = s.mem := rfl
@[simp] theorem notePoison_ord (s : State) (k : EKey) (tag : Tag) (p : PoisonInfo) : (notePoison s k tag p).ord = s.ord := rfl
@[simp] theorem notePoison_fr (s : State) (k : EKey) (tag : Tag) (p : PoisonInfo) : (notePoison s k tag p).fr = s.fr := rfl
@[simp] theorem notePoison_eng (s : State) (k : EKey) (tag : Tag) (p : PoisonInfo) : (notePoison s k tag p).eng = s.eng := rfl
@[simp] theorem notePoison_la (s : State) (k : EKey) (tag : Tag) (p : PoisonInfo) : (notePoison s k tag p).la = s.la := rfl
@[simp] theorem restPoison_ctl (s : State) (lk : LKey) (n : Nat) (tag : Tag) (p : PoisonInfo) : (restPoison s lk n tag p).ctl = s.ctl := rfl
@[simp] theorem restPoison_cfg (s : State) (lk : LKey) (n : Nat) (tag : Tag) (p : PoisonInfo) : (restPoison s lk n tag p).cfg = s.cfg := rfl
@[simp] theorem restPoison_q (s : State) (lk : LKey) (n : Nat) (tag : Tag) (p : PoisonInfo) : (restPoison s lk n tag p).q = s.q := rfl
@[simp] theorem restPoison_regs (s : State) (lk : LKey) (n : Nat) (tag : Tag) (p : PoisonInfo) : (restPoison s lk n tag p).regs = s.regs := rfl
@[simp] theorem restPoison_firings (s : State) (lk : LKey) (n : Nat) (tag : Tag) (p : PoisonInfo) : (restPoison s lk n tag p).firings = s.firings := rfl
@[simp] theorem restPoison_tiles (s : State) (lk : LKey) (n : Nat) (tag : Tag) (p : PoisonInfo) : (restPoison s lk n tag p).tiles = s.tiles := rfl
@[simp] theorem restPoison_mem (s : State) (lk : LKey) (n : Nat) (tag : Tag) (p : PoisonInfo) : (restPoison s lk n tag p).mem = s.mem := rfl
@[simp] theorem restPoison_ord (s : State) (lk : LKey) (n : Nat) (tag : Tag) (p : PoisonInfo) : (restPoison s lk n tag p).ord = s.ord := rfl
@[simp] theorem restPoison_fr (s : State) (lk : LKey) (n : Nat) (tag : Tag) (p : PoisonInfo) : (restPoison s lk n tag p).fr = s.fr := rfl
@[simp] theorem restPoison_eng (s : State) (lk : LKey) (n : Nat) (tag : Tag) (p : PoisonInfo) : (restPoison s lk n tag p).eng = s.eng := rfl
@[simp] theorem restPoison_la (s : State) (lk : LKey) (n : Nat) (tag : Tag) (p : PoisonInfo) : (restPoison s lk n tag p).la = s.la := rfl
@[simp] theorem focusOn_ctl (s : State) (f : Focus) : (focusOn s f).ctl = { s.ctl with focus := f } := rfl
@[simp] theorem focusOn_cfg (s : State) (f : Focus) : (focusOn s f).cfg = s.cfg := rfl
@[simp] theorem focusOn_q (s : State) (f : Focus) : (focusOn s f).q = s.q := rfl
@[simp] theorem focusOn_regs (s : State) (f : Focus) : (focusOn s f).regs = s.regs := rfl
@[simp] theorem focusOn_firings (s : State) (f : Focus) : (focusOn s f).firings = s.firings := rfl
@[simp] theorem focusOn_tiles (s : State) (f : Focus) : (focusOn s f).tiles = s.tiles := rfl
@[simp] theorem focusOn_mem (s : State) (f : Focus) : (focusOn s f).mem = s.mem := rfl
@[simp] theorem focusOn_ord (s : State) (f : Focus) : (focusOn s f).ord = s.ord := rfl
@[simp] theorem focusOn_fr (s : State) (f : Focus) : (focusOn s f).fr = s.fr := rfl
@[simp] theorem focusOn_eng (s : State) (f : Focus) : (focusOn s f).eng = s.eng := rfl
@[simp] theorem focusOn_la (s : State) (f : Focus) : (focusOn s f).la = s.la := rfl
@[simp] theorem focusOn_host (s : State) (f : Focus) : (focusOn s f).host = s.host := rfl
@[simp] theorem bumpPerf_ctl (s : State) (st i n : Nat) : (bumpPerf s st i n).ctl = s.ctl := by unfold bumpPerf; split <;> rfl
@[simp] theorem bumpPerf_cfg (s : State) (st i n : Nat) : (bumpPerf s st i n).cfg = s.cfg := by unfold bumpPerf; split <;> rfl
@[simp] theorem bumpPerf_q (s : State) (st i n : Nat) : (bumpPerf s st i n).q = s.q := by unfold bumpPerf; split <;> rfl
@[simp] theorem bumpPerf_regs (s : State) (st i n : Nat) : (bumpPerf s st i n).regs = s.regs := by unfold bumpPerf; split <;> rfl
@[simp] theorem bumpPerf_firings (s : State) (st i n : Nat) : (bumpPerf s st i n).firings = s.firings := by unfold bumpPerf; split <;> rfl
@[simp] theorem bumpPerf_tiles (s : State) (st i n : Nat) : (bumpPerf s st i n).tiles = s.tiles := by unfold bumpPerf; split <;> rfl
@[simp] theorem bumpPerf_mem (s : State) (st i n : Nat) : (bumpPerf s st i n).mem = s.mem := by unfold bumpPerf; split <;> rfl
@[simp] theorem bumpPerf_ord (s : State) (st i n : Nat) : (bumpPerf s st i n).ord = s.ord := by unfold bumpPerf; split <;> rfl
@[simp] theorem bumpPerf_fr (s : State) (st i n : Nat) : (bumpPerf s st i n).fr = s.fr := by unfold bumpPerf; split <;> rfl
@[simp] theorem bumpPerf_eng (s : State) (st i n : Nat) : (bumpPerf s st i n).eng = s.eng := by unfold bumpPerf; split <;> rfl
@[simp] theorem bumpPerf_la (s : State) (st i n : Nat) : (bumpPerf s st i n).la = s.la := by unfold bumpPerf; split <;> rfl
@[simp] theorem raiseVector_ctl (s : State) (p v : Nat) : (raiseVector s p v).ctl = s.ctl := by unfold raiseVector; split <;> rfl
@[simp] theorem raiseVector_cfg (s : State) (p v : Nat) : (raiseVector s p v).cfg = s.cfg := by unfold raiseVector; split <;> rfl
@[simp] theorem raiseVector_q (s : State) (p v : Nat) : (raiseVector s p v).q = s.q := by unfold raiseVector; split <;> rfl
@[simp] theorem raiseVector_regs (s : State) (p v : Nat) : (raiseVector s p v).regs = s.regs := by unfold raiseVector; split <;> rfl
@[simp] theorem raiseVector_firings (s : State) (p v : Nat) : (raiseVector s p v).firings = s.firings := by unfold raiseVector; split <;> rfl
@[simp] theorem raiseVector_tiles (s : State) (p v : Nat) : (raiseVector s p v).tiles = s.tiles := by unfold raiseVector; split <;> rfl
@[simp] theorem raiseVector_mem (s : State) (p v : Nat) : (raiseVector s p v).mem = s.mem := by unfold raiseVector; split <;> rfl
@[simp] theorem raiseVector_ord (s : State) (p v : Nat) : (raiseVector s p v).ord = s.ord := by unfold raiseVector; split <;> rfl
@[simp] theorem raiseVector_fr (s : State) (p v : Nat) : (raiseVector s p v).fr = s.fr := by unfold raiseVector; split <;> rfl
@[simp] theorem raiseVector_eng (s : State) (p v : Nat) : (raiseVector s p v).eng = s.eng := by unfold raiseVector; split <;> rfl
@[simp] theorem raiseVector_la (s : State) (p v : Nat) : (raiseVector s p v).la = s.la := by unfold raiseVector; split <;> rfl
@[simp] theorem setUnit_ctl (s : State) (u : FUnit) : (setUnit s u).ctl = s.ctl := by unfold setUnit; split <;> rfl
@[simp] theorem setUnit_cfg (s : State) (u : FUnit) : (setUnit s u).cfg = s.cfg := by unfold setUnit; split <;> rfl
@[simp] theorem setUnit_q (s : State) (u : FUnit) : (setUnit s u).q = s.q := by unfold setUnit; split <;> rfl
@[simp] theorem setUnit_regs (s : State) (u : FUnit) : (setUnit s u).regs = s.regs := by unfold setUnit; split <;> rfl
@[simp] theorem setUnit_firings (s : State) (u : FUnit) : (setUnit s u).firings = s.firings := by unfold setUnit; split <;> rfl
@[simp] theorem setUnit_tiles (s : State) (u : FUnit) : (setUnit s u).tiles = s.tiles := by unfold setUnit; split <;> rfl
@[simp] theorem setUnit_mem (s : State) (u : FUnit) : (setUnit s u).mem = s.mem := by unfold setUnit; split <;> rfl
@[simp] theorem setUnit_ord (s : State) (u : FUnit) : (setUnit s u).ord = s.ord := by unfold setUnit; split <;> rfl
@[simp] theorem setUnit_eng (s : State) (u : FUnit) : (setUnit s u).eng = s.eng := by unfold setUnit; split <;> rfl
@[simp] theorem setUnit_la (s : State) (u : FUnit) : (setUnit s u).la = s.la := by unfold setUnit; split <;> rfl
@[simp] theorem setUnit_host (s : State) (u : FUnit) : (setUnit s u).host = s.host := by unfold setUnit; split <;> rfl
@[simp] theorem changeSet_ctl (s : State) (st : Nat) (lk : LKey) (ds : List Delta) : (changeSet s st lk ds).ctl = s.ctl := by unfold changeSet; split <;> simp
@[simp] theorem changeSet_cfg (s : State) (st : Nat) (lk : LKey) (ds : List Delta) : (changeSet s st lk ds).cfg = s.cfg := by unfold changeSet; split <;> simp
@[simp] theorem changeSet_q (s : State) (st : Nat) (lk : LKey) (ds : List Delta) : (changeSet s st lk ds).q = s.q := by unfold changeSet; split <;> simp
@[simp] theorem changeSet_regs (s : State) (st : Nat) (lk : LKey) (ds : List Delta) : (changeSet s st lk ds).regs = s.regs := by unfold changeSet; split <;> simp
@[simp] theorem changeSet_firings (s : State) (st : Nat) (lk : LKey) (ds : List Delta) : (changeSet s st lk ds).firings = s.firings := by unfold changeSet; split <;> simp
@[simp] theorem changeSet_tiles (s : State) (st : Nat) (lk : LKey) (ds : List Delta) : (changeSet s st lk ds).tiles = s.tiles := by unfold changeSet; split <;> simp
@[simp] theorem changeSet_mem (s : State) (st : Nat) (lk : LKey) (ds : List Delta) : (changeSet s st lk ds).mem = s.mem := by unfold changeSet; split <;> simp
@[simp] theorem changeSet_ord (s : State) (st : Nat) (lk : LKey) (ds : List Delta) : (changeSet s st lk ds).ord = s.ord := by unfold changeSet; split <;> simp
@[simp] theorem changeSet_eng (s : State) (st : Nat) (lk : LKey) (ds : List Delta) : (changeSet s st lk ds).eng = s.eng := by unfold changeSet; split <;> simp
@[simp] theorem changeSet_la (s : State) (st : Nat) (lk : LKey) (ds : List Delta) : (changeSet s st lk ds).la = s.la := by unfold changeSet; split <;> simp
@[simp] theorem changeSet_host (s : State) (st : Nat) (lk : LKey) (ds : List Delta) : (changeSet s st lk ds).host = s.host := by unfold changeSet; split <;> simp
@[simp] theorem openShadow_ctl (s : State) (st c e : Nat) : (openShadow s st c e).ctl = s.ctl := by unfold openShadow; split <;> rfl
@[simp] theorem openShadow_cfg (s : State) (st c e : Nat) : (openShadow s st c e).cfg = s.cfg := by unfold openShadow; split <;> rfl
@[simp] theorem openShadow_q (s : State) (st c e : Nat) : (openShadow s st c e).q = s.q := by unfold openShadow; split <;> rfl
@[simp] theorem openShadow_regs (s : State) (st c e : Nat) : (openShadow s st c e).regs = s.regs := by unfold openShadow; split <;> rfl
@[simp] theorem openShadow_firings (s : State) (st c e : Nat) : (openShadow s st c e).firings = s.firings := by unfold openShadow; split <;> rfl
@[simp] theorem openShadow_tiles (s : State) (st c e : Nat) : (openShadow s st c e).tiles = s.tiles := by unfold openShadow; split <;> rfl
@[simp] theorem openShadow_mem (s : State) (st c e : Nat) : (openShadow s st c e).mem = s.mem := by unfold openShadow; split <;> rfl
@[simp] theorem openShadow_ord (s : State) (st c e : Nat) : (openShadow s st c e).ord = s.ord := by unfold openShadow; split <;> rfl
@[simp] theorem openShadow_eng (s : State) (st c e : Nat) : (openShadow s st c e).eng = s.eng := by unfold openShadow; split <;> rfl
@[simp] theorem openShadow_la (s : State) (st c e : Nat) : (openShadow s st c e).la = s.la := by unfold openShadow; split <;> rfl
@[simp] theorem openShadow_host (s : State) (st c e : Nat) : (openShadow s st c e).host = s.host := by unfold openShadow; split <;> rfl
@[simp] theorem raiseLclk_ctl (s : State) (st c v : Nat) : (raiseLclk s st c v).ctl = s.ctl := by unfold raiseLclk; split <;> rfl
@[simp] theorem raiseLclk_cfg (s : State) (st c v : Nat) : (raiseLclk s st c v).cfg = s.cfg := by unfold raiseLclk; split <;> rfl
@[simp] theorem raiseLclk_q (s : State) (st c v : Nat) : (raiseLclk s st c v).q = s.q := by unfold raiseLclk; split <;> rfl
@[simp] theorem raiseLclk_regs (s : State) (st c v : Nat) : (raiseLclk s st c v).regs = s.regs := by unfold raiseLclk; split <;> rfl
@[simp] theorem raiseLclk_firings (s : State) (st c v : Nat) : (raiseLclk s st c v).firings = s.firings := by unfold raiseLclk; split <;> rfl
@[simp] theorem raiseLclk_tiles (s : State) (st c v : Nat) : (raiseLclk s st c v).tiles = s.tiles := by unfold raiseLclk; split <;> rfl
@[simp] theorem raiseLclk_mem (s : State) (st c v : Nat) : (raiseLclk s st c v).mem = s.mem := by unfold raiseLclk; split <;> rfl
@[simp] theorem raiseLclk_fr (s : State) (st c v : Nat) : (raiseLclk s st c v).fr = s.fr := by unfold raiseLclk; split <;> rfl
@[simp] theorem raiseLclk_eng (s : State) (st c v : Nat) : (raiseLclk s st c v).eng = s.eng := by unfold raiseLclk; split <;> rfl
@[simp] theorem raiseLclk_la (s : State) (st c v : Nat) : (raiseLclk s st c v).la = s.la := by unfold raiseLclk; split <;> rfl
@[simp] theorem raiseLclk_host (s : State) (st c v : Nat) : (raiseLclk s st c v).host = s.host := by unfold raiseLclk; split <;> rfl
@[simp] theorem setAck_ctl (s : State) (a : AckMax) : (setAck s a).ctl = s.ctl := by unfold setAck; dsimp only; split <;> rfl
@[simp] theorem setAck_cfg (s : State) (a : AckMax) : (setAck s a).cfg = s.cfg := by unfold setAck; dsimp only; split <;> rfl
@[simp] theorem setAck_q (s : State) (a : AckMax) : (setAck s a).q = s.q := by unfold setAck; dsimp only; split <;> rfl
@[simp] theorem setAck_regs (s : State) (a : AckMax) : (setAck s a).regs = s.regs := by unfold setAck; dsimp only; split <;> rfl
@[simp] theorem setAck_firings (s : State) (a : AckMax) : (setAck s a).firings = s.firings := by unfold setAck; dsimp only; split <;> rfl
@[simp] theorem setAck_tiles (s : State) (a : AckMax) : (setAck s a).tiles = s.tiles := by unfold setAck; dsimp only; split <;> rfl
@[simp] theorem setAck_mem (s : State) (a : AckMax) : (setAck s a).mem = s.mem := by unfold setAck; dsimp only; split <;> rfl
@[simp] theorem setAck_fr (s : State) (a : AckMax) : (setAck s a).fr = s.fr := by unfold setAck; dsimp only; split <;> rfl
@[simp] theorem setAck_eng (s : State) (a : AckMax) : (setAck s a).eng = s.eng := by unfold setAck; dsimp only; split <;> rfl
@[simp] theorem setAck_la (s : State) (a : AckMax) : (setAck s a).la = s.la := by unfold setAck; dsimp only; split <;> rfl
@[simp] theorem setAck_host (s : State) (a : AckMax) : (setAck s a).host = s.host := by unfold setAck; dsimp only; split <;> rfl
@[simp] theorem dropAcked_ctl (s : State)  : (dropAcked s ).ctl = s.ctl := by unfold dropAcked; dsimp only; split <;> rfl
@[simp] theorem dropAcked_cfg (s : State)  : (dropAcked s ).cfg = s.cfg := by unfold dropAcked; dsimp only; split <;> rfl
@[simp] theorem dropAcked_q (s : State)  : (dropAcked s ).q = s.q := by unfold dropAcked; dsimp only; split <;> rfl
@[simp] theorem dropAcked_regs (s : State)  : (dropAcked s ).regs = s.regs := by unfold dropAcked; dsimp only; split <;> rfl
@[simp] theorem dropAcked_firings (s : State)  : (dropAcked s ).firings = s.firings := by unfold dropAcked; dsimp only; split <;> rfl
@[simp] theorem dropAcked_tiles (s : State)  : (dropAcked s ).tiles = s.tiles := by unfold dropAcked; dsimp only; split <;> rfl
@[simp] theorem dropAcked_mem (s : State)  : (dropAcked s ).mem = s.mem := by unfold dropAcked; dsimp only; split <;> rfl
@[simp] theorem dropAcked_fr (s : State)  : (dropAcked s ).fr = s.fr := by unfold dropAcked; dsimp only; split <;> rfl
@[simp] theorem dropAcked_eng (s : State)  : (dropAcked s ).eng = s.eng := by unfold dropAcked; dsimp only; split <;> rfl
@[simp] theorem dropAcked_la (s : State)  : (dropAcked s ).la = s.la := by unfold dropAcked; dsimp only; split <;> rfl
@[simp] theorem dropAcked_host (s : State)  : (dropAcked s ).host = s.host := by unfold dropAcked; dsimp only; split <;> rfl

/-! ### Tokens put on an edge -/

@[simp] theorem launchTok_cfg (s : State) (ek : EdgeKey) (src : EKey) (t : Token) : (launchTok s ek src t).cfg = s.cfg := rfl
@[simp] theorem launchTok_regs (s : State) (ek : EdgeKey) (src : EKey) (t : Token) : (launchTok s ek src t).regs = s.regs := rfl
@[simp] theorem launchTok_firings (s : State) (ek : EdgeKey) (src : EKey) (t : Token) : (launchTok s ek src t).firings = s.firings := rfl
@[simp] theorem launchTok_tiles (s : State) (ek : EdgeKey) (src : EKey) (t : Token) : (launchTok s ek src t).tiles = s.tiles := rfl
@[simp] theorem launchTok_mem (s : State) (ek : EdgeKey) (src : EKey) (t : Token) : (launchTok s ek src t).mem = s.mem := rfl
@[simp] theorem launchTok_ord (s : State) (ek : EdgeKey) (src : EKey) (t : Token) : (launchTok s ek src t).ord = s.ord := rfl
@[simp] theorem launchTok_fr (s : State) (ek : EdgeKey) (src : EKey) (t : Token) : (launchTok s ek src t).fr = s.fr := rfl
@[simp] theorem launchTok_eng (s : State) (ek : EdgeKey) (src : EKey) (t : Token) : (launchTok s ek src t).eng = s.eng := rfl
@[simp] theorem launchTok_la (s : State) (ek : EdgeKey) (src : EKey) (t : Token) : (launchTok s ek src t).la = s.la := rfl
@[simp] theorem launchTok_host (s : State) (ek : EdgeKey) (src : EKey) (t : Token) : (launchTok s ek src t).host = s.host := rfl
@[simp] theorem launchTok_q (s : State) (ek : EdgeKey) (src : EKey) (t : Token) :
    (launchTok s ek src t).q = { s.q with flights := s.q.flights ++ [⟨s.ctl.nextId, ek, src, t⟩] } := rfl
@[simp] theorem launchTok_ctl (s : State) (ek : EdgeKey) (src : EKey) (t : Token) :
    (launchTok s ek src t).ctl = { s.ctl with nextId := s.ctl.nextId + 1 } := rfl
@[simp] theorem fresh_fst (s : State) : (fresh s).1 = s.ctl.nextId := rfl
@[simp] theorem fresh_snd (s : State) : (fresh s).2 = { s with ctl := { s.ctl with nextId := s.ctl.nextId + 1 } } := rfl

end Sys2Proof.Machine
end

