-- ==== Sys2Proof/Laws/Canonical.lean ====
section
/-! SUPPORT. The four places that write bytes keep the memories in their canonical form; every other update leaves them alone. -/

namespace Sys2Proof.Machine
open Sys2Proof Sys2Proof.Slice0

theorem MemOk_of_mem {s t : State} (h : t.mem = s.mem) (w : MemOk s) : MemOk t := by unfold MemOk at *; rw [h]; exact w

/-- A fold whose every step keeps a property keeps it. -/
theorem foldl_keeps {α : Type} {P : State → Prop} {f : State → α → State} (h : ∀ s x, P s → P (f s x)) (xs : List α) {s : State}
    (w : P s) : P (xs.foldl f s) := by
  induction xs generalizing s with
  | nil => exact w
  | cons x xs ih => exact ih (h s x w)

theorem MemOk_scratchWrite {s : State} (st a : Nat) (bs : List Byte) (w : MemOk s) : MemOk (scratchWrite s st a bs) :=
  ⟨w.1, Memory.writeN_wf _ _ w.2.1, w.2.2⟩
theorem MemOk_withHost {s : State} (a : Nat) (bs : List Byte) (w : MemOk s) : MemOk (withHost s (Memory.writeN s.mem.host a bs)) :=
  ⟨w.1, w.2.1, Memory.writeN_wf _ _ w.2.2⟩
theorem MemOk_withL2 {s : State} (l : List L2Line) (w : MemOk s) : MemOk (withL2 s l) := ⟨w.1, w.2.1, w.2.2⟩
theorem MemOk_withL1 {s : State} (l : List L1Line) (w : MemOk s) : MemOk (withL1 s l) := ⟨w.1, w.2.1, w.2.2⟩
theorem MemOk_withTrans {s : State} (x : List Trans) (w : MemOk s) : MemOk (withTrans s x) := ⟨w.1, w.2.1, w.2.2⟩
theorem MemOk_withSectors {s : State} (x : List Sector) (w : MemOk s) : MemOk (withSectors s x) := ⟨w.1, w.2.1, w.2.2⟩
theorem MemOk_hbm {s : State} (a : Nat) (bs : List Byte) (ks : List (Nat × Nat)) (w : MemOk s) :
    MemOk (setMem s { s.mem with hbm := Memory.writeN s.mem.hbm a bs, hbmKeys := ks }) :=
  ⟨Memory.writeN_wf _ _ w.1, w.2.1, w.2.2⟩
/-- A line's dirty sectors go to HBM (R117). -/
theorem MemOk_writeBackLine {s : State} (l : L2Line) (w : MemOk s) : MemOk (writeBackLine s l) := by
  unfold writeBackLine
  refine foldl_keeps (P := MemOk) (fun s i w => ?_) _ w
  cases getAt l.dirty i false
  · exact w
  · exact MemOk_hbm _ _ _ w

end Sys2Proof.Machine
end

