-- ==== Sys2Proof/Laws/Floats.lean ====
section
/-! SUPPORT. FP32 codes by their fields (R35): NaNs, order and classes (R211 to R213). -/

namespace Sys2Proof.Machine
open Sys2Proof.Slice0

theorem expField_eq (x : Lane) : expField x = x.toNat / 2 ^ 23 % 2 ^ 8 := by
  simp [expField, BitVec.extractLsb'_toNat, Nat.shiftRight_eq_div_pow]
theorem manField_eq (x : Lane) : manField x = x.toNat % 2 ^ 23 := by
  simp [manField, BitVec.extractLsb'_toNat]
theorem signBit_eq (x : Lane) : signBit x = decide (x.toNat / 2 ^ 31 = 1) := by
  have hx := x.isLt
  rw [signBit, bitAt, ← BitVec.testBit_toNat, Nat.testBit_eq_decide_div_mod_eq]
  have : x.toNat / 2 ^ 31 < 2 := by omega
  congr 1; simp only [eq_iff_iff]; omega
theorem quietBit_eq (x : Lane) : bitAt x 22 = decide (manField x / 2 ^ 22 = 1) := by
  rw [manField_eq, bitAt, ← BitVec.testBit_toNat, Nat.testBit_eq_decide_div_mod_eq]
  congr 1; simp only [eq_iff_iff]; omega

/-- The decoding of an FP32 code, by its fields. -/
theorem fp32_eq (x : Lane) : fp32 x =
    if expField x = 255 then (if manField x = 0 then .inf (signBit x) else .nan (signBit x) (!bitAt x 22))
    else if expField x = 0 then .fin (signBit x) (manField x) (-149)
    else .fin (signBit x) (2 ^ 23 + manField x) ((expField x : Int) - 150) := by
  have hx := x.isLt
  have h0 : x.toNat % 2 ^ 32 = x.toNat := Nat.mod_eq_of_lt hx
  have hs : (x.toNat / 2 ^ 31 == 1) = signBit x := by rw [signBit_eq]; rfl
  have he : x.toNat % 2 ^ 31 / 2 ^ 23 = expField x := by rw [expField_eq]; omega
  have hm : x.toNat % 2 ^ 31 % 2 ^ 23 = manField x := by rw [manField_eq]; omega
  have hq : (manField x / 2 ^ 22 == 0) = !bitAt x 22 := by
    rw [quietBit_eq]
    have : manField x / 2 ^ 22 < 2 := by rw [manField_eq]; omega
    rcases (by omega : manField x / 2 ^ 22 = 0 ∨ manField x / 2 ^ 22 = 1) with h | h <;> (rw [h]; rfl)
  unfold fp32 Ffmt.decode
  simp only [Ffmt.signPos, Ffmt.eb, Ffmt.mb, Ffmt.hasInf, Ffmt.bias, Nat.reduceAdd, Nat.reduceSub, if_true, h0, hs, he, hm, hq]
  by_cases h1 : expField x = 255
  · by_cases h2 : manField x = 0 <;> simp [h1, h2]
  · by_cases h2 : expField x = 0
    · simp [h2]
    · have : ¬ expField x = 2 ^ 8 - 1 := h1
      simp [h1, h2]
      omega

theorem isNan32_iff (x : Lane) : isNan32 x = true ↔ isNaN x := by
  unfold isNan32 isNaN
  rw [fp32_eq]
  by_cases h1 : expField x = 255
  · by_cases h2 : manField x = 0 <;> simp [h1, h2, Num.isNan]
  · by_cases h2 : expField x = 0 <;> simp [h1, h2, Num.isNan]
theorem isSnan32_iff (x : Lane) : isSnan32 x = true ↔ isSNaN x := by
  unfold isSnan32 isSNaN isNaN
  rw [fp32_eq]
  by_cases h1 : expField x = 255
  · by_cases h2 : manField x = 0 <;> simp [h1, h2, Num.isSnan]
  · by_cases h2 : expField x = 0 <;> simp [h1, h2, Num.isSnan]

theorem fClass_eq (x : Lane) : fClass x = BitVec.ofNat 32 (2 ^ classBit x) := by
  unfold fClass classBit
  rw [fp32_eq]
  have hs : bitAt x 31 = signBit x := rfl
  have hm : manField x < 2 ^ 23 := by rw [manField_eq]; omega
  rw [hs]
  by_cases h1 : expField x = 255
  · by_cases h2 : manField x = 0
    · cases signBit x <;> simp [h1, h2]
    · cases bitAt x 22 <;> simp [h1, h2]
  · by_cases h2 : expField x = 0
    · by_cases h3 : manField x = 0
      · cases signBit x <;> simp [h2, h3]
      · have hm' : manField x < 8388608 := hm
        cases signBit x <;> simp [h2, h3, hm']
    · have h4 : ¬ (2 ^ 23 + manField x < 2 ^ 23) := by omega
      have h5 : ¬ (2 ^ 23 + manField x = 0) := by omega
      cases signBit x <;> simp [h1, h2, h4]

/-- The magnitude code. -/
def magCode (x : Lane) : Nat := x.toNat % 2 ^ 31
theorem magCode_eq (x : Lane) : magCode x = expField x * 2 ^ 23 + manField x := by
  have := x.isLt
  rw [magCode, expField_eq, manField_eq]; omega

/-- The magnitude a code stands for, infinity above all (R35). -/
def magnitude (x : Lane) : Int := if expField x = 255 then 2 ^ 128 * 2 ^ 250 else units x
/-- The magnitude as a function of the code. -/
def unitsOf (c : Nat) : Nat := if c / 2 ^ 23 = 0 then c else (2 ^ 23 + c % 2 ^ 23) * 2 ^ (c / 2 ^ 23 - 1)

theorem unitsOf_lt_succ (c : Nat) : unitsOf c < unitsOf (c + 1) := by
  unfold unitsOf
  by_cases h0 : c / 2 ^ 23 = 0
  · rw [if_pos h0]
    by_cases h1 : (c + 1) / 2 ^ 23 = 0
    · rw [if_pos h1]; omega
    · rw [if_neg h1]
      have hc : c + 1 = 2 ^ 23 := by omega
      rw [hc]; norm_num; omega
  · rw [if_neg h0]
    have h1 : ¬ (c + 1) / 2 ^ 23 = 0 := by omega
    rw [if_neg h1]
    by_cases h2 : (c + 1) / 2 ^ 23 = c / 2 ^ 23
    · rw [h2]
      have : (c + 1) % 2 ^ 23 = c % 2 ^ 23 + 1 := by omega
      rw [this]
      exact Nat.mul_lt_mul_of_pos_right (by omega) (by positivity)
    · have h3 : (c + 1) / 2 ^ 23 = c / 2 ^ 23 + 1 := by omega
      have h4 : (c + 1) % 2 ^ 23 = 0 := by omega
      have h5 : c / 2 ^ 23 + 1 - 1 = (c / 2 ^ 23 - 1) + 1 := by omega
      rw [h3, h4, h5, pow_succ]
      have h6 : c % 2 ^ 23 < 2 ^ 23 := Nat.mod_lt _ (by positivity)
      have hp : 0 < 2 ^ (c / 2 ^ 23 - 1) := by positivity
      calc (2 ^ 23 + c % 2 ^ 23) * 2 ^ (c / 2 ^ 23 - 1) < (2 ^ 23 + 2 ^ 23) * 2 ^ (c / 2 ^ 23 - 1) :=
            Nat.mul_lt_mul_of_pos_right (by omega) hp
        _ = (2 ^ 23 + 0) * (2 ^ (c / 2 ^ 23 - 1) * 2) := by ring

theorem unitsOf_strictMono : StrictMono unitsOf := strictMono_nat_of_lt_succ unitsOf_lt_succ

theorem units_eq (x : Lane) : units x = unitsOf (magCode x) := by
  have hm : manField x < 2 ^ 23 := by rw [manField_eq]; omega
  have h1 : magCode x / 2 ^ 23 = expField x := by rw [magCode_eq]; omega
  have h2 : magCode x % 2 ^ 23 = manField x := by rw [magCode_eq]; omega
  unfold units unitsOf
  rw [h1, h2]
  by_cases h : expField x = 0
  · rw [if_pos h, if_pos h, magCode_eq, h]; simp
  · rw [if_neg h, if_neg h]

theorem unitsOf_inf_le : unitsOf (255 * 2 ^ 23) ≤ 2 ^ 128 * 2 ^ 250 := by
  have h1 : 255 * 2 ^ 23 / 2 ^ 23 = 255 := by decide
  have h2 : 255 * 2 ^ 23 % 2 ^ 23 = 0 := by decide
  have h3 : (2 ^ 254 : Nat) = 2 ^ 250 * 2 ^ 4 := (pow_add 2 250 4)
  have hp : 0 < (2 ^ 250 : Nat) := by positivity
  unfold unitsOf
  rw [h1, h2]
  show (2 ^ 23 + 0) * 2 ^ 254 ≤ _
  rw [h3]; omega

/-- Among codes that are no NaN, magnitudes stand in the order of the codes. -/
theorem magnitude_lt {x y : Lane} (hx : ¬ isNaN x) (hy : ¬ isNaN y) : magnitude x < magnitude y ↔ magCode x < magCode y := by
  have hmx : manField x < 2 ^ 23 := by rw [manField_eq]; omega
  have hmy : manField y < 2 ^ 23 := by rw [manField_eq]; omega
  have hex : expField x < 256 := by rw [expField_eq]; omega
  have hey : expField y < 256 := by rw [expField_eq]; omega
  have inf : ∀ z : Lane, ¬ isNaN z → expField z = 255 → magCode z = 255 * 2 ^ 23 := by
    intro z hz he
    have : manField z = 0 := by by_contra hm; exact hz ⟨he, hm⟩
    rw [magCode_eq, he, this, Nat.add_zero]
  have fin : ∀ z : Lane, manField z < 2 ^ 23 → expField z < 255 → magCode z < 255 * 2 ^ 23 := by
    intro z hm he; rw [magCode_eq]; omega
  unfold magnitude
  by_cases h1 : expField x = 255
  · by_cases h2 : expField y = 255
    · rw [if_pos h1, if_pos h2, inf x hx h1, inf y hy h2]; simp
    · have h3 := fin y hmy (by omega)
      have h4 : unitsOf (magCode y) < 2 ^ 128 * 2 ^ 250 := lt_of_lt_of_le (unitsOf_strictMono h3) unitsOf_inf_le
      rw [if_pos h1, if_neg h2, inf x hx h1, units_eq]
      constructor
      · intro h; exfalso; have : ((2 ^ 128 * 2 ^ 250 : Nat) : Int) < unitsOf (magCode y) := by push_cast; exact h
        rw [Nat.cast_lt] at this; omega
      · intro h; omega
  · by_cases h2 : expField y = 255
    · have h3 := fin x hmx (by omega)
      have h4 : unitsOf (magCode x) < 2 ^ 128 * 2 ^ 250 := lt_of_lt_of_le (unitsOf_strictMono h3) unitsOf_inf_le
      rw [if_neg h1, if_pos h2, inf y hy h2, units_eq]
      constructor
      · intro _; exact h3
      · intro _
        have : (unitsOf (magCode x) : Int) < ((2 ^ 128 * 2 ^ 250 : Nat) : Int) := by exact_mod_cast h4
        push_cast at this; exact this
    · rw [if_neg h1, if_neg h2, units_eq, units_eq, Nat.cast_lt]
      exact unitsOf_strictMono.lt_iff_lt

theorem value_eq (x : Lane) : value x = if signBit x then -magnitude x else magnitude x := rfl
theorem magnitude_nonneg (x : Lane) : 0 ≤ magnitude x := by
  unfold magnitude
  split
  · positivity
  · rw [units_eq]; exact Int.natCast_nonneg _
theorem magnitude_zero {x : Lane} (hx : ¬ isNaN x) : magnitude x = 0 ↔ magCode x = 0 := by
  have z : ¬ isNaN (0 : Lane) := by rw [← isNan32_iff]; decide
  have h := magnitude_lt z hx
  have h0 : magnitude (0 : Lane) = 0 := by decide
  have h1 : magCode (0 : Lane) = 0 := by decide
  rw [h0, h1] at h
  have := magnitude_nonneg x
  omega

/-- FP32 order of codes that are no NaN is the order of their values, +0 equal to −0 (R212). -/
theorem fLt_iff {x y : Lane} (hx : ¬ isNaN x) (hy : ¬ isNaN y) : fLt x y = true ↔ value x < value y := by
  have h1 := magnitude_lt hx hy
  have h2 := magnitude_lt hy hx
  have zx := magnitude_zero hx
  have zy := magnitude_zero hy
  have nx := magnitude_nonneg x
  have ny := magnitude_nonneg y
  unfold fLt
  rw [value_eq, value_eq]
  have sx : bitAt x 31 = signBit x := rfl
  have sy : bitAt y 31 = signBit y := rfl
  simp only [decide_eq_true_eq, sx, sy]
  show (if magCode x = 0 then (0 : Int) else if signBit x = true then -((magCode x : Nat) : Int) else (magCode x : Nat))
    < (if magCode y = 0 then (0 : Int) else if signBit y = true then -((magCode y : Nat) : Int) else (magCode y : Nat)) ↔ _
  cases signBit x <;> cases signBit y <;> simp only [if_true, Bool.false_eq_true, if_false] <;>
    (by_cases hx0 : magCode x = 0 <;> by_cases hy0 : magCode y = 0 <;> simp only [hx0, hy0, if_true, if_false] <;> omega)

/-- FMIN's order (R211). -/
theorem orderKey_lt {x y : Lane} (hx : ¬ isNaN x) (hy : ¬ isNaN y) : orderKey x < orderKey y ↔ comesBefore x y := by
  have h1 := magnitude_lt hx hy
  have h2 := magnitude_lt hy hx
  have zx := magnitude_zero hx
  have zy := magnitude_zero hy
  have nx := magnitude_nonneg x
  have ny := magnitude_nonneg y
  unfold comesBefore
  rw [value_eq, value_eq]
  have sx : bitAt x 31 = signBit x := rfl
  have sy : bitAt y 31 = signBit y := rfl
  show (if bitAt x 31 = true then -((magCode x : Nat) : Int) - 1 else (magCode x : Nat))
    < (if bitAt y 31 = true then -((magCode y : Nat) : Int) - 1 else (magCode y : Nat)) ↔ _
  rw [sx, sy]
  cases signBit x <;> cases signBit y <;> simp only [if_true, Bool.false_eq_true, if_false, true_and, and_true, and_false, or_false, false_and, reduceCtorEq] <;> omega

end Sys2Proof.Machine
end

