-- ==== Sys2Proof/Laws/Integers.lean ====
section
/-! SUPPORT. The integer and bit operations as numbers and bits, at any width (R219 to R221, R249). -/

namespace Sys2Proof.Machine
open Sys2Proof.Slice0

theorem ishr_eq (x : Int) (n : Nat) : ishr x n = x / (2 ^ n : Int) := by
  simp [ishr]

theorem wrap_rel (n : Nat) (hn : 0 < n) (sat : Bool) (x : Int) : wrapRel sat x (clampWrap n sat x).1 (clampWrap n sat x).2 := by
  have hp : (2 ^ n : Int) = 2 * 2 ^ (n - 1) := by
    obtain ⟨k, rfl⟩ : ∃ k, n = k + 1 := ⟨n - 1, by omega⟩
    simp [pow_succ]; ring
  have hpos : (0 : Int) < 2 ^ (n - 1) := by positivity
  have hcast : ((2 ^ (n - 1) : Nat) : Int) = 2 ^ (n - 1) := by push_cast; rfl
  have hround : ∀ y : Int, -(2 ^ (n - 1)) ≤ y → y < 2 ^ (n - 1) → (BitVec.ofInt n y).toInt = y := by
    intro y h1 h2
    rw [BitVec.toInt_ofInt]
    exact Int.bmod_eq_of_le (by push_cast; omega) (by push_cast; omega)
  unfold wrapRel clampWrap inRange
  simp only [hcast]
  refine ⟨?_, ?_, ?_⟩
  · rintro (rfl | ⟨h1, h2⟩)
    · simp
    · rw [if_neg]
      · exact ⟨rfl, rfl⟩
      · simp only [Bool.and_eq_true, Bool.or_eq_true, decide_eq_true_eq, not_and, not_or]
        intro _; omega
  · rintro ⟨rfl, h⟩
    rw [if_pos (by simp [h])]
    refine ⟨?_, rfl⟩
    simp only [clampInt, if_pos h]
    exact hround _ (le_refl _) (by omega)
  · rintro ⟨rfl, h⟩
    have h1 : ¬ x < -(2 ^ (n - 1) : Int) := by omega
    have h2 : x > (2 ^ (n - 1) : Int) - 1 := by omega
    rw [if_pos (by simp only [Bool.and_eq_true, Bool.or_eq_true, decide_eq_true_eq]; exact ⟨trivial, .inr h2⟩)]
    refine ⟨?_, rfl⟩
    simp only [clampInt, if_neg h1, if_pos h2]
    exact hround _ (by omega) (by omega)

variable {n : Nat} (a b : BitVec n)

theorem iMulH_toInt (hn : 0 < n) : (iMulH a b).toInt = a.toInt * b.toInt / (2 ^ n : Int) := by
  unfold iMulH
  rw [ishr_eq, BitVec.toInt_ofInt]
  have hp : (2 ^ n : Int) = 2 * 2 ^ (n - 1) := by
    obtain ⟨k, rfl⟩ : ∃ k, n = k + 1 := ⟨n - 1, by omega⟩
    simp [pow_succ]; ring
  have hpos : (0 : Int) < 2 ^ (n - 1) := by positivity
  have ha := BitVec.le_toInt (x := a)
  have ha' := BitVec.toInt_lt (x := a)
  have hb := BitVec.le_toInt (x := b)
  have hb' := BitVec.toInt_lt (x := b)
  have h1 : a.toInt * b.toInt ≤ 2 ^ (n - 1) * 2 ^ (n - 1) := by nlinarith
  have h2 : -(2 ^ (n - 1) * 2 ^ (n - 1)) ≤ a.toInt * b.toInt := by nlinarith
  have hn2 : (2 ^ n : Int) > 0 := by positivity
  apply Int.bmod_eq_of_le
  · rw [Int.le_ediv_iff_mul_le hn2]
    have e : ((2 ^ n : Nat) : Int) / 2 = 2 ^ (n - 1) := by push_cast; omega
    rw [e]; nlinarith
  · rw [Int.ediv_lt_iff_lt_mul hn2]
    have e : (((2 ^ n : Nat) : Int) + 1) / 2 = 2 ^ (n - 1) := by push_cast; omega
    rw [e]; nlinarith

theorem iMulHU_toNat : (iMulHU a b).toNat = a.toNat * b.toNat / 2 ^ n := by
  unfold iMulHU
  rw [BitVec.toNat_ofNat]
  apply Nat.mod_eq_of_lt
  rw [Nat.div_lt_iff_lt_mul (by positivity)]
  exact Nat.mul_lt_mul'' a.isLt b.isLt

theorem iMin_toInt : (iMinOp a b).toInt = min a.toInt b.toInt := by
  unfold iMinOp
  by_cases h : a.slt b
  · rw [if_pos h]; rw [BitVec.slt_iff_toInt_lt] at h; omega
  · rw [if_neg h]; rw [BitVec.slt_iff_toInt_lt] at h; omega
theorem iMax_toInt : (iMaxOp a b).toInt = max a.toInt b.toInt := by
  unfold iMaxOp
  by_cases h : a.slt b
  · rw [if_pos h]; rw [BitVec.slt_iff_toInt_lt] at h; omega
  · rw [if_neg h]; rw [BitVec.slt_iff_toInt_lt] at h; omega
theorem uMin_toNat : (uMinOp a b).toNat = min a.toNat b.toNat := by
  unfold uMinOp
  by_cases h : a.ult b
  · rw [if_pos h]; rw [BitVec.ult_iff_lt, BitVec.lt_def] at h; omega
  · rw [if_neg h]; rw [BitVec.ult_iff_lt, BitVec.lt_def] at h; omega
theorem uMax_toNat : (uMaxOp a b).toNat = max a.toNat b.toNat := by
  unfold uMaxOp
  by_cases h : a.ult b
  · rw [if_pos h]; rw [BitVec.ult_iff_lt, BitVec.lt_def] at h; omega
  · rw [if_neg h]; rw [BitVec.ult_iff_lt, BitVec.lt_def] at h; omega

theorem iCmp_iff (c : ICond) : iCmp c a b = true ↔ intCond c a b := by
  cases c <;> simp [iCmp, intCond, BitVec.slt, BitVec.ult]

theorem shl_toNat : (shlOp a b).toNat = a.toNat * 2 ^ (b.toNat % n) % 2 ^ n := by
  simp [shlOp, shiftCount, BitVec.toNat_shiftLeft, Nat.shiftLeft_eq]
theorem shr_toNat : (shrOp a b).toNat = a.toNat / 2 ^ (b.toNat % n) := by
  simp [shrOp, shiftCount, BitVec.toNat_ushiftRight, Nat.shiftRight_eq_div_pow]
theorem sar_toInt : (sarOp a b).toInt = a.toInt / (2 ^ (b.toNat % n) : Int) := by
  simp [sarOp, shiftCount, BitVec.toInt_sshiftRight, Int.shiftRight_eq_div_pow]
theorem rotl_bit (k : Nat) (hk : k < n) : bitAt (rotlOp a b) ((k + b.toNat) % n) = bitAt a k := by
  have hn : 0 < n := by omega
  unfold rotlOp shiftCount
  rw [bitAt, BitVec.getLsbD_rotateLeft]
  have hm : b.toNat % n % n = b.toNat % n := Nat.mod_mod _ _
  have hlt : b.toNat % n < n := Nat.mod_lt _ hn
  have e : (k + b.toNat) % n = if k + b.toNat % n < n then k + b.toNat % n else k + b.toNat % n - n := by
    rw [Nat.add_mod, Nat.mod_eq_of_lt hk]
    split
    · exact Nat.mod_eq_of_lt (by assumption)
    · rw [Nat.mod_eq_sub_mod (by omega)]; exact Nat.mod_eq_of_lt (by omega)
  rw [e, hm]
  split
  · have h1 : ¬ (k + b.toNat % n < b.toNat % n) := by omega
    have h2 : k + b.toNat % n - b.toNat % n = k := by omega
    have h3 : k + b.toNat % n < n := by assumption
    simp [h1, h2, h3]
  · have h1 : k + b.toNat % n - n < b.toNat % n := by omega
    have h2 : n - b.toNat % n + (k + b.toNat % n - n) = k := by omega
    simp [h1, h2]

theorem popc_toNat (hn : n < 2 ^ n) : (popcOp a).toNat = ((List.range n).filter fun k => bitAt a k).length := by
  have hf : ∀ (xs : List Nat) (c : Nat), xs.foldl (fun k i => if bitAt a i then k + 1 else k) c = c + (xs.filter fun k => bitAt a k).length := by
    intro xs
    induction xs with
    | nil => simp
    | cons x xs ih =>
      intro c
      rw [List.foldl_cons, ih]
      by_cases h : bitAt a x
      · rw [if_pos h, List.filter_cons_of_pos h, List.length_cons]; exact (by omega : ∀ c g : Nat, c + 1 + g = c + (g + 1)) _ _
      · rw [if_neg h, List.filter_cons_of_neg h]
  unfold popcOp
  rw [BitVec.toNat_ofNat, hf, Nat.zero_add]
  apply Nat.mod_eq_of_lt
  have : ((List.range n).filter fun k => bitAt a k).length ≤ n := by
    have := List.length_filter_le (fun k => bitAt a k) (List.range n)
    simpa using this
  omega

theorem clz_rel (hn : n < 2 ^ n) : (clzOp a).toNat ≤ n ∧ (∀ k, k < (clzOp a).toNat → bitAt a (n - 1 - k) = false)
    ∧ ((clzOp a).toNat < n → bitAt a (n - 1 - (clzOp a).toNat) = true) := by
  unfold clzOp
  rw [BitVec.toNat_ofNat]
  by_cases h : a = 0
  · simp [h, Nat.mod_eq_of_lt hn]
  · have hne : a.toNat ≠ 0 := fun e => h (by apply BitVec.eq_of_toNat_eq; simpa using e)
    have hl : a.toNat.log2 < n := (Nat.log2_lt hne).mpr a.isLt
    rw [if_neg h, Nat.mod_eq_of_lt (by omega)]
    refine ⟨by omega, ?_, ?_⟩
    · intro k hk
      rw [bitAt, ← BitVec.testBit_toNat]
      apply Nat.testBit_lt_two_pow
      have h1 : a.toNat < 2 ^ (a.toNat.log2 + 1) := Nat.lt_log2_self
      exact lt_of_lt_of_le h1 (Nat.pow_le_pow_right (by decide) (by omega))
    · intro _
      have : n - 1 - (n - 1 - a.toNat.log2) = a.toNat.log2 := by omega
      rw [this, bitAt, ← BitVec.testBit_toNat, Nat.testBit_log2 hne]

theorem ctz_rel (hn : n < 2 ^ n) : (ctzOp a).toNat ≤ n ∧ (∀ k, k < (ctzOp a).toNat → bitAt a k = false)
    ∧ ((ctzOp a).toNat < n → bitAt a (ctzOp a).toNat = true) := by
  unfold ctzOp
  rw [BitVec.toNat_ofNat]
  cases hf : (List.range n).find? fun i => bitAt a i with
  | none =>
    rw [Option.getD_none, Nat.mod_eq_of_lt hn]
    refine ⟨le_refl _, ?_, fun h => absurd h (lt_irrefl _)⟩
    intro k hk
    have := List.find?_eq_none.mp hf k (List.mem_range.mpr hk)
    simpa using this
  | some j =>
    have hj : j < n := List.mem_range.mp (List.mem_of_find?_eq_some hf)
    rw [Option.getD_some, Nat.mod_eq_of_lt (by omega)]
    refine ⟨by omega, ?_, fun _ => ?_⟩
    · intro k hk
      have := (List.find?_range_eq_some.mp hf).2.2 k hk
      simpa using this
    · have := List.find?_some hf
      simpa using this

end Sys2Proof.Machine
end

