-- ==== Sys2Proof/Laws/Tokens.lean ====
section
/-! SUPPORT. What the shared operations of arrivals can do: permits that go back, a token's place in its burst, steps that wait for room
in a frontier unit, clocks that are granted. -/

namespace Sys2Proof.Machine

/-- A permit goes back as one REQ on the edge (R144). -/
theorem sendReq_eq (s : State) (ek : EdgeKey) (tag : Tag) : ∃ k, sendReq s ek tag = launchTok s ek k (reqToken tag) := by
  unfold sendReq
  split
  · exact ⟨_, rfl⟩
  · exact ⟨_, rfl⟩

/-- The token that ends its burst gives the permit back; another leaves the state as it is. -/
theorem permitBack_cases (s : State) (ek : EdgeKey) (tag : Tag) (last : Bool) :
    (last = false ∧ permitBack s ek tag last = s)
      ∨ (last = true ∧ ∃ k, permitBack s ek tag last = launchTok s ek k (reqToken tag)) := by
  cases last
  · exact .inl ⟨rfl, rfl⟩
  · exact .inr ⟨rfl, sendReq_eq s ek tag⟩

/-- An arrival changes nothing but its edge's place in the burst (R22). -/
theorem burstArrival_state (s : State) (ek : EdgeKey) (t : Token) :
    ∃ xs, (burstArrival s ek t).1 = { s with q := { s.q with arriving := xs } } := by
  unfold burstArrival
  cases t.kind <;> simp only
  all_goals first
    | exact ⟨_, rfl⟩
    | (split <;> exact ⟨_, rfl⟩)

/-- A step that needs room in the frontier units takes place whole, or not at all (R163). -/
theorem roomed_cases (s t : State) :
    (unitsFit t = true ∧ roomed s t = .next t) ∨ (unitsFit t = false ∧ roomed s t = .next s) := by
  unfold roomed stay
  cases h : unitsFit t
  · exact .inr ⟨rfl, rfl⟩
  · exact .inl ⟨rfl, rfl⟩

/-- A granted clock changes the element's slot table and nothing else (R180, R181). -/
theorem grant_some {s t : State} {k : EKey} {ready : EKey → Bool} (h : grant s k ready = some t) :
    (slotTable s k.stand (tableIndex k.elem)).served ≤ s.ctl.clock
      ∧ ∃ x, (slotTable s k.stand (tableIndex k.elem)).grantee s.ctl.clock
            (fun c => running s { k with ctx := c } && ready { k with ctx := c }) = some (k.ctx, x)
        ∧ t = setSlotTable s k.stand (tableIndex k.elem) x := by
  unfold grant at h
  dsimp only at h
  split at h
  · cases h
  · rename_i hs
    split at h
    · rename_i c x hg
      split at h
      · rename_i hc
        cases h
        subst hc
        exact ⟨Nat.le_of_not_lt hs, x, hg, rfl⟩
      · cases h
    · cases h

end Sys2Proof.Machine
end

