-- ==== Sys2Proof/Safety.lean ====
section
/-! DEFINITION. What claims call a safe run, and a fair one. The spec halts the machine nowhere, so a safe step is one that answers a
next state. -/

namespace Sys2Proof

/-- The step at a state answers a next state: no fault, no refusal. -/
def Safe (s : Machine.State) : Prop := ∃ t, Machine.step s = .next t

/-- A run: each state is the step of the one before. -/
def IsRun (r : Nat → Machine.State) : Prop := ∀ n, Machine.step (r n) = .next (r (n + 1))
/-- The state at which a step runs an instruction on a subject. -/
def Running (s : Machine.State) (f : Machine.Focus) : Machine.State := Machine.focusOn (Machine.ready s).2 f
/-- An action that would change the state is enabled. -/
def Enabled (i : Instr) (f : Machine.Focus) (s : Machine.State) : Prop := Machine.exec i (Running s f) ≠ .next (Running s f)
/-- The step at a state takes an action. -/
def Takes (i : Instr) (f : Machine.Focus) (s : Machine.State) : Prop :=
  Machine.fetch (Machine.ready s).2 (Machine.ready s).1.what = .run i f
/-- A schedule the spec allows: every clock comes, and an action that is enabled again and again is taken again and again while
it is enabled (R29, R30, R128).
No other claim rests on it: a claim about every step holds on unfair runs too. -/
structure Fair (r : Nat → Machine.State) : Prop where
  run : IsRun r
  clocks : ∀ c, (r 0).ctl.clock ≤ c → ∃ n, (r n).ctl.clock = c
  taken : ∀ i f, (∀ n, ∃ m, n ≤ m ∧ Enabled i f (r m)) → ∀ n, ∃ m, n ≤ m ∧ Enabled i f (r m) ∧ Takes i f (r m)

end Sys2Proof
end

