-- ==== Sys2Proof/Tests/Slice0.lean ====
section
/-! SUPPORT. Tests of the model: what WellFormed refuses, words of the spec's encodings, one step of an instruction with the
result the spec's examples give, and states that meet the hypotheses of each statement. -/

namespace Sys2Proof.Tests
open Sys2Proof Sys2Proof.Machine Sys2Proof.Slice0
set_option Elab.async false

/-! ### WellFormed refuses an ill-formed term at each check -/

def zs (d : Dst) (imm : BitVec 20) : SWord := sw none .zero .zero .zero d imm
/-- A used slot that must be empty, each in turn (R66). -/
theorem test_wf_unused_sources : ∀ i ∈ [Instr.ldi (sw none (.l 0) (.l 1) .zero (.l 0) 0), .mov (sw none (.l 0) .zero (.l 1) (.l 0) 0),
    .nop (sw none (.l 0) .zero .zero .nowhere 0)], wfStage i = false := by decide
/-- IMM20 without a meaning; an immediate where the entry takes none; a destination the entry excludes (R66, R217, R218, R311). -/
theorem test_wf_imm_and_destination : ∀ i ∈ [Instr.mov (sw none (.l 0) .zero .zero (.l 0) 1),
    .cvt .f32_e4 (sw none .imm (.l 0) .zero (.l 0) 0), .acc (sw none (.inp 0) .zero .zero (.l 1) 0), .nop (zs .out0 0),
    .exitq (sw none (.l 0) (.l 1) (.l 2) .out0 0)], wfStage i = false := by decide
/-- Values of IMM20 that entries reserve (R222, R228, R239, R241, R307). -/
theorem test_wf_stage_values : ∀ i ∈ [Instr.cvt .f32_b16 (sw none (.l 0) (.l 0) .zero (.l 0) 2), .advh (zs .nowhere (1025 * 32)),
    .waith (zs .nowhere (1025 * 32)), .samo (sw none (.l 0) (.l 1) .zero (.l 0) 0xC0000#20),
    .gnoiseKey (sw none (.l 0) (.l 1) .zero (.l 0) 1), .gnoiseNoise (sw none (.l 0) (.l 1) (.l 2) (.l 0) 0),
    .dadd (sw none .imm (.inp 1) .zero .out0 0), .dneg (sw none .imm .zero .zero .out0 0),
    .dscl (sw none .imm (.l 0) .zero .out0 0), .dlerp (sw none (.inp 0) .imm (.l 0) .out0 0)], wfStage i = false := by decide
/-- A width, a rounding mode, an immediate and a predicate that the entry excludes (R248, R249, R258). -/
theorem test_wf_block_fields : ∀ i ∈ [Instr.faddBlock (bw (.w 0) .w64 0), .movBlock { bw (.w 0) .w64 0 with rm := .rup },
    .halt (bw .nowhere .w64 1), .selBlock { bw (.w 0) .w64 0 with pr := .onTrue }], wfB i = false := by decide
/-- Values of IMM24 that entries reserve (R222, R250, R252, R259, R272 to R274, R282, R284, R371). -/
theorem test_wf_block_values : ∀ i ∈ [Instr.cvtBlock .f32_b16 (bw (.w 0) .w32 2), .lend true (bw .nowhere .w64 0),
    .bfext (bw (.w 0) .w64 (60 + 8 * 64)), .bfins (bw (.w 0) .w64 (60 + 8 * 64)), .spawnp (bw (.a 3) .w64 0x600000#24),
    .send (bw .nowhere .tok 0), .sendBrk (bw .nowhere .tok 0), .recvStart (bw .nowhere .tok 0), .poison (bw .nowhere .w64 14),
    .poison (bw .nowhere .w64 0), .invt (bw .nowhere .w64 12), .dfromBlock (bw .nowhere .tok 0xC00#24)], wfB i = false := by decide
/-- An order, a size, NC, an operation, a scope, a predicate beside slot c, targets of a posted store (R245, R260, R265, R266). -/
theorem test_wf_memory_fields : ∀ i ∈ [Instr.ld ⟨.a 2, .nowhere, .always, .rel, .stand, 3, false, 0, 8⟩,
    .amo ⟨.a 2, .nowhere, .always, .plain, .stand, 1, false, 0, 0⟩, .st ⟨.nowhere, .nowhere, .always, .plain, .stand, 3, true, 0, 0⟩,
    .amo ⟨.a 2, .nowhere, .always, .plain, .stand, 3, false, 15, 0⟩, .sldBlock ⟨.a 2, .nowhere, .always, .plain, .sys, 3, false, 0, 0⟩,
    .cas ⟨.a 2, .nowhere, .onTrue, .plain, .stand, 3, false, 0, 0⟩, .st ⟨.a 2, .nowhere, .always, .plain, .stand, 3, false, 0, 0⟩],
    wfM i = false := by decide
/-- A float atomic of 8 bytes in scratch, a direction group that is not aligned, a fence without a source or a target class (R135,
R241, R268). -/
theorem test_wf_memory_values : ∀ i ∈ [Instr.samoBlock ⟨.a 2, .nowhere, .always, .plain, .stand, 3, false, 9, 0⟩,
    .dld ⟨.nowhere, .nowhere, .always, .plain, .stand, 1, false, 1, 0⟩, .dst ⟨.nowhere, .nowhere, .always, .plain, .stand, 1, false, 1, 0⟩,
    .fence ⟨.nowhere, .nowhere, .always, .plain, .sys, 0, false, 0, 1⟩, .fence ⟨.nowhere, .nowhere, .always, .plain, .sys, 0, false, 0, 0x100⟩],
    wfM i = false := by decide
/-- An engine, a qualifier, the low bits of PA and a PA where none is used (R300, R286, R294). -/
theorem test_wf_engine_fields : ∀ i ∈ [Instr.cpy ⟨.nowhere, .nowhere, .always, 4, 0, 0x40⟩, .tilef ⟨.nowhere, .nowhere, .always, 4, 3, 0⟩,
    .cpy ⟨.nowhere, .nowhere, .always, 1, 0, 0x41⟩, .strmStop ⟨.nowhere, .nowhere, .always, 1, 0, 0x40⟩], wfE i = false := by decide
/-- A command that stands under a constructor of its own (R60), and an instruction that is no command. -/
theorem test_wf_config : ∀ i ∈ [Instr.configCommand 0xFF 0 1, .configCommand 0xFF 1 1, .configCommand 0xFF 2 1, .configCommand 0xFF 3 1,
    .halt (bw .nowhere .w64 0)], wfConfig i = false := by decide
/-- Each check passes a legal term. -/
theorem test_wf_legal : wfStage (.acc (sw none (.inp 0) .zero .zero (.l 2) 0)) = true ∧ wfB (.halt (bw .nowhere .w64 0)) = true
    ∧ wfM (.ld ⟨.a 2, .nowhere, .always, .acq, .stand, 3, false, 0, 8⟩) = true
    ∧ wfE (.mxclr ⟨.nowhere, .nowhere, .always, 4, 0, 0⟩) = true ∧ wfConfig (.sel 1 3) = true := by decide

/-! ### Words written out from the spec's encodings -/

/-- R210's example: OPC 02, FN 0, FT 0 (F32), SA 04, SB 1A, SC 01, DS 01. -/
theorem test_decode_ffma : decodeStage 0x0200008D02100000#64 = .ok (.ffma (sw (some .f32) (.inp 0) (.k 2) (.l 1) (.l 1) 0)) := by decide
theorem test_decode_mov : decodeStage 0x180E02271C400000#64 = .ok (.mov (sw none (.s 1) .zero .zero .out0 0)) := by decide
theorem test_decode_iadd_sat : decodeStage 0x200800029C080000#64
    = .ok (.iadd (sw (some .i32) (.l 0) (.inp 1) .zero (.l 0) 0x80000#20)) := by decide
theorem test_decode_ddot : decodeStage 0x590E02029C700000#64 = .ok (.ddot (sw none (.s 0) (.inp 1) .zero .nowhere 0)) := by decide
theorem test_decode_tstep : decodeStage 0x702000871C400000#64 = .ok (.tstep (sw (some .f32) (.inp 0) .zero .zero .out0 0)) := by decide
theorem test_decode_notify : decodeStage 0x720E01C71C500802#64 = .ok (.notify (zs .out1 0x802#20)) := by decide
theorem test_decode_sld : decodeStage 0x780800A71C200040#64 = .ok (.sld (sw (some .i32) (.inp 1) .zero .zero (.l 2) 64)) := by decide
theorem test_decode_gnoise : decodeStage 0xE008004226400001#64
    = .ok (.gnoiseNoise (sw (some .i32) (.l 2) (.inp 0) (.s 3) .out0 1)) := by decide
theorem test_decode_exitq : decodeStage 0xE80000892663F000#64
    = .ok (.exitq (sw (some .f32) (.inp 0) (.s 2) (.s 3) .outB 0x3F000#20)) := by decide
theorem test_decode_block_iadd : decodeBlock 0x20001FFCE0000000#64 = .ok (.iaddBlock (bw (.w 0) .w64 0)) := by decide
theorem test_decode_block_ddot : decodeBlock 0x59001FFCE1010000#64 = .ok (.ddotBlock (bw (.w 0) .w32 0x10000#24)) := by decide
theorem test_decode_bri : decodeBlock 0x801FFFFCE0000010#64 = .ok (.bri (bw .nowhere .w64 0x10#24)) := by decide
theorem test_decode_call : decodeBlock 0x81003FFCE0000100#64 = .ok (.call (bw (.w 1) .w64 0x100#24)) := by decide
theorem test_decode_halt : decodeBlock 0x840FFFFCE0000000#64 = .ok (.halt (bw .nowhere .w64 0)) := by decide
theorem test_decode_movi : decodeBlock 0x89006FFCE0000001#64 = .ok (.movi (bw (.b 3) .w64 1)) := by decide
theorem test_decode_ld : decodeBlock 0xA00047FC23000008#64 = .ok (.ld ⟨.a 2, .nowhere, .always, .acq, .stand, 3, false, 0, 8⟩) := by decide
theorem test_decode_st : decodeBlock 0xA01FFFFC03000000#64 = .ok (.st ⟨.nowhere, .nowhere, .always, .plain, .stand, 3, false, 0, 0⟩) := by decide
theorem test_decode_amo : decodeBlock 0xA30040306B400000#64
    = .ok (.amo ⟨.a 2, .a 3, .always, .ar, .die, 3, false, 8, 0⟩) := by decide
theorem test_decode_fence : decodeBlock 0xA60FFFFC18000101#64
    = .ok (.fence ⟨.nowhere, .nowhere, .always, .plain, .sys, 0, false, 0, 0x101#16⟩) := by decide
theorem test_decode_dld : decodeBlock 0xA80FFFFC00000000#64 = .ok (.dld ⟨.nowhere, .nowhere, .always, .plain, .stand, 0, false, 0, 0⟩)
    ∧ decodeBlock 0xA80FFFFC00080000#64 = .ok (.dld ⟨.nowhere, .nowhere, .always, .plain, .stand, 0, false, 1, 0⟩) := by decide
theorem test_decode_swset : decodeBlock 0xB80FFFFC43000000#64 = .ok (.swset ⟨.nowhere, .nowhere, .always, .rel, .stand, 3, false, 0, 0⟩) := by decide
theorem test_decode_spawnp : decodeBlock 0xB00067FCE0A0A030#64 = .ok (.spawnp (bw (.a 3) .w64 0xA0A030#24)) := by decide
theorem test_decode_sysr : decodeBlock 0xF00027FCE0000009#64 = .ok (.sysr (bw (.a 1) .w64 9)) := by decide
theorem test_decode_strm_ld : decodeBlock 0xC00FFFFC00000400#64 = .ok (.strmLd ⟨.nowhere, .nowhere, .always, 0, 0, 0x400#20⟩) := by decide
theorem test_decode_cpy : decodeBlock 0xC20FFFFC10000440#64 = .ok (.cpy ⟨.nowhere, .nowhere, .always, 1, 0, 0x440#20⟩) := by decide
theorem test_decode_tilee : decodeBlock 0xD01FFFFC40200000#64 = .ok (.tilee ⟨.nowhere, .nowhere, .always, 4, 2, 0⟩) := by decide
theorem test_decode_rnmax : decodeBlock 0xDB1037FC50320000#64 = .ok (.rnmax ⟨.p 1, .nowhere, .always, 5, 3, 0x20000#20⟩) := by decide
theorem test_decode_kvld : decodeBlock 0xE91067FC80110000#64 = .ok (.kvld ⟨.a 3, .nowhere, .always, 8, 1, 0x10000#20⟩) := by decide
theorem test_decode_sel : decodeConfig 0xFF004003#32 = .sel 1 3 ∧ decodeConfig 0x20010ABC#32 = .configCommand 0x20 1 0xABC := by decide
/-- An unassigned opcode, a reserved rounding mode and a block header are refused (R66, R70, R75). -/
theorem test_decode_refused : decodeStage 0xFF0E01C71C700000#64 = .error .unassignedOpcode
    ∧ decodeStage 0x1F0FC1C71C700000#64 = .error .reservedField ∧ decodeBlock 0xF800000000000000#64 = .error .blockHeader := by decide

/-! ### A small machine: a running launch of an ingress node 0, a stage 1, a block 2, a matrix node 3, a streamer 4, a region node 5 and an
egress node 6; edges 0: 0 to 1, 1 and 4: 1 to 2, 2: 2 to 6, 3: 4 to 3, 5: 3 to 2, 6: 5 to 3, 7: 2 to 6 -/

def node (n : Nat) (k : NodeKind) (region : Option Nat := none) : NodeRec := ⟨n, k, 0, 0, 1, [], 0, 0, region, []⟩
def arc (n prod pport cons cport : Nat) : EdgeRec := ⟨n, prod, pport, cport, cons, false, 1, .f32, false, 0, 0, 0, 0⟩
def mod0 : Module := ⟨0, [24, 24, 12], some 0,
  [node 0 .ingress, node 1 .stage, node 2 .block, node 3 .matrix, node 4 .stream, node 5 .region (some 0), node 6 .egress],
  [arc 0 0 0 1 0, arc 1 1 0 2 0, arc 2 2 0 6 0, arc 3 4 0 3 0, arc 4 1 1 2 1, arc 5 3 0 2 2, arc 6 5 0 3 1, arc 7 2 1 6 1],
  [], [], [], [⟨0, 0, false, 16, []⟩], 1, 1, 1, 0, 0⟩
def place0 : MapResult := ⟨0, [⟨1, ⟨0, 0, 0⟩⟩, ⟨2, ⟨0, 0x20, 0⟩⟩, ⟨3, ⟨0, 0x28, 0⟩⟩, ⟨4, ⟨0, 0x30, 0⟩⟩], [⟨0, 0, 0⟩], [], [], 0, 0, 1024, [], 0, 0, [], [], [], []⟩
def lk0 : LKey := ⟨0, 0⟩
def launch0 : Launch := ⟨lk0, .running, 0, 1, 1, none, 0, 0, 0, 0, 0, [], 0, 1, some mod0, some place0, [], none, [], none, none, false, 0,
  false, false, none, ⟨0, 0, [], []⟩, false, false, false, none, [], 0, false, false, false⟩
/-- The machine with that launch running; each 1 MiB of stand 0's scratch is a plain region. -/
def base : State := { State.reset with
  la := ⟨[launch0], [], []⟩
  cfg := { State.reset.cfg with
    sce := (List.range 16).map fun i => (⟨0, 0x10 + i, 0⟩, { sceCfg State.reset ⟨0, 0x10 + i, 0⟩ with regions := [⟨0, 1024, 0, 0, false⟩] }) } }

/-! ### A firing in a stage of it -/

def vpe0 : EKey := ⟨0, 0, 0⟩
/-- The tag of depth 1 whose level is 0. -/
def tag0 : Tag := 0x1000000000000000#64
/-- Every lane the same. -/
def fill (x : Lane) : Lanes := lanesFrom fun _ => x
def dataTok (ft : Fmt) (x : Lanes) : Token := ⟨tag0, 0, .data, ft, 0xFFFF, x⟩
def f32In (n : Nat) (xs : List Lanes) : FInput := ⟨n, xs.map (dataTok .f32), none⟩
/-- The word of a stage instruction. -/
def stageWord (i : Instr) : Word := (encodeStage i).getD 0
/-- Instruction i in the stage after the results `prev`, its firing with these inputs and lane registers L0 to L3, in focus. -/
def inStage (i : Instr) (ins : List FInput) (l : List Lanes := []) (prev : List StageRes := []) : State :=
  let s := placeStage base nopWord
  let c := vpeCfg s vpe0
  let n := prev.length
  let s := setVpeCfg s vpe0 { c with slots := List.replicate n nopWord ++ [stageWord i], stages := n + 1 }
  focusOn { s with
    regs := [(vpe0, { laneRegs s vpe0 with l := ⟨getAt l 0 0, getAt l 1 0, getAt l 2 0, getAt l 3 0⟩ })]
    firings := s.firings.map fun f => { f with inputs := ins, stage := n, results := prev } } (.firing 0)
abbrev After := Host.Outcome State Fault Refusal
/-- Lane of the stage's result. -/
def resLane (o : After) (l : Nat) : Option Lane :=
  match o with | .next t => (firingOf t 0).bind fun f => f.results.getLast?.map fun r => laneOf r.lanes l | _ => none
/-- Lane of an L register after the step. -/
def regLane (o : After) (n : Fin 4) (l : Nat) : Option Lane :=
  match o with | .next t => some (laneOf ((laneRegs t vpe0).l.get n) l) | _ => none
/-- The flags of epoch 0 after the step. -/
def flagsAfter (o : After) : Option FlagSet := match o with | .next t => some (flagsIn t 0 0 0) | _ => none
/-- The tokens the firing will send. -/
def sentBy (o : After) : List (Nat × Token) :=
  match o with | .next t => ((firingOf t 0).map Firing.out).getD [] | _ => []
/-- The firing's poison code. -/
def poisonOf (o : After) : Option (BitVec 8) := match o with | .next t => (firingOf t 0).bind fun f => f.poison.map PoisonInfo.code | _ => none

/-! ### Stage operations, one step each, with the results of the entries' examples -/

/-- R210: 3.0 × 0.5 + 1.0 = 2.5. -/
theorem test_ffma : regLane (exec (.ffma (sw (some .f32) (.inp 0) (.k 2) (.l 1) (.l 1) 0))
    (inStage (.ffma (sw (some .f32) (.inp 0) (.k 2) (.l 1) (.l 1) 0)) [f32In 0 [fill 0x40400000]] [0, fill 0x3F800000])) 1 7
    = some 0x40200000 := by decide +kernel
/-- Source and destination alike; 1.0 + 2^−24 is a tie that stays at 1.0, and inexact (R42, R45). -/
theorem test_fadd : let i := Instr.fadd (sw none (.l 0) (.l 1) .zero (.l 0) 0)
    let o := exec i (inStage i [] [fill 0x3F800000, fill 0x33800000])
    regLane o 0 0 = some 0x3F800000 ∧ flagsAfter o = some fNX := by decide +kernel
theorem test_fmul_overflow : let i := Instr.fmul (sw none (.l 0) (.l 0) .zero (.l 1) 0)
    let o := exec i (inStage i [] [fill 0x7F000000])
    regLane o 1 0 = some 0x7F800000 ∧ flagsAfter o = some (fOF ||| fNX) := by decide +kernel
/-- R211: a quiet NaN gives the other operand. -/
theorem test_fmin : let i := Instr.fmin (sw none (.inp 0) (.l 0) .zero (.l 0) 0)
    regLane (exec i (inStage i [f32In 0 [fill 0x7FC00000]] [fill 0x40000000])) 0 3 = some 0x40000000 := by decide +kernel
theorem test_fcmp : let i := Instr.fcmp .lt (sw none (.inp 0) .zero .zero (.l 0) 0)
    regLane (exec i (inStage i [f32In 0 [fill 0xBF800000]])) 0 3 = some 0xFFFFFFFF := by decide +kernel
/-- R213. -/
theorem test_fclass : let i := Instr.fclass (sw none (.inp 0) .zero .zero (.l 2) 0)
    regLane (exec i (inStage i [f32In 0 [fill 0x80000000]])) 2 5 = some 0x00000008 := by decide +kernel
/-- R214. -/
theorem test_fneg : let i := Instr.fneg (sw none (.inp 1) .zero .zero .out0 0)
    resLane (exec i (inStage i [f32In 1 [fill 0x3F800000]])) 0 = some 0xBF800000 := by decide +kernel
/-- R216. -/
theorem test_ldi : let i := Instr.ldi (zs (.l 3) 0x3F800#20)
    regLane (exec i (inStage i [])) 3 15 = some 0x3F800000 := by decide +kernel
/-- R217: the second of two additions of 2^−24 carries into the sum. -/
theorem test_acc : let i := Instr.acc (sw none (.inp 0) .zero .zero (.l 0) 0)
    let s := inStage i [f32In 0 [fill 0x33800000]] [fill 0x3F800000]
    let o := exec i s
    regLane o 0 0 = some 0x3F800000 ∧ regLane o 1 0 = some 0xB3800000 := by decide +kernel
theorem test_acc_again : let i := Instr.acc (sw none (.inp 0) .zero .zero (.l 0) 0)
    let o := exec i (inStage i [f32In 0 [fill 0x33800000]] [fill 0x3F800000, fill 0xB3800000])
    regLane o 0 0 = some 0x3F800001 ∧ regLane o 1 0 = some 0 := by decide +kernel
/-- R219. -/
theorem test_iadd_sat : let i := Instr.iadd (sw none (.l 0) (.l 1) .zero (.l 0) 0x80000#20)
    let o := exec i (inStage i [] [fill 0x7FFFFFFF, fill 1])
    regLane o 0 0 = some 0x7FFFFFFF ∧ flagsAfter o = some fSAT := by decide +kernel
/-- R220. -/
theorem test_icmp : let i := Instr.icmp .lt (sw none .lane .imm .zero (.l 0) 8)
    let o := exec i (inStage i [])
    regLane o 0 7 = some 0xFFFFFFFF ∧ regLane o 0 8 = some 0 := by decide +kernel
theorem test_imulh : let i := Instr.imulh (sw none (.l 0) (.l 1) .zero (.l 0) 0)
    regLane (exec i (inStage i [] [fill 0x80000000, fill 0x80000000])) 0 0 = some 0x40000000 := by decide +kernel
/-- A shift by 33 shifts by 1 (R221). -/
theorem test_sar : let i := Instr.sar (sw none (.l 0) .imm .zero (.l 0) 33)
    regLane (exec i (inStage i [] [fill 0x80000000])) 0 0 = some 0xC0000000 := by decide +kernel
/-- R221. -/
theorem test_clz : let i := Instr.clz (sw none (.inp 0) .zero .zero (.l 1) 0)
    regLane (exec i (inStage i [f32In 0 [fill 1]])) 1 0 = some 31 := by decide +kernel
/-- R222: 500.0 saturates to 448 in byte 2. -/
theorem test_cvt : let i := Instr.cvt .f32_e4 (sw none (.inp 0) (.l 1) .zero (.l 1) 0x80002#20)
    let o := exec i (inStage i [f32In 0 [fill 0x43FA0000]] [0, fill 0x11223344])
    regLane o 1 0 = some 0x117E3344 ∧ flagsAfter o = some (fSAT ||| fNX) := by decide +kernel
/-- R223: (1.0 and 2.0) · (0.5 and 0.5) = 1.5. -/
theorem test_fdot8 : let i := Instr.fdot8 (sw none (.inp 0) (.inp 1) (.l 0) (.l 0) 0)
    regLane (exec i (inStage i [⟨0, [dataTok .e4 (fill 0x4038)], some (formHead tag0 0 .e4 0x7F 0 false 0 0)⟩,
      ⟨1, [dataTok .e4 (fill 0x3030)], some (formHead tag0 0 .e4 0x7F 0 false 0 0)⟩] [fill 0x3F800000])) 0 0 = some 0x40200000 := by decide +kernel
/-- R225: exact, with no flag. -/
theorem test_rsq : let i := Instr.rsq (sw none (.inp 0) .zero .zero (.l 0) 0)
    let o := exec i (inStage i [f32In 0 [fill 0x40800000]])
    regLane o 0 0 = some 0x3F000000 ∧ flagsAfter o = some 0 := by decide +kernel
/-- R229: PERM by 15 − i reverses the lanes. -/
theorem test_perm : let i := Instr.perm (sw none (.l 0) (.l 1) .zero (.l 2) 0)
    regLane (exec i (inStage i [] [lanesFrom fun l => BitVec.ofNat 32 (100 + l), lanesFrom fun l => BitVec.ofNat 32 (15 - l)])) 2 0
      = some 115 := by decide +kernel
/-- R230. -/
theorem test_lrot : let i := Instr.lrot (sw none (.l 1) .zero .zero (.l 0) 1)
    let o := exec i (inStage i [] [0, lanesFrom fun l => BitVec.ofNat 32 l])
    regLane o 0 0 = some 1 ∧ regLane o 0 15 = some 0 := by decide +kernel
/-- R231: sixteen lanes of 1.0. -/
theorem test_red : let i := Instr.red .sum (sw none (.inp 0) .zero .zero .out0 0)
    resLane (exec i (inStage i [f32In 0 [fill 0x3F800000]])) 0 = some 0x41800000 := by decide +kernel
/-- R232: lanes 2, 5 and 9 in lanes 0 to 2. -/
theorem test_cmpk : let i := Instr.cmpk (sw none (.inp 0) .zero .zero .out0 0)
    let x := { dataTok .f32 (lanesFrom fun l => BitVec.ofNat 32 l) with valid := 0x224 }
    (sentBy (exec i (inStage i [⟨0, [x], none⟩]))).map (fun y => (y.2.valid, laneOf y.2.payload 1)) = [(7, 5)] := by decide +kernel
/-- R233: the innermost coordinate plus one. -/
theorem test_tstep : let i := Instr.tstep (sw none (.inp 0) .zero .zero .out0 0)
    let s := inStage i [f32In 0 [fill 3]]
    (sentBy (exec i s)).map (fun y => tagLevel (widthsOf s ⟨0, 0⟩) y.2.tag 0) = [1] := by decide +kernel
/-- R236. -/
theorem test_eos : let i := Instr.eos (sw none .zero .zero .zero .out1 0)
    (sentBy (exec i (inStage i []))).map (fun y => (y.1, y.2.kind, y.2.valid)) = [(1, .endOf, 1)] := by decide +kernel
/-- R205: a lane result on a port of burst length 2. -/
theorem test_burst_port : let i := Instr.mov (sw none .lane .zero .zero .out0 0)
    let s := inStage i []
    poisonOf (exec i (setVpeCfg s vpe0 { vpeCfg s vpe0 with outfmt := 0x0100 })) = some pFMT := by decide +kernel +kernel

/-! ### States that meet the hypotheses: stage operations -/

/-- The hypotheses of a lane rule at a state: the instruction stands in its stage, DS's ports take lane tokens, flags find room. -/
def laneHyps (i : Instr) (w : SWord) (s : State) : Bool :=
  (stageEnv s i w).any fun e => (portsOf e.w.d).all (fun p => outBurst e.cfg p == 1)
    && shadowRoom s e.f.vpe.stand e.f.vpe.ctx e.epoch
/-- They are what every value the lanes may take needs. -/
theorem laneHyps_free {i : Instr} {w : SWord} {s : State} (h : laneHyps i w s = true) :
    ∃ e, stageEnv s i w = some e ∧ ∀ val, LaneFree s e val := by
  unfold laneHyps at h
  cases he : stageEnv s i w with
  | none => rw [he] at h; cases h
  | some e =>
    rw [he] at h
    obtain ⟨hp, hs⟩ := Bool.and_eq_true_iff.mp (show (_ && _) = true from h)
    exact ⟨e, rfl, fun val => ⟨fun p hm => by simpa using List.all_eq_true.mp hp p hm, .inr hs⟩⟩
/-- Sources L0, L1, L2 to OUT0, and to L1. -/
def w3 : SWord := sw none (.l 0) (.l 1) (.l 2) .out0 0
def wL : SWord := sw none (.l 0) (.l 1) (.l 2) (.l 1) 0
def laneHypsAll (is : SWord → List Instr) : Bool :=
  (is w3).all (fun i => laneHyps i w3 (inStage i [])) && (is wL).all (fun i => laneHyps i wL (inStage i []))

theorem witness_StageFloatArithmetic : laneHypsAll (fun w => [.fadd w, .fsub w, .fmul w, .ffma w, .ffms w, .fnma w]) = true := by
  decide +kernel
theorem witness_StageMinMaxCompare : laneHypsAll (fun w => [.fmin w, .fmax w, .fcmp .eq w, .fcmp .un w]) = true := by decide +kernel
theorem witness_StageBitsAndMoves : laneHypsAll (fun w => [.fclass w, .fabs w, .fneg w, .fcpys w, .mov w, .selStage w, .ldi w, .tget w])
    = true := by decide +kernel
theorem witness_StageIntegers : laneHypsAll (fun w => stageInt w ++ [.icmp .eq w, .icmp .geu w]) = true := by decide +kernel
theorem witness_StageNop : laneHypsAll (fun w => [.nop w]) = true ∧ field nopWord 56 8 = 0x1F#8 ∧ field nopWord 52 4 = 0#4
    ∧ field nopWord 37 6 = 0x0E#6 ∧ field nopWord 31 6 = 0x0E#6 ∧ field nopWord 25 6 = 0x0E#6 ∧ field nopWord 20 5 = 0x07#5
    ∧ field nopWord 0 20 = 0#20 ∧ (field nopWord 46 3).toNat ≠ 7 ∧ (field nopWord 43 3).toNat < 6 := by decide +kernel
theorem witness_StageLaneMoves : laneHypsAll (fun w => [.perm w, .bcast w, .lrot w, .filt w, .cmpk w, .expnd w, .red .sum w, .red .min w,
    .scan .sum w, .scan .max w]) = true
    ∧ ((stageEnv (inStage (.argmax w3) []) (.argmax w3) w3).any fun e =>
        (List.range 16).all (fun l => !(expField (e.a l) == 255 && manField (e.a l) != 0))
          && (portsOf e.w.d).all fun p => outBurst e.cfg p == 1) = true := by decide +kernel

/-- A quantised input of one token behind a HEAD of scale 1.0. -/
def headed (n : Nat) (ft : Fmt) (xs : List Lanes) (norm : Lane := 0) : FInput :=
  ⟨n, xs.map (dataTok ft), some (formHead tag0 0 ft 0x7F 0 false 0 norm)⟩
/-- Both inputs, to OUT0. -/
def wI : SWord := sw none (.inp 0) (.inp 1) (.l 2) .out0 0
/-- The VPE's configuration changed. -/
def reCfg (s : State) (f : VpeCfg → VpeCfg) : State := setVpeCfg s vpe0 (f (vpeCfg s vpe0))

theorem witness_StageConvertDotSpecial :
    laneHypsAll (fun w => [.cvt .f32_e4 w, .cvt .i8_f32 w, .idot8 w, .rcp w, .rsq w, .sqrt w, .exp2 w, .log2 w, .ln w, .tanh w, .sigm w,
      .erf w, .gnoiseKey w, .gnoiseNoise w]) = true
    ∧ (let s := inStage (.fdot8 wI) [headed 0 .e4 [0], headed 1 .e5 [0]]
       laneHyps (.fdot8 wI) wI s && (stageEnv s (.fdot8 wI) wI).any fun e =>
         (fp8 (dotFmt e wI.a wI.b)).isSome && (fp8 (dotFmt e wI.b wI.a)).isSome) = true
    ∧ (let s := inStage (.odot4 wI) [headed 0 .o4 [0], headed 1 .o4 [0]]
       laneHyps (.odot4 wI) wI s && (stageEnv s (.odot4 wI) wI).any fun e =>
         (e.o4 wI.a).toOption.isSome && (e.o4 wI.b).toOption.isSome) = true := by decide +kernel

theorem witness_StageCompensatedSum : ∀ n ∈ [(0 : Fin 4), 2], let w := sw none (.inp 0) .zero .zero (.l n) 0
    laneHyps (.acc w) w (inStage (.acc w) [f32In 0 [0]]) = true := by decide +kernel
theorem witness_StageRunningMaximum : ∀ n ∈ [(0 : Fin 4), 2], let w := sw none (.inp 0) (.inp 1) .zero (.l n) 3
    (stageEnv (inStage (.smaxi w) []) (.smaxi w) w).isSome = true := by decide +kernel

/-- A port of format ft and burst length n, inputs of burst length b. -/
def dirPorts (ft : Fmt) (n b : Nat) (c : VpeCfg) : VpeCfg :=
  { c with outfmt := BitVec.ofNat 16 (ft.code + (n - 1) * 256), inburst := BitVec.ofNat 16 ((b - 1) * 17) }
/-- A direction of dimension 32 on each input; F32 bursts of the same size. -/
def dirIns : List FInput := [headed 0 .dir [fill 1] 0x01000000, headed 1 .dir [fill 1] 0x01000000]
/-- Shadows have room: what FlagRoom and its like ask. -/
def roomFor (s : State) (e : SEnv) : Bool := shadowRoom s e.f.vpe.stand e.f.vpe.ctx e.epoch

theorem witness_StageDirections :
    ((stageEnv (reCfg (inStage (.dfrom wI) [f32In 0 [0, 0]]) (dirPorts .dir 1 2)) (.dfrom wI) wI).any fun e =>
      (e.f32Burst wI.a).toOption.any (fun x => e.inBurst x.1 == 2 && (dFrom x.2.1 (16 * e.inBurst x.1)).dir.dim == 32)
        && outFmt e.cfg 0 == .dir && outBurst e.cfg 0 == 1 && roomFor (inStage (.dfrom wI) []) e) = true
    ∧ (∀ i ∈ [Instr.dadd wI, .dsub wI, .dneg wI, .dscl wI, .dlerp wI, .dnrm wI],
      ((stageEnv (reCfg (inStage i dirIns) (dirPorts .dir 1 1)) i wI).any fun e =>
        (e.dir wI.a).toOption.any (fun a => (e.dir wI.b).toOption.any fun b => a.dim == b.dim && (dAdd false a b).dir.dim == 32
          && (dLerp a b (e.c 0)).dir.dim == 32 && (dNrm a).dir.dim == 32 && (dScl a (e.b 0)).dir.dim == 32)
        && outFmt e.cfg 0 == .dir && outBurst e.cfg 0 == 1 && roomFor (inStage i []) e) = true)
    ∧ (laneHyps (.ddot wI) wI (inStage (.ddot wI) dirIns)
        && (stageEnv (inStage (.ddot wI) dirIns) (.ddot wI) wI).any fun e =>
          (e.dir wI.a).toOption.any fun a => (e.dir wI.b).toOption.any fun b => a.dim == b.dim) = true := by decide +kernel

theorem witness_StageBursts : OutOnly wI
    ∧ (∀ n ∈ [4, 8], ((stageEnv (reCfg (inStage (.qblk wI) [f32In 0 (List.replicate n 0)]) (dirPorts .e4 (n / 4) n)) (.qblk wI) wI).any
        fun e => (e.f32Burst wI.a).toOption.any (fun x => e.inBurst x.1 == n)
          && (qfmtOf (outFmt e.cfg 0)).isSome && outBurst e.cfg 0 == n / 4 && roomFor (inStage (.qblk wI) []) e) = true)
    ∧ ((stageEnv (reCfg (inStage (.qo4 wI) [f32In 0 (List.replicate 8 0)]) (dirPorts .o4 1 8)) (.qo4 wI) wI).any
        fun e => (e.f32Burst wI.a).toOption.any (fun x => e.inBurst x.1 == 8)
          && outFmt e.cfg 0 == .o4 && outBurst e.cfg 0 == 1 && roomFor (inStage (.qo4 wI) []) e) = true
    ∧ ((stageEnv (reCfg (inStage (.dto wI) dirIns) (dirPorts .f32 2 1)) (.dto wI) wI).any
        fun e => (e.dir wI.a).toOption.any (fun a => outBurst e.cfg 0 == a.dim / 16)
          && outFmt e.cfg 0 == .f32 && roomFor (inStage (.dto wI) []) e) = true
    ∧ ((stageEnv (inStage (.packt wI) [f32In 0 (List.replicate 16 0)]) (.packt wI) wI).any
        fun e => (e.input 0).any (fun x => x.toks.length == 16) && outBurst e.cfg 0 == 1) = true := by
  refine ⟨fun n => ⟨by simp [wI, sw], by simp [wI, sw]⟩, ?_⟩
  decide +kernel

theorem witness_StageTagsAndEnds : OutOnly wI
    ∧ (∀ i ∈ [Instr.tenter wI, .tstep wI, .tleave wI, .notify wI, .eos wI],
      ((stageEnv { inStage i [] with firings := (inStage i []).firings.map fun f => { f with tag := 0x2000000000000000#64 } } i wI).any
        fun e => (tagEnter e.widths e.f.tag).isSome && (tagStep e.widths e.f.tag).isSome && (tagLeave e.widths e.f.tag).isSome
          && decide (noteLoad base e.f.launch 0 < Config.noteEntries) && outBurst e.cfg 0 == 1) = true) := by
  refine ⟨fun n => ⟨by simp [wI, sw], by simp [wI, sw]⟩, ?_⟩
  decide +kernel

theorem witness_StagePoisonEndsFiring :
    ((stageEnv (reCfg (inStage (.mov w3) []) (dirPorts .f32 2 1)) (.mov w3) w3).any fun e =>
      (portsOf w3.d).find? (fun q => outBurst e.cfg q != 1) == some 0) = true
    ∧ (let s := inStage (.tenter w3) []
       (stageEnv { s with firings := s.firings.map fun f => { f with tag := 0x3000000000000000#64 } } (.tenter w3) w3).any fun e =>
         tagEnter e.widths e.f.tag == none) = true
    ∧ (let s := inStage (.tstep w3) []
       (stageEnv { s with firings := s.firings.map fun f => { f with tag := 0x1000000000FFFFFF#64 } } (.tstep w3) w3).any fun e =>
         tagStep e.widths e.f.tag == none) = true
    ∧ ((stageEnv (inStage (.fdot8 wI) [f32In 0 [0], f32In 1 [0]]) (.fdot8 wI) wI).any fun e => fp8 (dotFmt e wI.a wI.b) == none) = true
    ∧ ((stageEnv (inStage (.qblk wI) [f32In 0 [0]]) (.qblk wI) wI).any fun e =>
        (e.f32Burst wI.a).toOption.any fun x => e.inBurst x.1 != 4 && e.inBurst x.1 != 8) = true
    ∧ ((stageEnv (inStage (.odot4 wI) [f32In 0 [0]]) (.odot4 wI) wI).any fun e => (e.o4 wI.a).toOption.isNone) = true
    ∧ ((stageEnv (reCfg (inStage (.ddot wI) [headed 0 .dir [0, 0], headed 1 .dir [0]]) fun c => { c with inburst := 1 }) (.ddot wI) wI).any fun e =>
        (e.dir wI.a).toOption.any fun a => (e.dir wI.b).toOption.any fun b => a.dim != b.dim) = true := by decide +kernel

/-! ### Stage operations that reach memory -/

/-- Addresses of lanes in scratch of SCE 0, beside VPE 0. -/
def addrs (a : Nat) : Lanes := lanesFrom fun l => BitVec.ofNat 32 (a + 4 * l)
/-- The firing changed. -/
def reFiring (s : State) (f : Firing → Firing) : State := { s with firings := s.firings.map f }
/-- Ring H0 of SCE 0, south of VPE 0: four slots at 0x1000, two of them filled. -/
def withRing (s : State) (size tail : Nat) : State := setHandle s ⟨0, 0x10, 0⟩ 0 ⟨64, size, 0, BitVec.ofNat 11 tail⟩
/-- An acknowledged node of the firing that brought these bytes, or a poison. -/
def ackedNode (op : MemOp) (bytes : List Byte) (p : Option PoisonInfo) : MNode :=
  ⟨9, .stage vpe0 0 tag0, vpe0, lk0, .sa, 0, op, .plain, .stand, [⟨0, bytes.length, none, .performed, bytes, 0⟩], .acked,
   0, 0, 0, p, 0, none⟩
/-- The firing waits for that node. -/
def answered (s : State) (n : MNode) : State :=
  { reFiring s fun f => { f with issued := true, nodes := [9] } with ord := { s.ord with nodes := [n] } }
def wS (imm : BitVec 20) : SWord := sw none (.l 0) (.l 1) .zero .nowhere imm
/-- The bits of IMM20 that name the southern SCE, SCE 0, and handle 0. -/
def ringH : BitVec 20 := 0x30000#20

theorem witness_StageScratch :
    (∀ i ∈ [Instr.sld (wS 0), .sst (wS 0), .samo (wS 0)],
      ((stageEnv (inStage i [] [addrs 0]) i (wS 0)).any fun e => !e.f.issued && (activeLanes e).length == 16
        && (activeLanes e).all (fun l => laneOk (inStage i []) e (laneAddr e 16 l) && laneOk (inStage i []) e (laneAddr e 15 l))) = true)
    ∧ ((stageEnv (inStage (.sst (wS 0x10000#20)) [] [addrs 0]) (.sst (wS 0x10000#20)) (wS 0x10000#20)).any fun e =>
        (activeLanes e).all (fun l => laneOk base e (laneAddr e 16 l))) = true
    ∧ (let s := withRing (inStage (.ldh (wS (ringH ||| 16))) []) 4 2    -- the second of two filled slots
       (stageEnv s (.ldh (wS (ringH ||| 16))) (wS (ringH ||| 16))).any fun e => (ringHandle s e).any fun x =>
         decide (1 < x.2.fill) && (regionOf s 0 0 (slotAddr x.1 x.2 (offOf (advance x.2.size x.2.head 1))) 64).isSome) = true
    ∧ (let s := withRing (inStage (.sth (wS (ringH ||| 16))) []) 4 2    -- the second of two free slots
       (stageEnv s (.sth (wS (ringH ||| 16))) (wS (ringH ||| 16))).any fun e => (ringHandle s e).any fun x =>
         decide (1 < x.2.free) && (activeLanes e).length == 16
           && (regionOf s 0 0 (slotAddr x.1 x.2 (offOf (advance x.2.size x.2.tail 1))) 64).isSome) = true
    ∧ (let s := inStage (.sld (wS 0)) [] [addrs 2]                      -- a misaligned lane
       (stageEnv s (.sld (wS 0)) (wS 0)).any fun e => (activeLanes e).find? (fun l => !laneOk s e (laneAddr e 16 l)) == some 0) = true
    ∧ (let s := withRing (inStage (.ldh (wS (ringH ||| 32))) []) 4 2    -- the slot behind the last filled one
       (stageEnv s (.ldh (wS (ringH ||| 32))) (wS (ringH ||| 32))).any fun e => (ringHandle s e).any fun x => decide (x.2.fill ≤ 2)) = true
    ∧ (∀ p ∈ [none, some (⟨pPERM, 0, 0, 0⟩ : PoisonInfo)], ∀ i ∈ [Instr.sld (wS 0), .samo (wS 0), .ldh (wS 0), .sth (wS 0), .sst (wS 0)],
      let s := answered (inStage i []) (ackedNode (.sload 0 4) [1, 2, 3, 4] p)
      ((stageEnv s i (wS 0)).any fun e => e.f.issued && (ackedNodes s e.f).any fun ns =>
        ns.length == 1 && ns.findSome? (·.poison) == p) = true) := by decide +kernel

theorem witness_RingsAdvance :
    -- ADVH and WAITH by 2 of 2, and by 3; ADVH tail
    (∀ k ∈ [2, 3], ∀ t ∈ [0, 16], ∀ i ∈ [Instr.advh (wS (ringH ||| BitVec.ofNat 20 (32 * k + t))), .waith (wS (ringH ||| BitVec.ofNat 20 (32 * k + t)))],
      let s := withRing (inStage i []) 4 2
      let w := wS (ringH ||| BitVec.ofNat 20 (32 * k + t))
      ((stageEnv s i w).any fun e => (ringHandle s e).any fun x => x.2.fill == 2 && x.2.free == 2
        && (field w.imm 5 11).toNat == k) = true)
    ∧ (let s := withRing (inStage (.waith (wS (ringH ||| 32))) []) 0 0    -- a handle without slots
       (stageEnv s (.waith (wS (ringH ||| 32))) (wS (ringH ||| 32))).any fun e => (ringHandle s e).any fun x => x.2.size == 0) = true
    ∧ (let s := withRing (inStage (.peekh (wS ringH)) []) 4 2
       (stageEnv s (.peekh (wS ringH)) (wS ringH)).any fun e => (ringHandle s e).isSome) = true
    -- a handle that wraps: four slots, head at 3, tail at 1 of the next lap
    ∧ (let h : Handle := ⟨64, 4, 3, 0x401⟩
       offOf h.head < h.size ∧ offOf h.tail < h.size ∧ wrapOf h.tail ≠ wrapOf h.head ∧ offOf h.tail ≤ offOf h.head
         ∧ h.fill = 2 ∧ h.free = 2) := by decide +kernel

theorem witness_StageExchangeWait :
    (let w := sw none .lane .zero .zero .out0 0
     (stageEnv (inStage (.waitx w) []) (.waitx w) w).any fun e => (launchOf base e.f.launch).any fun l =>
       l.ex.gen == field (e.a 0) 0 16 && outBurst e.cfg 0 == 1) = true          -- GEN 0, lane 0 of LANE: it waits
    ∧ (let w := sw none .imm .zero .zero .out0 1
       (stageEnv (inStage (.waitx w) []) (.waitx w) w).any fun e => (launchOf base e.f.launch).any fun l =>
         l.ex.gen != field (e.a 0) 0 16 && outBurst e.cfg 0 == 1) = true        -- it goes on
    ∧ decodeStage 0x7B0E01471C100000#64 = .ok (.waitx (sw none .lane .zero .zero (.l 1) 0)) := by decide +kernel

/-- An automaton header of four states: classes, initial and accepting sets behind it. -/
def nfaHead : List Byte := bytesOf 4 2 ++ [1, 0] ++ bytesOf 0x400 4 ++ bytesOf 0x80 4 ++ bytesOf 0xC0 4 ++ bytesOf 0 4 ++ bytesOf 0 4
  ++ bytesOf 0x10000 8 ++ bytesOf 0 8 ++ bytesOf 0x1000 8 ++ bytesOf 64 4 ++ List.replicate 12 0
/-- A set of the automaton: its first states. -/
def nfaSet (x : Byte) : List Byte := x :: List.replicate 63 0
/-- Sources that name it: its address, a symbol, the current set. -/
def nfaRegs (hd cur : Lane) : List Lanes := [fill hd, fill 0x400, fill cur]
def wN (imm : BitVec 20) : SWord := sw none (.l 0) (.l 1) (.l 2) .out0 imm
/-- The firing waits for nodes that gave these bytes. -/
def answeredAll (s : State) (bs : List (List Byte)) : State :=
  { reFiring s fun f => { f with issued := true, nodes := (List.range bs.length).map (9 + ·) } with
    ord := { s.ord with nodes := bs.zipIdx.map fun (b, i) => { ackedNode (.sload 0 64) b none with id := 9 + i } } }
/-- The round of an automaton stage that has these bytes: its address is in reach, its header is one, its ranges are in reach. -/
def nfaRound (i : Instr) (w : SWord) (regs : List Lanes) (bs : List (List Byte)) (ok : State → SEnv → List (List Byte) → Bool) : Bool :=
  let s := if bs = [] then inStage i [] regs else answeredAll (inStage i [] regs) bs
  (stageEnv s i w).any fun e => e.f.issued == !bs.isEmpty && outBurst e.cfg 0 == 1
    && (if bs = [] then ok s e [] else (ackedNodes s e.f).any fun ns => ns.all (fun n => n.poison == none) && ok s e (ns.map MNode.bytes))

theorem witness_StageAutomata :
    -- the header in reach, and misaligned
    (∀ i ∈ [Instr.nfastep (wN 0)], nfaRound i (wN 0) (nfaRegs 0x400 0x800) [] (fun s e _ => stageReach s e 0x400 64) = true)
    ∧ nfaRound (.nfamsk (wN 0)) (wN 0) (nfaRegs 0x440 0x400) [] (fun s e _ => stageReach s e 0x400 64) = true
    ∧ nfaRound (.nfastep (wN 0)) (wN 0) (nfaRegs 0x401 0x800) [] (fun _ e _ => (e.a 0).toNat % 64 != 0) = true
    -- a row that is no header, and one that is, its ranges in reach and not
    ∧ nfaRound (.nfastep (wN 0)) (wN 0) (nfaRegs 0x400 0x800) [nfaSet 0] (fun _ _ bs => bs == [nfaSet 0] && (nfaOf (nfaSet 0)).isNone) = true
    ∧ ((nfaOf nfaHead).any fun a => a.setBytes == 64 && a.classOff == 0x400 && a.initOff == 0x80 && a.accOff == 0xC0) = true
    ∧ nfaRound (.nfastep (wN 0)) (wN 0) (nfaRegs 0x400 0x800) [nfaHead] (fun s e _ =>
        [0x800, 0x480, 0x4C0].all (fun x => stageReach s e x 64) && (e.b 0).toNat % 256 == 0 && (e.c 0).toNat == 0x800) = true
    ∧ nfaRound (.nfastep (wN 0)) (wN 0) (nfaRegs 0x400 0xF0000) [nfaHead] (fun s e _ => !stageReach s e 0xF0000 64) = true
    -- the sets with one current state and with none; then its row; then the store
    ∧ (∀ cur ∈ [(1 : Byte), 0], nfaRound (.nfastep (wN 0)) (wN 0) (nfaRegs 0x400 0x800)
        [nfaHead, nfaSet 3, nfaSet 1, nfaSet 2, nfaSet cur] (fun _ e bs => bs.length == 5 && !e.qual 0
          && (nfaOf nfaHead).any fun a => (a.states_ (nfaSet cur)).length == cur.toNat) = true)
    ∧ nfaRound (.nfastep (wN 0)) (wN 0) (nfaRegs 0x400 0x800) [nfaHead, nfaSet 3, nfaSet 1, nfaSet 2, nfaSet 1, nfaSet 6]
        (fun _ _ bs => bs.length == 6) = true
    ∧ nfaRound (.nfastep (wN 0)) (wN 0) (nfaRegs 0x400 0x800) [nfaHead, nfaSet 3, nfaSet 1, nfaSet 2, nfaSet 1, nfaSet 6, []]
        (fun _ _ bs => bs.length == 7 && (nfaOf nfaHead).any fun a => a.next [nfaSet 6] (nfaSet 3) (nfaSet 1) == nfaSet 2) = true
    -- NFAMSK: a mask beyond the row; the state set; its rows
    ∧ nfaRound (.nfamsk (wN 1)) (wN 1) (nfaRegs 0x440 0x400) [nfaHead] (fun _ _ _ => (nfaOf nfaHead).any fun a => a.vrow < 128) = true
    ∧ nfaRound (.nfamsk (wN 0)) (wN 0) (nfaRegs 0x440 0x400) [nfaHead] (fun s e _ =>
        (nfaOf nfaHead).any fun a => a.vrow == 64 && stageReach s e (e.c 0).toNat a.setBytes) = true
    ∧ (∀ rows ∈ [[], [nfaSet 9]], nfaRound (.nfamsk (wN 0)) (wN 0) (nfaRegs 0x440 0x400) ([nfaHead, nfaSet 1] ++ rows) (fun _ _ _ =>
        (nfaOf nfaHead).any fun a => (a.states_ (nfaSet 1)).length == 1) = true)
    -- a refused access
    ∧ (let s := answered (inStage (.nfastep (wN 0)) [] (nfaRegs 0x400 0x800)) (ackedNode (.sload 0 64) [] (some ⟨pPERM, 0, 0, 0⟩))
       (stageEnv s (.nfastep (wN 0)) (wN 0)).any fun e => (ackedNodes s e.f).any fun ns => (ns.findSome? (·.poison)).isSome) = true := by
  decide +kernel
/-- The row behind a header, symbol by symbol: the class set is of the symbol's byte (R309). -/
theorem test_nfastep_asks_header : (match exec (.nfastep (wN 0)) (inStage (.nfastep (wN 0)) [] (nfaRegs 0x400 0x800)) with
    | .next t => t.ord.nodes.map (·.op) == [.sload 0x400 64] | _ => false) = true := by decide +kernel

/-- A stash region of SCE 0 whose first sector, leased and filled, holds a KV descriptor: one sequence, two positions, three layers. -/
def withArea (s : State) : State :=
  let c := { sceCfg s ⟨0, 0x10, 0⟩ with regions := [⟨0, 1024, 2, 0x10000, false⟩] }
  let s := { s with cfg := { s.cfg with sce := aset s.cfg.sce ⟨0, 0x10, 0⟩ c } }
  scratchWrite { s with mem := { s.mem with sectors := [⟨⟨0, 0⟩, 0, 2 ^ 40, true, 0, BitVec.allOnes 64, false⟩] } } 0 0
    (bytesOf 0x1000 8 ++ bytesOf 0 8 ++ bytesOf 0 8 ++ bytesOf 0 8 ++ bytesOf 1 2 ++ bytesOf 2 2 ++ [3, 0] ++ bytesOf 128 2)
def wX (imm : BitVec 20) : SWord := sw none (.l 0) (.l 1) (.l 2) .outB imm
/-- Control word lane 0 of L3: descriptor at 0, first layer as given, no deadline. -/
def exitRegs (first : Nat) : List Lanes := [fill 1, fill 0x3F800000, fill 0x00010000, fill (BitVec.ofNat 32 (first * 2 ^ 20 + 15 * 2 ^ 28))]

theorem witness_StageEarlyExit :
    -- first layer 2 of 0 to 2 leaves one, and 3 leaves none
    (∀ first ∈ [2, 3], let s := withArea (inStage (.exitq (wX 0)) [] (exitRegs first))
      ((stageEnv s (.exitq (wX 0)) (wX 0)).any fun e => !e.f.issued && outBurst e.cfg 0 == 1 && outBurst e.cfg 1 == 1
        && adjacent e.f.vpe.elem (sceOf 0) && decide (e.confident.length = 16)
        && (match areaAt s 0 0 0 with
            | .ok a => a.nlayer == 3 && e.confident.all (fun l => a.holds (e.entryOf l).1 (e.entryOf l).2)
            | _ => false)) = true)
    ∧ (let s := answered (withArea (inStage (.exitq (wX 0)) [] (exitRegs 2))) (ackedNode (.kvmap 0 [0] .exit) [] none)
       (stageEnv s (.exitq (wX 0)) (wX 0)).any fun e => e.f.issued && (ackedNodes s e.f).any fun ns => ns.all fun n => n.poison == none)
      = true := by decide +kernel

/-! ### An execution of one instruction at the tile of node 2 -/

def tile0 : EKey := ⟨0, 0x20, 0⟩
def blockWord (i : Instr) : Word := (encodeBlock i).getD 0
/-- The instruction alone in block 0, its slots a, b and p holding these values, in focus; the next block, at 5, has a header. -/
def inBlock (i : Instr) (a : Word := 0) (b : Word := 0) (p : Word := 0) : State :=
  let s := placeBlock base (blockWord i) i
  let c := tileCfg s tile0
  let s := setTileCfg s tile0 { c with imem := (5, 0xF802000000000000#64) :: c.imem }
  let v := fun (k : Nat) => if k = 0 then a else if k = 1 then b else p
  focusOn { s with
    tiles := { s.tiles with execs := s.tiles.execs.map fun x =>
      { x with vals := x.vals.map fun (sv : SlotVal) => { sv with val := (v sv.slot).setWidth 512 } } } } (.exec 2 0)
def reExec (s : State) (f : Exec → Exec) : State := { s with tiles := { s.tiles with execs := s.tiles.execs.map f } }
def reThread (s : State) (f : Thread → Thread) : State := { s with tiles := { s.tiles with threads := s.tiles.threads.map f } }
/-- Instruction `idx` in focus in a block of these two, with these values standing in its slots; nothing is read or written. -/
def inPair (i j : Instr) (idx : Nat) (vals : List SlotVal) : State :=
  let s := inBlock (.halt (bw .nowhere .w64 0))
  let c := { tileCfg s tile0 with imem := [(0, 0xF804000000000000#64), (1, 0), (2, 0), (3, 0), (4, blockWord i), (5, blockWord j)] }
  focusOn (reExec (setTileCfg s tile0 c) fun x => { x with vals := vals }) (.exec 2 idx)
/-- A segment of identifier 5 with two conditions. -/
def seg5 : Segment := ⟨5, 0x16A, 0x100, [⟨0x20001, true, 0x80⟩, ⟨0x20002, false, 0x100⟩], 1, 0, [], [], [], false⟩
def asSegment (s : State) : State := reThread s fun t => { t with seg := some seg5 }
/-- What stands for write entry k after the step; what the execution will leave by; its poison is its end. -/
def wrote (o : After) (k : Nat) : Option Word :=
  match o with | .next t => (execOf t 2).bind fun x => (x.writes.find? fun w => w.1 == k).map fun w => w.2.2.setWidth 64 | _ => none
def leavesBy (o : After) : Option Control := match o with | .next t => (execOf t 2).bind Exec.control | _ => none
def endedExec (o : After) : Bool := match o with | .next t => (execOf t 2).isNone | _ => false
/-- The tokens the step sent on an edge. -/
def sentTo (o : After) (n : Nat) : List Token :=
  match o with | .next t => (t.q.flights.filter fun f => f.edge.edge == n).map Flight.tok | _ => []
def bW (imm : BitVec 24) (w : Width := .w64) : BWord := bw (.w 0) w imm

/-! ### Block instructions, one step each, with the results of the entries' examples -/

/-- 64-bit wrap, and clamping with SAT (R219, R249). -/
theorem test_block_iadd : wrote (exec (.iaddBlock (bW 1)) (inBlock (.iaddBlock (bW 1)) 0x7FFFFFFFFFFFFFFF#64)) 0
    = some 0x8000000000000000#64 := by decide +kernel
theorem test_block_iadd_sat : wrote (exec (.iaddBlock (bW 0x800001#24)) (inBlock (.iaddBlock (bW 0x800001#24)) 0x7FFFFFFFFFFFFFFF#64)) 0
    = some 0x7FFFFFFFFFFFFFFF#64 := by decide +kernel
/-- 1.0 + 2.0. -/
theorem test_block_fadd : let i := Instr.faddBlock (bW 0x200000#24 .w32)
    wrote (exec i (inBlock i 0x3F800000#64)) 0 = some 0x40400000#64 := by decide +kernel
/-- R257: a + 8b + 16. -/
theorem test_lea : let i := Instr.lea (bW 0x000083#24)
    wrote (exec i (inBlock i 1000 3)) 0 = some 1040 := by decide +kernel
/-- R258: a negative immediate extends at 64 bits and has its upper half clear at 32. -/
theorem test_movi : wrote (exec (.movi (bW 0xFFFFFF#24)) (inBlock (.movi (bW 0xFFFFFF#24)))) 0 = some 0xFFFFFFFFFFFFFFFF#64
    ∧ wrote (exec (.movi (bW 0xFFFFFF#24 .w32)) (inBlock (.movi (bW 0xFFFFFF#24 .w32)))) 0 = some 0x00000000FFFFFFFF#64 := by decide +kernel
theorem test_movhi : let i := Instr.movhi (bW 0x02BEEF#24)
    wrote (exec i (inBlock i 0x1111222233334444#64)) 0 = some 0x1111BEEF33334444#64 := by decide +kernel
/-- R259: BFEXT 0, 8, s sign-extends the low byte. -/
theorem test_bfext : let i := Instr.bfext (bW 0x001200#24)
    wrote (exec i (inBlock i 0x80#64)) 0 = some 0xFFFFFFFFFFFFFF80#64 := by decide +kernel
theorem test_bfins : let i := Instr.bfins (bW 0x000204#24)
    wrote (exec i (inBlock i 0#64 0xAB#64)) 0 = some 0xAB0#64 := by decide +kernel
/-- R252: CALL's target takes the address behind its block. -/
theorem test_call : let i := Instr.call (bW 0)
    let o := exec i (inBlock i)
    wrote o 0 = some 5 ∧ leavesBy o = some (.goto 0 false) := by decide +kernel
/-- R246: a transfer to a word that is no header is ILL. -/
theorem test_bri_no_header : endedExec (exec (.bri (bW 1)) (inBlock (.bri (bW 1)))) = true := by decide +kernel
/-- R253: a count of 3 opens a counter; a count of 0 leaves at once. -/
theorem test_loop : let i := Instr.loop (bW 0)
    leavesBy (exec i (inBlock i 3)) = some (.goto 5 false) ∧ leavesBy (exec i (inBlock i 0)) = some (.goto 0 false) := by decide +kernel
/-- R251: the last pass goes on behind the block. -/
theorem test_lend : let i := Instr.lend true (bW 0x800000#24)
    leavesBy (exec i (reThread (inBlock i) fun t => { t with lc := [1, 0, 0] })) = some (.goto 5 false)
    ∧ leavesBy (exec i (reThread (inBlock i) fun t => { t with lc := [2, 0, 0] })) = some (.goto 0 false) := by decide +kernel
/-- R276: the example's segment. -/
theorem test_lkrd : let i := Instr.lkrd (bW 0)
    wrote (exec i (asSegment (inBlock i))) 0 = some 0x000000520100016A#64 := by decide +kernel
/-- R282: POISON SYNC, code 2 as R320 numbers it, hands poison to both output edges. -/
theorem test_poison : let i := Instr.poison (bw .nowhere .w64 2)
    let o := exec i (inBlock i)
    endedExec o = true ∧ (sentTo o 2).map Token.kind = [.poison] ∧ (sentTo o 7).map Token.kind = [.poison] := by decide +kernel
/-- R371: level 1 of a tag of depth 2, one higher. -/
theorem test_send_brake : let i := Instr.sendBrk { bw .nowhere .tok 0x0000C0#24 with ft := some .i32 }
    let s := reExec (inBlock i) fun x => { x with tag := 0x2000000000000000#64 }
    (match exec i s with
      | .next t => (execOf t 2).map fun x => x.leaving.map fun l => match l with | .send _ k _ => (k.kind, tagLevel [24, 24, 12] k.tag 1) | _ => (.data, 9)
      | _ => none) = some [(.brake, 1)] := by decide +kernel

/-! ### States that meet the hypotheses: block instructions -/

/-- Bool forms of `targetFree` and of the hypotheses of MayFire, with room for flags. -/
def freeTarget (x : Exec) (t : Target) : Bool :=
  (match targetSlot t with | some sl => (slotVal x sl).isNone | none => true)
    && match t with | .w k => (x.writes.find? fun w => w.1 == k.val).isNone | _ => true
theorem freeTarget_free {x : Exec} {t : Target} (h : freeTarget x t = true) : targetFree x t := by
  obtain ⟨h1, h2⟩ := Bool.and_eq_true_iff.mp h
  refine ⟨fun sl hs => ?_, fun k hk => ?_⟩
  · rw [hs] at h1
    simpa using h1
  · subst hk
    simpa using h2
def mayFire (i : Instr) (s : State) (p : BEnv → Bool := fun _ => true) : Bool :=
  (blockEnv s i).any fun e => !e.badFormat && freeTarget e.x e.inf.t0 && freeTarget e.x e.inf.t1
    && (e.inf.t0 != e.inf.t1 || e.inf.t0 == .nowhere) && shadowRoom s e.x.tile.stand e.x.tile.ctx e.epoch && p e
theorem mayFire_holds {i : Instr} {s : State} {p : BEnv → Bool} (h : mayFire i s p = true) :
    ∃ e, MayFire s i e ∧ (∀ fl, ShadowFor s e fl) ∧ p e = true := by
  unfold mayFire at h
  cases he : blockEnv s i with
  | none => rw [he] at h; cases h
  | some e =>
    rw [he] at h
    have h' : (!e.badFormat && freeTarget e.x e.inf.t0 && freeTarget e.x e.inf.t1
      && (e.inf.t0 != e.inf.t1 || e.inf.t0 == .nowhere) && shadowRoom s e.x.tile.stand e.x.tile.ctx e.epoch && p e) = true := h
    simp only [Bool.and_eq_true] at h'
    obtain ⟨⟨⟨⟨⟨hb, h0⟩, h1⟩, h2⟩, h3⟩, h4⟩ := h'
    refine ⟨e, ⟨he, by simpa using hb, freeTarget_free h0, freeTarget_free h1, fun hq => ?_⟩, fun fl => .inr h3, h4⟩
    have h2 : (e.inf.t0 != e.inf.t1 || e.inf.t0 == .nowhere) = true := h2
    simpa [hq] using h2
/-- Every listed instruction may fire from its one-instruction block, to W0 and to nowhere. -/
def mayFireAll (is : BWord → List Instr) (wd : Width) : Bool :=
  (is (bW 0 wd)).all (fun i => mayFire i (inBlock i)) && (is (bw .nowhere wd 0)).all fun i => mayFire i (inBlock i)

theorem witness_BlockFloat : mayFireAll (fun w => [.faddBlock w, .fsubBlock w, .fmulBlock w, .ffmaBlock w, .ffmsBlock w, .fnmaBlock w,
    .fminBlock w, .fmaxBlock w, .fcmpBlock .eq w, .fcmpBlock .un w, .fclassBlock w, .fabsBlock w, .fnegBlock w, .fcpysBlock w,
    .cvtBlock .f32_e4 w, .cvtBlock .i8_f32 w]) .w32 = true
    ∧ mayFireAll (fun w => [.faddBlock w, .ffmaBlock w, .fcmpBlock .lt w, .cvtBlock .b16_f32 w]) .tok = true := by decide +kernel
theorem witness_BlockIntegers : mayFireAll (fun w => blockInt w ++ [.icmpBlock .eq w, .icmpBlock .geu w, .movBlock w, .selBlock w]) .w64 = true
    ∧ mayFireAll (fun w => blockInt w ++ [.icmpBlock .ltu w, .movBlock w, .selBlock w]) .w32 = true
    ∧ (blockEnv (inBlock (.nopBlock (bw .nowhere .w64 0))) (.nopBlock (bw .nowhere .w64 0))).isSome = true := by decide +kernel
theorem witness_BlockAddressArithmetic : mayFireAll (fun w => [.lea w, .movi w, .movhi w, .bfext w, .bfins w]) .w64 = true
    ∧ mayFireAll (fun w => [.movi w]) .w32 = true
    ∧ bfPos (bW 0x3C3) + bfLen (bW 0x3C3) ≤ 64 ∧ bfPos (bW 0) + bfLen (bW 0) ≤ 64 := by decide +kernel
theorem witness_BlockDirections :
    (∀ i ∈ [Instr.daddBlock (bW 0), .dsubBlock (bW 0), .dnegBlock (bW 0), .dsclBlock (bW 0), .dlerpBlock (bW 0), .dnrmBlock (bW 0),
      .dfromBlock (bW 0 .tok), .dtoBlock (bW 0 .tok), .ddotBlock (bW 0 .w32)], mayFire i (inBlock i) = true) := by decide +kernel

/-- The word of a BR to block n in a. -/
theorem witness_BlockTransfers :
    -- a header at the target; none there; the target beyond the memory
    (∀ i ∈ [Instr.bri (bW 5), .call (bW 5), .yield (bW 5)], mayFire i (inBlock i) (fun e =>
      headerWordAt (inBlock i) e.x.tile 5 && e.x.control.isNone) = true)
    ∧ (∀ i ∈ [Instr.bri (bW 6), .call (bW 6), .yield (bW 6)], mayFire i (inBlock i) (fun e => !headerWordAt (inBlock i) e.x.tile 6) = true)
    ∧ (∀ i ∈ [Instr.br (bW 0), .ret (bW 0)], mayFire i (inBlock i 5) (fun e => addressInA e == some 5 && headerWordAt (inBlock i) e.x.tile 5) = true
      ∧ mayFire i (inBlock i 8191) (fun e => addressInA e == some 8191 && !headerWordAt (inBlock i) e.x.tile 8191) = true
      ∧ mayFire i (inBlock i 8192) (fun e => addressInA e == none) = true)
    ∧ mayFire (.halt (bW 0)) (inBlock (.halt (bW 0))) (fun e => e.x.control.isNone) = true
    ∧ (∀ i ∈ [Instr.halt (bW 0), .bri (bW 5), .br (bW 0)],
      mayFire i (reExec (inBlock i) fun x => { x with control := some .halt }) (fun e => e.x.control.isSome) = true)
    -- LOOP with a count of 0, with one, with two and with three counters open
    ∧ mayFire (.loop (bW 5)) (inBlock (.loop (bW 5)) 0) (fun e => e.x.control.isNone && afterBlock e == 5 && laneA e 0 == 0) = true
    ∧ (∀ lc ∈ [[(1 : Lane), 1, 0], [1, 1, 1]], mayFire (.loop (bW 5)) (reThread (inBlock (.loop (bW 5)) 3) fun t => { t with lc := lc })
      (fun e => e.x.control.isNone && laneA e 0 == 3 && afterBlock e == 5 && headerWordAt (inBlock (.loop (bW 5))) e.x.tile 5
        && liveLoops e == (lc.filter (· != 0)).length) = true)
    -- LEND of both forms with one counter open, and with none
    ∧ (∀ imm ∈ [true, false], ∀ lc ∈ [[(1 : Lane), 0, 0], [0, 0, 0]], let i := Instr.lend imm (bW (if imm then 0x800005#24 else 0x800000#24))
      mayFire i (reThread (inBlock i 5) fun t => { t with lc := lc }) (fun e => e.x.control.isNone
        && (if imm then some (addressIn (bW 0x800005#24)) else addressInA e) == some 5 && liveLoops e == (lc.filter (· != 0)).length) = true) := by
  decide +kernel

theorem witness_BlockPoison :
    (∀ c ∈ [none, some Control.halt], let s := reExec (inBlock (.poison (bW 1))) fun x => { x with control := c }
      (blockEnv s (.poison (bW 1))).any (fun e => !e.badFormat && !e.th.speculative && e.x.control == c && abortRoom s e.x) = true)
    ∧ (blockEnv (asSegment (inBlock (.poison (bW 1)))) (.poison (bW 1))).any (fun e => !e.badFormat && e.th.speculative) = true
    ∧ (let i := Instr.faddBlock { bw .nowhere .tok 0 with ft := some .f32 }
       let s := inPair (.recv (bw (.a 1) .tok 0)) i 1 [⟨1, 0, 0, some (.e4, 3)⟩]
       (blockEnv s i).any fun e => e.badInput == some 3 && abortRoom s e.x) = true
    ∧ (let i := Instr.movi (bw (.a 1) .w64 1)
       let s := inPair i (.movBlock (bw .nowhere .w64 0)) 0 [⟨1, 0, 0, none⟩]
       (blockEnv s i).any fun e => !e.badFormat && targetSlot e.inf.t0 == some (1, 0) && (slotVal e.x (1, 0)).isSome && abortRoom s e.x)
      = true := by decide +kernel
/-- POISON completes: its execution ends in poison of the code it names (R282). -/
theorem test_poison_completes : endedExec (exec (.poison (bW 1)) (inBlock (.poison (bW 1)))) = true := by decide +kernel

/-- The instruction in focus joined its line in the clock before. -/
def inTurn (i : Instr) (on : Option (EdgeKey × BitVec 12)) (s : State) : State :=
  match blockEnv s i with
  | some e => { joinLine s e on with ctl := { s.ctl with clock := s.ctl.clock + 1 } }
  | none => s

/-- A token stands at input port 0 of the tile. -/
def arrived (s : State) (k : Kind) (ft : Fmt) : State :=
  { s with q := { s.q with buffers := [⟨lkEdge lk0 1, { dataTok ft 0 with kind := k }, false, false⟩] } }

theorem witness_BlockForkAndSend :
    (let s := inTurn (.fork (bW 0)) none (inBlock (.fork (bW 0)))
     mayFire (.fork (bW 0)) s (fun e => !e.th.speculative && e.freeFrame s == some 1)) = true
    ∧ mayFire (.fork (bW 0)) (inBlock (.fork (bW 0))) (fun e => !e.th.speculative && e.freeFrame (inBlock (.fork (bW 0))) == none) = true
    ∧ (∀ n ∈ [0, Config.segSends], let s := asSegment (reExec (inBlock (.fork (bW 0))) fun x =>
        { x with leaving := List.replicate n (.fork 0 [] tag0 none none 0) })
      mayFire (.fork (bW 0)) s (fun e => e.th.speculative && decide (e.sendsHeld s < Config.segSends) == (n == 0)) = true)
    -- ports 1 and 2 of a node with edges at 0 and 1
    ∧ (∀ n ∈ [1, 2], let i := Instr.send { bW (BitVec.ofNat 24 n) .tok with ft := some .f32 }
      mayFire i (inBlock i) (fun e => !e.th.speculative && (tileOutEdge base e.th.launch e.x.tile n).isSome == (n == 1)) = true)
    -- SEND.brk of level 1 below, at and beyond what the tag allows
    ∧ (let i := Instr.sendBrk { bW 0x0000C0#24 .tok with ft := some .i32 }
       let at_ := fun (t : Tag) => reExec (inBlock i) fun x => { x with tag := t }
       mayFire i (at_ 0x2000000000000000#64) (fun e => !e.th.speculative && tagDepth e.x.tag == 2 && tagLevel e.widths e.x.tag 1 == 0)
       ∧ mayFire i (at_ 0x1000000000000000#64) (fun e => tagDepth e.x.tag == 1)
       ∧ mayFire i (at_ 0x2000FFFFFF000000#64) (fun e => tagDepth e.x.tag == 2 && tagLevel e.widths e.x.tag 1 + 1 == 2 ^ levelWidth e.widths 1)) := by
  decide +kernel

/-- RECV's port of the tile, and one of its tokens waiting with the instruction's turn come. -/
def port0 : Option (EdgeKey × BitVec 12) := some (lkEdge lk0 1, 0)
def receiving (i : Instr) (k : Kind) (bad : Bool) : State :=
  let s := inTurn i port0 (arrived (inBlock i) k .f32)
  { s with q := { s.q with buffers := s.q.buffers.map fun b => { b with bad := bad } } }
theorem witness_BlockReceive :
    (tileInEdge base lk0 tile0 0).map (·.num) = some 1
    ∧ (∀ k ∈ [Kind.data, .head, .endOf], ∀ ft ∈ [none, some Fmt.f32], let i := Instr.recv { bW 0 .tok with ft := ft }
      let s := receiving i k false
      mayFire i s (fun e => !e.th.speculative && e.turn s port0 && (recvToken s e (lkEdge lk0 1)).any fun b => b.tok.kind == k && !b.bad) = true)
    -- a format FT excludes, a bad mark, a HEAD with START
    ∧ (∀ x ∈ [(Instr.recv { bW 0 .tok with ft := some .e4 }, Kind.data, false), (.recv (bW 0 .tok), .data, true), (.recvStart (bW 0x020000#24 .tok), .head, false)],
      let s := receiving x.1 x.2.1 x.2.2
      mayFire x.1 s (fun e => !e.th.speculative && e.turn s port0 && (recvToken s e (lkEdge lk0 1)).any fun b =>
        b.tok.kind == x.2.1 && b.bad == x.2.2 && abortRoom s (tookAs s b (lkEdge lk0 1) (bW 0 .tok) none e.x)) = true)
    -- START with a frame at its turn, without one, and of an END
    ∧ (∀ k ∈ [Kind.data, .endOf], let i := Instr.recvStart (bW 0x020000#24 .tok)
      let s := inTurn i none (receiving i k false)
      mayFire i s (fun e => !e.th.speculative && e.turn s port0 && e.startFrame s == some (some 1)) = true
      ∧ mayFire i (receiving i k false) (fun e => e.turn (receiving i k false) port0 && e.startFrame (receiving i k false) == none) = true)
    ∧ (let i := Instr.recv (bW 0 .tok)
       mayFire i (inBlock i) (fun e => (recvToken (inBlock i) e (lkEdge lk0 1)).isNone)
       ∧ mayFire i (arrived (inBlock i) .data .f32) (fun e => !e.turn (arrived (inBlock i) .data .f32) port0)
       ∧ mayFire (.recv (bW 2 .tok)) (asSegment (inBlock (.recv (bW 2 .tok)))) (fun e => e.th.speculative
           && (tileInEdge base lk0 e.x.tile 2).any fun ed => !localIn base e.x.tile (lkEdge lk0 ed.num))) := by decide +kernel

/-- Handle 1 of die 0 is live, and not. -/
def withHandle (s : State) (live : Bool) : State := { s with tiles := { s.tiles with handles := [⟨0x20001, lk0, live, none, 1⟩] } }
theorem witness_BlockSpeculation :
    -- SPAWNP of one and of two sides with room, and with its deck full; an address beyond the memory
    ([(0 : Word), 8191].all fun a => let i := Instr.spawnp (bW 0x800000#24)
      mayFire i (inBlock i a) (fun e => (freeHandle base 0).isSome && decide (deckUsed base 0 + 2 ≤ Config.deckEntries)
        && !((freeSids base 0).drop 1).isEmpty && !((freeFrames (inBlock i) e.x.tile).drop 1).isEmpty && e.th.seg.isNone)) = true
    ∧ (let i := Instr.spawnp (bW 0)
       mayFire i (inBlock i) (fun e => (freeHandle base 0).isSome && e.th.seg.isNone)
       ∧ mayFire i (reExec (inBlock i) fun x => { x with frames := List.range 256 })
           (fun e => (freeFrames (reExec (inBlock i) fun x => { x with frames := List.range 256 }) e.x.tile).isEmpty))
    ∧ (let i := Instr.spawnp (bW 0x800000#24)
       mayFire i (inBlock i 8192)) = true
    -- RESOLVE and SQUASH of a segment, of a live handle and of a dead one
    ∧ (∀ i ∈ [Instr.resolve (bW 0), .squash (bW 0)],
      mayFire i (asSegment (inBlock i 0x20001#64)) (fun e => e.th.speculative) = true
      ∧ mayFire i (withHandle (inBlock i 0x20001#64) false) (fun e => !e.th.speculative && (handleLive (withHandle base false) lk0 0x20001#64).isNone) = true
      ∧ mayFire i (withHandle (inBlock i 0x20001#64) true) (fun e => !e.th.speculative
        && (handleLive (withHandle base true) lk0 0x20001#64).isSome
        && execOf (squashOne (withHandle (inBlock i 0x20001#64) true) lk0 0x20001#64).1 2 == some e.x
        && unitsFit (squashOne (withHandle (inBlock i 0x20001#64) true) lk0 0x20001#64).1
        && execOf (resolveHandle (withHandle (inBlock i 0x20001#64) true) lk0 0x20001#64 true).1 2 == some e.x) = true)
    ∧ mayFire (.lkrd (bW 0)) (asSegment (inBlock (.lkrd (bW 0)))) (fun e => e.th.seg.any fun g => g.chain != []) = true
    ∧ (handleLive (withHandle base true) lk0 0x20001#64).isSome = true
    ∧ (base.tiles.threads.map (·.uid)).Nodup := by decide +kernel

def mW (ord : Ord := .plain) (sz : Fin 7 := 3) : MWord := ⟨.nowhere, .nowhere, .always, ord, .stand, sz, false, 0, 0⟩
/-- A segment whose store buffer is full (R278). -/
def fullStores (s : State) : State :=
  reThread s fun t => { t with seg := some { seg5 with stores := List.replicate 64 (.scratch 0 [] .plain 0) } }
theorem witness_BlockStores :
    (∀ i ∈ [Instr.st (mW), .stv (mW .plain 4), .sstBlock (mW), .swset (mW), .dst (mW .plain 0), .xst (mW)],
      ((blockEnv (inBlock i) i).any fun e => e.storeRoom && ((e.slot 0).setWidth 64 : Word) == 0) = true
      ∧ ((blockEnv (fullStores (inBlock i)) i).any fun e => !e.storeRoom) = true)
    ∧ ((blockEnv (inBlock (.swset (mW)) 4) (.swset (mW))).any fun e => scratchAddr (mW) e % 8 != 0) = true
    ∧ ((blockEnv (inBlock (.dst (mW .plain 0)) 64) (.dst (mW .plain 0))).any fun e => (deviceAddr (mW .plain 0) e).toNat % 128 != 0) = true
    ∧ ([0x1FFFFFFF#64, 0x20000000#64].all fun a => (blockEnv (inBlock (.xst (mW)) a) (.xst (mW))).any fun e => (e.slot 0).setWidth 64 == a) = true := by
  decide +kernel
theorem witness_BlockMemoryNodes :
    (∀ i ∈ [Instr.ld (mW), .ldv (mW .plain 4), .sldBlock (mW), .amo (mW), .famo { mW .plain 2 with aop := 9 }, .cas (mW), .samoBlock (mW),
      .dld (mW .plain 0), .swwait (mW)], ((blockEnv (inBlock i) i).any fun e => (deviceAddr (mW) e).toNat == 0) = true)
    ∧ (∀ i ∈ [Instr.amo (mW), .famo { mW .plain 2 with aop := 9 }, .cas (mW), .samoBlock (mW), .dld (mW .plain 0), .swwait (mW)],
      ((blockEnv (inBlock i 2) i).any fun e => (deviceAddr (mW) e).toNat % 4 != 0) = true)
    ∧ (let i := Instr.fence { mW .plain 0 with off := 0x101 }
       (blockEnv (inBlock i) i).any (fun e => !e.th.speculative) ∧ mayFire i (asSegment (inBlock i)) (fun e => e.th.speculative))
    ∧ (let i := Instr.barx (bw .nowhere .w64 0)
       (blockEnv (inBlock i) i).any (fun e => !e.th.speculative) ∧ (blockEnv (asSegment (inBlock i)) i).any fun e => e.th.speculative)
    ∧ mayFire (.pref (mW .plain 0)) (inBlock (.pref (mW .plain 0))) = true := by decide +kernel

theorem witness_BlockSystem :
    (∀ n ∈ [0x000, 0x02F, 0x411], let i := Instr.sysr (bW (BitVec.ofNat 24 n))
      mayFire i (inBlock i) (fun e => (sysRead (inBlock i) e.x e.th.launch.part n).isSome) = true)
    ∧ (let i := Instr.sysr (bW 0x412)
       mayFire i (inBlock i) (fun e => (sysRead (inBlock i) e.x e.th.launch.part 0x412).isNone)) = true
    ∧ (∀ n ∈ [0x000, 0x001, 0x008, 0x009, 0x010, 0x020, 0x02F, 0x400, 0x411], let i := Instr.sysw (bW (BitVec.ofNat 24 n))
      mayFire i (inBlock i) (fun e => !e.th.speculative) = true)
    ∧ mayFire (.trap (bW 7)) (inBlock (.trap (bW 7))) (fun e => !e.th.speculative && e.x.control.isNone) = true
    ∧ ((blockEnv (inBlock (.ecall (bW 7))) (.ecall (bW 7))).any fun e => !e.th.speculative && (aget base.tiles.ecalls e.x.tile).isNone
        && faultRoom (inBlock (.ecall (bW 7))) 0) = true
    ∧ mayFire (.quies (bW 0)) (inBlock (.quies (bW 0))) (fun e => !e.th.speculative && !e.nodesOpen (inBlock (.quies (bW 0)))
        && !standBusy (inBlock (.quies (bW 0))) 0 0) = true
    ∧ (let s := { inBlock (.quies (bW 0)) with firings := (inStage (.nop w3) []).firings }
       mayFire (.quies (bW 0)) s (fun e => !e.th.speculative && standBusy s 0 0)) = true
    ∧ ([(0 : BitVec 24), 4, 8, 3].all fun imm => let i := Instr.invt (bW imm)
      mayFire i (inBlock i) (fun e => !e.th.speculative)) = true := by decide +kernel

/-! ### The order machine: nodes of thread token 1 -/

/-- Partition 0 owns die 0 and key 0; its page at 0x20000 is memory at 0x10000, readable, and writable where `wr`. -/
def paged (s : State) (wr : Bool := true) : State := { s with
  host := { s.host with parts := s.host.parts.map fun p => { p with dies := 1, keyn := 1 } }
  mem := { s.mem with trans := [⟨0, some 0, 0, 0x20000, 3, if wr then 0x1008F#64 else 0x10087#64, 0⟩] } }
/-- A node of the tile's thread token, its parts as given. -/
def memNode (op : MemOp) (path : Path) (at_ : NodeAt) (parts : List Part) : MNode :=
  ⟨9, .thread 1, tile0, lk0, path, 512, op, .plain, .stand, parts, at_, 0, 0, 0, none, 0, none⟩
def withNodes (s : State) (ns : List MNode) (f : Subject) : State :=
  focusOn { s with ord := { s.ord with nodes := ns, arrivals := 1 } } (.subject f)
def part (off size : Nat) (dpa : Option Nat) (at_ : PartAt) : Part := ⟨off, size, dpa.map fun d => ⟨d, 0, 0, false⟩, at_, [], 0⟩
def issuable (s : State) (n : MNode) : Bool :=
  nodeById s n.id == some n && s.ctl.focus == .subject (.num n.id) && n.at_ == .queued && n.held == none && released s n
    && !reporting s n.key.stand n.key.elem
def walkOf (s : State) (n : MNode) (va : Word) (rd wr : Bool) : Nat :=
  match (translate s n.key.stand n.launch.part va rd wr).2 with | .ok _ => 0 | .permission => 1 | .notPresent => 2

theorem witness_OrderIssue :
    -- the last byte of a line: translated, not writable, no page
    (∀ c ∈ [0, 1, 2], let n := memNode (.store 0x2007F#64 [7]) .ls .queued []
      let s := withNodes (if c = 2 then base else paged base (c == 0)) [n] (.num 9)
      let s := if c = 2 then { s with host := (paged base).host } else s
      (issuable s n && memRange n.op == some (0x2007F#64, 1, false, true) && !pageHeld s 0 0 0x2007F
        && walkOf s n 0x2007F#64 false true == c) = true)
    -- a page of a peer package, its link up and lost
    ∧ (∀ up ∈ [true, false], let n := memNode (.load 0x2007F#64 1 false) .ls .queued []
      let s := withNodes (paged base) [n] (.num 9)
      let s := { s with
        mem := { s.mem with trans := s.mem.trans.map fun t => { t with entry := t.entry ||| 0x20000000000#64 } }
        host := { s.host with parts := s.host.parts.map fun p => { p with peers := [(1, 0)] }, links := s.host.links.map fun x => if x.port = 1 then { x with up := up } else x } }
      (issuable s n && (match (translate s 0 0 0x2007F#64 true false).2 with
        | .ok x => decide (2 ^ 41 ≤ x.dpa) && (l1Serve s n false x 1).isNone
        | _ => false) && linkLost s 0 == !up) = true)
    -- held by an earlier SO access of its source, and waiting for a page
    ∧ (let n := { memNode (.store 0x20000#64 [7]) .ls .queued [] with ord := .so }
       let s := withNodes base [{ n with id := 8, pos := 100 }, n] (.num 9)
       nodeById s 9 == some n && !released s n) = true
    ∧ (let n := { memNode (.store 0x20000#64 [7]) .ls .queued [] with held := some 0x20000 }
       nodeById (withNodes base [n] (.num 9)) 9 == some n) = true
    ∧ (let n := memNode (.store 0x20000#64 [7]) .ls .issued [part 0 1 (some 0x10000) .transit]
       nodeById (withNodes base [n] (.pair 9 0)) 9 == some n && n.parts[0]? == some (part 0 1 (some 0x10000) .transit)) = true := by
  decide +kernel

/-- The line at 0x10000 in its L2. -/
def line0 : L2Line := ⟨512, 0, [true, true], [false, false], 5, 9, 0, 0, 0, 0, [none, none]⟩
def performable (s : State) (n : MNode) (p : Part) : Bool :=
  nodeById s n.id == some n && s.ctl.focus == .subject (.pair n.id 0) && n.at_ == .issued && n.parts == [p] && atHead s n p
    && !flagsWait s n.key.stand n.key.ctx n.epoch (performFlags s n p)

theorem witness_OrderPerformDevice :
    -- the last eight bytes of the line: a load, a store, an AMO and a CAS
    (∀ op ∈ [MemOp.load 0x20078#64 8 false, .load 0x20078#64 8 true, .store 0x20078#64 [1, 2, 3, 4, 5, 6, 7, 8], .amo 0x20078#64 8 0 1,
      .cas 0x20078#64 8 0 1], let p := part 0 8 (some 0x10078) (.queued 0 0 0)
      let n := memNode op .ls .issued [p]
      let s := withNodes (paged base) [n] (.pair 9 0)
      let s := { s with mem := { s.mem with l2 := [line0] } }
      (performable s n p && decide (0x10078 % 128 + p.size ≤ 128) && lineOf s (0x10078 / 128) == some line0
        && p.xl == some ⟨0x10078, 0, 0, false⟩ && !timestampsFull s 0 && (List.range 2).all (fun i => getAt line0.valid i false)) = true) := by
  decide +kernel

/-- SCE 15's whole scratch as a region of this mode. -/
def region15 (s : State) (mode : BitVec 3) : State :=
  let c := { sceCfg s ⟨0, 0x1F, 0⟩ with regions := [⟨0, 1024, mode, 0, false⟩] }
  { s with cfg := { s.cfg with sce := aset s.cfg.sce ⟨0, 0x1F, 0⟩ c } }
def inRegion (s : State) (n : MNode) (p : Part) (stand addr size : Nat) (mode : BitVec 3) : Bool :=
  p.off == 0 && p.size == size && decide (addr + size ≤ 2 ^ 20) && p.xl == none
    && (regionOf s stand n.key.ctx addr size).any fun x => x.2.mode == mode

theorem witness_OrderPerformScratch :
    -- the last eight bytes of a stand's scratch
    (∀ op ∈ [MemOp.sload 0xFFFF8 8, .sstore 0xFFFF8 [1, 2, 3, 4, 5, 6, 7, 8], .samo 0xFFFF8 8 0 1, .swwait 0xFFFF8 0, .swwait 0xFFFF8 1,
      .xst 0 0xFFFF8 [1, 2, 3, 4, 5, 6, 7, 8]], let p := part 0 8 none (.queued 0 0 0)
      let n := memNode op .sa .issued [p]
      let s := withNodes base [n] (.pair 9 0)
      (performable s n p && inRegion s n p 0 0xFFFF8 8 0 && targetOk s n && (servedAt s n 0 0xFFFF8 8).isSome) = true)
    -- an exchange region: the other bank of its last unit
    ∧ (let p := part 0 8 none (.queued 0 0 0)
       let n := memNode (.xst 0 0xF7FF8 [1, 2, 3, 4, 5, 6, 7, 8]) .sa .issued [p]
       let s := withNodes (region15 base 3) [n] (.pair 9 0)
       performable s n p && inRegion s n p 0 0xF7FF8 8 3 && targetOk s n && (servedAt s n 0 0xF7FF8 8).isSome
         && (regionOf s 0 0 0xF7FF8 8).any fun x => exchangeAddr s 0 0xF7FF8 x.2 true + 8 == 2 ^ 20) = true
    -- SWWAIT: the generation is 0; a faulted word
    ∧ field (leWord (scratchBytes base 0 0xFFFF8 8)) 48 16 = 0#16 ∧ (syncMark base ⟨0, 0xFFFF8⟩).fault = false
    ∧ (let s := { base with mem := { base.mem with syncs := [⟨⟨0, 0xFFFF8⟩, 0, true⟩] } }
       (syncMark s ⟨0, 0xFFFF8⟩).fault) = true := by decide +kernel

/-- The block instruction has issued its node 9. -/
def issuedBlock (i : Instr) (n : MNode) : State :=
  let s := reExec (inBlock i) fun x => { x with fired := [0], waits := [⟨0, [9]⟩] }
  withNodes s [n] (.num 9)
def mWt : MWord := { mW with t0 := .w 0 }

theorem witness_OrderAcknowledge :
    (let n := { memNode (.load 0 8 false) .ls .performed [] with pos := 2048 }
     let s := issuedBlock (.ld mWt) n
     nodeById s 9 == some n && unitsFit s && s.eng.commands.isEmpty && (execOf s 2).any fun x =>
       (match loadBlock s x.tile x.block with | .ok b => b.instrs[0]? == some (.ld mWt) | _ => false)
       && x.waits.find? (fun w => w.idx == 0) == some ⟨0, [9]⟩
       && (binfo (.ld mWt)).any fun f => freeTarget x f.t0 && freeTarget x f.t1 && f.t0 != f.t1) = true
    ∧ (let n := { memNode (.sload 0 4) .sa .performed [] with src := .stage vpe0 0 tag0 }
       let s := withNodes (reFiring (inStage (.sld (wS 0)) []) fun f => { f with nodes := [9] }) [n] (.num 9)
       nodeById s 9 == some n && unitsFit s && s.eng.commands.isEmpty && s.firings.any fun f => f.nodes.contains 9) = true
    ∧ (let n := memNode (.sload 0 4) .sa .issued []
       nodeById (withNodes base [n] (.num 9)) 9 == some n && n.at_ != .performed) = true
    -- a posted fence that is done, one of a block, one that waits
    ∧ (let n := memNode (.fence 0xFF 0xFF) .sa .queued []
       let s := withNodes base [n] (.num 9)
       nodeById s 9 == some n && fenceDone s n && decide (512 ≤ n.pos % 1024)) = true
    ∧ (let i := Instr.fence { mWt with sz := 0, off := 0x101 }
       let n := { memNode (.fence 0xFF 0xFF) .sa .queued [] with pos := 2048 }
       let s := issuedBlock i n
       fenceDone s n && (execOf s 2).any fun x =>
         (match loadBlock s x.tile x.block with | .ok b => b.instrs[0]? == some i | _ => false)
         && x.waits.find? (fun w => w.idx == 0) == some ⟨0, [9]⟩
         && (binfo i).any fun f => freeTarget x f.t0 && freeTarget x f.t1 && f.t0 != f.t1) = true
    ∧ (let n := memNode (.fence 0xFF 0xFF) .sa .queued []
       let s := withNodes base [{ memNode (.store 0x20000#64 [1]) .ls .issued [] with id := 8, pos := 100 }, n] (.num 9)
       nodeById s 9 == some n && !fenceDone s n) = true := by decide +kernel

theorem witness_ExchangeSwap :
    -- two of two have arrived and one waits; one of two
    (let l := { launch0 with ex := ⟨0, 2, [(0, 8), (1, 9)], [(0, 10)]⟩ }
     let s := focusOn { base with la := ⟨[l], [], []⟩ } (.subject (.launch lk0))
     launchOf s l.key == some l && decide (l.ex.expect ≤ l.ex.arrived.length)) = true
    ∧ (let l := { launch0 with ex := ⟨0, 2, [(0, 8)], []⟩ }
       let s := focusOn { base with la := ⟨[l], [], []⟩ } (.subject (.launch lk0))
       launchOf s l.key == some l && decide (l.ex.arrived.length < l.ex.expect)) = true := by decide +kernel

/-- A load of the first word of a stash region at 0x20000 waits for its sector. -/
def stashLoad : State :=
  let s := region15 (paged base) 2
  let c := { sceCfg s ⟨0, 0x1F, 0⟩ with regions := [⟨0, 1024, 2, 0x20000, false⟩] }
  withNodes { s with cfg := { s.cfg with sce := aset s.cfg.sce ⟨0, 0x1F, 0⟩ c } } [memNode (.sload 0xF0000 4) .sa .queued []] .nothing
theorem witness_LeasesAndTimestamps :
    (needersOf base ⟨0, 0xF0000⟩).isEmpty = true
    ∧ (let k : ScratchKey := ⟨0, 0xF0000⟩
       match needersOf stashLoad k with
       | [n] => !sectorServes stashLoad n.ctx k (sectorMask k n.addr n.len)
           && (regionOf stashLoad 0 n.ctx k.addr 64).any (fun x => x.2.mode == 2 && stashVa 0 k.addr x.2 == 0x20000#64)
           && !pageHeld stashLoad 0 0 0x20000 && walkOf stashLoad (memNode (.sload 0 4) .sa .queued []) 0x20000#64 true false == 0
           && decide (k.addr + 64 ≤ 2 ^ 20) && !reporting stashLoad 0 0x1F && !timestampsFull stashLoad 0 && unitsFit stashLoad
           && (match stashFill stashLoad n.ctx k with | .done v => (serveBank v 0 0xF0000 64 n.ctx 8 (2 ^ 64 + 8)).isSome | _ => false)
       | _ => false) = true
    ∧ (∀ d ∈ [0, 1], let m : Mems := { base.mem with l2 := [{ line0 with rts := 2 ^ 63 - Config.lease - 1 - d }] }
       let s := focusOn { base with mem := m } (.subject (.num 0))
       timestampsFull s 0 = (d == 0)) := by decide +kernel

theorem witness_PageFaults :
    -- a fault of one clock before its deadline, of the deadline itself, and one whose clock stands
    (∀ c ∈ [0, 1, 2], let o : OpenFault := ⟨0, 0, 2, 0, if c = 2 then some 0 else none⟩
      let n := { memNode (.load 0x20000#64 8 false) .ls .queued [] with held := some 0x20000 }
      let s := withNodes base [n] (.num 0)
      let s := { s with mem := { s.mem with opens := [o] }, ctl := { s.ctl with clock := 2 ^ 24 - 1 + c } }
      (s.mem.opens[0]? == some o && decide (s.ctl.clock < o.since + ((partOf s o.part).map (·.fdeadline)).getD 0) == (c == 0)
        && !heldByDrain s o && s.eng.commands.isEmpty && s.firings.isEmpty && s.mem.sectors.isEmpty && s.eng.backfill.isEmpty
        && unitsFit s && (needs s).isEmpty && nodeById s 9 == some n && pageOf 0x20000 == o.page) = true) := by decide +kernel


/-! ### Engines: commands of thread token 1 -/

def eW (t0 : Target := .nowhere) (eng : BitVec 4 := 0) (pa : BitVec 20 := 0) : EWord := ⟨t0, .nowhere, .always, eng, 0, pa⟩

/-- The n-th of the engine commands, its word naming an engine its entry names; KVST.fin has EQ 1. -/
def engineCommand (n : Nat) (t0 : Target) : Option Instr :=
  let eng := if n < 9 then 1 else if n < 13 then 4 else if n < 16 then 6 else if n < 18 then 5 else if n < 23 then 8 else 7
  ((engineCommands { eW t0 (BitVec.ofNat 4 eng) with eq := if n = 19 then 1 else 0 })[n]?).map (·.1)
theorem witness_EngineCommandsIssue :
    ((List.range 25).all fun n => (engineCommand n (.w 0)).any fun i => (blockEnv (inBlock i) i).any fun e => !e.th.speculative) = true
    ∧ ((List.range 25).all fun n => (engineCommand n .nowhere).any fun i =>
        (blockEnv (asSegment (inBlock i)) i).any fun e => e.th.speculative) = true := by decide +kernel

/-- A node of command i of the execution's instruction 0. -/
def engNode (i : Instr) : MNode := { memNode (.engine i [] 0 0) .mx .queued [] with pos := 2048 }
def engState (i : Instr) (s : State := base) : State :=
  withNodes { s with tiles := (inBlock i).tiles, cfg := { s.cfg with tile := (inBlock i).cfg.tile } } [engNode i] (.num 9)
def mayAccept (s : State) (i : Instr) : Bool :=
  nodeById s 9 == some (engNode i) && s.ctl.focus == .subject (.num 9) && released s (engNode i) && engineTurn s (engNode i) (engineOf tile0 i)
def verdict (s : State) (i : Instr) : Nat := match checkCommand s i (engNode i) 0 0 with | .ok _ _ => 0 | .fail => 1 | .wait => 2
/-- A command of engine k, its accesses made. -/
def command (i : Instr) (k : EKey) (rec_ : List Byte) : Command :=
  ⟨7, k, lk0, 9, .thread 1, 2, 2049, i, rec_, 0, 0, tag0, 0, [], [], 0, 0, 0, none, false, none, []⟩
def busy (s : State) (c : Command) (n : Nat) : State := { s with eng := { s.eng with commands := List.replicate n c } }

/-- Frontier tables of stand 0 with no room left. -/
def crowd (s : State) : State := { s with fr := { s.fr with units := [⟨0, lk0, List.replicate 6000 ⟨1, tag0, 1⟩, [], [], 0, 0⟩] } }
/-- Pattern record: three elements of 32 bytes at 0x20000, and its sync word. -/
def patRecOf (sync : Nat) : List Byte :=
  bytesOf 0x20000 8 ++ bytesOf 3 2 ++ List.replicate 10 0 ++ bytesOf 32 4 ++ List.replicate 20 0 ++ [5, 1] ++ List.replicate 6 0 ++ bytesOf sync 4
    ++ List.replicate 8 0
def patRec : List Byte := patRecOf 0
/-- Nothing stands where the command's targets send. -/
def targetsOpen (s : State) (i : Instr) : Bool :=
  (execOf s 2).all fun x => (binfo i).all fun f => freeTarget x f.t0 && freeTarget x f.t1 && (f.t0 != f.t1 || f.t0 == .nowhere)
/-- The row is read where the command reads one, and the accepted state finds room, or does not. -/
def accepts (s : State) (i : Instr) (row : Nat) (fits : Bool) : Bool :=
  match readAtAccept s (engNode i) i with
  | .ok u got _ => got.length == row && targetsOpen u i
      && unitsFit (acceptCommand u (engNode i) i 0 0 [] [] (if got = [] then [] else [(0, got)])) == fits
  | _ => false
theorem witness_EngineAcceptance :
    ([(Instr.mxrd (eW (.w 0) 4), 0), (.rnsum (eW (.w 0) 5 0xFFFC0#20), 64)].all fun x => [true, false].all fun fits =>
      let i := x.1
      let s := if fits then engState i else crowd (engState i)
      mayAccept s i && verdict s i == 0 && (binfo i).any (fun f => f.t0 != .nowhere) && !acceptT0 i && s.eng.commands.isEmpty
        && accepts s i x.2 fits) = true
    ∧ ([Instr.strmPos (eW (.w 0)), .strmStop (eW (.w 0))].all fun i =>
       let s := busy (engState i) (command (.strmLd (eW)) ⟨0, 0x30, 0⟩ []) 1
       mayAccept (engState i) i && (runningPattern (engState i) (engineOf tile0 i)).isNone && unitsFit (engState i)
         && mayAccept s i && (runningPattern s (engineOf tile0 i)).isSome && accepts (engState i) i 0 true && accepts s i 0 true
         && accepts (crowd s) i 0 false) = true
    -- a record in a sector of a stash region that is still to be filled
    ∧ (let i := Instr.strmLd (eW .nowhere 0 0xF0000#20)
       let s := setSceCfg (engState i) ⟨0, 0x1F, 0⟩ (sceCfg stashLoad ⟨0, 0x1F, 0⟩)
       mayAccept s i && verdict s i == 2) = true
    -- a record at the last place of scratch that is all zero, and one not on a 64-byte address
    ∧ ([0xFFFC0#20, 0x00020#20].all fun pa => let i := Instr.strmLd (eW .nowhere 0 pa)
      mayAccept (engState i) i && verdict (engState i) i == 1
        && (execOf (engState i) 2).any fun x => (threadOf (engState i) x.thread).any fun th => !th.speculative) = true
    ∧ (let i := Instr.mxrd (eW (.w 0) 4)
       let s := busy (engState i) (command i ⟨0, 0x28, 0⟩ []) 4
       mayAccept s i && decide (4 ≤ (s.eng.commands.filter fun c => c.eng == engineOf tile0 i).length)) = true
    -- a pattern with a sync word at a sealed streamer
    ∧ (let i := Instr.strmLd (eW .nowhere 0 0)
       let s := setStrmCfg (scratchWrite (engState i) 0 0 (patRecOf 0x80000100)) ⟨0, 0x30, 0⟩ ⟨1, 3, 0x0100#16⟩
       let s := { s with host := { s.host with seals := [⟨0, 0x30, 0⟩] } }
       mayAccept s i && engineOf tile0 i == ⟨0, 0x30, 0⟩ && sealedAt s (engineOf tile0 i) && namesSync i && hasOutput i
         && (match checkCommand s i (engNode i) 0 0 with
           | .ok r _ => syncOf r == some 0x100 && (match readAtAccept s (engNode i) i with
             | .ok u got _ => targetsOpen u i && got.isEmpty | _ => false)
           | _ => false)
         && s.eng.commands.isEmpty) = true
    -- a command whose record's bank has served its port in this clock waits
    ∧ (let i := Instr.rnsum (eW (.w 0) 5 0xFFFC0#20)
       let s := (serveBank (engState i) 0 0xFFFC0 64 0 3 99).getD base
       mayAccept s i && verdict s i == 0 && match readAtAccept s (engNode i) i with | .wait _ _ => true | _ => false) = true := by
  decide +kernel

/-- Fields EMPTY, DEFERRED, CLAIMED and FILLING; a set of fields with FILLING and one without. -/
theorem witness_KvMapActions : ∀ fields ∈ [[0, 31], [0, 3]], fields.Nodup ∧ (fields.all fun i => decide (i < 32)) = true
    ∧ 0xE4 < 2 ^ 64 ∧ (fields.any fun i => kvField 0xE4 i == 3) = (fields == [0, 3]) := by decide +kernel
/-- A map word at its home, its access at the head of the queue. -/
theorem witness_KvMapActions_home : ∀ ev ∈ [KvEvent.read, .exit, .claim, .store, .finish, .free],
    (let p := part 0 8 (some 0x10078) (.queued 0 0 0)
     let n := memNode (.kvmap 0x20078#64 [0, 31] ev) .bf .issued [p]
     let s := withNodes (paged base) [n] (.pair 9 0)
     let s := { s with mem := { s.mem with l2 := [line0] } }
     performable s n p && decide (0x10078 % 128 + p.size ≤ 128) && lineOf s (0x10078 / 128) == some line0
       && p.xl == some ⟨0x10078, 0, 0, false⟩ && !timestampsFull s 0 && (List.range 2).all (fun i => getAt line0.valid i false)) = true := by
  decide +kernel

/-- A CPY that names the sync word at scratch 0x100, whose target is 64, and has moved n bytes. -/
def copied (n count : Nat) : State :=
  let r : List Byte := List.replicate 52 0 ++ bytesOf 0x80000100 4 ++ List.replicate 8 0
  let c := { command (.cpy (eW)) ⟨0, 0x30, 0⟩ r with ended := true, moved := n }
  withNodes { scratchWrite base 0 0x100 (bytesOf (64 * 2 ^ 24 + count) 8) with eng := { base.eng with commands := [c] } }
    [{ engNode (.cpy (eW)) with at_ := .issued }] (.num 7)
theorem witness_SyncWordRaise : ([63, 64, 65].all fun n => let s := copied n 0
    (commandOf s 7).any (fun c => c.sync == some 0x100 && c.ended && (nodeById s c.node).isSome
      && c.moved == n && streamerTurn s 0 c.eng.elem (sceOf 0x100) && (regionOf s 0 0 0x100 8).any (fun x => x.2.mode == 0) && !(syncMark s ⟨0, 0x100⟩).fault && raiseTurn s c 0x100
      && (serveBank s 0 0x100 8 0 (portOf c.eng.elem (sceOf 0x100)) c.who.asker).isSome)
    && leNat (scratchBytes s 0 0x100 8) / 2 ^ 24 % 2 ^ 24 == 64) = true := by decide +kernel

def swSlot (deadline : Nat) (closed : Option Nat) : SwSlot := ⟨3, 5, 2, 0, 0, 1, 0, deadline, closed, [], []⟩
def withSlot (x : SwSlot) (clock : Nat) : State :=
  let s := focusOn base (.subject (.num 3))
  { s with eng := { s.eng with slots := [x] }, ctl := { s.ctl with clock := clock } }
theorem witness_SwitchSlots :
    ([99, 100].all fun c => let s := withSlot (swSlot 100 none) c
      (s.eng.slots.find? fun y => y.handle == 3) == some (swSlot 100 none) && decide (100 ≤ s.ctl.clock) == (c == 100)) = true
    ∧ (let due := 5 + Config.slotCollectUs * Config.cyclesPerUs false
       [due - 1, due].all fun c => let s := withSlot (swSlot 100 (some 5)) c
         (s.eng.slots.find? fun y => y.handle == 3) == some (swSlot 100 (some 5))
           && decide (5 + Config.slotCollectUs * Config.cyclesPerUs s.host.hot ≤ s.ctl.clock) == (c == due)) = true := by decide +kernel

/-- STRM.LD of it runs at streamer 0, `count` tokens sent; its first token's elements have come. -/
def streaming (outfmt : Half) (count : Nat) (aux : List Nat) : State :=
  let k : EKey := ⟨0, 0x30, 0⟩
  let c := { command (.strmLd (eW)) k patRec with count := count, aux := aux, got := [(2, List.replicate 32 1), (6, List.replicate 32 2), (10, List.replicate 32 3)] }
  let s := setStrmCfg base k ⟨1, 3, outfmt⟩
  focusOn { s with eng := { s.eng with commands := [c] } } (.subject (.elem k))
theorem witness_StreamerTokens :
    -- the second token of a burst; the HEAD of a burst; the END
    ([(0x0100#16, 1), (0x0003#16, 0), (0x0003#16, 2)].all fun x => let s := streaming x.1 x.2 []
      let k : EKey := ⟨0, 0x30, 0⟩
      (runningPattern s k).any fun c => hasOutput c.op && (grant s k (emitReady s)).any fun u =>
        outEdgeOf u k lk0 == some 3 && mayRun u c && !owedBefore u.q.owed (lkEdge lk0 3) k 0 && credits u (lkEdge lk0 3) != 0
          && commandOf u 7 == some c && mayStart u (lkEdge lk0 3) && unitsFit u
          && (List.range (min c.perTok (c.elems - c.perTok * c.count))).all (fun i => c.elemDone (c.perTok * c.count + i))
          && unitsFit (changeSet u 0 lk0 ([⟨3, c.tag, 1⟩] ++ if x.2 = 2 then c.holdDelta (-1) else []))
          && !unitsFit (changeSet (crowd u) 0 lk0 [⟨3, c.tag, 1⟩])
          && (if x.2 = 0 then fmtHeaded (strmFmt (strmCfg u k)) && decide (c.count < c.tokens) && c.aux == [] && c.stalled == none
              else if x.2 = 2 then decide (c.tokens ≤ c.count) else true)) = true := by decide +kernel

/-- The island of stand 0 walks the slots of region 0, its D edge 5; its B slot, of a NaN scale, full; these tokens at A. -/
def island (swzA : BitVec 4) (toks : List Token) : State :=
  let k : EKey := ⟨0, 0x28, 0⟩
  let s := setMxCfg base k ⟨1, 8, 0, swzA, 0, 2051, 2054, 5⟩
  focusOn { s with
    mem := { s.mem with planes := [⟨⟨0, 0⟩, 0, 0xFF, 0, false⟩] }
    q := { s.q with buffers := toks.map fun t => ⟨lkEdge lk0 3, t, false, false⟩ } } (.subject (.elem k))
def aRow (v : Half) : List Token := [formHead tag0 0 .e4 0x7F 0 false 0 0, { dataTok .e4 0 with valid := v }]
def atIsland (s : State) (p : State → Launch → ARow → Bool) : Bool :=
  (grant s ⟨0, 0x28, 0⟩ fun k => (mxStep s k).isSome).any fun u => (launchAt u ⟨0, 0x28, 0⟩).any fun l =>
    !sealedAt u ⟨0, 0x28, 0⟩ && match frontOf u ⟨0, 0x28, 0⟩ l with | .row r => p u l r | _ => false
theorem witness_MatrixPasses :
    (atIsland (island 0 (aRow 1)) fun u l r => let k : EKey := ⟨0, 0x28, 0⟩
      let i := islandOf u k
      let d := i.tile i.acc
      ((curSlot u k l).bind (slotState u)).any (fun slot => r.swz == (mxCfg u k).swzA && slot.swz == (mxCfg u k).swzB) && !r.pad
        && !d.draining && d.acc.length == 32 * islandCols u k && decide (i.acc < i.tiles.length) && (i.n + 1) % 32 != 0
        && i.n + 1 != 32 * (mxCfg u k).kpass && shadowRoom u k.stand k.ctx (tagLevel l.widths r.tag 0) && (mxStep u k).any unitsFit && (mxStep (crowd u) k).any fun v => !unitsFit v) = true
    ∧ (atIsland (island 5 (aRow 1)) fun u l r => let k : EKey := ⟨0, 0x28, 0⟩
      r.swz != (mxCfg u k).swzA && outEdgeOf u k l.key == some 5 && ((curSlot u k l).bind (slotState u)).isSome
        && !((islandOf u k).tile (islandOf u k).acc).draining && (mxStep u k).any unitsFit) = true := by decide +kernel

/-- Its island's tiles: the first drains, `n` tokens of it sent, or is bound, or neither. -/
def withTiles (s : State) (draining bound : Bool) (n : Nat) (ending : Bool) : State :=
  let k : EKey := ⟨0, 0x28, 0⟩
  let d : DTile := { DTile.free 192 with bound := bound, held := bound, draining := draining, tag := tag0 }
  setIsland s k ⟨[d, DTile.free 192], 0, 0, 0, n, ending⟩
def mayDrain (s : State) (p : Island → Bool) : Bool :=
  let k : EKey := ⟨0, 0x28, 0⟩
  (launchAt s k).isSome && outEdgeOf s k lk0 == some 5 && !owedBefore s.q.owed (lkEdge lk0 5) k 0 && credits s (lkEdge lk0 5) != 0
    && mayStart s (lkEdge lk0 5) && p (islandOf s k)
theorem witness_MatrixDrains :
    ([0, 32 * 12 - 1].all fun n => mayDrain (withTiles (island 0 []) true true n false) fun i =>
      i.draining == some 0 && decide (0 < i.tiles.length) && (i.drained + 1 == 32 * 12) == (n != 0)
        && unitsFit (changeSet base 0 lk0 ([⟨5, tag0, 1⟩] ++ if n = 0 then [] else tileHold base ⟨0, 0x28, 0⟩ (i.tile 0) (-1)))) = true
    ∧ (let s := withTiles (island 0 [endToken tag0 .e4 0]) false true 0 false
       mayDrain s (fun i => i.draining == none && (i.tile i.acc).bound && !i.ending) && !sealedAt s ⟨0, 0x28, 0⟩
         && (launchAt s ⟨0, 0x28, 0⟩).any fun l => match frontA s ⟨0, 0x28, 0⟩ l with | .endOf _ => true | _ => false) = true
    ∧ (let s := withTiles (island 0 [endToken tag0 .e4 0]) false false 0 true
       mayDrain s (fun i => i.draining == none && i.ending)
         && (launchAt s ⟨0, 0x28, 0⟩).any fun l => match frontA s ⟨0, 0x28, 0⟩ l with
           | .endOf b => unitsFit (changeSet s 0 lk0 (usedDelta b.edge.edge b.tok ++ [⟨5, b.tok.tag, 1⟩])) | _ => false) = true := by
  decide +kernel

/-! ### Configuration, tokens, firings -/

/-- Die 0 is partition 0's. -/
def owned (s : State) : State := { s with host := (paged s).host }
def selected (sel : Option (Nat × Nat)) (discard hold : Bool) (count : Nat) (staged : List (Nat × Nat × Half)) : State :=
  { owned base with cfg := { base.cfg with stream := ⟨lk0, sel, discard, 0, hold, count, staged⟩ } }
theorem nothing_live (k : EKey) (f : Nat) : blocked State.reset k f = false := by
  have h : passInFlight State.reset (2048 + getAt (vpeCfg State.reset k).outloc (f - 33) 0) k = false := rfl
  have h' : liveOn State.reset k = false := rfl
  simp [blocked, h, h']
theorem witness_ConfigCommands :
    -- SEL of stand 0, which is partition 0's, and of stand 64, which is nobody's, with nothing staged
    cfgRoom (owned base) = true ∧ (owned base).cfg.stream.staged = [] ∧ partOfStand (owned base) 0 = some 0
    ∧ hasStream (owned base) (owned base).cfg.stream.launch = true ∧ (owned base).cfg.stream.launch.part = 0 ∧ partOfStand (owned base) 64 = none
    -- a discarding stream; nothing selected; a selection: nothing staged, a blocked command staged, END with a count past 16 bits
    ∧ ([(true, none, []), (false, none, []), (false, some (0, 0), []), (false, some (0, 0), [(0x10, 0, 5#16)])].all
        fun (x : Bool × Option (Nat × Nat) × List (Nat × Nat × Half)) => cfgRoom (selected x.2.1 x.1 false 65537 x.2.2)) = true
    ∧ (let s := selected (some (0, 0)) false true 65537 [(0x10, 0, 5)]
       let s := { s with ord := { s.ord with nodes := [memNode (.sload 0 4) .sa .issued []] } }
       cfgRoom s && s.cfg.stream.hold && s.cfg.stream.staged.any (fun c => blocked s (streamKey s c.1) c.2.1)
         && s.cfg.stream.count % 2 ^ 16 == 1 && hasStream s lk0 && partOfStand s 0 == some 0) = true
    ∧ (let s := selected (some (0, 0)) false false 0 []
       let s := { s with ord := { s.ord with nodes := [memNode (.sload 0 4) .sa .issued []] } }
       cfgRoom s && blocked s (streamKey s 0x10) 0) = true
    ∧ (let s : State := { State.reset with cfg := { State.reset.cfg with stream := ⟨lk0, some (0, 0), false, 0, false, 0, []⟩ } }
       cfgRoom s = true ∧ ∀ e f, blocked s (streamKey s e) f = false)
    -- a table that waits, before its clock and at it
    ∧ ([0, 1].all fun n => let t : SlotTable := ⟨[], some (1, [1]), 0, 0⟩
      let s := focusOn (setSlotTable base 0 5 t) (.subject (.pair 0 5))
      let s := { s with ctl := { s.ctl with clock := n } }
      cfgRoom s && slotTable s 0 5 == t && decide (1 ≤ s.ctl.clock) == (n == 1)) = true := by
  refine ⟨by decide +kernel, by decide +kernel, by decide +kernel, by decide +kernel, by decide +kernel, by decide +kernel, by decide +kernel, by decide +kernel,
    by decide +kernel, ⟨by decide +kernel, fun e f => nothing_live _ f⟩, by decide +kernel⟩

/-- VPE 0 takes edge 0 at input 0 (and edge 4 at input 1) and feeds edges 1 and 4. -/
def wired (s : State) (matched : BitVec 4 := 1) : State :=
  let c := vpeCfg s vpe0
  setVpeCfg s vpe0 { c with matched := matched, inloc := [2048, 2052, 0, 0], outloc := [1, 4] }
def flight (e : Nat) (t : Token) : Flight := ⟨7, lkEdge lk0 e, ⟨0, 0xF8, 0⟩, t⟩
def inFlight (s : State) (f : Flight) : State :=
  focusOn { s with q := { s.q with flights := [f] } } (.subject (.num 7))
def landing_ (s : State) : Option (Flight × Consumer) :=
  (flightOf s 7).bind fun f => if s.ctl.focus == .subject (.num f.id) && nextOnEdge s f then some (f, consumerOf s f.edge) else none
/-- A record of die 0. -/
def faultRec0 : FaultRec := ⟨0, 0, 3, 2, 0, 0x20, 0, 0, tag0, 0, 0, 0, List.replicate 24 0⟩
def brake0 (accept node : Nat) (seen : List Nat) : BrakeMark := ⟨lk0, accept, tag0, 0, node, seen, false⟩
/-- A module with a draft region: node 2's brake port feeds edge 7 to node 1, which feeds node 7 by edges 1 and 4; edge 8 returns. -/
def draftMod : Module := { mod0 with
  nodes := mod0.nodes ++ [node 7 .stage]
  edges := [arc 0 0 0 1 0, arc 1 1 0 7 0, arc 4 1 1 7 1, arc 7 2 1 1 1, arc 8 7 0 2 0] }
def drafting : State :=
  let p : MapResult := { place0 with nodes := place0.nodes ++ [⟨7, ⟨0, 1, 0⟩⟩] }
  { base with la := ⟨[{ launch0 with module := some draftMod, place := some p }], [], []⟩ }

/-- 64 tokens of another tag in VPE 0's store, and a full pile. -/
def stored (pile : Bool) : Stored := ⟨vpe0, 0, { dataTok .f32 0 with tag := 0x2000000000000000#64 }, none, 1, 0, pile, false, false, false⟩
def pile0 : List Stored := List.replicate 64 (stored false) ++ List.replicate Config.pileTokens (stored true)
def piled (fs : List Flight) : State :=
  inFlight { wired base 3 with q := { base.q with flights := fs, store := pile0 } } (flight 0 (dataTok .f32 0))
/-- VPE 0 as a token finds it that has reached its input 0 (R22). -/
def viewAt (s : State) (f : Flight) : State :=
  let u := (burstArrival (landFlight s f) f.edge f.tok).1
  let c := if f.tok.kind = .data then countHead u vpe0 0 f.src else u
  if (arrivingOn u f.edge).1 = 0 ∧ (arrivingOn u f.edge).2.1 = false then unbindHead c vpe0 0 f.src else c
def unpiled : State := viewAt (piled []) (flight 0 (dataTok .f32 0))
theorem filter_pile0 (p : Stored → Bool) : pile0.filter p =
    (if p (stored false) then List.replicate 64 (stored false) else [])
      ++ if p (stored true) then List.replicate Config.pileTokens (stored true) else [] := by
  rw [pile0, List.filter_append, List.filter_replicate, List.filter_replicate]
theorem piled_full : placeToken unpiled vpe0 lk0 0 (dataTok .f32 0) none false false = none := by
  have hs : unpiled.q.store = pile0 := rfl
  have h1 : storeUsed unpiled vpe0 = 64 := by
    unfold storeUsed
    rw [hs, filter_pile0, if_pos (by decide), if_neg (by decide)]
    rfl
  have h2 : pileUsed unpiled vpe0 lk0 = Config.pileTokens := by
    unfold pileUsed
    rw [hs, filter_pile0, if_neg (by decide), if_pos (by decide +kernel), List.nil_append, List.length_replicate]
  have h3 : matchDone (enterArrival unpiled vpe0 0 (dataTok .f32 0) none false false false true) vpe0 tag0 0 (countOf unpiled vpe0 0 tag0 0 + 1) = false := by
    have hc : countOf (enterArrival unpiled vpe0 0 (dataTok .f32 0) none false false false true) vpe0 1 tag0 0 = 0 := rfl
    have hm : (vpeCfg (enterArrival unpiled vpe0 0 (dataTok .f32 0) none false false false true) vpe0).matchedInputs = [0, 1] := rfl
    unfold matchDone
    rw [hm, List.all_cons, List.all_cons, hc, decide_eq_false (Nat.not_succ_le_zero _), Bool.false_and, Bool.false_and, Bool.and_false, Bool.and_false]
  have hf : ∀ b, unpiled.q.filter.contains b = false := fun _ => rfl
  unfold placeToken
  simp only [hf, Bool.false_eq_true, if_false, show (dataTok Fmt.f32 0).tag = tag0 from rfl, show (dataTok Fmt.f32 0).seg = 0 from rfl, h3,
    Bool.false_and, h1, h2, Nat.lt_irrefl, show ¬ 64 < Config.matchEntries from by decide]

def kindTok (k : Kind) (ft : Fmt := .f32) (seg : BitVec 12 := 0) : Token := { dataTok ft 0 with kind := k, seg := seg }
/-- Its flight is the next on edge 0, for input 0 of VPE 0. -/
def comesToVpe (s : State) (p : Flight → Bool) : Bool :=
  (landing_ s).any fun x => (match x.2 with | .vpe k i => k == vpe0 && i == 0 && !portShut s k i | _ => false) && p x.1
theorem witness_TokensArrive :
    -- at a VPE: sealed, braked, HEAD, DATA, POISON, a segment's END
    (let s := inFlight (wired base) (flight 0 (kindTok .data))
     let sealed := { s with host := { s.host with seals := [vpe0] } }
     comesToVpe sealed (fun f => sealedAt sealed vpe0 && unitsFit (absorbTok (viewAt sealed f) 0 f.edge f.tok false))) = true
    ∧ (let s := inFlight (wired drafting) (flight 7 (kindTok .data))
       let s := setVpeCfg s vpe0 { vpeCfg s vpe0 with inloc := [2055, 0, 0, 0] }
       let s := { s with q := { s.q with brakes := [brake0 7 1 []] } }
       comesToVpe s (fun f => braked s f.edge f.tok && unitsFit (absorbTok (viewAt s f) 0 f.edge f.tok false))) = true
    ∧ ([kindTok .head .e4, kindTok .data, kindTok .note, kindTok .poison, kindTok .endOf .f32 5].all fun t =>
      let s := inFlight (wired base) (flight 0 t)
      comesToVpe s fun f => f.tok == t && !sealedAt s vpe0 && !braked s f.edge f.tok && storeUsed s vpe0 == 0
        && !poisonSeen s vpe0 t.tag (Machine.poisonOf t) && unitsFit s && unitsFit (vpePoison (viewAt s f) vpe0 lk0 f.edge f.tok)) = true
    -- a malformed HEAD that a HEAD supersedes; an END at the first of two matched inputs
    ∧ (let h : Token := { kindTok .head .e4 with payload := fill 0xFFFFFFFF }
       let s := inFlight (wired base) (flight 0 (kindTok .head .e4))
       let s := { s with q := { s.q with heads := [⟨vpe0, 0, ⟨0, 0xF8, 0⟩, h, 0⟩] } }
       comesToVpe s (fun f => (boundOf s vpe0 0 f.src).any (fun b => b.seen == 0 && !headOk b.head)
         && unitsFit (headPoison (viewAt s f) vpe0 lk0 0 h) && !sealedAt s vpe0 && !braked s f.edge f.tok)) = true
    ∧ (let s := inFlight (wired base 3) (flight 0 (kindTok .endOf))
       comesToVpe s (fun f => (loneHead s vpe0 0 f).isNone && s.q.ends.isEmpty && (vpeCfg s vpe0).matchedInputs == [0, 1] && unitsFit s)) = true
    ∧ (∃ s f, flightOf s f.id = some f ∧ s.ctl.focus = .subject (.num f.id) ∧ nextOnEdge s f = true ∧ consumerOf s f.edge = .vpe vpe0 0
      ∧ portShut s vpe0 0 = false ∧ sealedAt s vpe0 = false ∧ braked s f.edge f.tok = false ∧ f.tok.kind = .data
      ∧ placeToken (viewAt s f) vpe0 (ekLaunch f.edge) 0 f.tok (if fmtHeaded f.tok.ft then headOf s vpe0 0 f.src else none)
        (decide (f.tok.kind = .data) && ((burstArrival (landFlight s f) f.edge f.tok).2.2 || (headOf s vpe0 0 f.src).any fun h => !headOk h))
        (burstArrival (landFlight s f) f.edge f.tok).2.1 = none)
    -- at an edge buffer: taken, sealed
    ∧ ([[], [2]].all fun seals => let s := inFlight (wired base) (flight 1 (kindTok .data))
      let s := { s with la := ⟨[{ launch0 with sealed := seals }], [], []⟩ }
      (landing_ s).any fun x => x.2 == .tile tile0 0 && sealedConsumer s x.1.edge == (seals != []) && !braked s x.1.edge x.1.tok
        && unitsFit (absorbTok (burstArrival (landFlight s x.1) x.1.edge x.1.tok).1 (consumerStand s x.1.edge) x.1.edge x.1.tok false)) = true
    -- a request below and at 4096
    ∧ ([4095, 4096].all fun n => let s := inFlight (wired base) (flight 3 (kindTok .req))
      let s := { s with q := { s.q with reqs := [(lkEdge lk0 3, n)] } }
      (landing_ s).any fun x => (edgeRec s x.1.edge).any (fun e => e.permits == 0) && reqCount s x.1.edge == n
        && faultRoom s 0 && !faultRoom { s with host := { s.host with pendingFaults := List.replicate 64 faultRec0 } } 0) = true
    -- a brake at node 7's first of two front inputs, its element sealed or not
    ∧ ([[], [⟨0, 1, 0⟩]].all fun seals => let s := inFlight drafting (flight 1 (brakeToken tag0 0))
      let s := { s with q := { s.q with brakes := [brake0 7 2 []] }, host := { s.host with seals := seals } }
      let r := draftRegion (moduleEdges s lk0) 7
      (landing_ s).any fun x => brakeAccepts s x.1.edge x.1.tok == [7] && !r.returns.contains 1 && (launchLoops s lk0).isEmpty
        && frontInputs s lk0 r 7 == [1, 4] && sealedAt s ⟨0, 1, 0⟩ == (seals != [])
        && (launchOf s lk0).any fun l => l.whereIs 7 == some ⟨0, 1, 0⟩ && (edgeRec s x.1.edge).any fun e =>
          unitsFit (brakeAt (landFlight s x.1) l e x.1.tok 7)) = true
    -- a held token, and room
    ∧ (let s := focusOn { wired base with q := { base.q with held := [⟨vpe0, 0, kindTok .data, none, false, true⟩] } } (.subject (.elem vpe0))
       (launchAt s vpe0).isSome && decide (storeUsed s vpe0 < 64)) = true := by
  refine ⟨by decide +kernel, by decide +kernel, by decide +kernel, by decide +kernel, by decide +kernel, ⟨piled [flight 0 (dataTok .f32 0)], flight 0 (dataTok .f32 0), rfl, rfl, rfl,
    by decide +kernel, rfl, rfl, rfl, rfl, ?_⟩, by decide +kernel, by decide +kernel, by decide +kernel, by decide +kernel⟩
  exact piled_full

/-- A token of tag0 stands complete at input 0 of VPE 0, whose stage 0 sends on OUT0. -/
def matched : State :=
  let s := wired base
  let c := vpeCfg s vpe0
  let s := setVpeCfg s vpe0 { c with slots := [stageWord (.mov (sw none .lane .zero .zero .out0 0))], stages := 1 }
  focusOn { s with q := { s.q with store := [⟨vpe0, 0, kindTok .data, none, 1, 0, false, false, false, false⟩], counts := [⟨vpe0, 0, tag0, 0, 1⟩] } }
    (.subject (.ready vpe0 tag0 0))
def mayMatch (s : State) (p : Launch → Bool) : Bool := (launchAt s vpe0).any fun l => readyMatch s vpe0 tag0 0 == some 1 && p l
/-- The firing past its last stage. -/
def past (p : Option PoisonInfo) : State :=
  let f : Firing := ⟨7, vpe0, lk0, tag0, 0, 1, 0, [], [], [(0, kindTok .data)], [], p, false, [], [], [], [], 0⟩
  focusOn { matched with firings := [f] } (.subject (.num 7))
theorem witness_VpeFirings :
    -- no credit; sealed; another firing in stage 0; the clock's grant given; free to start
    mayMatch { matched with q := { matched.q with buffers := List.replicate 32 ⟨lkEdge lk0 1, kindTok .data, false, false⟩ } } (fun l =>
        (firingNeeds matched vpe0 l.key).any fun x =>
          credits { matched with q := { matched.q with buffers := List.replicate 32 ⟨lkEdge lk0 1, kindTok .data, false, false⟩ } } x.1 < x.2) = true
    ∧ mayMatch { matched with host := { matched.host with seals := [vpe0] } } (fun _ => true) = true
    ∧ mayMatch { matched with firings := (inStage (.nop w3) []).firings } (fun _ =>
        (inStage (.nop w3) []).firings.any fun f => vpeWide f.vpe = vpeWide vpe0 && f.stage == 0) = true
    ∧ (let s := setSlotTable matched 0 0 { slotTable matched 0 0 with served := 1 }
       mayMatch s fun _ => (grant s vpe0 (Machine.mayFire s)).isNone) = true
    ∧ mayMatch matched (fun _ => (startFiring matched vpe0 tag0 0).isSome && (grant matched vpe0 (Machine.mayFire matched)).isSome) = true
    -- complete, with a token and with poison
    ∧ ([none, some ⟨pPERM, 0, 0, 0⟩].all fun p => let s := past p
      (firingOf s 7).any fun f => f.poison == p && decide ((vpeCfg s f.vpe).stages ≤ f.stage) && s.firings == [f]
        && (namedPorts (vpeCfg s f.vpe) (vpeCfg s f.vpe).stages == [0]) && !owedBefore s.q.owed (lkEdge lk0 1) vpe0 0
        && unitsFit (completeFiring s f) && s.q.ends.isEmpty) = true := by decide +kernel

/-! ### Executions, the frontier -/

/-- Thread token 1 waits at the entry of block b; block 0 holds HALT; the tile in focus. -/
def waiting_ (b : Nat) (sched : Sched) (i : Instr := .halt (bw .nowhere .w64 0)) : State :=
  let s := reThread (inBlock i) fun t => { t with at_ := .queued 5, block := b }
  focusOn (setSched { s with tiles := { s.tiles with execs := [] } } tile0 sched) (.subject (.elem tile0))
/-- The execution has fired its instruction and has this control; it ended a clock ago. -/
def fired (i : Instr) (c : Option Control) : State :=
  let s := focusOn (reExec (inBlock i) fun x => { x with fired := [0], control := c, ended := some 4 }) (.subject (.num 2))
  { s with ctl := { s.ctl with clock := 5 } }
def calling : State :=
  let s := reExec (inBlock (.ecall (bW 7))) fun x => { x with fired := [0], waits := [⟨0, []⟩] }
  { s with tiles := { s.tiles with ecalls := [(tile0, 2)] } }
def opened (s : State) (b : Nat) : Bool :=
  tileOpen s tile0 && tileActs s tile0 && choiceDue s tile0 && (lateBlocks s tile0).isEmpty && (queueOf s tile0 b).length == 1 && queuedOn s tile0 == queueOf s tile0 b
def readsEnd (s : State) (th : Thread) : Bool :=
  match loadBlock s th.tile th.block with
  | .ok b => (readEntries (newExec s s.ctl.nextId th) b th.g).2
  | .error _ => false

theorem witness_BlockExecutions :
    -- a choice, by length and by age, of a block that loads and of one that does not
    ([Sched.initial, ⟨none, 0, [], [0], []⟩].all fun c => opened (waiting_ 0 c) 0 && blockRefusal (waiting_ 0 c) tile0 0 == none) = true
    ∧ (opened (waiting_ 6 .initial) 6 && (blockRefusal (waiting_ 6 .initial) tile0 6).isSome
      && (oldestQueued (waiting_ 6 .initial) tile0 6).any fun th => poisonRoom (waiting_ 6 .initial) th 0) = true
    -- past 4,096 clocks
    ∧ (let s := waiting_ 0 ⟨none, 0, [(0, 0)], [], []⟩
       let s := focusOn { s with ctl := { s.ctl with clock := 4097 } } (.subject (.elemAt tile0 0))
       lateBlocks s tile0 == [(0, 0)]) = true
    -- the 64th execution in a row, and a 65th
    ∧ ([63, 64].all fun n => let s := waiting_ 0 ⟨some 0, n, [], [], []⟩
      tileOpen s tile0 && tileActs s tile0 && (oldestQueued s tile0 0).any (fun th => readsEnd s th) && blockRefusal s tile0 0 == none
        && (schedOf s tile0).run == n) = true
    -- an execution that has not ended; ended with a transfer and with HALT
    ∧ (let s := focusOn (inBlock (.halt (bw .nowhere .w64 0))) (.subject (.num 2))
       (execOf s 2).any fun x => match loadBlock s x.tile x.block with | .ok b => !execEnded x b && !allSettled x b | _ => false) = true
    -- all fired, and no control instruction among them
    ∧ (let s := fired (.nopBlock (bw .nowhere .w64 0)) none
       (execOf s 2).any fun x => match loadBlock s x.tile x.block with
         | .ok b => allSettled x b && x.control.isNone && abortRoom s x && (threadOf s x.thread).isSome | _ => false) = true
    ∧ ([(Instr.bri (bw .nowhere .w64 5), Control.goto 5 false), (.halt (bw .nowhere .w64 0), .halt)].all fun c => let s := fired c.1 (some c.2)
      (execOf s 2).any fun x => (threadOf s x.thread).any fun th => match loadBlock s x.tile x.block with
        | .ok b => execEnded x b && !th.speculative && x.leaving.isEmpty && x.spawns.isEmpty && x.taken.isEmpty && x.stores.isEmpty
            && x.sysw.isEmpty && commitReady s x th b && commitTurn s x && unitsFit (commitExec s x th b) && th.guard == 0 && s.q.bursts.isEmpty
        | _ => false) = true
    -- another execution of the tile has ended before it
    ∧ (let s := fired (.halt (bw .nowhere .w64 0)) (some .halt)
       let s := { s with tiles := { s.tiles with execs := s.tiles.execs.flatMap fun x => [{ x with ended := some 1 }, { x with id := 9, ended := some 0 }] } }
       (execOf s 2).any fun x => !commitTurn s x && (threadOf s x.thread).any fun th => match loadBlock s x.tile x.block with
         | .ok b => execEnded x b && commitReady s x th b
         | _ => false) = true
    -- a tile that runs, and an idle one with a segment
    ∧ tileIdle (focusOn (inBlock (.halt (bw .nowhere .w64 0))) (.subject (.elem tile0))) tile0 = false
    ∧ (let s := reThread (asSegment (waiting_ 0 .initial)) fun t => { t with at_ := .deck }
       tileIdle s tile0 && !reporting s 0 0x20 && (deckFirst s tile0).any fun th => th.uid == 1 && blockRefusal s tile0 0 == none && readsEnd s th) = true
    ∧ (let s := reThread (asSegment (waiting_ 6 .initial)) fun t => { t with at_ := .deck }
       tileIdle s tile0 && !reporting s 0 0x20 && (deckFirst s tile0).any fun th => th.uid == 1 && (blockRefusal s tile0 6).isSome) = true
    -- no ECALL, and one
    ∧ aget base.tiles.ecalls tile0 = none
    ∧ (aget calling.tiles.ecalls tile0 == some 2 && (launchAt calling tile0).any (fun l => l.key == lk0)
        && (execOf calling 2).any fun x => x.waits == [⟨0, []⟩] && (match loadBlock calling x.tile x.block with
          | .ok b => b.instrs[0]? == some (.ecall (bW 7))
          | _ => false)
          && (binfo (.ecall (bW 7))).any fun f => freeTarget x f.t0 && freeTarget x f.t1 && f.t0 != f.t1) = true := by decide +kernel

/-- A count of 1 at edge 1, tag0. -/
def one_ : Delta := ⟨1, tag0, 1⟩
def frontier (f : Front → Front) (clock : Nat) (x : Subject) : State :=
  let s := { base with fr := f base.fr }
  focusOn { s with ctl := { s.ctl with clock := clock } } (.subject x)
def landing0 (counts : List Delta) (reqs : List Request) : Landing := ⟨lk0, counts, [⟨1, 2, 0, 0, [0]⟩], [], reqs, []⟩
/-- A request of VPE 0 for edge 2, tag0, due at update 3. -/
def noteReq : Request := ⟨7, 2, tag0, 4, vpe0, some 3, false, false⟩
def mayNote (counts : List Delta) (p : Launch → Landing → Bool) : Bool :=
  let s := frontier (fun f => { f with landings := [landing0 counts [noteReq]] }) 0 (.num 7)
  (s.fr.landings.find? fun x => x.requests.any fun q => q.id == 7).any fun x =>
    x.requests.find? (fun q => q.id == 7) == some noteReq && (launchOf s x.launch).any fun l => p l x && l.state == .running
theorem witness_FrontierFlow :
    -- a flush by age and by changes; an empty table
    ([(64, []), (0, List.replicate 16 (1, tag0))].all fun x =>
      let s := frontier (fun f => { f with units := [⟨0, lk0, [one_], [], x.2, 0, 5⟩] }) x.1 (.launchAt lk0 0)
      let u := unitOf s 0 lk0
      s.fr.units.any (unitMine 0 lk0) && u.table ++ u.spill != [] && hubAccepts s 0
        && (decide (u.flushed + (flushCfg s 0).1 ≤ s.ctl.clock) || decide ((flushCfg s 0).2 ≤ u.changed.length))) = true
    ∧ (let s := frontier (fun f => { f with units := [⟨0, lk0, [], [], [], 0, 5⟩] }) 64 (.launchAt lk0 0)
       s.fr.units.any (unitMine 0 lk0) && (unitOf s 0 lk0).table ++ (unitOf s 0 lk0).spill == []) = true
    -- a hub whose buffer does not fit the batch that waits
    ∧ (let s := frontier (fun f => { f with
         batches := [⟨lk0, 63, 0, [one_], 0⟩], hubs := [⟨0, lk0, (List.range 256).map fun i => ⟨2 + i, tag0, 1⟩, [], 0, 0, 1⟩]
         units := [⟨0, lk0, [one_], [], [], 0, 5⟩] }) 64 (.launchAt lk0 63)
       let h := hubOf s 0 lk0
       !hubAccepts s 0 && h.merged != 0 && decide (Config.hubEntries < (netAll h.buf [one_]).length) && s.fr.units.any (unitMine 0 lk0)
         && (s.fr.batches.find? fun b => decide (b.launch = lk0) && b.from_ == 63 && b.sq == agetD h.expect 63 0).isSome) = true
    -- a batch that alone is larger than the buffer
    ∧ (let s := frontier (fun f => { f with batches := [⟨lk0, 511, 0, (List.range 257).map fun i => ⟨2 + i, tag0, 1⟩, 0⟩] }) 0 (.launchAt lk0 511)
       let h := hubOf s (511 / 64) lk0
       h.merged == 0 && hubOthers s 7 lk0 == 0 && decide (Config.hubEntries < (netAll h.buf ((List.range 257).map fun i => ⟨2 + i, tag0, 1⟩)).length)
         && (s.fr.batches.find? fun b => decide (b.launch = lk0) && b.from_ == 511 && b.sq == agetD h.expect 511 0).isSome) = true
    -- the last stand's batch, into an empty buffer and into one with an entry
    ∧ ([[], [one_]].all fun buf =>
      let s := frontier (fun f => { f with batches := [⟨lk0, 511, 0, [one_], 0⟩], hubs := [⟨7, lk0, buf, [], 0, 0, 0⟩] }) 0 (.launchAt lk0 511)
      let h := hubOf s (511 / 64) lk0
      (s.fr.batches.find? fun b => decide (b.launch = lk0) && b.from_ == 511 && b.sq == agetD h.expect 511 0).isSome
        && h.buf == buf && decide (hubOthers s 7 lk0 + (netAll h.buf [one_]).length ≤ Config.hubEntries)) = true
    -- a merge after 64 clocks, and none
    ∧ ([0, 1].all fun m => let s := frontier (fun f => { f with hubs := [⟨7, lk0, [one_], [], 0, 0, m⟩] }) 64 (.launchAt lk0 0xFE07)
      (hubOf s 7 lk0).merged == m && decide ((hubOf s 7 lk0).forwarded + Config.mergeCycles ≤ s.ctl.clock)) = true
    -- a merge that fits, and one past the table's size
    ∧ ([1, 0].all fun cap =>
      let s := frontier (fun f => { f with merges := [⟨lk0, 0xFE00, 0, [one_], 1⟩], landings := [landing0 [] []] }) 0 (.launchAt lk0 0)
      let s := { s with la := ⟨[{ launch0 with place := some { place0 with landingCap := cap } }], [], []⟩ }
      (landingOf s lk0).any fun x => (launchOf s lk0).any fun l =>
        (s.fr.merges.find? fun b => decide (b.launch = lk0) && b.from_ == 0xFE00 + 0 && b.sq == agetD x.expect 0 0) == some ⟨lk0, 0xFE00, 0, [one_], 1⟩
          && decide ((netAll x.counts [one_]).length ≤ (l.place.map (·.landingCap)).getD 0) == (cap == 1)) = true
    -- a note that a count at edge 1 holds back, and one that is due
    ∧ (mayNote [one_] fun l x => (reachable l.widths x 2).any fun cs => coordsLe cs (coords l.widths tag0)) = true
    ∧ (mayNote [] fun l x => deliverable l.widths x noteReq && !sealedAt base vpe0 && requestFt base lk0 noteReq == some .f32) = true
    ∧ (let s := { base with la := ⟨[{ launch0 with module := some { mod0 with edges := mod0.edges.map fun e => { e with ft := .i32 } } }], [], []⟩ }
       requestFt s lk0 noteReq == some .i32 && requestFt (setVpeCfg s vpe0 { vpeCfg s vpe0 with outloc := [4, 1], outfmt := 0x0001 }) lk0 noteReq
         == some (Fmt.ofCode 1)) = true
    -- one that has been delivered
    ∧ (let s := frontier (fun f => { f with landings := [landing0 [] [{ noteReq with delivered := true }]] }) 0 (.num 7)
       (s.fr.landings.find? fun x => x.requests.any fun q => q.id == 7).any fun x => x.requests.any fun q => q.delivered) = true
    -- a shadow of epoch 3 that a count of epoch 0 holds back, and one that is due
    ∧ ([[one_], []].all fun counts =>
      let s := frontier (fun f => { f with shadows := [⟨0, 0, 3, fNX, [], []⟩], landings := [landing0 counts []] }) 0 (.elemAt vpe0 3)
      (s.fr.shadows.find? (shadowMine 0 0 3)).isSome && (launchOn s 0 0).any fun l => passedEverywhere s l 3 == counts.isEmpty) = true := by
  decide +kernel

/-! ### Ports, launches, the host -/

/-- Partition 0's interface runs; die 0 is its. -/
def runs (s : State) (tdi : Tdi := .run) : State :=
  { s with host := { (paged s).host with parts := (paged s).host.parts.map fun p => { p with tdi := tdi } } }
def in1 : PortKey := ⟨0, 1⟩
/-- Port 1 as ingress, and as egress port; launch 0 changed. -/
def withIn (s : State) (f : Ingress → Ingress) : State := setIngress s (f (ingressAt s in1))
def withOut (s : State) (f : Egress → Egress) : State := setEgress s (f (egressAt s in1))
def reLaunch (s : State) (f : Launch → Launch) : State := { s with la := ⟨[f launch0], [], []⟩ }
def opensPort (s : State) : Bool := match portGate s in1 with | .open_ l e => l.key == lk0 && e.num == 0 && (launchOf s lk0).isSome | _ => false
def portIs (s : State) (p : Ingress → Launch → Bool) : Bool :=
  partRuns s 0 && (ingressLaunch s in1).any fun l => (l.ingressEdge 1).any (fun e => e.num == 0) && launchOf s l.key == some l
    && unitRoom s (portKey s l 0 0xF8).stand 4 && p (ingressAt s in1) l
/-- The egress port has 4 slots, `wr` written, and this token waits at it. -/
def takesOut (wr : Nat) (k : Kind) : State :=
  let s := withOut (runs base) fun p => { p with slots := 4, wr := wr, bufbase := 0x1000 }
  focusOn { s with q := { s.q with buffers := [⟨lkEdge lk0 2, kindTok k, false, false⟩] } } (.subject (.edge (lkEdge lk0 2)))
/-- A queue entry of position 0, sequence 0, layer 2 of an area at 0x20000, which is DEFERRED. -/
def bfEntry (claim : Option Nat) (delivered : Bool) : BfEntry :=
  ⟨7, 0, 0x20000, 0, 0, 2, 2, tag0, none, 1, lk0, 0, claim, delivered, true, [0x20000, 1, 1, 3, 0, 128, 0, 0, 0, 0]⟩
def backfilling (e : BfEntry) (order : List Nat) : State :=
  let s := reLaunch (paged (runs base)) fun l => { l with bfport := some 1 }
  focusOn { s with eng := { s.eng with backfill := [e], claimOrder := order }, mem := { s.mem with hbm := [(hbmAt 0x10000, 0x20#8)] } }
    (.subject (.num 7))
/-- The launch's counts are empty. -/
def counted_ (s : State) : State := { s with fr := { s.fr with landings := [landing0 [] []] } }

theorem witness_PortsAndSkidder :
    opensPort (runs base) = true
    -- a port of no launch, and an interface that does not run
    ∧ (ingressLaunch (runs base) ⟨0, 2⟩).isNone = true ∧ partRuns base 0 = false
    ∧ (let s := setIngress (runs base) { ingressAt (runs base) ⟨0, 0⟩ with record := List.replicate 255 0 }
       partRuns s 0 && decide ((ingressAt s ⟨0, 0⟩).record.length < 256)) = true
    -- an epoch below the last, and the last of a level of 24 bits
    ∧ ([2 ^ 24 - 2, 2 ^ 24 - 1].all fun n => portIs (withIn (runs base) fun q => { q with epoch := n }) fun q l =>
      !q.ended && !q.stopped && l.bfport != some 1 && q.epoch == n && decide (q.epoch + 1 < 2 ^ levelWidth l.widths 0) == (n == 2 ^ 24 - 2)
        && !l.sealed.contains 0 && decide (q.buf.length < 256)) = true
    ∧ portIs (withIn (runs base) fun q => { q with buf := List.replicate 256 (kindTok .data) }) (fun q l =>
      !q.ended && !q.stopped && l.bfport != some 1 && decide (256 ≤ q.buf.length)) = true
    -- no backfill port; a backfill port with an entry, and with none
    ∧ (portIs (focusOn (runs base) (.subject (.port in1))) fun _ l => l.bfport != some 1) = true
    ∧ (portIs (focusOn (backfilling (bfEntry none false) []) (.subject (.port in1))) fun _ l => l.bfport == some 1) = true
    ∧ (let s := focusOn (reLaunch (runs base) fun l => { l with bfport := some 1 }) (.subject (.port in1))
       portIs s fun q l => l.bfport == some 1 && !q.ended && (l.ingressEdge 1).any (fun e => unitsFit (closeEpoch s l in1 e true))
        && l.ingressPorts == [1] && l.state == .running && l.gated == none && decide (q.buf.length < 256)) = true
    -- an egress port with no free slot, and with one, for DATA and for POISON
    ∧ ([4, 3].all fun wr => [Kind.data, .poison].all fun k => let s := takesOut wr k
      let p := egressAt s in1
      consumerOf s (lkEdge lk0 2) == .egress in1 && (oldest s (lkEdge lk0 2)).any (fun b => b.tok.kind == k && !b.bad)
        && p.free == (wr == 3) && p.due.isEmpty && !p.checks && p.again.isEmpty && s.mem.host.wf
        && (launchOf s lk0).any fun l => unitRoom s (portKey s l ((l.portNode .egress 1).getD 0) 0xF9).stand 1) = true
    -- slots that are due; an armed port whose epoch has passed, and has not
    ∧ (let s := withOut (focusOn (runs base) (.subject (.port in1))) fun p => { p with slots := 1, due := [(0, slotBytes (kindTok .data))] }
       !(egressAt s in1).due.isEmpty && (egressAt s in1).free) = true
    ∧ ([[⟨2050, tag0, 1⟩], []].all fun counts =>
      let s := withOut (focusOn (runs base) (.subject (.port in1))) fun p => { p with reqv := true }
      let s := { s with fr := { s.fr with landings := [landing0 counts []] } }
      (egressLaunch s in1).any fun l => (partOf s 0).isSome && portPassed s l 1 0 == counts.isEmpty && (egressAt s in1).due.isEmpty) = true
    -- an entry that is claimed already, and one that may be
    ∧ (let e := bfEntry (some 2) false
       (backfilling e [7]).eng.backfill.find? (fun x => x.id == 7) == some e && !mayClaim (backfilling e [7]) e) = true
    ∧ (let e := bfEntry none false
       mayClaim (backfilling e []) e && (match mapAct (backfilling e []) ⟨⟨0, 0xFB, 0⟩, lk0, tag0⟩ 0x20000 [2] .claim with
         | .ok _ bs _ => kvField (leNat bs) 2 == 2
         | _ => false)) = true
    -- a claim to deliver
    ∧ (let e := bfEntry (some 2) false
       let s := backfilling e [7]
       s.eng.claimOrder.find? (fun i => s.eng.backfill.any fun x => x.id == i && decide (x.launch = e.launch) && !x.delivered) == some 7
         && (launchOf s lk0).any fun l => l.portNode .ingress 1 == some 0 && (l.ingressEdge 1).isSome
           && unitRoom s (portKey s l 0 0xF8).stand 1 && decide ((ingressAt s in1).buf.length < 256)) = true
    -- a launch that may not end, and one that ends
    ∧ ([false, true].all fun done => let s := withIn (counted_ (focusOn (runs base) (.subject (.launch lk0)))) fun q => { q with ended := done }
      (launchOf s lk0).any fun l => l.state == .running && l.allEnded s == done && (!done || (quiescent s l && !mergesDue s l
        && mergesDue { s with fr := { s.fr with shadows := [⟨0, 0, 3, fNX, [], []⟩] } } l))
        && l.egressPorts.all fun p => (egressAt s ⟨0, p⟩).held.isEmpty && (egressAt s ⟨0, p⟩).due.isEmpty) = true := by decide +kernel

/-- The system port's record: kind, launch number, ports, nothing else. -/
def sysRecord (kind number iport eport bf : Nat) : List Lanes :=
  [leLanes (List.replicate 12 0 ++ bytesOf number 2 ++ bytesOf kind 1 ++ bytesOf iport 1 ++ bytesOf eport 1 ++ bytesOf bf 1), 0, 0]
/-- It stands at port 0 of the running partition 0, in focus; launch 0 changed. -/
def asked (r : List Lanes) (f : Launch → Launch) : State :=
  let s := reLaunch (runs base) f
  focusOn (setIngress s { ingressAt s ⟨0, 0⟩ with record := r }) (.subject (.num 0))
def asks (kind : Nat) (f : Launch → Launch) (p : Launch → Bool) : Bool :=
  let s := asked (sysRecord kind 0 0 0 0) f
  partRuns s 0 && controlFree s 0 && (launchOf s lk0).any (fun l => l.key == lk0 && p l)
    && (systemRecord s 0).any fun r => r.kind == kind && r.number == 0 && r.bare
def ofLaunch0 (f : Launch → Launch) (clock : Nat := 0) : State :=
  let s := focusOn (counted_ (reLaunch (paged (runs base)) f)) (.subject (.launch lk0))
  { s with ctl := { s.ctl with clock := clock } }
def image0 (l : Launch) (written : List Byte) (digest : BitVec 512) : Image :=
  { imageNow (ofLaunch0 fun _ => l) l mod0 place0 with written := written, digest := digest }
def saving (f : Launch → Launch) (im : Image) : State :=
  let s := ofLaunch0 f
  { s with la := { s.la with images := [im] } }

theorem witness_LaunchStates_new :
    -- the last launch number and the last ports; record kinds below and above
    ([(1, 63)].all fun x => let s := asked (sysRecord 1 0xFE x.1 x.2 0xFF) id
      let u := dropRecord s 0
      (partOf s 0).any (fun p => p.tdi == .run && !p.stopping) && controlFree s 0 && (systemRecord s 0).any fun r =>
        let m := (peekVa u 0 (recNat r.bytes 0 8) (recNat r.bytes 8 4)).bind moduleOf
        let l := newLaunch u 0 r m
        r.kind == 1 && recZero r.bytes 18 2 && recZero r.bytes 40 24 && r.number == 0xFE && (launchOf s ⟨0, 0xFE⟩).isNone
          && l.iport == 1 && l.eport == 63 && l.ingressPorts.all (fun q => decide (q ≤ 63)) && l.egressPorts.all (fun q => decide (q ≤ 63))
          && !portClash u 0 l.ingressPorts l.egressPorts && l.bfport == none) = true
    ∧ ([0, 5].all fun k => let s := asked (sysRecord k 0 0 0 0) id
      (partOf s 0).any (fun p => p.tdi == .run && !p.stopping) && controlFree s 0 && (systemRecord s 0).any fun r => r.kind == k) = true := by decide +kernel
def grants (f : Launch → Launch) (dies : BitVec 8) (p : Launch → Bool) : Bool :=
  let s := ofLaunch0 f
  (launchOf s lk0).any fun l => (partOf s 0).any (fun q => dies &&& ~~~q.dies == 0)
    && decide ((l.module.map (·.minDies)).getD 1 ≤ bitCount dies) && decide (bitCount dies ≤ (l.module.map (·.maxDies)).getD 8)
    && s.la.launches.all (fun x => !x.waitsDies || !(x.key.part == 0) || decide (l.order ≤ x.order)) && p l
/-- A module of one edge from port to port, which places nothing. -/
def mod1 : Module := { mod0 with nodes := [node 0 .ingress, node 6 .egress], edges := [arc 0 0 0 6 0], regions := [] }
def place1 : MapResult := { place0 with nodes := [], regions := [] }
theorem witness_LaunchStates_dies :
    grants (fun l => { l with state := .waiting }) 1 (fun l => l.state == .waiting) = true
    ∧ (let f := fun (l : Launch) => { l with state := .saved, resumed := true, dies := 1, module := some mod1, place := some place1 }
       grants f 1 (fun l => l.state == .saved && l.resumed && l.dies == 1 && !l.reshape && l.module == some mod1 && l.place == some place1
         && placementOk (ofLaunch0 f) l mod1 place1)) = true
    ∧ grants (fun l => { l with state := .saved, resumed := true, dies := 3 }) 1 (fun l => l.state == .saved && l.resumed && !l.reshape
        && !l.atStep && bitCount (1 : BitVec 8) != bitCount l.dies) = true
    ∧ grants id 1 (fun l => l.state == .running && (l.module.bind (·.step)).isSome) = true := by decide +kernel
/-- Its summaries are kept at 0x20000. -/
def place2 : MapResult := { place1 with sumsAt := 0x20000, streamAt := 0x20000 }
def mapping1 : Launch := { launch0 with state := .mapping, dies := 1, place := none, module := some mod1 }
/-- mod1's placement is kept under a key. -/
def withCache (s : State) (c : List MapEntry) : State := { s with la := { s.la with cache := c } }
def kept (key : BitVec 512) : State := withCache (ofLaunch0 fun _ => mapping1) [⟨0, entryBytes key place2 0, place2, 0⟩]
theorem launchOf_cached (s : State) (c : List MapEntry) (k : LKey) : launchOf (withCache s c) k = launchOf s k := rfl
theorem placementOk_cached (s : State) (c : List MapEntry) (l : Launch) (m : Module) (r : MapResult) :
    placementOk (withCache s c) l m r = placementOk s l m r := by
  unfold placementOk
  rfl
theorem leNat_leBytes : ∀ n v : Nat, leNat (leBytes n v) = v % 256 ^ n
  | 0, v => by simp [leBytes, leNat, Nat.mod_one]
  | n + 1, v => by
    have h : 256 ^ (n + 1) = 256 * 256 ^ n := Nat.pow_succ'
    rw [leBytes, leNat, leNat_leBytes n, BitVec.toNat_ofNat, h, Nat.mod_mul]
theorem kept_holds (key : BitVec 512) (r : MapResult) (n stamp : Nat) : (MapEntry.mk 0 (entryBytes key r n) r stamp).holds 0 key = true := by
  have h : recNat (entryBytes key r n) 0 64 = key.toNat := by
    have hk : (entryBytes key r n).take 64 = leBytes 64 key.toNat := rfl
    unfold recNat
    rw [List.drop_zero, hk, leNat_leBytes, show (256 : Nat) = 2 ^ 8 from rfl, ← Nat.pow_mul]
    exact Nat.mod_eq_of_lt key.isLt
  simp [MapEntry.holds, h]
theorem kept_cached (key : BitVec 512) : cachedMap (kept key) 0 key mod1 = cachedMap (kept 0) 0 0 mod1 := by
  have hc : ∀ k, (kept k).la.cache = [⟨0, entryBytes k place2 0, place2, 0⟩] := fun _ => rfl
  have hp : ∀ s a, peekVa s 0 a 0 = some [] := fun _ _ => rfl
  have hg : ∀ k, recNat (entryBytes k place2 0) 64 8 = 0x20000 ∧ recNat (entryBytes k place2 0) 72 4 = 0 ∧ recNat (entryBytes k place2 0) 76 4 = 0
      ∧ recNat (entryBytes k place2 0) 80 8 = 0x20000 ∧ recNat (entryBytes k place2 0) 88 4 = 0 ∧ recNat (entryBytes k place2 0) 92 4 = 1024 :=
    fun _ => ⟨rfl, rfl, rfl, rfl, rfl, rfl⟩
  have hf : ∀ k, [MapEntry.mk 0 (entryBytes k place2 0) place2 0].find? (fun e => e.holds 0 k) = some ⟨0, entryBytes k place2 0, place2, 0⟩ :=
    fun _ => List.find?_cons_of_pos (kept_holds ..)
  unfold cachedMap
  rw [hc key, hc 0, hf, hf]
  simp only [Option.bind_some, hg, Nat.mul_zero, hp]
theorem witness_LaunchStates_cached : launchOf (kept (mappingKey mod1 1)) lk0 = some mapping1
    ∧ (cachedMap (kept (mappingKey mod1 1)) 0 (mappingKey mod1 mapping1.dies) mod1).any (fun x =>
      placementOk (kept (mappingKey mod1 1)) mapping1 mod1 x.1 && decide (x.1.boundKB ≤ mapping1.saveKB)) = true := by
  have h0 : launchOf (kept 0) lk0 = some mapping1
      ∧ (cachedMap (kept 0) 0 0 mod1).any (fun x => placementOk (kept 0) mapping1 mod1 x.1 && decide (x.1.boundKB ≤ mapping1.saveKB)) = true := by
    decide +kernel
  have h1 : ∀ key : BitVec 512, launchOf (kept key) lk0 = some mapping1
      ∧ (cachedMap (kept key) 0 key mod1).any (fun x => placementOk (kept key) mapping1 mod1 x.1 && decide (x.1.boundKB ≤ mapping1.saveKB)) = true := by
    intro key
    rw [kept_cached key]
    simp only [kept, launchOf_cached, placementOk_cached] at h0 ⊢
    exact h0
  exact h1 _
theorem witness_LaunchStates_mapping :
    -- no cached result; a save area that is large enough, and one that is a KiB short
    ([29, 28].all fun kb => let s := ofLaunch0 fun _ => { mapping1 with saveKB := kb }
     let place1 := { place1 with boundKB := 29 }
     (launchOf s lk0).any fun l => l.state == .mapping && l.module == some mod1 && (summariesOf mod1 place1).isSome && l.dies == 1
       && (cachedMap s 0 (mappingKey mod1 l.dies) mod1).isNone && burstsFit mod1 && placementOk s l mod1 place1 && streamBuilds s l mod1 place1
       && decide (place1.boundKB ≤ l.saveKB) == (kb == 29) && mod1.deadlineEdge.isNone) = true
    -- whole bursts of more than eight tokens
    ∧ (let m : Module := { mod1 with
         nodes := mod1.nodes ++ [{ node 1 .stage with code := [0x0000010000000000#64, stageWord (.odot4 (sw none (.inp 0) (.inp 1) (.l 0) (.l 0) 0))] }]
         edges := [{ arc 0 0 0 1 0 with burst := 9 }] }
       !burstsFit m) = true
    ∧ (let s := ofLaunch0 fun l => { l with state := .mapping, module := none }
       (launchOf s lk0).any fun l => l.state == .mapping && l.module == none) = true := by decide +kernel
theorem witness_LaunchStates_loading : ([false, true].all fun bad => let s := ofLaunch0 fun l => { l with state := .loading, cfgBad := bad }
    (launchOf s lk0).any fun l => l.state == .loading && l.module == some mod0 && l.place == some place0 && (landingOf s lk0).isSome
      && (imageOf s lk0).isNone && l.todo.isEmpty && (streamOf s l.key).staged.isEmpty && l.cfgBad == bad) = true := by decide +kernel
theorem witness_LaunchStates_records :
    asks 2 id (fun l => l.state == .running && l.preempt == none) = true ∧ asks 2 (fun l => { l with state := .ended }) (fun l => l.state == .ended) = true
    ∧ asks 3 (fun l => { l with state := .saved }) (fun l => l.state == .saved && !l.resumed) = true
    ∧ ([LState.running, .waiting, .saved, .draining].all fun st => asks 4 (fun l => { l with state := st }) fun l => l.state == st) = true := by
  decide +kernel
/-- The pre-emption deadline of partition 0, in clocks. -/
def pdl : Nat := pdeadlineClocks (ofLaunch0 id) 0
theorem witness_LaunchStates_gate :
    ([some 0, none].all fun pr => let s := ofLaunch0 fun l => { l with preempt := pr, module := some { mod0 with step := none } }
      (launchOf s lk0).any fun l => gateDue s l == pr.isSome && controlFree s 0 && unitsFit (gateLaunch s l (l.module.bind (·.step)).isSome)) = true
    ∧ ([pdl, pdl - 1].all fun c => let s := ofLaunch0 (fun l => { l with preempt := some 0 }) c
      (launchOf s lk0).any fun l => l.state == .running && l.gated == none && (l.module.bind (·.step)).isSome
        && controlFree s 0 && unitsFit (gateLaunch s l false) && decide (pdeadlineClocks s 0 ≤ s.ctl.clock) == (c == pdl)) = true := by decide +kernel
def restDrain (f : Launch → Launch) (c : Nat) (p : State → Launch → Bool) : Bool :=
  let s := ofLaunch0 (fun l => f { l with state := .draining, gated := some 0, saveAddr := 0x20000, saveKB := 64 }) c
  (launchOf s lk0).any fun l => l.state == .draining && controlFree s 0 && !(l.execs s).any (abandoned s) && (l.dirty s).isEmpty && p s l
theorem witness_LaunchStates_drain :
    restDrain (fun l => { l with killed := true }) 0 (fun s l => drained s l && l.killed) = true
    ∧ (let s := ofLaunch0 (fun l => { l with state := .draining, gated := some 0 }) pdl
       let s := { s with q := { s.q with flights := [flight 1 (kindTok .data)] } }
       (launchOf s lk0).any fun l => controlFree s 0 && !(l.execs s).any (abandoned s) && !drained s l && !l.killed
         && decide (pdeadlineClocks s 0 ≤ s.ctl.clock)) = true
    ∧ restDrain id (pdl - 1) (fun s l => drained s l && !l.killed && decide (s.ctl.clock < pdeadlineClocks s 0)) = true := by decide +kernel
theorem witness_LaunchStates_save :
    restDrain id 0 (fun s l => drained s l && !l.killed && (writeImage s l ((imageNow s l mod0 place0).bytes s l)).2 == none) = true := by
  decide +kernel
/-- An image of module 0 with no parts: its words of length, generation and digests, and nothing else. -/
def imageBytes : List Byte :=
  let tail := leBytes 64 mod0.digest.toNat ++ List.replicate 64 0
  leBytes 4 imageMagic ++ leBytes 4 1 ++ leBytes 8 0x100 ++ leBytes 64 (sha3 tail).toNat ++ List.replicate 48 0 ++ tail
/-- It stands in launch 0's save area, or zeros do; the launch loads after a RESUME. -/
def restoring (checked : Bool) (addr : Nat) : State :=
  saving (fun l => { l with state := .loading, saveAddr := addr, saveKB := 64, checked := checked }) (image0 launch0 [] 0)
def mayRestore (s : State) (p : Launch → Image → Bool) : Bool :=
  (launchOf s lk0).any fun l => (imageOf s lk0).any fun im => l.module == some mod0 && l.place == some place0 && l.state == .loading
    && controlFree s 0 && p l im
theorem witness_LaunchStates_restore :
    -- a page not present; zeros; a whole image
    mayRestore (restoring false 0x40000) (fun l _ => !l.checked && match readImage (restoring false 0x40000) l with | .error _ => true | _ => false) = true
    ∧ mayRestore (restoring false 0x20000) (fun l _ => !l.checked && match readImage (restoring false 0x20000) l with
        | .ok bs => !imageValid mod0.digest bs | _ => false) = true
    ∧ (let s := pokeVa (restoring false 0x20000) 0 0x20000 imageBytes
       mayRestore s fun l _ => !l.checked && match readImage s l with | .ok bs => bs == imageBytes && imageValid mod0.digest bs | _ => false) = true
    -- checked, its stream sent
    ∧ mayRestore (restoring true 0x20000) (fun l _ => l.checked && l.todo.isEmpty && (streamOf base l.key).staged.isEmpty && !l.cfgBad) = true := by
  decide +kernel

/-- One record waits in die 0's buffer; the queue of 64 entries at 0x20000 holds n. -/
def faulting (n : Nat) : State :=
  let s := paged (runs base)
  let s := { s with host := { s.host with
    parts := s.host.parts.map fun p => { p with fqsize := 64, fqbase := 0x20000, fqwr := BitVec.ofNat 32 n }
    pendingFaults := [faultRec0] } }
  focusOn s (.subject (.pair 0 0))
theorem witness_Containment :
    base.host.rests = []
    -- poison of a launch that is no more, and of one that runs
    ∧ ([5, 0].all fun n => let r : RestMark := ⟨⟨0, n⟩, 1, tag0, ⟨pPERM, 0, 0, 0⟩⟩
      let s := { base with host := { base.host with rests := [r] } }
      (r.members s).isSome == (n == 0) && (r.members s).all fun x =>
        unitsFit (sealNodes { s with host := { s.host with rests := [] } } x.1 x.2 r.tag r.info.code true)) = true
    -- a full queue, and its last free entry
    ∧ ([64, 63].all fun n => let s := faulting n
      s.host.pendingFaults.find? (fun r => r.die == 0 && r.part == 0) == some faultRec0 && (partOf s 0).any fun p =>
        decide (p.fqsize ≤ (p.fqwr - p.fqrd).toNat) == (n == 64)
          && (match (translate s (64 * landingDie s 0) 0 (p.fqbase + BitVec.ofNat 64 (64 * (p.fqwr.toNat % max 1 p.fqsize))) false true).2 with
            | .ok _ => true | _ => false)) = true
    -- a clean sector, the second of its line
    ∧ (let s := { base with mem := { base.mem with l2 := [line0] } }
       (lineOf s ((2 * 512 + 1) / 2)).any fun l => getAt l.valid 1 false && !getAt l.dirty 1 false && l.valid.length == 2 && unitsFit s) = true := by
  decide +kernel

def host_ (tdi : Tdi) (f : HostSide → HostSide := id) (session : Bool := true) : State :=
  let s := focusOn base (.subject (.num 0))
  let h : HostSide := { s.host with up := true, parts := s.host.parts.map fun p => { p with session := session, tdi := tdi } }
  { s with host := f h }
theorem witness_HostInterface :
    -- the last port, nothing held and something held
    ([[], [(0, tag0)]].all fun (xs : List (Byte × Tag)) => let k : PortKey := ⟨0, 63⟩
      let s := setEgress (runs base) { egressAt (runs base) k with held := xs }
      partRuns s 0 && (egressAt s k).held == xs) = true
    -- REQV at a port of no launch, after and before its epoch has passed
    ∧ (egressLaunch (runs base) ⟨0, 63⟩).isNone = true
    ∧ ([[⟨2050, tag0, 1⟩], []].all fun counts => let s := focusOn (runs base) (.subject (.port in1))
      let s := { s with fr := { s.fr with landings := [landing0 counts []] } }
      partRuns s 0 && (egressLaunch s in1).any fun l => (partOf s 0).isSome && portPassed s l 1 (egressAt s in1).reqEpoch == counts.isEmpty) = true
    -- the four interface states, and a control block that may be locked
    ∧ ([Tdi.unlocked, .locked, .run, .error].all fun t => (partOf (host_ t) 0).any fun p =>
      p.tdi == t && partOk (host_ t) p && (host_ t).host.up && p.session) = true
    -- FQRD moved to FQWR; HOLD of 4,096 bytes
    ∧ ((partOf (faulting 64) 0).any fun p => (64#32 - p.fqrd).toNat ≤ (p.fqwr - p.fqrd).toNat) = true
    ∧ ((partOf (runs base) 0).any fun p => p.tdi == .run) = true ∧ (egressAt (runs base) ⟨0, 63⟩).held = []
    -- a link's group with the next counter, with an old one, with a bad seal and bad checks; 16 failures and 15
    ∧ (linkOf base 3).any (fun x => x.up && x.lastRx == 0) = true ∧ (0 < (⟨1, true, true, 0, none⟩ : LinkGroup).counter)
    -- three groups sent, one of them accepted, the rest asked for again; the last counter a key has
    ∧ (let g : LinkGroup := ⟨1, true, true, 1, some 2⟩
       let x : SyivoPort := ⟨3, true, 0, 3, 0, 0, [1, 2, 3]⟩
       g.again = some 2 ∧ x.lastRx < g.counter ∧ (x.replay.filter fun n => decide (g.acked < n)) = [2, 3] ∧ x.tx + 2 < 2 ^ 48
         ∧ x.replay.length < 2 ^ 48 ∧ (linkOf (setLink base x) 3) = some x)
    ∧ (2 ^ 48 ≤ ({ (⟨3, true, 0, 2 ^ 48 - 1, 0, 0, []⟩ : SyivoPort) with up := true }).tx + 1)
    ∧ ([15, 16].all fun n => (linkOf base 3).any fun x => let s := focusOn (setLink base { x with failures := n }) (.subject (.num 3))
      (linkOf s 3).any fun y => y.up && y.failures == n && s.eng.commands.isEmpty && s.ord.nodes.isEmpty && unitsFit s
        && s.la.launches.all fun l => l.stands.all fun st => decide (st < 512)) = true
    -- STOP_INTERFACE with a launch that runs, and with one that drains
    ∧ ([LState.running, .draining].all fun st => let s := { host_ .run with la := ⟨[{ launch0 with state := st }], [], []⟩ }
      controlFree s 0 && (s.la.launches.map (·.key)).Nodup && s.la.launches.all fun l => l.key.part == 0 && (l.state == .draining) == (st == .draining)) = true
    ∧ State.reset.host.up = false := by decide +kernel

/-! ### Encodings, steps, memory -/

theorem witness_StageRoundTrip : wfStage (.ffma (sw (some .f32) (.inp 0) (.k 2) (.l 1) (.l 1) 0)) = true
    ∧ decodeStage nopWord = .ok (.nop (sw none .zero .zero .zero .nowhere 0)) := by decide +kernel
theorem witness_BlockRoundTrip : wfBlock (.fence ⟨.nowhere, .nowhere, .always, .plain, .sys, 0, false, 0, 0x0101#16⟩) = true
    ∧ decodeBlock 0xDB1037FC50320000#64 = .ok (.rnmax ⟨.p 1, .nowhere, .always, 5, 3, 0x20000#20⟩)
    ∧ wfConfig (.configCommand 0x20 1 0x0ABC) = true := by decide +kernel
/-- A pick of each kind. -/
def picks (what : Fetch) (s : State) : State := { s with ctl := { s.ctl with sched := [⟨3, what⟩] } }
theorem witness_StepRunsDecoded :
    (let i := Instr.mov (sw none (.s 1) .zero .zero .out0 0)
     let s := picks (.stage 0) (inStage i [])
     (ready s).1.what == .stage 0 && (firingOf (ready s).2 0).any fun f => decide (f.stage < (vpeCfg (ready s).2 f.vpe).stages)
       && (match decodeStage (slotWord (vpeCfg (ready s).2 f.vpe) f.stage) with | .ok j => j == i | _ => false)) = true
    ∧ (let i := Instr.halt (bw .nowhere .w64 0)
       let s := picks (.block 2 0) (inBlock i)
       let u := (ready s).2
       (ready s).1.what == .block 2 0 && (execOf u 2).any fun x => (headerOf u x.tile x.block).any fun h => decide (0 < h.icount)
         && (match decodeBlock (imemWord u x.tile (x.block + 4)) with | .ok j => j == i | _ => false)) = true
    ∧ (ready (picks (.command lk0 5) base)).1.what = .command lk0 5
    -- a launch that loads: the word of its stream, and another; a launch that is not there
    ∧ ([5, 6].all fun w => let s := { picks (.command lk0 w) base with la := ⟨[{ launch0 with state := .loading, todo := [5] }], [], []⟩ }
      (launchOf s lk0).any (fun l => l.state == .loading && (l.todo.head? == some w) == (w == 5))
        && ((ready s).1.what == .idle) == (w == 6)) = true
    -- one that resumes, its image checked or not
    ∧ ([true, false].all fun c => let s := picks (.command lk0 5) (saving (fun l => { l with state := .loading, todo := [5], checked := c }) (image0 launch0 [] 0))
      (launchOf s lk0).any (fun l => l.state == .loading && l.checked == c) && (imageOf s lk0).isSome && ((ready s).1.what == .idle) == !c) = true
    ∧ launchOf base ⟨0, 9⟩ = none
    ∧ (ready (picks (.event .seal .nothing) base)).1.what = .event .seal .nothing
    ∧ (let s := picks (.stage 9) base
       (ready s).1.what == .stage 9 && (firingOf (ready s).2 9).isNone) = true := by decide +kernel
/-- A step that is made: SEAL with nothing at rest. -/
theorem witness_MemoryStaysCanonical : base.mem.hbm.wf = true ∧ base.mem.scratch.wf = true ∧ base.mem.host.wf = true
    ∧ (match step (picks (.event .seal .nothing) base) with | .next t => t.ctl.clock == base.ctl.clock + 3 | _ => false) = true := by
  decide +kernel
/-- A word placed for the next step is the one it runs. -/
theorem test_fetch_word : (match step (State.reset.withFetchWord 64 0x840FFFFCE0000000) with | .next _ => true | _ => false) = true
    ∧ decodeTableWord 64 0x840FFFFCE0000000 = some (.halt (bw .nowhere .w64 0)) := by decide +kernel

end Sys2Proof.Tests
end

section
/-! PROOF. Stage words read back (R65 to R68, R74, R75): what a decoded word says of its fields, and that the table of OPC and FN
reads what the encoder writes. -/

namespace Sys2Proof

/-! ### Codes -/

theorem FCond.code_of_ofCode {n : Nat} {c : FCond} (h : FCond.ofCode n = some c) : c.code = n := by
  unfold FCond.ofCode at h
  split at h <;> cases h <;> rfl
theorem ICond.code_of_ofCode {n : Nat} {c : ICond} (h : ICond.ofCode n = some c) : c.code = n := by
  unfold ICond.ofCode at h
  split at h <;> cases h <;> rfl
theorem Pair.code_of_ofCode {n : Nat} {c : Pair} (h : Pair.ofCode n = some c) : c.code = n := by
  unfold Pair.ofCode at h
  split at h <;> cases h <;> rfl
theorem RedOp.code_of_ofCode {n : Nat} {c : RedOp} (h : RedOp.ofCode n = some c) : c.code = n := by
  unfold RedOp.ofCode at h
  split at h <;> cases h <;> rfl
theorem ScanOp.code_of_ofCode {n : Nat} {c : ScanOp} (h : ScanOp.ofCode n = some c) : c.code = n := by
  unfold ScanOp.ofCode at h
  split at h <;> cases h <;> rfl

/-- 0x0E alone is the source that reads 0 (R67). -/
theorem Src.ofCode_eq_zero_iff (c : BitVec 6) : Src.ofCode c.toNat = some .zero ↔ c = 0x0E#6 := by
  revert c; decide
/-- 0x07 alone is the destination that takes nothing (R67). -/
theorem Dst.ofCode_eq_nowhere_iff (c : BitVec 5) : Dst.ofCode c.toNat = some .nowhere ↔ c = 0x07#5 := by
  revert c; decide

theorem Rm.exists_ofCode {n : Nat} (h : n < 7) : ∃ m, Rm.ofCode n = some m := by
  interval_cases n <;> exact ⟨_, rfl⟩
theorem Pred.exists_ofCode {n : Nat} (h : n < 6) : ∃ p, Pred.ofCode n = some p := by
  interval_cases n <;> exact ⟨_, rfl⟩

/-! ### Fields of a word -/

section
variable {n : Nat} (y : BitVec n) {lo k : Nat}

theorem getLsbD_placed_of_lt (h : k < lo) : (y.setWidth 64 <<< lo).getLsbD k = false := by simp [h]
theorem getLsbD_placed_of_ge (h : lo + n ≤ k) : (y.setWidth 64 <<< lo).getLsbD k = false := by
  simp [BitVec.getLsbD_of_ge y (k - lo) (by omega)]
theorem getLsbD_placed (h : lo + k < 64) : (y.setWidth 64 <<< lo).getLsbD (lo + k) = y.getLsbD k := by
  simp [h]
end

/-- Operand fields stand below FN (R65, R66). -/
theorem SWord.bits_getLsbD_of_ge (w : SWord) {k : Nat} (h : 52 ≤ k) : w.bits.getLsbD k = false := by
  have himm : (w.imm.setWidth 64).getLsbD k = false := by simp [BitVec.getLsbD_of_ge w.imm k (by omega)]
  simp only [SWord.bits, BitVec.getLsbD_or, himm, Bool.or_false]
  rw [getLsbD_placed_of_ge _ (by omega), getLsbD_placed_of_ge _ (by omega), getLsbD_placed_of_ge _ (by omega),
    getLsbD_placed_of_ge _ (by omega), getLsbD_placed_of_ge _ (by omega), getLsbD_placed_of_ge _ (by omega),
    getLsbD_placed_of_ge _ (by omega)]
  rfl

/-- OPC of a word put together (R65). -/
theorem field_opc_of_bits (opc fn : Nat) (w : SWord) : field (opBits opc fn ||| w.bits) 56 8 = BitVec.ofNat 8 opc := by
  ext j hj
  rw [BitVec.getElem_extractLsb', BitVec.getLsbD_or, w.bits_getLsbD_of_ge (by omega), opBits, BitVec.getLsbD_or,
    getLsbD_placed _ (by omega), getLsbD_placed_of_ge _ (by omega), Bool.or_false, Bool.or_false, BitVec.getLsbD_eq_getElem hj]
/-- FN of a word put together (R65). -/
theorem field_fn_of_bits (opc fn : Nat) (w : SWord) : field (opBits opc fn ||| w.bits) 52 4 = BitVec.ofNat 4 fn := by
  ext j hj
  rw [BitVec.getElem_extractLsb', BitVec.getLsbD_or, w.bits_getLsbD_of_ge (by omega), opBits, BitVec.getLsbD_or,
    getLsbD_placed_of_lt _ (by omega), getLsbD_placed _ (by omega), Bool.false_or, Bool.or_false, BitVec.getLsbD_eq_getElem hj]

theorem SWord.ofBits_eq_some_iff {x : Word} {w : SWord} : SWord.ofBits x = some w ↔
    ftOfCode (field x 49 3).toNat = w.ft ∧ Rm.ofCode (field x 46 3).toNat = some w.rm ∧ Pred.ofCode (field x 43 3).toNat = some w.pm
    ∧ Src.ofCode (field x 37 6).toNat = some w.a ∧ Src.ofCode (field x 31 6).toNat = some w.b
    ∧ Src.ofCode (field x 25 6).toNat = some w.c ∧ Dst.ofCode (field x 20 5).toNat = some w.d ∧ field x 0 20 = w.imm := by
  cases w
  simp only [SWord.ofBits, Option.pure_def, Option.bind_eq_bind, Option.bind_eq_some_iff, Option.some.injEq, SWord.mk.injEq]
  constructor
  · rintro ⟨rm, hrm, pm, hpm, a, ha, b, hb, c, hc, d, hd, hft, rfl, rfl, rfl, rfl, rfl, rfl, himm⟩
    exact ⟨hft, hrm, hpm, ha, hb, hc, hd, himm⟩
  · rintro ⟨hft, hrm, hpm, ha, hb, hc, hd, himm⟩
    exact ⟨_, hrm, _, hpm, _, ha, _, hb, _, hc, _, hd, hft, rfl, rfl, rfl, rfl, rfl, rfl, himm⟩

/-! ### The table of OPC and FN -/

/-- A match on literals is a chain of tests: what each side of a test gives, the test gives. -/
theorem imp_of_dite {α : Type} {c : Prop} {_ : Decidable c} {t : c → α} {e : ¬ c → α} {x : α} {q : Prop}
    (ht : ∀ h, t h = x → q) (he : ∀ h, e h = x → q) : dite c t e = x → q := by
  by_cases h : c
  · rw [dif_pos h]; exact ht h
  · rw [dif_neg h]; exact he h

/-- A row of the table whose FN is the code of a condition, a pair or an operation. -/
theorem encodeStage_of_coded {γ : Type} {ofCode : Nat → Option γ} {code : γ → Nat} {mk : γ → SWord → Instr} {opc fn : Nat}
    {w : SWord} {i : Instr} (hcode : ∀ {n c}, ofCode n = some c → code c = n)
    (hmk : ∀ c, encodeStage (mk c w) = some (opBits opc (code c) ||| w.bits)) (h : (ofCode fn).map (mk · w) = some i) :
    encodeStage i = some (opBits opc fn ||| w.bits) := by
  obtain ⟨c, hc, rfl⟩ := Option.map_eq_some_iff.mp h
  rw [hmk, hcode hc]

-- `stageOf` has too many rows for `split`; with `smartUnfolding` off, `refine` sees its match as the chain of tests it is.
set_option smartUnfolding false in
/-- The encoder writes the OPC and FN under which the table reads an instruction (R74): a case per OPC, and in each a case per FN. Rows
that name one instruction hold by computation; the rest follow in the table's order. -/
theorem encodeStage_of_stageOf {opc fn : Nat} {w : SWord} {i : Instr} :
    stageOf opc fn w = some i → encodeStage i = some (opBits opc fn ||| w.bits) := by
  repeat' refine imp_of_dite (c := opc = _) ?_ fun _ => ?_
  all_goals try rintro rfl
  all_goals repeat' refine imp_of_dite (c := fn = _) ?_ fun _ => ?_
  all_goals try rintro rfl
  all_goals intro h
  any_goals (cases h <;> rfl)
  · exact encodeStage_of_coded FCond.code_of_ofCode (fun _ => rfl) h
  · exact encodeStage_of_coded ICond.code_of_ofCode (fun _ => rfl) h
  · exact encodeStage_of_coded Pair.code_of_ofCode (fun _ => rfl) h
  · exact encodeStage_of_coded RedOp.code_of_ofCode (fun _ => rfl) h
  · exact encodeStage_of_coded ScanOp.code_of_ofCode (fun _ => rfl) h
  · change (if bitAt w.imm 0 then some (Instr.gnoiseNoise w) else some (Instr.gnoiseKey w)) = some i at h
    split at h <;> cases h <;> rfl

/-- OPC 0x7B has the one row of WAITX (R240). -/
theorem eq_waitx_of_stageOf {fn : Nat} {w : SWord} {i : Instr} (h : stageOf 0x7B fn w = some i) : i = .waitx w := by
  cases fn with
  | zero => exact (Option.some.inj h).symm
  | succ n => cases h

/-! ### Decoding -/

theorem decodeStage_eq_ok_iff {x : Word} {i : Instr} : decodeStage x = .ok i ↔
    ∃ w, SWord.ofBits x = some w ∧ stageOf (opcOf x) (fnOf x) w = some i ∧ wfStage i = true := by
  unfold decodeStage
  cases hw : SWord.ofBits x with
  | none => simp
  | some w =>
    cases hi : stageOf (opcOf x) (fnOf x) w with
    | none => simp [hi]
    | some j =>
      simp only [Option.some.injEq, exists_eq_left', hi]
      by_cases hj : wfStage j = true
      · simp only [hj, if_true, Except.ok.injEq]
        exact ⟨fun h => ⟨h, h ▸ hj⟩, And.left⟩
      · simp only [hj, if_false, reduceCtorEq, false_iff]
        exact fun ⟨h, hi⟩ => hj (h ▸ hi)

/-- A word decodes only to an instruction that is encoded under the word's OPC and FN. -/
theorem field_opc_fn_of_decodeStage {x y : Word} {i : Instr} (h : decodeStage x = .ok i) (hy : encodeStage i = some y) :
    field x 56 8 = field y 56 8 ∧ field x 52 4 = field y 52 4 := by
  obtain ⟨w, -, hi, -⟩ := decodeStage_eq_ok_iff.mp h
  obtain rfl : opBits (opcOf x) (fnOf x) ||| w.bits = y := Option.some.inj ((encodeStage_of_stageOf hi).symm.trans hy)
  rw [field_opc_of_bits, field_fn_of_bits, opcOf, fnOf, BitVec.ofNat_toNat, BitVec.ofNat_toNat, BitVec.setWidth_eq, BitVec.setWidth_eq]
  exact ⟨rfl, rfl⟩

/-! ### Legal words of NOP and WAITX -/

/-- Every bit of IMM20 stands outside an empty mask (R66). -/
theorem and_not_noMask (x : BitVec 20) : x &&& 0xFFFFF#20 = x := BitVec.and_allOnes
theorem Dst.isNowhere_iff {d : Dst} : d.isNowhere = true ↔ d = .nowhere := by cases d <;> simp [Dst.isNowhere]

theorem SWord.hasImm_of_zero {w : SWord} (ha : w.a = .zero) (hb : w.b = .zero) (hc : w.c = .zero) : w.hasImm = false := by
  simp [SWord.hasImm, ha, hb, hc]
theorem wfStage_nop_iff {w : SWord} : wfStage (.nop w) = true ↔
    w.a = .zero ∧ w.b = .zero ∧ w.c = .zero ∧ w.d = .nowhere ∧ w.imm = 0 := by
  simp only [wfStage, sform, sExtra, Dst.isNowhere_iff, Bool.and_eq_true, Bool.false_or, beq_iff_eq, and_assoc, and_true]
  refine and_congr_right fun ha => and_congr_right fun hb => and_congr_right fun hc => ?_
  simp [SWord.hasImm_of_zero ha hb hc, and_not_noMask, and_comm]
theorem wfStage_waitx_iff {w : SWord} : wfStage (.waitx w) = true ↔
    w.b = .zero ∧ w.c = .zero ∧ (w.hasImm = false → w.imm = 0) := by
  simp only [wfStage, sform, sExtra, Bool.and_eq_true, Bool.true_or, Bool.false_or, beq_iff_eq, and_assoc, and_true, true_and]
  cases w.hasImm <;> simp [and_not_noMask]

end Sys2Proof
end

section
/-! PROOF. NOP and WAITX in a stage (R218, R240): their words, the word of a reset slot, and what they commit. -/

namespace Sys2Proof.Machine
open Sys2Proof.Slice0

/-! ### Their words -/

/-- The fields that make a word under OPC 0x1F a NOP (R218). -/
def NopFields (x : Word) : Prop :=
  field x 37 6 = 0x0E#6 ∧ field x 31 6 = 0x0E#6 ∧ field x 25 6 = 0x0E#6 ∧ field x 20 5 = 0x07#5 ∧ field x 0 20 = 0#20

/-- Under OPC 0x1F and FN 0 a word decodes to a NOP, or to nothing. -/
theorem decodeStage_nop_opc {x : Word} {i : Instr} (hopc : field x 56 8 = 0x1F#8) (hfn : field x 52 4 = 0#4) : decodeStage x = .ok i ↔
    ∃ w, SWord.ofBits x = some w ∧ i = .nop w ∧ wfStage (.nop w) = true := by
  have row : ∀ w, stageOf (opcOf x) (fnOf x) w = some (.nop w) := fun w => by rw [opcOf, fnOf, hopc, hfn]; rfl
  simp only [decodeStage_eq_ok_iff, row, Option.some.injEq]
  refine exists_congr fun w => and_congr_right fun _ => ?_
  constructor <;> (rintro ⟨rfl, hwf⟩; exact ⟨rfl, hwf⟩)

/-- A decoded word is a legal NOP exactly where its fields are those of R218. -/
theorem wfStage_nop_iff_fields {x : Word} {w : SWord} (hw : SWord.ofBits x = some w) : wfStage (.nop w) = true ↔ NopFields x := by
  obtain ⟨-, -, -, ha, hb, hc, hd, himm⟩ := SWord.ofBits_eq_some_iff.mp hw
  simp only [NopFields, wfStage_nop_iff, ← Src.ofCode_eq_zero_iff, ← Dst.ofCode_eq_nowhere_iff, ha, hb, hc, hd, himm, Option.some.injEq]
  rfl

/-- Fields of a NOP with assigned codes of RM and PM are the operands of some word (R66). -/
theorem NopFields.exists_ofBits {x : Word} (h : NopFields x) (hrm : (field x 46 3).toNat ≠ 7) (hpm : (field x 43 3).toNat < 6) :
    ∃ w, SWord.ofBits x = some w := by
  obtain ⟨ha, hb, hc, hd, -⟩ := h
  obtain ⟨rm, hrm⟩ := Rm.exists_ofCode (n := (field x 46 3).toNat) (by omega)
  obtain ⟨pm, hpm⟩ := Pred.exists_ofCode hpm
  exact ⟨⟨_, rm, pm, .zero, .zero, .zero, .nowhere, _⟩, SWord.ofBits_eq_some_iff.mpr ⟨rfl, hrm, hpm,
    (Src.ofCode_eq_zero_iff _).mpr ha, (Src.ofCode_eq_zero_iff _).mpr hb, (Src.ofCode_eq_zero_iff _).mpr hc,
    (Dst.ofCode_eq_nowhere_iff _).mpr hd, rfl⟩⟩

/-- Slots of a VPE before its configuration stream hold NOP (R218). -/
theorem slotWord_reset (k : EKey) (i : Nat) : slotWord (vpeCfg State.reset k) i = nopWord := by
  change ((List.replicate 6 nopWord)[i]?).getD nopWord = nopWord
  rw [List.getElem?_replicate]
  split <;> rfl

theorem fields_of_decodeStage_waitx {x : Word} {w : SWord} (h : decodeStage x = .ok (.waitx w)) :
    field x 56 8 = 0x7B#8 ∧ field x 52 4 = 0#4 ∧ field x 31 6 = 0x0E#6 ∧ field x 25 6 = 0x0E#6 := by
  obtain ⟨hopc, hfn⟩ := field_opc_fn_of_decodeStage h rfl
  rw [field_opc_of_bits] at hopc
  rw [field_fn_of_bits] at hfn
  obtain ⟨v, hv, hi, hwf⟩ := decodeStage_eq_ok_iff.mp h
  obtain rfl : w = v := Instr.waitx.inj (eq_waitx_of_stageOf (by rwa [opcOf, hopc] at hi))
  obtain ⟨-, -, -, -, hb, hc, -, -⟩ := SWord.ofBits_eq_some_iff.mp hv
  obtain ⟨hwb, hwc, -⟩ := wfStage_waitx_iff.mp hwf
  exact ⟨hopc, hfn, (Src.ofCode_eq_zero_iff _).mp (hwb ▸ hb), (Src.ofCode_eq_zero_iff _).mp (hwc ▸ hc)⟩

/-! ### What they commit -/

theorem laneRule_nop (w : SWord) : LaneRule (.nop w) w (fun _ _ => quietly 0) SEnv.v false :=
  fun _ _ he free => lanewise_committed he free rfl

/-- A stage whose environment stands finishes as one without memory runs. -/
theorem finishStage_eq_runStage {i : Instr} {w : SWord} {s : State} {e : SEnv} (h : stageEnv s i w = some e) (body : SEnv → SOut) :
    finishStage s e (body e) = runStage i w s body := by
  unfold runStage
  rw [h]
  rfl

/-- WAITX of a firing whose launch stands (R240). -/
theorem exec_waitx {w : SWord} {s : State} {e : SEnv} {l : Launch} (h : stageEnv s (.waitx w) w = some e)
    (hl : launchOf s e.f.launch = some l) : exec (.waitx w) s =
      if l.ex.gen = field (e.a 0) 0 16 then stay s else finishStage s e (e.plain fun _ => l.ex.gen.setWidth 32) := by
  change execWaitx w s = _
  unfold execWaitx
  rw [h]
  simp only [hl]

/-- A generation other than the one awaited is the firing's result (R240). -/
theorem exec_waitx_swapped {w : SWord} {s : State} {e : SEnv} {l : Launch} (h : stageEnv s (.waitx w) w = some e)
    (hl : launchOf s e.f.launch = some l) (hgen : l.ex.gen ≠ field (e.a 0) 0 16) (hp : ∀ p ∈ portsOf w.d, outBurst e.cfg p = 1) :
    ∃ t, exec (.waitx w) s = .next t ∧ LaneDone s t e (fun _ => quietly (l.ex.gen.setWidth 32)) e.v false e.f.tag := by
  obtain ⟨-, -, -, -, hw⟩ := stageEnv_some h
  have free : LaneFree s e fun _ => quietly (l.ex.gen.setWidth 32) := ⟨hw ▸ hp, .inl fun _ _ _ => rfl⟩
  rw [exec_waitx h hl, if_neg hgen, finishStage_eq_runStage h fun e => e.plain fun _ => l.ex.gen.setWidth 32]
  exact lanewise_committed h free rfl

/-- The generation awaited holds the firing (R240). -/
theorem exec_waitx_waits {w : SWord} {s : State} {e : SEnv} {l : Launch} (h : stageEnv s (.waitx w) w = some e)
    (hl : launchOf s e.f.launch = some l) (hgen : l.ex.gen = field (e.a 0) 0 16) : exec (.waitx w) s = .next s := by
  rw [exec_waitx h hl, if_pos hgen]
  rfl

/-! ### The statements -/

/-- Settles O7: OPC and FN select NOP alone, its fields are what a legal word of it has, and it commits 0 in every lane. -/
theorem stageNop : Obligations.StageNop := by
  unfold Obligations.StageNop
  refine ⟨fun x i hopc hfn h => ?_, fun x hopc hfn hnop hrm hpm => ?_, fun x w h => ?_, laneRule_nop, slotWord_reset⟩
  · obtain ⟨w, hw, rfl, hwf⟩ := (decodeStage_nop_opc hopc hfn).mp h
    exact ⟨(wfStage_nop_iff_fields hw).mp hwf, w, rfl⟩
  · obtain ⟨w, hw⟩ := NopFields.exists_ofBits hnop hrm hpm
    exact ⟨w, (decodeStage_nop_opc hopc hfn).mpr ⟨w, hw, rfl, (wfStage_nop_iff_fields hw).mpr hnop⟩⟩
  · have := field_opc_fn_of_decodeStage h rfl
    rwa [field_opc_of_bits, field_fn_of_bits] at this

/-- Settles O16: the decoder's row of WAITX, and the two sides of its test of GEN. -/
theorem stageExchangeWait : Obligations.StageExchangeWait := by
  unfold Obligations.StageExchangeWait
  refine ⟨fun x w => fields_of_decodeStage_waitx, fun x i hopc h => ?_, fun w => wfStage_waitx_iff,
    fun w s e l h hl => ⟨exec_waitx_swapped h hl, exec_waitx_waits h hl⟩⟩
  obtain ⟨w, -, hi, -⟩ := decodeStage_eq_ok_iff.mp h
  exact ⟨w, eq_waitx_of_stageOf (by rwa [opcOf, hopc] at hi)⟩

end Sys2Proof.Machine
end
